-- ==== Sys2Proof/Word.lean ====
section
/-! DEFINITION. The word types of the MK68000 (rules R3, R20, R104): bytes, words, long words and the three operand sizes. -/

namespace Sys2Proof

/-- Eight bits (rule R3). -/
abbrev Byte := BitVec 8
/-- Sixteen bits: the operation word, extension words, one bus cycle (rule R3). -/
abbrev Word := BitVec 16
/-- Thirty-two bits: registers, addresses, long operands (rule R3). -/
abbrev Long := BitVec 32
/-- A register number field (rule R105). -/
abbrev Reg := Fin 8

/-- The three operand sizes of rule R104. -/
inductive Size where
  | byte
  | word
  | long
  deriving DecidableEq, Repr

end Sys2Proof
end

