-- ==== Sys2Proof/Config.lean ====
section
/-! DEFINITION. What the spec leaves open as a VALUE: the draws `any(N)` of 00_scope section 6.3, and what a device of the platform returns. Neither constant has a body, so nothing can be proved about which value comes out (log 5, log 14). -/

namespace Sys2Proof

/-- The `n`-th free value of a run. `any(N)` of the spec is the low `N` bits of one of them (log 5; decisions D6, D7, D14, D15, D24). -/
opaque Config.free (n : Nat) : Long

/-- What a device answers to a read cycle: it depends on how many free values have been drawn, on the function code and on the bus address (log 14; rules R61, R80, decision D12). -/
opaque Config.device (n : Nat) (fc : BitVec 3) (address : Nat) : Word

end Sys2Proof
end

