-- ==== Sys2Proof/Syntax.lean ====
section
/-! DEFINITION. The syntax of MK68000 instructions: effective addresses (rules R108, R124), conditions (rule R125), branch displacements (rule R106) and `Instr`, one constructor for each row of spec/opcode_table.json. Extension words are part of the instruction (rule R100), so an `Instr` carries them. -/

namespace Sys2Proof

/-- The index extension word of rule R124: which register, how much of it, and the 8-bit displacement. -/
structure Index where
  /-- Bit 15: false for `D[reg]`, true for `A[reg]`. -/
  isAddr : Bool
  /-- Bits 14:12. -/
  reg : Reg
  /-- Bit 11: false for the sign-extended low word, true for all 32 bits. -/
  isLong : Bool
  /-- Bits 7:0. -/
  d8 : Byte
  deriving DecidableEq, Repr

/-- The twelve addressing modes of rule R108, with the contents of their extension words. -/
inductive Ea where
  /-- `Dn`. -/
  | dn (r : Reg)
  /-- `An`. -/
  | an (r : Reg)
  /-- `(An)`. -/
  | ind (r : Reg)
  /-- `(An)+`. -/
  | postInc (r : Reg)
  /-- `-(An)`. -/
  | preDec (r : Reg)
  /-- `d16(An)`. -/
  | disp (r : Reg) (d : Word)
  /-- `d8(An,Xn)`. -/
  | index (r : Reg) (x : Index)
  /-- `xxx.W`. -/
  | absW (a : Word)
  /-- `xxx.L`. -/
  | absL (a : Long)
  /-- `d16(PC)`. -/
  | pcDisp (d : Word)
  /-- `d8(PC,Xn)`. -/
  | pcIndex (x : Index)
  /-- `#xxx`: the operand, in its low 8, 16 or 32 bits (rule R121). -/
  | imm (v : Long)
  deriving DecidableEq, Repr

/-- The sixteen conditions of rule R125, in the order of their codes. -/
inductive Cond where
  | t
  | f
  | hi
  | ls
  | cc
  | cs
  | ne
  | eq
  | vc
  | vs
  | pl
  | mi
  | ge
  | lt
  | gt
  | le
  deriving DecidableEq, Repr

/-- The displacement of Bcc, BRA and BSR (rule R106): in the operation word when it is not zero there, else in an extension word. -/
inductive BrDisp where
  | short (d : Byte)
  | word (d : Word)
  deriving DecidableEq, Repr

/-- One constructor for each row of spec/opcode_table.json, in the table's order. `long` is a one-bit size field (false: word, true: long); `mem` is the `m` field of rule R131 (true: the `-(Ay),-(Ax)` form); `byReg` is the `i` field of rule R270 (true: the count is in a data register). -/
inductive Instr where
  | ori (sz : Size) (imm : Long) (ea : Ea)
  | andi (sz : Size) (imm : Long) (ea : Ea)
  | subi (sz : Size) (imm : Long) (ea : Ea)
  | addi (sz : Size) (imm : Long) (ea : Ea)
  | eori (sz : Size) (imm : Long) (ea : Ea)
  | cmpi (sz : Size) (imm : Long) (ea : Ea)
  | oriToCcr (imm : Byte)
  | oriToSr (imm : Word)
  | andiToCcr (imm : Byte)
  | andiToSr (imm : Word)
  | eoriToCcr (imm : Byte)
  | eoriToSr (imm : Word)
  | btstStatic (bit : Byte) (ea : Ea)
  | btstDynamic (dn : Reg) (ea : Ea)
  | bchgStatic (bit : Byte) (ea : Ea)
  | bchgDynamic (dn : Reg) (ea : Ea)
  | bclrStatic (bit : Byte) (ea : Ea)
  | bclrDynamic (dn : Reg) (ea : Ea)
  | bsetStatic (bit : Byte) (ea : Ea)
  | bsetDynamic (dn : Reg) (ea : Ea)
  | movep (toMem : Bool) (long : Bool) (dn : Reg) (an : Reg) (d : Word)
  | moveB (src : Ea) (dst : Ea)
  | moveW (src : Ea) (dst : Ea)
  | moveaW (src : Ea) (an : Reg)
  | moveL (src : Ea) (dst : Ea)
  | moveaL (src : Ea) (an : Reg)
  | negx (sz : Size) (ea : Ea)
  | clr (sz : Size) (ea : Ea)
  | neg (sz : Size) (ea : Ea)
  | not (sz : Size) (ea : Ea)
  | tst (sz : Size) (ea : Ea)
  | moveFromSr (ea : Ea)
  | moveToCcr (ea : Ea)
  | moveToSr (ea : Ea)
  | chk (dn : Reg) (ea : Ea)
  | lea (an : Reg) (ea : Ea)
  | nbcd (ea : Ea)
  | swap (dn : Reg)
  | pea (ea : Ea)
  | extW (dn : Reg)
  | extL (dn : Reg)
  | movemToMem (long : Bool) (mask : Word) (ea : Ea)
  | movemToRegs (long : Bool) (mask : Word) (ea : Ea)
  | tas (ea : Ea)
  | trap (vector : BitVec 4)
  | link (an : Reg) (d : Word)
  | unlk (an : Reg)
  | moveToUsp (an : Reg)
  | moveFromUsp (an : Reg)
  | reset
  | nop
  | stop (imm : Word)
  | rte
  | rts
  | trapv
  | rtr
  | jsr (ea : Ea)
  | jmp (ea : Ea)
  | addq (data : Reg) (sz : Size) (ea : Ea)
  | subq (data : Reg) (sz : Size) (ea : Ea)
  | scc (cond : Cond) (ea : Ea)
  | dbcc (cond : Cond) (dn : Reg) (d : Word)
  | bra (d : BrDisp)
  | bsr (d : BrDisp)
  | bcc (cond : Cond) (d : BrDisp)
  | moveq (dn : Reg) (data : Byte)
  | orToReg (sz : Size) (dn : Reg) (ea : Ea)
  | orToMem (sz : Size) (dn : Reg) (ea : Ea)
  | divu (dn : Reg) (ea : Ea)
  | divs (dn : Reg) (ea : Ea)
  | sbcd (mem : Bool) (rx : Reg) (ry : Reg)
  | subToReg (sz : Size) (dn : Reg) (ea : Ea)
  | subToMem (sz : Size) (dn : Reg) (ea : Ea)
  | suba (long : Bool) (an : Reg) (ea : Ea)
  | subx (sz : Size) (mem : Bool) (rx : Reg) (ry : Reg)
  | cmp (sz : Size) (dn : Reg) (ea : Ea)
  | cmpa (long : Bool) (an : Reg) (ea : Ea)
  | eor (sz : Size) (dn : Reg) (ea : Ea)
  | cmpm (sz : Size) (ax : Reg) (ay : Reg)
  | andToReg (sz : Size) (dn : Reg) (ea : Ea)
  | andToMem (sz : Size) (dn : Reg) (ea : Ea)
  | mulu (dn : Reg) (ea : Ea)
  | muls (dn : Reg) (ea : Ea)
  | abcd (mem : Bool) (rx : Reg) (ry : Reg)
  | exgDD (rx : Reg) (ry : Reg)
  | exgAA (rx : Reg) (ry : Reg)
  | exgDA (rx : Reg) (ry : Reg)
  | addToReg (sz : Size) (dn : Reg) (ea : Ea)
  | addToMem (sz : Size) (dn : Reg) (ea : Ea)
  | adda (long : Bool) (an : Reg) (ea : Ea)
  | addx (sz : Size) (mem : Bool) (rx : Reg) (ry : Reg)
  | asrReg (sz : Size) (byReg : Bool) (count : Reg) (dn : Reg)
  | asrMem (ea : Ea)
  | aslReg (sz : Size) (byReg : Bool) (count : Reg) (dn : Reg)
  | aslMem (ea : Ea)
  | lsrReg (sz : Size) (byReg : Bool) (count : Reg) (dn : Reg)
  | lsrMem (ea : Ea)
  | lslReg (sz : Size) (byReg : Bool) (count : Reg) (dn : Reg)
  | lslMem (ea : Ea)
  | roxrReg (sz : Size) (byReg : Bool) (count : Reg) (dn : Reg)
  | roxrMem (ea : Ea)
  | roxlReg (sz : Size) (byReg : Bool) (count : Reg) (dn : Reg)
  | roxlMem (ea : Ea)
  | rorReg (sz : Size) (byReg : Bool) (count : Reg) (dn : Reg)
  | rorMem (ea : Ea)
  | rolReg (sz : Size) (byReg : Bool) (count : Reg) (dn : Reg)
  | rolMem (ea : Ea)
  | line1010 (low : BitVec 12)
  | line1111 (low : BitVec 12)
  deriving DecidableEq, Repr

end Sys2Proof
end

