-- ==== Sys2Proof/WellFormed.lean ====
section
/-! DEFINITION. When an `Instr` is the meaning of some instruction words: the addressing categories of rule R109, the operand category of each instruction (rule R132), immediates that fit their size (rule R121), and the displacement forms of rule R106. -/

namespace Sys2Proof

/-- Column "Data" of rule R109. -/
def Ea.isData : Ea → Bool
  | .an _ => false
  | _ => true

/-- Column "Memory" of rule R109. -/
def Ea.isMemory : Ea → Bool
  | .dn _ | .an _ => false
  | _ => true

/-- Column "Control" of rule R109. -/
def Ea.isControl : Ea → Bool
  | .ind _ | .disp _ _ | .index _ _ | .absW _ | .absL _ | .pcDisp _ | .pcIndex _ => true
  | _ => false

/-- Column "Alterable" of rule R109. -/
def Ea.isAlterable : Ea → Bool
  | .pcDisp _ | .pcIndex _ | .imm _ => false
  | _ => true

/-- Data alterable: the categories combined as rule R109 says. -/
def Ea.isDataAlterable (ea : Ea) : Bool := ea.isData && ea.isAlterable
/-- Memory alterable. -/
def Ea.isMemoryAlterable (ea : Ea) : Bool := ea.isMemory && ea.isAlterable
/-- Control alterable. -/
def Ea.isControlAlterable (ea : Ea) : Bool := ea.isControl && ea.isAlterable

/-- `An` is no operand of byte size (rules R22, R111). -/
def Ea.sizeOk (sz : Size) : Ea → Bool
  | .an _ => sz != .byte
  | _ => true

/-- The destinations of MOVEM from registers: control alterable and `-(An)` (rule R132). -/
def Ea.isMovemDst : Ea → Bool
  | .preDec _ => true
  | ea => ea.isControlAlterable

/-- The sources of MOVEM to registers: control and `(An)+` (rule R132). -/
def Ea.isMovemSrc : Ea → Bool
  | .postInc _ => true
  | ea => ea.isControl

/-- Static BTST: data modes but the immediate (rule R132). -/
def Ea.isDataNoImm : Ea → Bool
  | .imm _ => false
  | ea => ea.isData

/-- An operand of size `sz` held in 32 bits has no bit above that size. -/
def Size.fits (sz : Size) (v : Long) : Bool :=
  match sz with
  | .byte => v.toNat < 2 ^ 8
  | .word => v.toNat < 2 ^ 16
  | .long => true

/-- The immediate of an effective address fits the operand size (rule R121). -/
def Ea.fits (sz : Size) : Ea → Bool
  | .imm v => sz.fits v
  | _ => true

/-- Word or long, from a one-bit size field (rule R104). -/
def sizeOfBit (long : Bool) : Size := if long then .long else .word

/-- A displacement in the operation word is not zero (rule R106). -/
def BrDisp.wf : BrDisp → Bool
  | .short d => d != 0
  | .word _ => true

/-- Which terms are instructions: the categories of rule R132 and the operand forms of rules R104 to R106 and R121. -/
def Instr.wf : Instr → Bool
  | .ori sz v ea | .andi sz v ea | .subi sz v ea | .addi sz v ea | .eori sz v ea | .cmpi sz v ea =>
      sz.fits v && ea.isDataAlterable
  | .btstStatic _ ea => ea.isDataNoImm
  | .btstDynamic _ ea => ea.isData && ea.fits .byte
  | .bchgStatic _ ea | .bchgDynamic _ ea | .bclrStatic _ ea | .bclrDynamic _ ea | .bsetStatic _ ea
  | .bsetDynamic _ ea => ea.isDataAlterable
  | .moveB src dst => src.sizeOk .byte && src.fits .byte && dst.isDataAlterable
  | .moveW src dst => src.fits .word && dst.isDataAlterable
  | .moveL _ dst => dst.isDataAlterable
  | .moveaW src _ => src.fits .word
  | .negx _ ea | .clr _ ea | .neg _ ea | .not _ ea | .tst _ ea | .moveFromSr ea | .nbcd ea | .tas ea
  | .scc _ ea | .eor _ _ ea => ea.isDataAlterable
  | .moveToCcr ea | .moveToSr ea | .chk _ ea | .divu _ ea | .divs _ ea | .mulu _ ea | .muls _ ea =>
      ea.isData && ea.fits .word
  | .lea _ ea | .pea ea | .jsr ea | .jmp ea => ea.isControl
  | .movemToMem _ _ ea => ea.isMovemDst
  | .movemToRegs _ _ ea => ea.isMovemSrc
  | .addq _ sz ea | .subq _ sz ea => ea.isAlterable && ea.sizeOk sz
  | .bra d | .bsr d => d.wf
  | .bcc c d => c != .t && c != .f && d.wf
  | .orToReg sz _ ea | .andToReg sz _ ea => ea.isData && ea.fits sz
  | .addToReg sz _ ea | .subToReg sz _ ea | .cmp sz _ ea => ea.sizeOk sz && ea.fits sz
  | .orToMem _ _ ea | .andToMem _ _ ea | .addToMem _ _ ea | .subToMem _ _ ea => ea.isMemoryAlterable
  | .adda long _ ea | .suba long _ ea | .cmpa long _ ea => ea.fits (sizeOfBit long)
  | .asrMem ea | .aslMem ea | .lsrMem ea | .lslMem ea | .roxrMem ea | .roxlMem ea | .rorMem ea
  | .rolMem ea => ea.isMemoryAlterable
  | .oriToCcr _ | .oriToSr _ | .andiToCcr _ | .andiToSr _ | .eoriToCcr _ | .eoriToSr _ => true
  | .movep _ _ _ _ _ | .moveaL _ _ | .swap _ | .extW _ | .extL _ | .trap _ | .link _ _ | .unlk _ => true
  | .moveToUsp _ | .moveFromUsp _ | .reset | .nop | .stop _ | .rte | .rts | .trapv | .rtr => true
  | .dbcc _ _ _ | .moveq _ _ | .sbcd _ _ _ | .subx _ _ _ _ | .cmpm _ _ _ | .abcd _ _ _ => true
  | .exgDD _ _ | .exgAA _ _ | .exgDA _ _ | .addx _ _ _ _ => true
  | .asrReg _ _ _ _ | .aslReg _ _ _ _ | .lsrReg _ _ _ _ | .lslReg _ _ _ _ => true
  | .roxrReg _ _ _ _ | .roxlReg _ _ _ _ | .rorReg _ _ _ _ | .rolReg _ _ _ _ => true
  | .line1010 _ | .line1111 _ => true

end Sys2Proof
end

