-- ==== Sys2Proof/Decode.lean ====
section
/-! DEFINITION. Decoding of instruction words (rules R100 to R108, R121, R124, R130 to R132, R150 to R153, opcode_table.json), total, refusing by name, and after it the encoder, written from the same tables. The operation word is read as a number `w` below 65536; `w / 2^k % 2^n` is its field of `n` bits from bit `k` up. -/

namespace Sys2Proof

/-- Why no instruction is read. -/
inductive DecodeError where
  /-- The operation word is in no row of the opcode table: an illegal instruction (rule R150). -/
  | illegal
  /-- The words end before the instruction does. Safe: the machine always gives the longest instruction's five words. -/
  | truncated
  deriving DecidableEq, Repr

/-- A decoded part of an instruction and the words after it. -/
abbrev Decoded (α : Type) := Except DecodeError (α × List Word)

/-- The register number in bits `k + 2` to `k` (rule R105). -/
def regAt (w k : Nat) : Reg := Fin.ofNat 8 (w / 2 ^ k)

/-- The index extension word (rule R124); bits 10:8 are ignored (rule R153). -/
def decodeIndex (x : Word) : Index :=
  { isAddr := x.getLsbD 15, reg := regAt x.toNat 12, isLong := x.getLsbD 11, d8 := x.setWidth 8 }

/-- The immediate operand of size `sz` (rule R121): for a byte, the low byte of its word (rule R153). -/
def decodeImm (sz : Size) (xs : List Word) : Decoded Long :=
  match sz, xs with
  | .byte, x :: rest => .ok ((x.setWidth 8).setWidth 32, rest)
  | .word, x :: rest => .ok (x.setWidth 32, rest)
  | .long, hi :: lo :: rest => .ok (hi ++ lo, rest)
  | _, _ => .error .truncated

/-- The effective address of a 6-bit field, mode above register (rule R108), with its extension words. -/
def decodeEa (sz : Size) (field : Nat) (xs : List Word) : Decoded Ea :=
  let r := regAt field 0
  match field / 8 % 8 with
  | 0 => .ok (.dn r, xs)
  | 1 => .ok (.an r, xs)
  | 2 => .ok (.ind r, xs)
  | 3 => .ok (.postInc r, xs)
  | 4 => .ok (.preDec r, xs)
  | 5 =>
    match xs with
    | d :: rest => .ok (.disp r d, rest)
    | [] => .error .truncated
  | 6 =>
    match xs with
    | x :: rest => .ok (.index r (decodeIndex x), rest)
    | [] => .error .truncated
  | _ =>
    match field % 8, xs with
    | 0, a :: rest => .ok (.absW a, rest)
    | 1, hi :: lo :: rest => .ok (.absL (hi ++ lo), rest)
    | 2, d :: rest => .ok (.pcDisp d, rest)
    | 3, x :: rest => .ok (.pcIndex (decodeIndex x), rest)
    | 4, xs =>
      match decodeImm sz xs with
      | .ok (v, rest) => .ok (.imm v, rest)
      | .error e => .error e
    | 5, _ | 6, _ | 7, _ => .error .illegal
    | _, _ => .error .truncated

/-- The instruction `mk ea` for the effective address in bits 5:0, if the instruction allows it (rules R132, R150). -/
def withEa (w : Nat) (sz : Size) (allowed : Ea → Bool) (mk : Ea → Instr) (xs : List Word) : Decoded Instr :=
  match decodeEa sz (w % 64) xs with
  | .ok (ea, rest) => if allowed ea then .ok (mk ea, rest) else .error .illegal
  | .error e => .error e

/-- The instruction that a single extension word completes. -/
def withWord (mk : Word → Instr) : List Word → Decoded Instr
  | x :: rest => .ok (mk x, rest)
  | [] => .error .truncated

/-- An instruction whose own extension word comes before those of its effective address (rule R102). -/
def withWordEa (w : Nat) (sz : Size) (allowed : Ea → Bool) (mk : Word → Ea → Instr) :
    List Word → Decoded Instr
  | x :: rest => withEa w sz allowed (mk x) rest
  | [] => .error .truncated

/-- An instruction whose immediate comes before the extension words of its effective address (rule R102). -/
def withImmEa (w : Nat) (sz : Size) (mk : Long → Ea → Instr) (xs : List Word) : Decoded Instr :=
  match decodeImm sz xs with
  | .ok (v, rest) => withEa w sz Ea.isDataAlterable (mk v) rest
  | .error e => .error e

/-- The standard size field (rule R104); 11 is not a size. -/
def withSize (field : Nat) (k : Size → Decoded Instr) : Decoded Instr :=
  match field with
  | 0 => k .byte
  | 1 => k .word
  | 2 => k .long
  | _ => .error .illegal

/-- The conditions by their codes (rule R125). -/
def condOfCode (n : Nat) : Cond :=
  match n with
  | 0 => .t
  | 1 => .f
  | 2 => .hi
  | 3 => .ls
  | 4 => .cc
  | 5 => .cs
  | 6 => .ne
  | 7 => .eq
  | 8 => .vc
  | 9 => .vs
  | 10 => .pl
  | 11 => .mi
  | 12 => .ge
  | 13 => .lt
  | 14 => .gt
  | _ => .le

/-- Line 0000: immediates, bit manipulation, MOVEP (rules R131, R150). -/
def decodeLine0 (w : Nat) (xs : List Word) : Decoded Instr :=
  if w = 0x003C then withWord (fun x => .oriToCcr (x.setWidth 8)) xs
  else if w = 0x007C then withWord .oriToSr xs
  else if w = 0x023C then withWord (fun x => .andiToCcr (x.setWidth 8)) xs
  else if w = 0x027C then withWord .andiToSr xs
  else if w = 0x0A3C then withWord (fun x => .eoriToCcr (x.setWidth 8)) xs
  else if w = 0x0A7C then withWord .eoriToSr xs
  else if w / 256 % 2 = 1 then
    if w / 8 % 8 = 1 then
      withWord (.movep (w / 128 % 2 = 1) (w / 64 % 2 = 1) (regAt w 9) (regAt w 0)) xs
    else
      match w / 64 % 4 with
      | 0 => withEa w .byte Ea.isData (.btstDynamic (regAt w 9)) xs
      | 1 => withEa w .byte Ea.isDataAlterable (.bchgDynamic (regAt w 9)) xs
      | 2 => withEa w .byte Ea.isDataAlterable (.bclrDynamic (regAt w 9)) xs
      | _ => withEa w .byte Ea.isDataAlterable (.bsetDynamic (regAt w 9)) xs
  else
    match w / 512 % 8 with
    | 0 => withSize (w / 64 % 4) fun sz => withImmEa w sz (.ori sz) xs
    | 1 => withSize (w / 64 % 4) fun sz => withImmEa w sz (.andi sz) xs
    | 2 => withSize (w / 64 % 4) fun sz => withImmEa w sz (.subi sz) xs
    | 3 => withSize (w / 64 % 4) fun sz => withImmEa w sz (.addi sz) xs
    | 4 =>
      match w / 64 % 4 with
      | 0 => withWordEa w .byte Ea.isDataNoImm (fun x => .btstStatic (x.setWidth 8)) xs
      | 1 => withWordEa w .byte Ea.isDataAlterable (fun x => .bchgStatic (x.setWidth 8)) xs
      | 2 => withWordEa w .byte Ea.isDataAlterable (fun x => .bclrStatic (x.setWidth 8)) xs
      | _ => withWordEa w .byte Ea.isDataAlterable (fun x => .bsetStatic (x.setWidth 8)) xs
    | 5 => withSize (w / 64 % 4) fun sz => withImmEa w sz (.eori sz) xs
    | 6 => withSize (w / 64 % 4) fun sz => withImmEa w sz (.cmpi sz) xs
    | _ => .error .illegal

/-- MOVE (rule R160): the source's extension words, then the destination's, whose field has its register above its mode. -/
def decodeMove (w : Nat) (sz : Size) (mk : Ea → Ea → Instr) (xs : List Word) : Decoded Instr :=
  match decodeEa sz (w % 64) xs with
  | .error e => .error e
  | .ok (src, rest) =>
    if src.sizeOk sz then
      match decodeEa sz (w / 64 % 8 * 8 + w / 512 % 8) rest with
      | .error e => .error e
      | .ok (dst, rest') => if dst.isDataAlterable then .ok (mk src dst, rest') else .error .illegal
    else .error .illegal

/-- Lines 0010 and 0011: MOVE, and MOVEA where the destination mode is 001 (rule R161). -/
def decodeMoveOrMovea (w : Nat) (sz : Size) (mk : Ea → Ea → Instr) (mkA : Ea → Reg → Instr)
    (xs : List Word) : Decoded Instr :=
  if w / 64 % 8 = 1 then withEa w sz (fun _ => true) (fun ea => mkA ea (regAt w 9)) xs
  else decodeMove w sz mk xs

/-- Words 0100 1110 01xx xxxx: TRAP, LINK, UNLK, MOVE USP and the fixed words (rule R131). -/
def decodeFixed (w : Nat) (xs : List Word) : Decoded Instr :=
  match w / 8 % 8 with
  | 0 => .ok (.trap (BitVec.ofNat 4 w), xs)
  | 1 => .ok (.trap (BitVec.ofNat 4 w), xs)
  | 2 => withWord (.link (regAt w 0)) xs
  | 3 => .ok (.unlk (regAt w 0), xs)
  | 4 => .ok (.moveToUsp (regAt w 0), xs)
  | 5 => .ok (.moveFromUsp (regAt w 0), xs)
  | 6 =>
    match w % 8 with
    | 0 => .ok (.reset, xs)
    | 1 => .ok (.nop, xs)
    | 2 => withWord .stop xs
    | 3 => .ok (.rte, xs)
    | 5 => .ok (.rts, xs)
    | 6 => .ok (.trapv, xs)
    | 7 => .ok (.rtr, xs)
    | _ => .error .illegal
  | _ => .error .illegal

/-- Line 0100: miscellaneous (rules R131, R150). -/
def decodeLine4 (w : Nat) (xs : List Word) : Decoded Instr :=
  if w / 256 % 2 = 1 then
    match w / 64 % 4 with
    | 2 => withEa w .word Ea.isData (.chk (regAt w 9)) xs
    | 3 => withEa w .long Ea.isControl (.lea (regAt w 9)) xs
    | _ => .error .illegal
  else
    match w / 512 % 8 with
    | 0 =>
      if w / 64 % 4 = 3 then withEa w .word Ea.isDataAlterable .moveFromSr xs
      else withSize (w / 64 % 4) fun sz => withEa w sz Ea.isDataAlterable (.negx sz) xs
    | 1 => withSize (w / 64 % 4) fun sz => withEa w sz Ea.isDataAlterable (.clr sz) xs
    | 2 =>
      if w / 64 % 4 = 3 then withEa w .word Ea.isData .moveToCcr xs
      else withSize (w / 64 % 4) fun sz => withEa w sz Ea.isDataAlterable (.neg sz) xs
    | 3 =>
      if w / 64 % 4 = 3 then withEa w .word Ea.isData .moveToSr xs
      else withSize (w / 64 % 4) fun sz => withEa w sz Ea.isDataAlterable (.not sz) xs
    | 4 =>
      match w / 64 % 4 with
      | 0 => withEa w .byte Ea.isDataAlterable .nbcd xs
      | 1 => if w / 8 % 8 = 0 then .ok (.swap (regAt w 0), xs) else withEa w .long Ea.isControl .pea xs
      | 2 =>
        if w / 8 % 8 = 0 then .ok (.extW (regAt w 0), xs)
        else withWordEa w .word Ea.isMovemDst (.movemToMem false) xs
      | _ =>
        if w / 8 % 8 = 0 then .ok (.extL (regAt w 0), xs)
        else withWordEa w .long Ea.isMovemDst (.movemToMem true) xs
    | 5 =>
      if w / 64 % 4 = 3 then withEa w .byte Ea.isDataAlterable .tas xs
      else withSize (w / 64 % 4) fun sz => withEa w sz Ea.isDataAlterable (.tst sz) xs
    | 6 =>
      match w / 64 % 4 with
      | 2 => withWordEa w .word Ea.isMovemSrc (.movemToRegs false) xs
      | 3 => withWordEa w .long Ea.isMovemSrc (.movemToRegs true) xs
      | _ => .error .illegal
    | _ =>
      match w / 64 % 4 with
      | 1 => decodeFixed w xs
      | 2 => withEa w .long Ea.isControl .jsr xs
      | 3 => withEa w .long Ea.isControl .jmp xs
      | _ => .error .illegal

/-- Line 0101: ADDQ, SUBQ, Scc, DBcc. -/
def decodeLine5 (w : Nat) (xs : List Word) : Decoded Instr :=
  if w / 64 % 4 = 3 then
    if w / 8 % 8 = 1 then withWord (.dbcc (condOfCode (w / 256 % 16)) (regAt w 0)) xs
    else withEa w .byte Ea.isDataAlterable (.scc (condOfCode (w / 256 % 16))) xs
  else
    withSize (w / 64 % 4) fun sz =>
      withEa w sz (fun ea => ea.isAlterable && ea.sizeOk sz)
        (if w / 256 % 2 = 0 then .addq (regAt w 9) sz else .subq (regAt w 9) sz) xs

/-- The displacement of Bcc, BRA, BSR (rule R106). -/
def withDisp (w : Nat) (mk : BrDisp → Instr) (xs : List Word) : Decoded Instr :=
  if w % 256 = 0 then withWord (fun x => mk (.word x)) xs else .ok (mk (.short (BitVec.ofNat 8 w)), xs)

/-- Line 0110: BRA, BSR, Bcc. -/
def decodeLine6 (w : Nat) (xs : List Word) : Decoded Instr :=
  match w / 256 % 16 with
  | 0 => withDisp w .bra xs
  | 1 => withDisp w .bsr xs
  | n => withDisp w (.bcc (condOfCode n)) xs

/-- A `<ea> op Dn` or `Dn op <ea>` instruction by bit 8 (FMT_REG_EA of rule R131). -/
def decodeDir (w : Nat) (srcOk : Size → Ea → Bool) (toReg toMem : Size → Reg → Ea → Instr)
    (xs : List Word) : Decoded Instr :=
  withSize (w / 64 % 4) fun sz =>
    if w / 256 % 2 = 0 then withEa w sz (srcOk sz) (toReg sz (regAt w 9)) xs
    else withEa w sz Ea.isMemoryAlterable (toMem sz (regAt w 9)) xs

/-- Line 1000: OR, DIVU, DIVS, SBCD. -/
def decodeLine8 (w : Nat) (xs : List Word) : Decoded Instr :=
  if w / 64 % 8 = 3 then withEa w .word Ea.isData (.divu (regAt w 9)) xs
  else if w / 64 % 8 = 7 then withEa w .word Ea.isData (.divs (regAt w 9)) xs
  else if w / 16 % 32 = 16 then .ok (.sbcd (w / 8 % 2 = 1) (regAt w 9) (regAt w 0), xs)
  else decodeDir w (fun _ => Ea.isData) .orToReg .orToMem xs

/-- Lines 1001 and 1101: SUB or ADD, the address form and the extended form. -/
def decodeAddSub (w : Nat) (toReg toMem : Size → Reg → Ea → Instr) (mkA : Bool → Reg → Ea → Instr)
    (mkX : Size → Bool → Reg → Reg → Instr) (xs : List Word) : Decoded Instr :=
  if w / 64 % 4 = 3 then
    withEa w (sizeOfBit (w / 256 % 2 = 1)) (fun _ => true) (mkA (w / 256 % 2 = 1) (regAt w 9)) xs
  else if w / 256 % 2 = 1 ∧ w / 16 % 4 = 0 then
    withSize (w / 64 % 4) fun sz => .ok (mkX sz (w / 8 % 2 = 1) (regAt w 9) (regAt w 0), xs)
  else decodeDir w Ea.sizeOk toReg toMem xs

/-- Line 1011: CMP, CMPA, CMPM, EOR. -/
def decodeLineB (w : Nat) (xs : List Word) : Decoded Instr :=
  if w / 64 % 4 = 3 then
    withEa w (sizeOfBit (w / 256 % 2 = 1)) (fun _ => true) (.cmpa (w / 256 % 2 = 1) (regAt w 9)) xs
  else
    withSize (w / 64 % 4) fun sz =>
      if w / 256 % 2 = 0 then withEa w sz (Ea.sizeOk sz) (.cmp sz (regAt w 9)) xs
      else if w / 8 % 8 = 1 then .ok (.cmpm sz (regAt w 9) (regAt w 0), xs)
      else withEa w sz Ea.isDataAlterable (.eor sz (regAt w 9)) xs

/-- Line 1100: AND, MULU, MULS, ABCD, EXG. -/
def decodeLineC (w : Nat) (xs : List Word) : Decoded Instr :=
  if w / 64 % 8 = 3 then withEa w .word Ea.isData (.mulu (regAt w 9)) xs
  else if w / 64 % 8 = 7 then withEa w .word Ea.isData (.muls (regAt w 9)) xs
  else if w / 16 % 32 = 16 then .ok (.abcd (w / 8 % 2 = 1) (regAt w 9) (regAt w 0), xs)
  else if w / 8 % 64 = 40 then .ok (.exgDD (regAt w 9) (regAt w 0), xs)
  else if w / 8 % 64 = 41 then .ok (.exgAA (regAt w 9) (regAt w 0), xs)
  else if w / 8 % 64 = 49 then .ok (.exgDA (regAt w 9) (regAt w 0), xs)
  else decodeDir w (fun _ => Ea.isData) .andToReg .andToMem xs

/-- Line 1110: shifts and rotates, memory form and register form (rule R270). -/
def decodeLineE (w : Nat) (xs : List Word) : Decoded Instr :=
  if w / 64 % 4 = 3 then
    match w / 256 % 16 with
    | 0 => withEa w .word Ea.isMemoryAlterable .asrMem xs
    | 1 => withEa w .word Ea.isMemoryAlterable .aslMem xs
    | 2 => withEa w .word Ea.isMemoryAlterable .lsrMem xs
    | 3 => withEa w .word Ea.isMemoryAlterable .lslMem xs
    | 4 => withEa w .word Ea.isMemoryAlterable .roxrMem xs
    | 5 => withEa w .word Ea.isMemoryAlterable .roxlMem xs
    | 6 => withEa w .word Ea.isMemoryAlterable .rorMem xs
    | 7 => withEa w .word Ea.isMemoryAlterable .rolMem xs
    | _ => .error .illegal
  else
    withSize (w / 64 % 4) fun sz =>
      let byReg : Bool := w / 32 % 2 = 1
      match w / 8 % 4, w / 256 % 2 with
      | 0, 0 => .ok (.asrReg sz byReg (regAt w 9) (regAt w 0), xs)
      | 0, _ => .ok (.aslReg sz byReg (regAt w 9) (regAt w 0), xs)
      | 1, 0 => .ok (.lsrReg sz byReg (regAt w 9) (regAt w 0), xs)
      | 1, _ => .ok (.lslReg sz byReg (regAt w 9) (regAt w 0), xs)
      | 2, 0 => .ok (.roxrReg sz byReg (regAt w 9) (regAt w 0), xs)
      | 2, _ => .ok (.roxlReg sz byReg (regAt w 9) (regAt w 0), xs)
      | _, 0 => .ok (.rorReg sz byReg (regAt w 9) (regAt w 0), xs)
      | _, _ => .ok (.rolReg sz byReg (regAt w 9) (regAt w 0), xs)

/-- The instruction of an operation word and the words after it, by the sixteen groups of rule R130. -/
def decodeOp (w : Nat) (xs : List Word) : Decoded Instr :=
  match w / 4096 % 16 with
  | 0 => decodeLine0 w xs
  | 1 => decodeMove w .byte .moveB xs
  | 2 => decodeMoveOrMovea w .long .moveL .moveaL xs
  | 3 => decodeMoveOrMovea w .word .moveW .moveaW xs
  | 4 => decodeLine4 w xs
  | 5 => decodeLine5 w xs
  | 6 => decodeLine6 w xs
  | 7 =>
    if w / 256 % 2 = 0 then .ok (.moveq (regAt w 9) (BitVec.ofNat 8 w), xs) else .error .illegal
  | 8 => decodeLine8 w xs
  | 9 => decodeAddSub w .subToReg .subToMem .suba .subx xs
  | 10 => .ok (.line1010 (BitVec.ofNat 12 w), xs)
  | 11 => decodeLineB w xs
  | 12 => decodeLineC w xs
  | 13 => decodeAddSub w .addToReg .addToMem .adda .addx xs
  | 14 => decodeLineE w xs
  | _ => .ok (.line1111 (BitVec.ofNat 12 w), xs)

/-- The first instruction of a list of instruction words, and the words after it. -/
def decode : List Word → Decoded Instr
  | [] => .error .truncated
  | w :: xs => decodeOp w.toNat xs

/-- The words of a string of bytes, the high byte of a word first (rules R64, R100); a byte left over is dropped. -/
def wordsOfBytes : List Byte → List Word
  | hi :: lo :: rest => (hi ++ lo) :: wordsOfBytes rest
  | _ => []

/-- The first instruction of a string of bytes, and the words after it. -/
def decodeBytes (bs : List Byte) : Decoded Instr := decode (wordsOfBytes bs)

/-- The bytes in memory of the five words whose bits are `w`, the first word in the low 16 bits; every bit from `nbits` on is 0. -/
def bytesOfTableWord (nbits w : Nat) : List Byte :=
  let v := w % 2 ^ nbits
  [0, 1, 2, 3, 4].flatMap fun k =>
    [BitVec.ofNat 8 (v / 2 ^ (16 * k + 8)), BitVec.ofNat 8 (v / 2 ^ (16 * k))]

/-- The instruction the decoder reads from an instruction whose bits are `w`, numbered as the opcode table numbers them. -/
def decodeTableWord (nbits w : Nat) : Option Instr :=
  match decodeBytes (bytesOfTableWord nbits w) with
  | .ok (i, _) => some i
  | .error _ => none

/-! The encoder. -/

/-- The code of a condition (rule R125). -/
def Cond.code : Cond → Nat
  | .t => 0
  | .f => 1
  | .hi => 2
  | .ls => 3
  | .cc => 4
  | .cs => 5
  | .ne => 6
  | .eq => 7
  | .vc => 8
  | .vs => 9
  | .pl => 10
  | .mi => 11
  | .ge => 12
  | .lt => 13
  | .gt => 14
  | .le => 15

/-- The standard size field (rule R104). -/
def Size.code : Size → Nat
  | .byte => 0
  | .word => 1
  | .long => 2

/-- A one-bit field. -/
def bitCode (b : Bool) : Nat := if b then 1 else 0

/-- The index extension word (rule R124), its ignored bits 0. -/
def encodeIndex (x : Index) : Word :=
  BitVec.ofNat 16 (bitCode x.isAddr * 32768 + x.reg.val * 4096 + bitCode x.isLong * 2048 + x.d8.toNat)

/-- The mode number of an effective address (rule R108). -/
def Ea.modeCode : Ea → Nat
  | .dn _ => 0
  | .an _ => 1
  | .ind _ => 2
  | .postInc _ => 3
  | .preDec _ => 4
  | .disp _ _ => 5
  | .index _ _ => 6
  | _ => 7

/-- The register number of an effective address (rule R108). -/
def Ea.regCode : Ea → Nat
  | .dn r | .an r | .ind r | .postInc r | .preDec r | .disp r _ | .index r _ => r.val
  | .absW _ => 0
  | .absL _ => 1
  | .pcDisp _ => 2
  | .pcIndex _ => 3
  | .imm _ => 4

/-- The 6-bit field, mode above register. -/
def Ea.field (ea : Ea) : Nat := ea.modeCode * 8 + ea.regCode

/-- The two words of a long word, the high-order one first (rules R118, R121). -/
def wordsOfLong (v : Long) : List Word := [v.extractLsb' 16 16, v.extractLsb' 0 16]

/-- The words of an immediate operand of size `sz` (rule R121), the ignored byte 0. -/
def encodeImm (sz : Size) (v : Long) : List Word :=
  match sz with
  | .byte => [(v.setWidth 8).setWidth 16]
  | .word => [v.setWidth 16]
  | .long => wordsOfLong v

/-- The extension words of an effective address (rule R108). -/
def Ea.ext (sz : Size) : Ea → List Word
  | .disp _ d => [d]
  | .index _ x => [encodeIndex x]
  | .absW a => [a]
  | .absL a => wordsOfLong a
  | .pcDisp d => [d]
  | .pcIndex x => [encodeIndex x]
  | .imm v => encodeImm sz v
  | _ => []

/-- An operation word from its number. -/
def opWord (n : Nat) : Word := BitVec.ofNat 16 n

/-- An operation word with an effective address in bits 5:0, and its extension words. -/
def encodeEa (base : Nat) (sz : Size) (ea : Ea) : List Word := opWord (base + ea.field) :: ea.ext sz

/-- Operation word, own extension word, effective address (rule R102). -/
def encodeWordEa (base : Nat) (x : Word) (sz : Size) (ea : Ea) : List Word :=
  opWord (base + ea.field) :: x :: ea.ext sz

/-- Operation word, immediate, effective address (FMT_IMM_EA). -/
def encodeImmEa (base : Nat) (sz : Size) (v : Long) (ea : Ea) : List Word :=
  opWord (base + sz.code * 64 + ea.field) :: (encodeImm sz v ++ ea.ext sz)

/-- MOVE: source field in bits 5:0, destination register in bits 11:9 and mode in bits 8:6 (rule R160). -/
def encodeMove (base : Nat) (sz : Size) (src dst : Ea) : List Word :=
  opWord (base + dst.regCode * 512 + dst.modeCode * 64 + src.field) :: (src.ext sz ++ dst.ext sz)

/-- Bcc, BRA, BSR (FMT_BRANCH). -/
def encodeBranch (code : Nat) : BrDisp → List Word
  | .short d => [opWord (0x6000 + code * 256 + d.toNat)]
  | .word d => [opWord (0x6000 + code * 256), d]

/-- FMT_REG_EA with a size field and direction bit. -/
def encodeDir (base : Nat) (toMem : Bool) (sz : Size) (dn : Reg) (ea : Ea) : List Word :=
  encodeEa (base + dn.val * 512 + bitCode toMem * 256 + sz.code * 64) sz ea

/-- FMT_REG_EA with the address opmode `s11`. -/
def encodeAddr (base : Nat) (long : Bool) (an : Reg) (ea : Ea) : List Word :=
  encodeEa (base + an.val * 512 + bitCode long * 256 + 0xC0) (sizeOfBit long) ea

/-- FMT_RXRY. -/
def encodeRxRy (base : Nat) (mem : Bool) (rx ry : Reg) : List Word :=
  [opWord (base + rx.val * 512 + bitCode mem * 8 + ry.val)]

/-- FMT_SHIFT_REG. -/
def encodeShift (left : Bool) (kind : Nat) (sz : Size) (byReg : Bool) (count dn : Reg) : List Word :=
  [opWord (0xE000 + count.val * 512 + bitCode left * 256 + sz.code * 64 + bitCode byReg * 32 + kind * 8 + dn.val)]

/-- The words of an instruction, from the formats of rule R131. -/
def encode : Instr → List Word
  | .ori sz v ea => encodeImmEa 0x0000 sz v ea
  | .andi sz v ea => encodeImmEa 0x0200 sz v ea
  | .subi sz v ea => encodeImmEa 0x0400 sz v ea
  | .addi sz v ea => encodeImmEa 0x0600 sz v ea
  | .eori sz v ea => encodeImmEa 0x0A00 sz v ea
  | .cmpi sz v ea => encodeImmEa 0x0C00 sz v ea
  | .oriToCcr b => [opWord 0x003C, b.setWidth 16]
  | .oriToSr x => [opWord 0x007C, x]
  | .andiToCcr b => [opWord 0x023C, b.setWidth 16]
  | .andiToSr x => [opWord 0x027C, x]
  | .eoriToCcr b => [opWord 0x0A3C, b.setWidth 16]
  | .eoriToSr x => [opWord 0x0A7C, x]
  | .btstStatic b ea => encodeWordEa 0x0800 (b.setWidth 16) .byte ea
  | .btstDynamic dn ea => encodeEa (0x0100 + dn.val * 512) .byte ea
  | .bchgStatic b ea => encodeWordEa 0x0840 (b.setWidth 16) .byte ea
  | .bchgDynamic dn ea => encodeEa (0x0140 + dn.val * 512) .byte ea
  | .bclrStatic b ea => encodeWordEa 0x0880 (b.setWidth 16) .byte ea
  | .bclrDynamic dn ea => encodeEa (0x0180 + dn.val * 512) .byte ea
  | .bsetStatic b ea => encodeWordEa 0x08C0 (b.setWidth 16) .byte ea
  | .bsetDynamic dn ea => encodeEa (0x01C0 + dn.val * 512) .byte ea
  | .movep toMem long dn an d =>
      [opWord (0x0108 + dn.val * 512 + bitCode toMem * 128 + bitCode long * 64 + an.val), d]
  | .moveB src dst => encodeMove 0x1000 .byte src dst
  | .moveW src dst => encodeMove 0x3000 .word src dst
  | .moveaW src an => encodeEa (0x3040 + an.val * 512) .word src
  | .moveL src dst => encodeMove 0x2000 .long src dst
  | .moveaL src an => encodeEa (0x2040 + an.val * 512) .long src
  | .negx sz ea => encodeEa (0x4000 + sz.code * 64) sz ea
  | .clr sz ea => encodeEa (0x4200 + sz.code * 64) sz ea
  | .neg sz ea => encodeEa (0x4400 + sz.code * 64) sz ea
  | .not sz ea => encodeEa (0x4600 + sz.code * 64) sz ea
  | .tst sz ea => encodeEa (0x4A00 + sz.code * 64) sz ea
  | .moveFromSr ea => encodeEa 0x40C0 .word ea
  | .moveToCcr ea => encodeEa 0x44C0 .word ea
  | .moveToSr ea => encodeEa 0x46C0 .word ea
  | .chk dn ea => encodeEa (0x4180 + dn.val * 512) .word ea
  | .lea an ea => encodeEa (0x41C0 + an.val * 512) .long ea
  | .nbcd ea => encodeEa 0x4800 .byte ea
  | .swap dn => [opWord (0x4840 + dn.val)]
  | .pea ea => encodeEa 0x4840 .long ea
  | .extW dn => [opWord (0x4880 + dn.val)]
  | .extL dn => [opWord (0x48C0 + dn.val)]
  | .movemToMem long mask ea => encodeWordEa (0x4880 + bitCode long * 64) mask (sizeOfBit long) ea
  | .movemToRegs long mask ea => encodeWordEa (0x4C80 + bitCode long * 64) mask (sizeOfBit long) ea
  | .tas ea => encodeEa 0x4AC0 .byte ea
  | .trap v => [opWord (0x4E40 + v.toNat)]
  | .link an d => [opWord (0x4E50 + an.val), d]
  | .unlk an => [opWord (0x4E58 + an.val)]
  | .moveToUsp an => [opWord (0x4E60 + an.val)]
  | .moveFromUsp an => [opWord (0x4E68 + an.val)]
  | .reset => [opWord 0x4E70]
  | .nop => [opWord 0x4E71]
  | .stop x => [opWord 0x4E72, x]
  | .rte => [opWord 0x4E73]
  | .rts => [opWord 0x4E75]
  | .trapv => [opWord 0x4E76]
  | .rtr => [opWord 0x4E77]
  | .jsr ea => encodeEa 0x4E80 .long ea
  | .jmp ea => encodeEa 0x4EC0 .long ea
  | .addq q sz ea => encodeEa (0x5000 + q.val * 512 + sz.code * 64) sz ea
  | .subq q sz ea => encodeEa (0x5100 + q.val * 512 + sz.code * 64) sz ea
  | .scc c ea => encodeEa (0x50C0 + c.code * 256) .byte ea
  | .dbcc c dn d => [opWord (0x50C8 + c.code * 256 + dn.val), d]
  | .bra d => encodeBranch 0 d
  | .bsr d => encodeBranch 1 d
  | .bcc c d => encodeBranch c.code d
  | .moveq dn d => [opWord (0x7000 + dn.val * 512 + d.toNat)]
  | .orToReg sz dn ea => encodeDir 0x8000 false sz dn ea
  | .orToMem sz dn ea => encodeDir 0x8000 true sz dn ea
  | .divu dn ea => encodeEa (0x80C0 + dn.val * 512) .word ea
  | .divs dn ea => encodeEa (0x81C0 + dn.val * 512) .word ea
  | .sbcd mem rx ry => encodeRxRy 0x8100 mem rx ry
  | .subToReg sz dn ea => encodeDir 0x9000 false sz dn ea
  | .subToMem sz dn ea => encodeDir 0x9000 true sz dn ea
  | .suba long an ea => encodeAddr 0x9000 long an ea
  | .subx sz mem rx ry => encodeRxRy (0x9100 + sz.code * 64) mem rx ry
  | .cmp sz dn ea => encodeDir 0xB000 false sz dn ea
  | .cmpa long an ea => encodeAddr 0xB000 long an ea
  | .eor sz dn ea => encodeDir 0xB000 true sz dn ea
  | .cmpm sz ax ay => encodeRxRy (0xB100 + sz.code * 64) true ax ay
  | .andToReg sz dn ea => encodeDir 0xC000 false sz dn ea
  | .andToMem sz dn ea => encodeDir 0xC000 true sz dn ea
  | .mulu dn ea => encodeEa (0xC0C0 + dn.val * 512) .word ea
  | .muls dn ea => encodeEa (0xC1C0 + dn.val * 512) .word ea
  | .abcd mem rx ry => encodeRxRy 0xC100 mem rx ry
  | .exgDD rx ry => encodeRxRy 0xC140 false rx ry
  | .exgAA rx ry => encodeRxRy 0xC140 true rx ry
  | .exgDA rx ry => encodeRxRy 0xC180 true rx ry
  | .addToReg sz dn ea => encodeDir 0xD000 false sz dn ea
  | .addToMem sz dn ea => encodeDir 0xD000 true sz dn ea
  | .adda long an ea => encodeAddr 0xD000 long an ea
  | .addx sz mem rx ry => encodeRxRy (0xD100 + sz.code * 64) mem rx ry
  | .asrReg sz i c dn => encodeShift false 0 sz i c dn
  | .asrMem ea => encodeEa 0xE0C0 .word ea
  | .aslReg sz i c dn => encodeShift true 0 sz i c dn
  | .aslMem ea => encodeEa 0xE1C0 .word ea
  | .lsrReg sz i c dn => encodeShift false 1 sz i c dn
  | .lsrMem ea => encodeEa 0xE2C0 .word ea
  | .lslReg sz i c dn => encodeShift true 1 sz i c dn
  | .lslMem ea => encodeEa 0xE3C0 .word ea
  | .roxrReg sz i c dn => encodeShift false 2 sz i c dn
  | .roxrMem ea => encodeEa 0xE4C0 .word ea
  | .roxlReg sz i c dn => encodeShift true 2 sz i c dn
  | .roxlMem ea => encodeEa 0xE5C0 .word ea
  | .rorReg sz i c dn => encodeShift false 3 sz i c dn
  | .rorMem ea => encodeEa 0xE6C0 .word ea
  | .rolReg sz i c dn => encodeShift true 3 sz i c dn
  | .rolMem ea => encodeEa 0xE7C0 .word ea
  | .line1010 x => [opWord (0xA000 + x.toNat)]
  | .line1111 x => [opWord (0xF000 + x.toNat)]

end Sys2Proof
end

