-- ==== Sys2Proof/Machine/State.lean ====
section
/-! DEFINITION. The state of the machine as plain data (10_state rules R20 to R53, 20_memory rules R60 to R69), the inputs it reads, the reasons a step can stop, and the state right after reset (rule R51). What acts on it is in Machine/Ops.lean. -/

namespace Sys2Proof.Machine

/-- The implemented bits of the status register (rules R35, R36). The unimplemented bits hold no state. -/
structure Sr where
  /-- Bit 15, trace (rule R39). -/
  t : Bool
  /-- Bit 13, supervisor (rule R40). -/
  s : Bool
  /-- Bits 10:8, interrupt priority mask (rule R41). -/
  i : BitVec 3
  /-- Bit 4, extend (rule R38). -/
  x : Bool
  /-- Bit 3, negative. -/
  n : Bool
  /-- Bit 2, zero. -/
  z : Bool
  /-- Bit 1, overflow. -/
  v : Bool
  /-- Bit 0, carry. -/
  c : Bool
  deriving DecidableEq, Repr

/-- The processing state (rules R44, R400). Exception processing lies inside a step. -/
inductive RunState where
  | normal
  | stopped
  | halted
  deriving DecidableEq, Repr

/-- The classes of a bus cycle that the processor emits (rule R61, entry U5): four address spaces, and the interrupt acknowledge, which is no memory access (rule R83). -/
inductive Space where
  /-- Function code 001. -/
  | userData
  /-- Function code 010. -/
  | userProgram
  /-- Function code 101. -/
  | supervisorData
  /-- Function code 110. -/
  | supervisorProgram
  /-- Function code 111. -/
  | interruptAcknowledge
  deriving DecidableEq, Repr

/-- The parameter `LongSplitOrder` (rule R68, decision D5; log 4). -/
inductive LongSplitOrder where
  /-- The word at the lower address first, always. -/
  | lowAddressFirst
  /-- The same, but the low-order word first in `-(An)` destination writes and pushes. -/
  | family
  deriving DecidableEq, Repr

/-- How the platform answers a read cycle (rule R78). -/
inductive ReadReply where
  /-- DTACK, with the bytes held there. -/
  | memory
  /-- DTACK, with a value the platform's device chooses (log 14). -/
  | device
  /-- BERR. -/
  | busError
  /-- Nothing, ever. -/
  | noReply
  deriving DecidableEq, Repr

/-- How the platform answers a write cycle (rule R78). -/
inductive WriteReply where
  /-- DTACK, and the bytes are stored. -/
  | memory
  /-- DTACK, and no memory changes: a ROM, or a device (log 14). -/
  | absorb
  /-- BERR. -/
  | busError
  /-- Nothing, ever. -/
  | noReply
  deriving DecidableEq, Repr

/-- A range of bus addresses whose cycles do not simply reach memory (rules R78, R82; decisions D12, D19; log 13). -/
structure Region where
  /-- First bus address. -/
  base : Nat
  /-- Number of bytes. -/
  size : Nat
  /-- Whether it answers in user data space. -/
  ud : Bool
  /-- Whether it answers in user program space. -/
  up : Bool
  /-- Whether it answers in supervisor data space. -/
  sd : Bool
  /-- Whether it answers in supervisor program space. -/
  sp : Bool
  /-- Whether it answers byte cycles. -/
  bytes : Bool
  /-- Whether it answers word cycles. -/
  words : Bool
  /-- What a read cycle gets. -/
  onRead : ReadReply
  /-- What a write cycle gets. -/
  onWrite : WriteReply
  deriving DecidableEq, Repr

/-- A range of bus addresses at which some spaces select another bank (rule R485: a platform may decode the reset vector differently from the rest of the table; log 13). -/
structure Mapping where
  /-- First bus address. -/
  base : Nat
  /-- Number of bytes. -/
  size : Nat
  /-- Whether it holds in user data space. -/
  ud : Bool
  /-- Whether it holds in user program space. -/
  up : Bool
  /-- Whether it holds in supervisor data space. -/
  sd : Bool
  /-- Whether it holds in supervisor program space. -/
  sp : Bool
  /-- The bank that it selects. -/
  bank : Fin 4
  deriving DecidableEq, Repr

/-- The parameters `Platform` and `BusOutcome` (rules R4, R61, R69, R78; decisions D12, D19; log 13): which bank of 2^24 bytes each address of each space selects, the first mapping that covers it before the bank of the space, and the regions that answer otherwise; the first region that covers a cycle answers it, and memory answers every other cycle. A word cycle is answered as a whole, by what its even address selects, also where its two bytes are of different kinds (log 42). -/
structure Platform where
  userData : Fin 4
  userProgram : Fin 4
  supervisorData : Fin 4
  supervisorProgram : Fin 4
  mappings : List Mapping
  regions : List Region
  deriving DecidableEq, Repr

/-- The parameter `IackResponse` (rule R424, decision D17). -/
inductive IackResponse where
  /-- DTACK with the data bus; the vector number is on D7 to D0. -/
  | vector (data : BitVec 16)
  /-- DTACK with what a device puts on the data bus (log 14). -/
  | device
  /-- VPA. -/
  | autovector
  /-- BERR: a spurious interrupt (rule R426). -/
  | busError
  /-- Nothing, ever. -/
  | noReply
  deriving DecidableEq, Repr

/-- What the world outside does at one instruction boundary (rules R404, R420, R424, R480; log 15, 16). -/
structure Sample where
  /-- RESET and HALT both asserted (rule R481). -/
  reset : Bool
  /-- The interrupt level encoded on IPL2 to IPL0 (rule R420). -/
  ipl : BitVec 3
  /-- The answer to an interrupt acknowledge cycle. -/
  iack : IackResponse
  /-- The bytes other bus masters write before this boundary, by memory key. -/
  dma : List Host.Cell
  deriving DecidableEq, Repr

/-- The pins when nothing happens outside (log 15). -/
def Sample.quiet : Sample := { reset := false, ipl := 0, iack := .autovector, dma := [] }

/-- What external logic does to one bus cycle (rules R78, R438, decision D19). -/
inductive CycleReply where
  /-- Nothing: the platform answers as its data say. -/
  | platform
  /-- BERR without HALT, whatever the platform says. -/
  | busError
  /-- No DTACK, VPA or BERR ever. -/
  | noReply
  deriving DecidableEq, Repr

/-- What the world outside does at one bus cycle of the processor: between the cycle before it and this one, and to this one (rules R4, R85, R92, R465, decisions D4, D19; log 15, 16). A read-modify-write cycle is one cycle (rules R76, R87). -/
structure Cycle where
  /-- The bytes other bus masters write before this cycle, by memory key. -/
  dma : List Host.Cell
  /-- RESET and HALT asserted before this cycle, with the level on IPL2 to IPL0. -/
  reset : Option (BitVec 3)
  /-- What happens to the cycle. -/
  reply : CycleReply
  /-- What happens to the write half of a read-modify-write cycle. -/
  second : CycleReply
  deriving DecidableEq, Repr

/-- A cycle at which nothing happens outside (log 15). -/
def Cycle.quiet : Cycle := { dma := [], reset := none, reply := .platform, second := .platform }

/-- The state of the machine. -/
structure State where
  /-- D0 to D7 (rules R20, R21). -/
  d : Vector Long 8
  /-- A0 to A6 (rules R22, R23). -/
  a : Vector Long 7
  /-- The user stack pointer (rule R24). -/
  usp : Long
  /-- The supervisor stack pointer (rule R24). -/
  ssp : Long
  /-- The program counter (rules R29, R32). -/
  pc : Long
  /-- The status register (rule R35). -/
  sr : Sr
  /-- The processing state (rule R44). -/
  run : RunState
  /-- The words already fetched (rules R45, R88): at a boundary those at `pc` and `pc + 2`; while an instruction runs, its operation word and the last word fetched. None after a transfer to an odd address, in the stopped state, and inside a step after a change of flow. -/
  queue : Option (Word × Word)
  /-- The instruction register (rule R48). -/
  ir : Word
  /-- The level seen at the previous sampling point (rules R46, R423). -/
  prevIpl : BitVec 3
  /-- The group 0 marker (rules R49, R446). -/
  inGroup0 : Bool
  /-- A group 1 exception has been processed and its handler's first instruction has not begun (rule R442; log 19). -/
  inGroup1 : Bool
  /-- A group 2 exception has been processed and its handler's first instruction has not begun (rule R404; log 19). -/
  inGroup2 : Bool
  /-- The trace pending marker (rule R53). -/
  tracePending : Bool
  /-- Memory: bytes by key, in the canonical form of `Memory.wf` (rules R60, R69; log 10). -/
  mem : List Host.Cell
  /-- The platform (rule R4; log 13). No step changes it. -/
  platform : Platform
  /-- The order of the two cycles of a long word (rule R68; log 4). No step changes it. -/
  longSplit : LongSplitOrder
  /-- The inputs still to come, one for each step (log 15). -/
  pins : List Sample
  /-- The inputs still to come, one for each bus cycle (log 15, 16). -/
  cycles : List Cycle
  /-- How often the external devices have been reset (rules R366, R480; log 27). -/
  deviceResets : Nat
  /-- How many free values have been drawn (log 5). -/
  draws : Nat
  deriving DecidableEq, Repr

/-- The reasons a step can stop with a fault. -/
inductive Fault where
  /-- A bus cycle that nothing ever ends (rule R78, decision D19: stuck). Raised by every memory cycle of instructions and exception processing. Safe: the processor waits for ever (log 17). -/
  | busNoResponse
  /-- An interrupt acknowledge cycle that nothing ever ends (rule R424, decision D17). Raised by interrupt processing. Safe: the processor waits for ever (log 17). -/
  | iackNoResponse
  deriving DecidableEq, Repr

/-- The reasons a step can be refused. -/
inductive Refusal where
  /-- No meaning is given to the instruction. Raised only by arms of `exec` that call no meaning. Safe: nothing is claimed. -/
  | notModelled (mnemonic : String)
  /-- The `Instr` term is the meaning of no instruction words (a destination that is an immediate or relative to the program counter, the address of a register). Raised by operand operations; never by a step, which runs decoded words only. Safe (log 31). -/
  | illFormed
  deriving DecidableEq, Repr

/-- The platform at reset: one memory seen in every space, all of it RAM (95_test_vectors section 3.1; log 13). -/
def Platform.flat : Platform :=
  { userData := 0, userProgram := 0, supervisorData := 0, supervisorProgram := 0, mappings := [],
    regions := [] }

/-- The status register after reset: S = 1, T = 0, I = 7 (rule R51); the condition codes, which reset does not load, are 0 (log 11). -/
def Sr.atReset : Sr :=
  { t := false, s := true, i := 7, x := false, n := false, z := false, v := false, c := false }

/-- The machine right after external reset at power-on, with nothing in memory (rules R51, R480). SSP, PC and the queue are what reset reads from that memory (log 12); registers reset does not load are 0 (log 11). -/
def State.reset : State :=
  { d := #v[0, 0, 0, 0, 0, 0, 0, 0]
    a := #v[0, 0, 0, 0, 0, 0, 0]
    usp := 0
    ssp := 0
    pc := 0
    sr := Sr.atReset
    run := .normal
    queue := some (0, 0)
    ir := 0
    prevIpl := 0
    inGroup0 := true
    inGroup1 := false
    inGroup2 := false
    tracePending := false
    mem := []
    platform := Platform.flat
    longSplit := .family
    pins := []
    cycles := []
    deviceResets := 1
    draws := 0 }

end Sys2Proof.Machine
end

