-- ==== Sys2Proof/Machine/Ops.lean ====
section
/-! DEFINITION. The named operations over state: memory in canonical form, registers, bus cycles and their ends (20_memory), free values, taking an exception in each of its groups, and the state an aborted instruction leaves (60_exceptions). -/

namespace Sys2Proof.Machine

/-! Memory (rules R60, R69; log 10). -/

/-- Memory: bytes by key. -/
abbrev Memory := List Host.Cell

/-- One more than the greatest memory key: four banks of 2^24 bytes. -/
def keyLimit : Nat := 67108864

/-- What a byte of memory that no entry lists reads as (log 10). -/
def unlisted : Byte := 0

/-- Reading the byte with key `k`. -/
def Memory.read : Memory → Nat → Byte
  | [], _ => unlisted
  | (j, b) :: m, k => if j = k then b else Memory.read m k

/-- Writing the byte with key `k`; writing what an unlisted key reads as removes the entry. -/
def Memory.write : Memory → Nat → Byte → Memory
  | [], k, b => if b = unlisted then [] else [(k, b)]
  | (j, c) :: m, k, b =>
    if k < j then (if b = unlisted then (j, c) :: m else (k, b) :: (j, c) :: m)
    else if k = j then (if b = unlisted then m else (k, b) :: m)
    else (j, c) :: Memory.write m k b

/-- The keys rise strictly from above `low`, lie below `keyLimit`, and no entry is what an unlisted key reads as. -/
def Memory.wfFrom : Nat → Memory → Bool
  | _, [] => true
  | low, (k, b) :: m => low ≤ k && k < keyLimit && b != unlisted && Memory.wfFrom (k + 1) m

/-- The canonical form of memory: equal memories are equal lists. -/
def Memory.wf (m : Memory) : Bool := Memory.wfFrom 0 m

/-- Bytes that another bus master writes, the first first (rule R92; log 16). -/
def Memory.writeAll : Memory → List Host.Cell → Memory
  | m, [] => m
  | m, (k, b) :: rest => Memory.writeAll (m.write (k % keyLimit) b) rest

/-! Addresses, spaces and the platform (rules R60 to R63, R78). -/

/-- The function code of a space (rule R61). -/
def Space.fc : Space → BitVec 3
  | .userData => 1
  | .userProgram => 2
  | .supervisorData => 5
  | .supervisorProgram => 6
  | .interruptAcknowledge => 7

/-- Whether references of this space are program references (rule R63). -/
def Space.isProgram : Space → Bool
  | .userProgram | .supervisorProgram => true
  | .userData | .supervisorData | .interruptAcknowledge => false

/-- The 24 bits of an address that reach the bus (rule R60, decision D3; log 3). -/
def busAddress (addr : Long) : Nat := addr.toNat % 16777216

/-- Whether a mapping covers an address of a space. -/
def Mapping.covers (m : Mapping) (sp : Space) (addr : Long) : Bool :=
  (match sp with
    | .userData => m.ud
    | .userProgram => m.up
    | .supervisorData => m.sd
    | .supervisorProgram => m.sp
    | .interruptAcknowledge => false) && m.base ≤ busAddress addr && busAddress addr < m.base + m.size

/-- The bank that a space selects where no mapping covers the address. No cycle of the interrupt acknowledge class reaches a bank (rule R83). -/
def Platform.spaceBank (p : Platform) : Space → Fin 4
  | .userData => p.userData
  | .userProgram => p.userProgram
  | .supervisorData | .interruptAcknowledge => p.supervisorData
  | .supervisorProgram => p.supervisorProgram

/-- The bank that an address of a space selects (rules R61, R485). -/
def Platform.bank (p : Platform) (sp : Space) (addr : Long) : Fin 4 :=
  match p.mappings.find? (fun m => m.covers sp addr) with
  | some m => m.bank
  | none => p.spaceBank sp

/-- The key of a byte: its bank and its bus address (rule R69). -/
def Platform.key (p : Platform) (sp : Space) (addr : Long) : Nat :=
  (p.bank sp addr).val * 16777216 + busAddress addr

/-- Whether a region answers in a space; interrupt acknowledge cycles have answers of their own (rule R424). -/
def Region.inSpace (r : Region) : Space → Bool
  | .userData => r.ud
  | .userProgram => r.up
  | .supervisorData => r.sd
  | .supervisorProgram => r.sp
  | .interruptAcknowledge => false

/-- Whether a region answers a byte or word cycle at an address: that of the byte, or the even one of the word, whose two bytes are then answered alike (log 42). -/
def Region.covers (r : Region) (sp : Space) (addr : Long) (word : Bool) : Bool :=
  r.inSpace sp && (if word then r.words else r.bytes) && r.base ≤ busAddress addr && busAddress addr < r.base + r.size

/-- How a read cycle ends (rule R78). -/
def Platform.readReply (p : Platform) (sp : Space) (addr : Long) (word : Bool) : ReadReply :=
  match p.regions.find? (fun r => r.covers sp addr word) with
  | some r => r.onRead
  | none => .memory

/-- How a write cycle ends (rule R78). -/
def Platform.writeReply (p : Platform) (sp : Space) (addr : Long) (word : Bool) : WriteReply :=
  match p.regions.find? (fun r => r.covers sp addr word) with
  | some r => r.onWrite
  | none => .memory

/-- The byte memory holds at an address of a space. -/
def State.byteAt (s : State) (sp : Space) (addr : Long) : Byte :=
  Memory.read s.mem (s.platform.key sp addr)

/-- The word memory holds at an even address of a space, high byte first (rule R64). -/
def State.wordAt (s : State) (sp : Space) (addr : Long) : Word :=
  s.byteAt sp addr ++ s.byteAt sp (addr + 1)

/-- The long word memory holds at an even address of a space, high-order word first (rule R65). -/
def State.longAt (s : State) (sp : Space) (addr : Long) : Long :=
  s.wordAt sp addr ++ s.wordAt sp (addr + 2)

/-- The operand of a size that memory holds at an address of a space, zero-extended. -/
def State.operandAt (s : State) (sz : Size) (sp : Space) (addr : Long) : Long :=
  match sz with
  | .byte => (s.byteAt sp addr).setWidth 32
  | .word => (s.wordAt sp addr).setWidth 32
  | .long => s.longAt sp addr

/-- Storing a byte. -/
def State.putByte (s : State) (sp : Space) (addr : Long) (b : Byte) : State :=
  { s with mem := Memory.write s.mem (s.platform.key sp addr) b }

/-- Storing a word, high byte first (rule R64). -/
def State.putWord (s : State) (sp : Space) (addr : Long) (w : Word) : State :=
  (s.putByte sp addr (w.extractLsb' 8 8)).putByte sp (addr + 1) (w.extractLsb' 0 8)

/-- The data space of the current privilege state (rules R61, R62). -/
def State.dataSpace (s : State) : Space := if s.sr.s then .supervisorData else .userData

/-- The program space of the current privilege state (rules R61, R63). -/
def State.programSpace (s : State) : Space := if s.sr.s then .supervisorProgram else .userProgram

/-! Registers (rules R20 to R26). -/

/-- Data register `r`. -/
def State.getD (s : State) (r : Reg) : Long := s.d[r]

/-- Writing all 32 bits of data register `r`. -/
def State.putD (s : State) (r : Reg) (v : Long) : State := { s with d := s.d.set r v }

/-- Address register `r`; A7 is the active stack pointer (rule R24). -/
def State.getA (s : State) (r : Reg) : Long :=
  if h : r.val < 7 then s.a[r.val] else if s.sr.s then s.ssp else s.usp

/-- Writing address register `r`; A7 is the active stack pointer (rule R24). -/
def State.putA (s : State) (r : Reg) (v : Long) : State :=
  if h : r.val < 7 then { s with a := s.a.set r.val v }
  else if s.sr.s then { s with ssp := v } else { s with usp := v }

/-- Register `R[k]` of 00_scope section 6.2: D0 to D7, then A0 to A7. -/
def State.getR (s : State) (k : Fin 16) : Long :=
  if k.val < 8 then s.getD (Fin.ofNat 8 k.val) else s.getA (Fin.ofNat 8 k.val)

/-- Writing register `R[k]`. -/
def State.putR (s : State) (k : Fin 16) (v : Long) : State :=
  if k.val < 8 then s.putD (Fin.ofNat 8 k.val) v else s.putA (Fin.ofNat 8 k.val) v

/-! The status register as a word (rules R35, R36, R344). -/

/-- The 16 bits of the status register; unimplemented bits are 0. -/
def Sr.toWord (r : Sr) : Word :=
  BitVec.ofNat 16 (bitCode r.t * 32768 + bitCode r.s * 8192 + r.i.toNat * 256 + bitCode r.x * 16 +
    bitCode r.n * 8 + bitCode r.z * 4 + bitCode r.v * 2 + bitCode r.c)

/-- The status register that writing a word leaves: unimplemented bits are discarded (rule R36). -/
def Sr.ofWord (w : Word) : Sr :=
  { t := w.getLsbD 15, s := w.getLsbD 13, i := w.extractLsb' 8 3, x := w.getLsbD 4, n := w.getLsbD 3,
    z := w.getLsbD 2, v := w.getLsbD 1, c := w.getLsbD 0 }

/-- `write_CCR`: bits 4 to 0 only (rules R36, R344). -/
def Sr.withCcr (r : Sr) (w : Word) : Sr :=
  { r with x := w.getLsbD 4, n := w.getLsbD 3, z := w.getLsbD 2, v := w.getLsbD 1, c := w.getLsbD 0 }

/-! Updates of single fields, each under a name. -/

/-- Setting the status register. -/
def State.withSr (s : State) (q : Sr) : State := { s with sr := q }

/-- Setting the supervisor stack pointer. -/
def State.withSsp (s : State) (v : Long) : State := { s with ssp := v }

/-- Setting the user stack pointer. -/
def State.withUsp (s : State) (v : Long) : State := { s with usp := v }

/-- One more free value has been drawn (log 5). -/
def State.drawn (s : State) : State := { s with draws := s.draws + 1 }

/-- Filling the queue (rule R45). -/
def State.withQueue (s : State) (q : Word × Word) : State := { s with queue := some q }

/-- Nothing is held ahead. -/
def State.dropQueue (s : State) : State := { s with queue := none }

/-- The last word fetched (rule R88). -/
def State.withAhead (s : State) (w : Word) : State := { s with queue := s.queue.map fun q => (q.1, w) }

/-- `PC <- target`: a control transfer, which discards the prefetched words (rules R310, R320). -/
def State.jumped (s : State) (target : Long) : State := { s with pc := target, queue := none }

/-- PC after the operation word (rule R29). -/
def State.opened (s : State) : State := { s with pc := s.pc + 2 }

/-- PC after `n` extension words (rule R102). -/
def State.skip (s : State) (n : Nat) : State := { s with pc := s.pc + BitVec.ofNat 32 (2 * n) }

/-- The first step of exception processing: supervisor state, no tracing, the new mask of an interrupt (rule R410); the processor is in the normal state again (rule R370). -/
def State.supervised (s : State) (mask : Option (BitVec 3)) : State :=
  { s with sr := { s.sr with s := true, t := false, i := mask.getD s.sr.i }, run := .normal }

/-- The processor halts (rules R446, R447). -/
def State.halt (s : State) : State := { s with run := .halted }

/-- The processor stops (rule R370). -/
def State.stop (s : State) : State := { s with run := .stopped }

/-- The group 0 window opens, and no trace is pending any more (rules R404, R442). -/
def State.markGroup0 (s : State) : State := { s with inGroup0 := true, tracePending := false }

/-- The handler of a group 1 exception has not begun (log 19). -/
def State.markGroup1 (s : State) : State := { s with inGroup1 := true }

/-- The handler of a group 2 exception has not begun (log 19). -/
def State.markGroup2 (s : State) : State := { s with inGroup2 := true }

/-- The external devices are reset (rules R366, R480; log 27). -/
def State.resetDevices (s : State) : State := { s with deviceResets := s.deviceResets + 1 }

/-! Computations that an access or a trap can abort (00_scope section 6.3: `raise`). -/

/-- Which of the two group 0 faults an access met (rules R438, R440). -/
inductive AccessFault where
  | bus
  | address
  deriving DecidableEq, Repr

/-- The access that a group 0 exception describes (rule R442). -/
structure Access where
  /-- All 32 bits of the address. -/
  addr : Long
  /-- A write cycle. -/
  write : Bool
  /-- Its function code. -/
  space : Space
  deriving DecidableEq, Repr

/-- Why a computation did not run to its end. -/
inductive Abort where
  /-- A bus error or address error (rules R438, R440). -/
  | access (k : AccessFault) (a : Access)
  /-- The same, of a word of the instruction stream (rule R441). -/
  | fetch (k : AccessFault) (a : Access)
  /-- External reset, with the level on the pins (rule R465). -/
  | reset (ipl : BitVec 3)
  /-- A group 2 exception by its vector number (rule R460). -/
  | trap (vector : BitVec 8)
  /-- A bus cycle that never ends (rule R78). -/
  | stop (f : Fault)
  /-- A term that no instruction words encode (log 31). -/
  | refuse (r : Refusal)
  deriving DecidableEq, Repr

/-- A computation over the state; an abort keeps the state as it then is. -/
abbrev M := EStateM Abort State

/-- What a computation answers. -/
abbrev M.Result (α : Type) := EStateM.Result Abort State α

/-- Reading from the state. -/
def ask {α : Type} (f : State → α) : M α := fun s => .ok (f s) s

/-- Changing the state. -/
def upd (f : State → State) : M Unit := fun s => .ok () (f s)

/-- Aborting. -/
def raise {α : Type} (e : Abort) : M α := fun s => .error e s

/-! Free values (00_scope section 6.3, `any(N)`; log 5). -/

/-- `any(32)`. -/
def anyLong : M Long := fun s => .ok (Config.free s.draws) s.drawn

/-- `any(N)`. -/
def anyBits (n : Nat) : M (BitVec n) := do
  let v ← anyLong
  pure (v.setWidth n)

/-- `any(1)`. -/
def anyBool : M Bool := do
  let v ← anyLong
  pure (v.getLsbD 0)

/-! Bus cycles (rules R64, R67, R68, R70 to R72, R76, R78, R80, R85). -/

/-- The start of a bus cycle: what the world outside does between the cycle before it and this one (rules R85, R92, R465; log 15, 16). -/
def startCycle : M Cycle := fun s =>
  match s.cycles with
  | [] => .ok Cycle.quiet s
  | c :: rest =>
    let t := { s with cycles := rest, mem := Memory.writeAll s.mem c.dma }
    match c.reset with
    | some ipl => .error (.reset ipl) t
    | none => .ok c t

/-- How a read cycle ends: BERR has precedence over DTACK (rules R78, R438). -/
def CycleReply.onRead (r : CycleReply) (p : ReadReply) : ReadReply :=
  match r with
  | .platform => p
  | .busError => .busError
  | .noReply => .noReply

/-- How a write cycle ends. -/
def CycleReply.onWrite (r : CycleReply) (p : WriteReply) : WriteReply :=
  match r with
  | .platform => p
  | .busError => .busError
  | .noReply => .noReply

/-- What a device puts on the data bus (log 14). -/
def deviceWord (sp : Space) (addr : Long) : M Word := fun s =>
  .ok (Config.device s.draws sp.fc (busAddress addr)) s.drawn

/-- The end of a byte read cycle; an even address is on D15 to D8 (rule R73). -/
def endRead8 (reply : ReadReply) (sp : Space) (addr : Long) : M Byte :=
  match reply with
  | .memory => ask fun s => s.byteAt sp addr
  | .device => do
    let w ← deviceWord sp addr
    pure (if addr.getLsbD 0 then w.extractLsb' 0 8 else w.extractLsb' 8 8)
  | .busError => raise (.access .bus { addr := addr, write := false, space := sp })
  | .noReply => raise (.stop .busNoResponse)

/-- The end of a word read cycle. -/
def endRead16 (reply : ReadReply) (sp : Space) (addr : Long) : M Word :=
  match reply with
  | .memory => ask fun s => s.wordAt sp addr
  | .device => deviceWord sp addr
  | .busError => raise (.access .bus { addr := addr, write := false, space := sp })
  | .noReply => raise (.stop .busNoResponse)

/-- The end of a byte write cycle. One that BERR ends stores nothing in memory: rule R438 leaves that to the platform, and this is the model's choice (log 43). -/
def endWrite8 (reply : WriteReply) (sp : Space) (addr : Long) (b : Byte) : M Unit :=
  match reply with
  | .memory => upd fun s => s.putByte sp addr b
  | .absorb => pure ()
  | .busError => raise (.access .bus { addr := addr, write := true, space := sp })
  | .noReply => raise (.stop .busNoResponse)

/-- The end of a word write cycle. One that BERR ends stores nothing in memory, as for a byte (log 43). -/
def endWrite16 (reply : WriteReply) (sp : Space) (addr : Long) (w : Word) : M Unit :=
  match reply with
  | .memory => upd fun s => s.putWord sp addr w
  | .absorb => pure ()
  | .busError => raise (.access .bus { addr := addr, write := true, space := sp })
  | .noReply => raise (.stop .busNoResponse)

/-- One byte read cycle. -/
def busRead8 (sp : Space) (addr : Long) : M Byte := do
  let c ← startCycle
  let p ← ask fun s => s.platform.readReply sp addr false
  endRead8 (c.reply.onRead p) sp addr

/-- One word read cycle, at an even address. -/
def busRead16 (sp : Space) (addr : Long) : M Word := do
  let c ← startCycle
  let p ← ask fun s => s.platform.readReply sp addr true
  endRead16 (c.reply.onRead p) sp addr

/-- One byte write cycle. -/
def busWrite8 (sp : Space) (addr : Long) (b : Byte) : M Unit := do
  let c ← startCycle
  let p ← ask fun s => s.platform.writeReply sp addr false
  endWrite8 (c.reply.onWrite p) sp addr b

/-- One word write cycle, at an even address. -/
def busWrite16 (sp : Space) (addr : Long) (w : Word) : M Unit := do
  let c ← startCycle
  let p ← ask fun s => s.platform.writeReply sp addr true
  endWrite16 (c.reply.onWrite p) sp addr w

/-- One read-modify-write cycle, of a byte: nothing from outside comes between its read and its write (rules R76, R87). -/
def busModify8 (sp : Space) (addr : Long) (f : Byte → M Byte) : M Unit := do
  let c ← startCycle
  let p ← ask fun s => s.platform.readReply sp addr false
  let b ← endRead8 (c.reply.onRead p) sp addr
  let r ← f b
  let q ← ask fun s => s.platform.writeReply sp addr false
  endWrite8 (c.second.onWrite q) sp addr r

/-- A word or long access at an odd address is an address error, and no cycle is run (rules R67, R440). -/
def needEven (sp : Space) (addr : Long) (write : Bool) : M Unit := fun s =>
  if addr.getLsbD 0 then .error (.access .address { addr := addr, write := write, space := sp }) s
  else .ok () s

/-- `MemRead(addr, 2, space)` (rule R70). -/
def readWord (sp : Space) (addr : Long) : M Word := do
  needEven sp addr false
  busRead16 sp addr

/-- `MemRead(addr, 4, space)`, the word at the lower address first (rules R68, R70). -/
def readLong (sp : Space) (addr : Long) : M Long := do
  needEven sp addr false
  let hi ← busRead16 sp addr
  let lo ← busRead16 sp (addr + 2)
  pure (hi ++ lo)

/-- `MemRead` of an operand size, zero-extended (rule R70). -/
def readMem (sz : Size) (sp : Space) (addr : Long) : M Long := do
  match sz with
  | .byte =>
    let b ← busRead8 sp addr
    pure (b.setWidth 32)
  | .word =>
    let w ← readWord sp addr
    pure (w.setWidth 32)
  | .long => readLong sp addr

/-- `MemWrite(addr, 2, v)` (rule R71). -/
def writeWord (sp : Space) (addr : Long) (w : Word) : M Unit := do
  needEven sp addr true
  busWrite16 sp addr w

/-- `MemWrite(addr, 4, v)`; `lowFirst`: the low-order word, at the higher address, first (rules R68, R71). -/
def writeLong (lowFirst : Bool) (sp : Space) (addr : Long) (v : Long) : M Unit := do
  needEven sp addr true
  if lowFirst then
    busWrite16 sp (addr + 2) (v.extractLsb' 0 16)
    busWrite16 sp addr (v.extractLsb' 16 16)
  else
    busWrite16 sp addr (v.extractLsb' 16 16)
    busWrite16 sp (addr + 2) (v.extractLsb' 0 16)

/-- Whether the low-order word of a long write goes first: in `-(An)` destinations and pushes, under `family` (rule R68, decision D5). -/
def State.lowWordFirst (s : State) (pre : Bool) : Bool := pre && s.longSplit == .family

/-- `MemWrite` of an operand size; `pre` for a `-(An)` destination or a push (rules R68, R71). -/
def writeMem (sz : Size) (pre : Bool) (sp : Space) (addr : Long) (v : Long) : M Unit := do
  match sz with
  | .byte => busWrite8 sp addr (v.setWidth 8)
  | .word => writeWord sp addr (v.setWidth 16)
  | .long =>
    let lowFirst ← ask fun s => s.lowWordFirst pre
    writeLong lowFirst sp addr v

/-! The active stack (00_scope section 6.3: Push and Pop). -/

/-- `Push32`. -/
def pushLong (v : Long) : M Unit := do
  upd fun s => s.putA 7 (s.getA 7 - 4)
  let addr ← ask fun s => s.getA 7
  let sp ← ask State.dataSpace
  writeMem .long true sp addr v

/-- `Pop16`. -/
def popWord : M Word := do
  let addr ← ask fun s => s.getA 7
  let sp ← ask State.dataSpace
  let w ← readWord sp addr
  upd fun s => s.putA 7 (s.getA 7 + 2)
  pure w

/-- `Pop32`. -/
def popLong : M Long := do
  let addr ← ask fun s => s.getA 7
  let sp ← ask State.dataSpace
  let v ← readLong sp addr
  upd fun s => s.putA 7 (s.getA 7 + 4)
  pure v

/-- `PC <- target` (rule R310). -/
def jump (target : Long) : M Unit := upd fun s => s.jumped target

/-! Fetching words of the instruction stream (rules R45, R88, R102). -/

/-- One word of the instruction stream (rules R63, R102). -/
def fetchWord (addr : Long) : M Word := fun s =>
  match (readWord s.programSpace addr).run s with
  | .ok w t => .ok w t
  | .error (.access k a) t => .error (.fetch k a) t
  | .error e t => .error e t

/-- The two words at PC after a change of flow (rules R88, R320, R413). At an odd PC nothing is read: the address error is the next instruction's (rule R31; log 33). -/
def fillQueue : M Unit := do
  let pc ← ask State.pc
  if pc.getLsbD 0 then pure ()
  else
    let w0 ← fetchWord pc
    let w1 ← fetchWord (pc + 2)
    upd fun s => s.withQueue (w0, w1)

/-- An instruction fetch at an odd PC is an address error (rules R31, R67). -/
def needEvenPc : M Unit := fun s =>
  if s.pc.getLsbD 0 then .error (.fetch .address { addr := s.pc, write := false, space := s.programSpace }) s
  else .ok () s

/-- The outcomes of a step of this machine. -/
abbrev Outcome := Host.Outcome State Fault Refusal

/-! External reset (rules R51, R465, R480). -/

/-- The registers that reset sets before it reads its vector. -/
def State.resetRegisters (s : State) (ipl : BitVec 3) : State :=
  { s with
    sr := { s.sr with s := true, t := false, i := 7 }
    run := .normal
    queue := none
    prevIpl := ipl
    inGroup0 := true
    inGroup1 := false
    inGroup2 := false
    tracePending := false
    deviceResets := s.deviceResets + 1 }

/-- The reset vector, four words in ascending order from supervisor program space, and the first fetch (rules R402, R480). -/
def loadResetVector : M Unit := do
  let ssp ← readLong .supervisorProgram 0
  upd fun s => s.withSsp ssp
  let pc ← readLong .supervisorProgram 4
  upd fun s => s.jumped pc
  needEvenPc
  fillQueue

/-- The end of the reset sequence: a fault before the first instruction halts (rules R446, R480), and a reset inside it begins it `again`. -/
def afterReset (again : BitVec 3 → State → Outcome) : M.Result Unit → Outcome
  | .ok _ t => .next t
  | .error (.stop f) _ => .fault f
  | .error (.reset ipl) t => again ipl t
  | .error _ t => .next t.halt

/-- External reset, begun again at most `n` times. -/
def resetTimes : Nat → BitVec 3 → State → Outcome
  | 0, ipl, s => afterReset (fun _ t => .next t.halt) (loadResetVector.run (s.resetRegisters ipl))
  | n + 1, ipl, s => afterReset (resetTimes n) (loadResetVector.run (s.resetRegisters ipl))

/-- External reset, from any state. It begins again at most once for each cycle whose input is still to come. -/
def State.externalReset (s : State) (ipl : BitVec 3) : Outcome := resetTimes s.cycles.length ipl s

/-! Taking an exception (rules R402, R403, R410 to R412, R422, R442 to R446). -/

/-- The address of an exception vector (rule R403). -/
def vectorAddress (vector : BitVec 8) : Long := BitVec.ofNat 32 (4 * vector.toNat)

/-- Exception processing of groups 1 and 2 in its four steps: the copy of SR and the supervisor state, with the new mask of an interrupt; the vector number; the three-word frame, PC low word first, then the SR copy, then the PC high word; the new PC and the first two words of the routine (rules R410 to R413, R422). An interrupt's acknowledge cycle is `vector`, run after the first write. -/
def enter (mask : Option (BitVec 3)) (vector : M (BitVec 8)) (stackedPc : Long) : M Unit := do
  let old ← ask State.sr
  upd fun s => s.supervised mask
  let s0 ← ask State.ssp
  writeWord .supervisorData (s0 - 2) (stackedPc.extractLsb' 0 16)
  let n ← vector
  writeWord .supervisorData (s0 - 6) old.toWord
  writeWord .supervisorData (s0 - 4) (stackedPc.extractLsb' 16 16)
  upd fun s => s.withSsp (s0 - 6)
  let target ← readLong .supervisorData (vectorAddress n)
  jump target
  fillQueue

/-- What the processor was doing when a cycle was aborted (rules R441, R442; log 6, 19, 20). -/
inductive Activity where
  /-- An operand reference of the instruction at `ipc`, or group 2 processing that it started. -/
  | operand (ipc : Long)
  /-- The fetch of an extension word. -/
  | extension
  /-- The fetch of an operation word or of the words after an instruction; `after1`: for the handler of a group 1 exception. -/
  | operation (after1 : Bool)
  /-- Group 1 exception processing. -/
  | group1
  deriving DecidableEq, Repr

/-- The I/N bit: 1 when the processor was not processing an instruction (rule R442). -/
def Activity.notInstruction : Activity → Bool
  | .operand _ | .extension => false
  | .operation after1 => after1
  | .group1 => true

/-- The instruction register word of the frame: `any(16)` unless an instruction is being processed (rule R442; log 20). -/
def Activity.stackedIr : Activity → M Word
  | .operand _ | .extension => ask State.ir
  | .operation _ | .group1 => anyBits 16

/-- The PC of the frame (rule R441, decision D7; log 6). -/
def Activity.stackedPc : Activity → M Long
  | .operand ipc => do
    let v ← anyLong
    pure (ipc + BitVec.ofNat 32 (2 + 2 * (v.toNat % 5)))
  | .extension | .operation _ | .group1 => anyLong

/-- What the processor is doing when it fetches the first words of a handler: a group 2 handler's are fetched with I/N = 0, and the stacked PC is that of a fetch (rules R441, R446). -/
def Activity.fetching : Activity → Activity
  | .operand _ => .operation false
  | .extension => .extension
  | .operation after1 => .operation after1
  | .group1 => .group1

/-- The vector of a group 0 fault (rule R442). -/
def AccessFault.vector : AccessFault → BitVec 8
  | .bus => 2
  | .address => 3

/-- The first word of the group 0 frame: bits 15 to 5 `any(11)`, R/W (read = 1), I/N (not = 1), function code (rule R442). -/
def statusWord (open11 : BitVec 11) (a : Access) (act : Activity) : Word :=
  open11 ++ BitVec.ofBool (!a.write) ++ BitVec.ofBool act.notInstruction ++ a.space.fc

/-- The stacking, the vector read and the first two words of the handler of a group 0 exception: seven words are stacked, in the order of rule R444 (rules R413, R442, R444, decision D20). -/
def enter0 (k : AccessFault) (a : Access) (act : Activity) : M Unit := do
  let old ← ask State.sr
  upd fun s => s.supervised none
  let s0 ← ask State.ssp
  let pc ← act.stackedPc
  let ir ← act.stackedIr
  let open11 ← anyBits 11
  writeWord .supervisorData (s0 - 2) (pc.extractLsb' 0 16)
  writeWord .supervisorData (s0 - 6) old.toWord
  writeWord .supervisorData (s0 - 4) (pc.extractLsb' 16 16)
  writeWord .supervisorData (s0 - 8) ir
  writeWord .supervisorData (s0 - 10) (a.addr.extractLsb' 0 16)
  writeWord .supervisorData (s0 - 12) (a.addr.extractLsb' 16 16)
  writeWord .supervisorData (s0 - 14) (statusWord open11 a act)
  upd fun s => s.withSsp (s0 - 14)
  let target ← readLong .supervisorData (vectorAddress k.vector)
  jump target
  fillQueue

/-- Taking a bus error or address error (rules R442, R446): inside the group 0 window, or when its own processing faults, the processor halts; a reset aborts it. -/
def State.group0 (s : State) (k : AccessFault) (a : Access) (act : Activity) : Outcome :=
  if s.inGroup0 then .next s.halt
  else
    match (enter0 k a act).run s.markGroup0 with
    | .ok _ t => .next t
    | .error (.stop f) _ => .fault f
    | .error (.reset ipl) t => t.externalReset ipl
    | .error _ t => .next t.halt

/-- The end of group 1 or group 2 exception processing; a fault during it is a group 0 exception (rule R446), and a reset aborts it. No entry traps or refuses. -/
def entered (act : Activity) (mark : State → State) : M.Result Unit → Outcome
  | .ok _ t => .next (mark t)
  | .error (.access k a) t => t.group0 k a act
  | .error (.fetch k a) t => t.group0 k a act.fetching
  | .error (.reset ipl) t => t.externalReset ipl
  | .error (.stop f) _ => .fault f
  | .error (.refuse r) _ => .refused r
  | .error (.trap _) _ => .refused .illFormed

/-- Taking a group 1 exception other than an interrupt, with the PC that is stacked (rules R404, R410). -/
def State.group1 (s : State) (vector : BitVec 8) (stackedPc : Long) : Outcome :=
  entered .group1 State.markGroup1 ((enter none (pure vector) stackedPc).run s)

/-- Taking a group 2 exception that the instruction at `ipc` started; the stacked PC is that of the next instruction (rules R404, R410, R461; log 34). -/
def State.group2 (s : State) (vector : BitVec 8) (ipc : Long) : Outcome :=
  entered (.operand ipc) State.markGroup2 ((enter none (pure vector) s.pc).run s)

/-- The address of an interrupt acknowledge cycle: the level on A1, A2 and A3, A4 to A23 high (rules R83, R424). -/
def acknowledgeAddress (level : BitVec 3) : Long := BitVec.ofNat 32 (0xFFFFF0 + 2 * level.toNat)

/-- The interrupt acknowledge cycle, a word read with function code 111: what the interrupting device answers, or BERR (rules R83, R424 to R426). Only D7 to D0 of the data are used. -/
def acknowledge (answer : IackResponse) (level : BitVec 3) : M (BitVec 8) := do
  let c ← startCycle
  match c.reply, answer with
  | .platform, .vector data => pure (data.setWidth 8)
  | .platform, .device =>
    let data ← deviceWord .interruptAcknowledge (acknowledgeAddress level)
    pure (data.setWidth 8)
  | .platform, .autovector => pure (24 + level.setWidth 8)
  | .platform, .busError | .busError, _ => pure 24
  | .platform, .noReply | .noReply, _ => raise (.stop .iackNoResponse)

/-- Taking an interrupt (rule R422). -/
def State.interrupt (s : State) (level : BitVec 3) (answer : IackResponse) : Outcome :=
  entered .group1 State.markGroup1 ((enter (some level) (acknowledge answer level) s.pc).run s)

/-! The state an aborted instruction leaves (rule R443, decision D7; log 7). -/

/-- The old or the new value of a register or a field of SR, a free choice where they differ. -/
def settleTo {α : Type} [DecidableEq α] (choice : Long) (old new : α) : α :=
  if old = new then new else if choice.getLsbD 0 then new else old

/-- The state that an instruction begun in `old` and aborted in `new` leaves: each register, each condition code and each of T, S and the mask old or new, independently; memory as the completed bus cycles left it. Rule R443 lets a model narrow what is left so far, where no proof depends on it (log 7). -/
def State.settle (old new : State) : State :=
  let f := fun k => Config.free (new.draws + k)
  { new with
    d := #v[settleTo (f 0) old.d[0] new.d[0], settleTo (f 1) old.d[1] new.d[1],
            settleTo (f 2) old.d[2] new.d[2], settleTo (f 3) old.d[3] new.d[3],
            settleTo (f 4) old.d[4] new.d[4], settleTo (f 5) old.d[5] new.d[5],
            settleTo (f 6) old.d[6] new.d[6], settleTo (f 7) old.d[7] new.d[7]]
    a := #v[settleTo (f 8) old.a[0] new.a[0], settleTo (f 9) old.a[1] new.a[1],
            settleTo (f 10) old.a[2] new.a[2], settleTo (f 11) old.a[3] new.a[3],
            settleTo (f 12) old.a[4] new.a[4], settleTo (f 13) old.a[5] new.a[5],
            settleTo (f 14) old.a[6] new.a[6]]
    usp := settleTo (f 15) old.usp new.usp
    ssp := settleTo (f 16) old.ssp new.ssp
    sr :=
      { t := settleTo (f 17) old.sr.t new.sr.t
        s := settleTo (f 18) old.sr.s new.sr.s
        i := settleTo (f 19) old.sr.i new.sr.i
        x := settleTo (f 20) old.sr.x new.sr.x
        n := settleTo (f 21) old.sr.n new.sr.n
        z := settleTo (f 22) old.sr.z new.sr.z
        v := settleTo (f 23) old.sr.v new.sr.v
        c := settleTo (f 24) old.sr.c new.sr.c }
    draws := new.draws + 25 }

/-! Running one instruction. -/

/-- The end of an instruction begun in `s`: its own effect, the exception it raised, a reset that aborts it, or a stop (rules R404, R465). -/
def conclude (s : State) : M.Result Unit → Outcome
  | .ok _ t => .next t
  | .error (.access k a) t => (s.settle t).group0 k a (.operand s.pc)
  | .error (.fetch k a) t => (s.settle t).group0 k a .extension
  | .error (.reset ipl) t => (s.settle t).externalReset ipl
  | .error (.trap vector) t => t.group2 vector s.pc
  | .error (.stop f) _ => .fault f
  | .error (.refuse r) _ => .refused r

/-- Running an instruction whose operation word is at `s.pc`: PC is the address after it (rule R29). -/
def instr (s : State) (body : M Unit) : Outcome :=
  conclude s (body.run s.opened)

/-- Running a privileged instruction: in user state it is a privilege violation and nothing else has happened (rules R340, R452). -/
def privileged (s : State) (body : M Unit) : Outcome :=
  if s.sr.s then instr s body else s.group1 8 s.pc

/-- RTE's return from an exception: both pops from the supervisor stack, then SR and PC (rules R368, R470). -/
def returnFromException : M Unit := do
  let ssp ← ask State.ssp
  let w ← readWord .supervisorData ssp
  let target ← readLong .supervisorData (ssp + 2)
  upd fun s => s.withSsp (ssp + 6)
  upd fun s => s.withSr (Sr.ofWord w)
  jump target

end Sys2Proof.Machine
end

