-- ==== Sys2Proof/Machine/Flags.lean ====
section
/-! DEFINITION. Values of an operand size, and condition codes: conditions (rule R125), addition and subtraction (rules R200, R201), logical results (rule R250), shifts and rotates step by step (rules R271 to R279), decimal arithmetic (rules R300 to R304). A value of size `sz` is held in 32 bits with zeros above. -/

namespace Sys2Proof

/-- The number of bits of a size (rule R3). -/
def Size.bits : Size → Nat
  | .byte => 8
  | .word => 16
  | .long => 32

/-- The number of bytes of a size. -/
def Size.bytes : Size → Nat
  | .byte => 1
  | .word => 2
  | .long => 4

/-- The low `sz` bits of a value. -/
def Size.trunc (sz : Size) (v : Long) : Long :=
  match sz with
  | .byte => (v.setWidth 8).setWidth 32
  | .word => (v.setWidth 16).setWidth 32
  | .long => v

/-- The low `sz` bits of a value, sign-extended to 32 bits (rule R107). -/
def Size.sext (sz : Size) (v : Long) : Long :=
  match sz with
  | .byte => (v.setWidth 8).signExtend 32
  | .word => (v.setWidth 16).signExtend 32
  | .long => v

/-- The most significant bit of a value of size `sz`. -/
def Size.msb (sz : Size) (v : Long) : Bool := v.getLsbD (sz.bits - 1)

/-- `old` with its low `sz` bits replaced by those of `v` (rule R21). -/
def Size.merge (sz : Size) (old v : Long) : Long :=
  match sz with
  | .byte => old.extractLsb' 8 24 ++ v.setWidth 8
  | .word => old.extractLsb' 16 16 ++ v.setWidth 16
  | .long => v

end Sys2Proof

namespace Sys2Proof.Machine

/-- `cond(cc)` (rule R125). -/
def holds (cond : Cond) (r : Sr) : Bool :=
  match cond with
  | .t => true
  | .f => false
  | .hi => !r.c && !r.z
  | .ls => r.c || r.z
  | .cc => !r.c
  | .cs => r.c
  | .ne => !r.z
  | .eq => r.z
  | .vc => !r.v
  | .vs => r.v
  | .pl => !r.n
  | .mi => r.n
  | .ge => r.n == r.v
  | .lt => r.n != r.v
  | .gt => !r.z && r.n == r.v
  | .le => r.z || r.n != r.v

/-- A result with its carry and overflow. -/
structure Sum where
  /-- The result, of the operand size. -/
  r : Long
  /-- Carry or borrow. -/
  c : Bool
  /-- Signed overflow. -/
  v : Bool
  deriving DecidableEq, Repr

/-- Destination `d` plus source `s` plus carry in (rule R200). -/
def addFlags (sz : Size) (s d : Long) (carry : Bool) : Sum :=
  let t := d.toNat + s.toNat + bitCode carry
  let r := sz.trunc (BitVec.ofNat 32 t)
  { r := r
    c := 2 ^ sz.bits ≤ t
    v := (sz.msb s && sz.msb d && !sz.msb r) || (!sz.msb s && !sz.msb d && sz.msb r) }

/-- Destination `d` minus source `s` minus borrow in (rule R201). -/
def subFlags (sz : Size) (s d : Long) (borrow : Bool) : Sum :=
  let r := sz.trunc (d - s - BitVec.ofNat 32 (bitCode borrow))
  { r := r
    c := d.toNat < s.toNat + bitCode borrow
    v := (!sz.msb s && sz.msb d && !sz.msb r) || (sz.msb s && !sz.msb d && sz.msb r) }

/-- Changing the status register. -/
def updSr (f : Sr → Sr) : M Unit := upd fun s => s.withSr (f s.sr)

/-- N, Z, V, C of a comparison (rules R218 to R221): X is unaffected. -/
def Sr.compared (q : Sr) (sz : Size) (u : Sum) : Sr :=
  { q with n := sz.msb u.r, z := u.r == 0, v := u.v, c := u.c }

/-- X, N, Z, V, C of an addition or subtraction (rules R202, R210). -/
def Sr.arithmetic (q : Sr) (sz : Size) (u : Sum) : Sr :=
  { q with x := u.c, n := sz.msb u.r, z := u.r == 0, v := u.v, c := u.c }

/-- The same with Z only ever cleared (rules R206, R214, R225). -/
def Sr.extended (q : Sr) (sz : Size) (u : Sum) : Sr :=
  { q with x := u.c, n := sz.msb u.r, z := q.z && u.r == 0, v := u.v, c := u.c }

/-- N and Z of a result, V and C cleared, X unaffected (rule R250). -/
def Sr.logic (q : Sr) (sz : Size) (r : Long) : Sr :=
  { q with n := sz.msb r, z := sz.trunc r == 0, v := false, c := false }

/-! Shifts and rotates (rules R270 to R279). -/

/-- `f` applied `n` times. -/
def iterate {α : Type} (f : α → α) : Nat → α → α
  | 0, a => a
  | n + 1, a => iterate f n (f a)

/-- A value being shifted, with the flags its steps write. -/
structure Shift where
  r : Long
  x : Bool
  c : Bool
  v : Bool
  deriving DecidableEq, Repr

/-- One step to the left, with `low` entering bit 0. -/
def shiftLeft (sz : Size) (r : Long) (low : Bool) : Long :=
  sz.trunc (r <<< 1) ||| BitVec.ofNat 32 (bitCode low)

/-- One step to the right, with `high` entering the most significant bit. -/
def shiftRight (sz : Size) (r : Long) (high : Bool) : Long :=
  (r >>> 1) ||| BitVec.ofNat 32 (bitCode high * 2 ^ (sz.bits - 1))

/-- A step of ASL (rule R272). -/
def stepAsl (sz : Size) (u : Shift) : Shift :=
  let out := sz.msb u.r
  let r := shiftLeft sz u.r false
  { r := r, x := out, c := out, v := u.v || sz.msb r != out }

/-- A step of ASR (rule R273). -/
def stepAsr (sz : Size) (u : Shift) : Shift :=
  let out := u.r.getLsbD 0
  { r := shiftRight sz u.r (sz.msb u.r), x := out, c := out, v := u.v }

/-- A step of LSL (rule R274). -/
def stepLsl (sz : Size) (u : Shift) : Shift :=
  let out := sz.msb u.r
  { r := shiftLeft sz u.r false, x := out, c := out, v := u.v }

/-- A step of LSR (rule R275). -/
def stepLsr (sz : Size) (u : Shift) : Shift :=
  let out := u.r.getLsbD 0
  { r := shiftRight sz u.r false, x := out, c := out, v := u.v }

/-- A step of ROL (rule R276): X is unaffected. -/
def stepRol (sz : Size) (u : Shift) : Shift :=
  let out := sz.msb u.r
  { r := shiftLeft sz u.r out, x := u.x, c := out, v := u.v }

/-- A step of ROR (rule R277): X is unaffected. -/
def stepRor (sz : Size) (u : Shift) : Shift :=
  let out := u.r.getLsbD 0
  { r := shiftRight sz u.r out, x := u.x, c := out, v := u.v }

/-- A step of ROXL (rule R278). -/
def stepRoxl (sz : Size) (u : Shift) : Shift :=
  let out := sz.msb u.r
  { r := shiftLeft sz u.r u.x, x := out, c := out, v := u.v }

/-- A step of ROXR (rule R279). -/
def stepRoxr (sz : Size) (u : Shift) : Shift :=
  let out := u.r.getLsbD 0
  { r := shiftRight sz u.r u.x, x := out, c := out, v := u.v }

/-- `count` steps on a value from C = V = 0 (rule R271). -/
def shifted (step : Shift → Shift) (count : Nat) (q : Sr) (r : Long) : Shift :=
  iterate step count { r := r, x := q.x, c := false, v := false }

/-- `count` steps on a value from C = X, V = 0 (rules R278, R279). -/
def rotatedX (step : Shift → Shift) (count : Nat) (q : Sr) (r : Long) : Shift :=
  iterate step count { r := r, x := q.x, c := q.x, v := false }

/-- The condition codes after a shift or rotate: N and Z from the result, also for ROXL and ROXR (rule R271). That Z is set on a zero result of ROXL or ROXR is the model's choice, DESIGN CHOICE: the parenthesis of rule R43 reads as if they left Z unchanged then (log 41). -/
def Sr.shift (q : Sr) (sz : Size) (u : Shift) : Sr :=
  { q with x := u.x, n := sz.msb u.r, z := u.r == 0, v := u.v, c := u.c }

/-! Decimal arithmetic (rules R300, R301). -/

/-- Both digits of a byte are decimal. -/
def bcdValid (b : Byte) : Bool := b.toNat / 16 < 10 && b.toNat % 16 < 10

/-- `dec(b)`. -/
def bcdValue (b : Byte) : Nat := 10 * (b.toNat / 16) + b.toNat % 16

/-- `bcd(n)` for `n` below 100. -/
def bcdByte (n : Nat) : Byte := BitVec.ofNat 8 (n / 10 * 16 + n % 10)

/-- The result byte of a decimal instruction with valid digits whose exact result is `t` and carry or borrow is `c`; N and V are `any(1)`, Z is only ever cleared (rules R301, R302; decision D6). -/
def decimalResult (t : Int) (c : Bool) : M Byte := do
  let r := bcdByte (t % 100).toNat
  let n ← anyBool
  let v ← anyBool
  updSr fun q => { q with x := c, n := n, z := q.z && r == 0, v := v, c := c }
  pure r

/-- The result byte on digits that are not decimal: it and every condition code are free, one carry in X and C (rules R300, R302, decision D15; log 22). -/
def decimalInvalid : M Byte := do
  let r ← anyBits 8
  let c ← anyBool
  let n ← anyBool
  let z ← anyBool
  let v ← anyBool
  updSr fun q => { q with x := c, n := n, z := z, v := v, c := c }
  pure r

/-- The decimal sum of two bytes and X (rule R302). -/
def decimalAdd (s d : Byte) : M Byte := do
  let x ← ask fun t => t.sr.x
  if bcdValid s && bcdValid d then
    let t := bcdValue d + bcdValue s + bitCode x
    decimalResult t (99 < t)
  else decimalInvalid

/-- The decimal difference of two bytes and X (rules R303, R304). -/
def decimalSub (s d : Byte) : M Byte := do
  let x ← ask fun t => t.sr.x
  if bcdValid s && bcdValid d then
    let t : Int := (bcdValue d : Int) - bcdValue s - bitCode x
    decimalResult t (t < 0)
  else decimalInvalid

end Sys2Proof.Machine
end

