-- ==== Sys2Proof/Machine/Operands.lean ====
section
/-! DEFINITION. Effective addresses: resolving an address to a location, and reading and writing a location (rules R110 to R124, R126, R127). -/

namespace Sys2Proof.Machine

/-- An operand location (rule R110). -/
inductive Loc where
  | dreg (r : Reg)
  | areg (r : Reg)
  /-- A memory address and its space; `pre`: reached through `-(An)` (rule R68). -/
  | mem (sp : Space) (addr : Long) (pre : Bool)
  | imm (v : Long)
  deriving DecidableEq, Repr

/-- The step of `(An)+` and `-(An)`: a byte through A7 steps by 2 (rules R113, R114). -/
def stepOf (sz : Size) (r : Reg) : Long :=
  if r = 7 ∧ sz = .byte then 2 else BitVec.ofNat 32 sz.bytes

/-- `index(ext)` (rule R124). -/
def State.indexValue (s : State) (x : Index) : Long :=
  let v := if x.isAddr then s.getA x.reg else s.getD x.reg
  if x.isLong then v else Size.word.sext v

/-- `EA(mode, reg, sz)`: the location and the state with the extension words consumed and the side effect of `(An)+` or `-(An)` (rules R110 to R121). PC is the address of the first extension word. -/
def State.resolve (s : State) (sz : Size) (ea : Ea) : Loc × State :=
  match ea with
  | .dn r => (.dreg r, s)
  | .an r => (.areg r, s)
  | .ind r => (.mem s.dataSpace (s.getA r) false, s)
  | .postInc r => (.mem s.dataSpace (s.getA r) false, s.putA r (s.getA r + stepOf sz r))
  | .preDec r => (.mem s.dataSpace (s.getA r - stepOf sz r) true, s.putA r (s.getA r - stepOf sz r))
  | .disp r d => (.mem s.dataSpace (s.getA r + d.signExtend 32) false, s.skip 1)
  | .index r x => (.mem s.dataSpace (s.getA r + x.d8.signExtend 32 + s.indexValue x) false, s.skip 1)
  | .absW a => (.mem s.dataSpace (a.signExtend 32) false, s.skip 1)
  | .absL a => (.mem s.dataSpace a false, s.skip 2)
  | .pcDisp d => (.mem s.programSpace (s.pc + d.signExtend 32) false, s.skip 1)
  | .pcIndex x => (.mem s.programSpace (s.pc + x.d8.signExtend 32 + s.indexValue x) false, s.skip 1)
  | .imm v => (.imm v, s.skip (if sz = .long then 2 else 1))

/-- The number of extension words of an effective address (rules R108 to R121). -/
def eaWords (sz : Size) : Ea → Nat
  | .dn _ | .an _ | .ind _ | .postInc _ | .preDec _ => 0
  | .disp _ _ | .index _ _ | .absW _ | .pcDisp _ | .pcIndex _ => 1
  | .absL _ => 2
  | .imm _ => if sz = .long then 2 else 1

/-- The fetches that replace `n` extension words as they are used, from an address (rules R88, R491). -/
def replaceWords : Nat → Long → M Unit
  | 0, _ => pure ()
  | n + 1, addr => do
    let w ← fetchWord addr
    upd fun s => s.withAhead w
    replaceWords n (addr + 2)

/-- Resolving an effective address. -/
def locate (sz : Size) (ea : Ea) : M Loc := fun s =>
  .ok (s.resolve sz ea).1 (s.resolve sz ea).2

/-- `read_ea` (rule R127), zero-extended from the operand size. -/
def readLoc (sz : Size) (loc : Loc) : M Long :=
  match loc with
  | .dreg r => ask fun s => sz.trunc (s.getD r)
  | .areg r => ask fun s => sz.trunc (s.getA r)
  | .mem sp addr _ => readMem sz sp addr
  | .imm v => pure (sz.trunc v)

/-- `write_ea` (rule R127). An address register takes the sign-extended value whole (rule R23). No instruction writes program space or an immediate (rule R62; log 31). -/
def writeLoc (sz : Size) (loc : Loc) (v : Long) : M Unit :=
  match loc with
  | .dreg r => upd fun s => s.putD r (sz.merge (s.getD r) v)
  | .areg r => upd fun s => s.putA r (sz.sext v)
  | .mem sp addr pre => if sp.isProgram then raise (.refuse .illFormed) else writeMem sz pre sp addr v
  | .imm _ => raise (.refuse .illFormed)

/-- Resolving and reading an operand (rule R126). -/
def operand (sz : Size) (ea : Ea) : M Long := do
  let loc ← locate sz ea
  readLoc sz loc

/-- The low `sz` bits of a data register. -/
def dataReg (sz : Size) (r : Reg) : M Long := ask fun s => sz.trunc (s.getD r)

/-- Writing the low `sz` bits of a data register (rule R21). -/
def setDataReg (sz : Size) (r : Reg) (v : Long) : M Unit :=
  upd fun s => s.putD r (sz.merge (s.getD r) v)

/-- The address of a control operand, which is not accessed (rules R182, R315). -/
def effectiveAddress (ea : Ea) : M Long := do
  match ← locate .long ea with
  | .mem _ addr _ => pure addr
  | .dreg _ | .areg _ | .imm _ => raise (.refuse .illFormed)

/-- Consuming the immediate operand of an instruction (rules R102, R121). -/
def skipImmediate (sz : Size) : M Unit := upd fun s => s.skip (if sz = .long then 2 else 1)

/-- Consuming one extension word of the instruction itself (rule R102). -/
def skipWord : M Unit := upd fun s => s.skip 1

/-- Reading an operand, replacing it and setting the condition codes: the location is resolved once (rule R110); the read and the write are cycles of their own (rule R87); flags are set before the write (log 35). -/
def modifyEa (sz : Size) (ea : Ea) (f : Long → M Long) : M Unit := do
  let loc ← locate sz ea
  let d ← readLoc sz loc
  let r ← f d
  writeLoc sz loc r

/-- `modifyEa` for a byte in one indivisible cycle (rules R76, R87). -/
def modifyIndivisible (ea : Ea) (f : Long → M Long) : M Unit := do
  let loc ← locate .byte ea
  match loc with
  | .mem sp addr _ =>
    if sp.isProgram then raise (.refuse .illFormed)
    else busModify8 sp addr fun b => do
      let r ← f (b.setWidth 32)
      pure (r.setWidth 8)
  | .dreg _ | .areg _ | .imm _ =>
    let d ← readLoc .byte loc
    let r ← f d
    writeLoc .byte loc r

/-- Writing an operand whose memory is read first and the value discarded (rule R86, decision D16; log 25). -/
def overwriteEa (sz : Size) (ea : Ea) (v : M Long) : M Unit := do
  let loc ← locate sz ea
  match loc with
  | .mem _ _ _ => let _ ← readLoc sz loc
  | .dreg _ | .areg _ | .imm _ => pure ()
  let r ← v
  writeLoc sz loc r

/-- The operands of a `Dy,Dx` or `-(Ay),-(Ax)` instruction, source first (rules R126, R206): source, destination and where the result goes. -/
def operandPair (sz : Size) (mem : Bool) (rx ry : Reg) : M (Long × Long × Loc) := do
  let src ← locate sz (if mem then .preDec ry else .dn ry)
  let s ← readLoc sz src
  let dst ← locate sz (if mem then .preDec rx else .dn rx)
  let d ← readLoc sz dst
  pure (s, d, dst)

end Sys2Proof.Machine
end

