-- ==== Sys2Proof/Machine/Arithmetic.lean ====
section
/-! DEFINITION. Meanings of the integer arithmetic instructions (41_integer_arithmetic rules R200 to R238). -/

namespace Sys2Proof.Machine

/-- The value of a quick or shift count field: 0 means 8 (rule R106). -/
def quickValue (data : Reg) : Nat := if data = 0 then 8 else data.val

/-- A destination replaced by a sum or difference with X, N, Z, V, C set (rules R202, R210). -/
def arithmeticTo (sz : Size) (ea : Ea) (f : Long → Sum) : M Unit :=
  modifyEa sz ea fun d => do
    let u := f d
    updSr fun q => q.arithmetic sz u
    pure u.r

/-- ADD `<ea>,Dn` (rule R202). -/
def execAddToReg (sz : Size) (dn : Reg) (ea : Ea) (s : State) : Outcome := instr s do
  let v ← operand sz ea
  arithmeticTo sz (.dn dn) fun d => addFlags sz v d false

/-- ADD `Dn,<ea>` (rule R202). -/
def execAddToMem (sz : Size) (dn : Reg) (ea : Ea) (s : State) : Outcome := instr s do
  let v ← dataReg sz dn
  arithmeticTo sz ea fun d => addFlags sz v d false

/-- ADDA: all 32 bits, flags unaffected (rules R23, R203). -/
def execAdda (long : Bool) (an : Reg) (ea : Ea) (s : State) : Outcome := instr s do
  let v ← operand (sizeOfBit long) ea
  upd fun s => s.putA an (s.getA an + (sizeOfBit long).sext v)

/-- ADDI (rule R204). -/
def execAddi (sz : Size) (v : Long) (ea : Ea) (s : State) : Outcome := instr s do
  skipImmediate sz
  arithmeticTo sz ea fun d => addFlags sz (sz.trunc v) d false

/-- ADDQ: an address register is added to whole, flags unaffected (rule R205). -/
def execAddq (data : Reg) (sz : Size) (ea : Ea) (s : State) : Outcome := instr s do
  let v : Long := BitVec.ofNat 32 (quickValue data)
  match ea with
  | .an r => upd fun s => s.putA r (s.getA r + v)
  | ea => arithmeticTo sz ea fun d => addFlags sz v d false

/-- The extended arithmetic of ADDX and SUBX: Z is only ever cleared (rules R206, R214). -/
def extendedTo (sz : Size) (mem : Bool) (rx ry : Reg) (f : Long → Long → Bool → Sum) : M Unit := do
  let (v, d, loc) ← operandPair sz mem rx ry
  let x ← ask fun s => s.sr.x
  let u := f v d x
  updSr fun q => q.extended sz u
  writeLoc sz loc u.r

/-- ADDX (rule R206). -/
def execAddx (sz : Size) (mem : Bool) (rx ry : Reg) (s : State) : Outcome :=
  instr s (extendedTo sz mem rx ry (addFlags sz))

/-- SUB `<ea>,Dn` (rule R210). -/
def execSubToReg (sz : Size) (dn : Reg) (ea : Ea) (s : State) : Outcome := instr s do
  let v ← operand sz ea
  arithmeticTo sz (.dn dn) fun d => subFlags sz v d false

/-- SUB `Dn,<ea>` (rule R210). -/
def execSubToMem (sz : Size) (dn : Reg) (ea : Ea) (s : State) : Outcome := instr s do
  let v ← dataReg sz dn
  arithmeticTo sz ea fun d => subFlags sz v d false

/-- SUBA (rule R211). -/
def execSuba (long : Bool) (an : Reg) (ea : Ea) (s : State) : Outcome := instr s do
  let v ← operand (sizeOfBit long) ea
  upd fun s => s.putA an (s.getA an - (sizeOfBit long).sext v)

/-- SUBI (rule R212). -/
def execSubi (sz : Size) (v : Long) (ea : Ea) (s : State) : Outcome := instr s do
  skipImmediate sz
  arithmeticTo sz ea fun d => subFlags sz (sz.trunc v) d false

/-- SUBQ (rule R213). -/
def execSubq (data : Reg) (sz : Size) (ea : Ea) (s : State) : Outcome := instr s do
  let v : Long := BitVec.ofNat 32 (quickValue data)
  match ea with
  | .an r => upd fun s => s.putA r (s.getA r - v)
  | ea => arithmeticTo sz ea fun d => subFlags sz v d false

/-- SUBX (rule R214). -/
def execSubx (sz : Size) (mem : Bool) (rx ry : Reg) (s : State) : Outcome :=
  instr s (extendedTo sz mem rx ry (subFlags sz))

/-- Comparing destination `d` with source `v`: nothing is stored (rule R218). -/
def compareWith (sz : Size) (v d : Long) : M Unit :=
  updSr fun q => q.compared sz (subFlags sz v d false)

/-- CMP (rule R218). -/
def execCmp (sz : Size) (dn : Reg) (ea : Ea) (s : State) : Outcome := instr s do
  let v ← operand sz ea
  let d ← dataReg sz dn
  compareWith sz v d

/-- CMPA: always on 32 bits (rule R219). -/
def execCmpa (long : Bool) (an : Reg) (ea : Ea) (s : State) : Outcome := instr s do
  let v ← operand (sizeOfBit long) ea
  let d ← ask fun s => s.getA an
  compareWith .long ((sizeOfBit long).sext v) d

/-- CMPI (rule R220). -/
def execCmpi (sz : Size) (v : Long) (ea : Ea) (s : State) : Outcome := instr s do
  skipImmediate sz
  let d ← operand sz ea
  compareWith sz (sz.trunc v) d

/-- CMPM `(Ay)+,(Ax)+`: source first (rule R221). -/
def execCmpm (sz : Size) (ax ay : Reg) (s : State) : Outcome := instr s do
  let v ← operand sz (.postInc ay)
  let d ← operand sz (.postInc ax)
  compareWith sz v d

/-- NEG (rule R224). -/
def execNeg (sz : Size) (ea : Ea) (s : State) : Outcome := instr s do
  arithmeticTo sz ea fun d => subFlags sz d 0 false

/-- NEGX: Z is only ever cleared (rule R225). -/
def execNegx (sz : Size) (ea : Ea) (s : State) : Outcome := instr s do
  modifyEa sz ea fun d => do
    let x ← ask fun s => s.sr.x
    let u := subFlags sz d 0 x
    updSr fun q => q.extended sz u
    pure u.r

/-- CLR: a memory destination is read first (rule R226; log 25). -/
def execClr (sz : Size) (ea : Ea) (s : State) : Outcome := instr s do
  overwriteEa sz ea do
    updSr fun q => { q with n := false, z := true, v := false, c := false }
    pure 0

/-- EXT.W (rule R227). -/
def execExtW (dn : Reg) (s : State) : Outcome := instr s do
  let b ← dataReg .byte dn
  let r := Size.word.trunc (Size.byte.sext b)
  updSr fun q => q.logic .word r
  setDataReg .word dn r

/-- EXT.L (rule R227). -/
def execExtL (dn : Reg) (s : State) : Outcome := instr s do
  let w ← dataReg .word dn
  let r := Size.word.sext w
  updSr fun q => q.logic .long r
  setDataReg .long dn r

/-- TST (rule R236). -/
def execTst (sz : Size) (ea : Ea) (s : State) : Outcome := instr s do
  let v ← operand sz ea
  updSr fun q => q.logic sz v

/-- TAS: flags from the value before the set; the read and the write are one indivisible cycle (rules R76, R87, R237). -/
def execTas (ea : Ea) (s : State) : Outcome := instr s do
  modifyIndivisible ea fun v => do
    updSr fun q => q.logic .byte v
    pure (v ||| 0x80)

/-- MULS (rule R230). -/
def execMuls (dn : Reg) (ea : Ea) (s : State) : Outcome := instr s do
  let v ← operand .word ea
  let d ← dataReg .word dn
  let r : Long := BitVec.ofInt 32 ((Size.word.sext d).toInt * (Size.word.sext v).toInt)
  updSr fun q => q.logic .long r
  upd fun s => s.putD dn r

/-- MULU (rule R231). -/
def execMulu (dn : Reg) (ea : Ea) (s : State) : Outcome := instr s do
  let v ← operand .word ea
  let d ← dataReg .word dn
  let r : Long := BitVec.ofNat 32 (d.toNat * v.toNat)
  updSr fun q => q.logic .long r
  upd fun s => s.putD dn r

/-- A division by zero: C is cleared, N, Z and V are free, then the trap (rules R232, R238, decision D14). -/
def divideByZero : M Unit := do
  let n ← anyBool
  let z ← anyBool
  let v ← anyBool
  updSr fun q => { q with n := n, z := z, v := v, c := false }
  raise (.trap 5)

/-- A division whose quotient does not fit: the register is unchanged, N and Z are free (rule R232, decision D14). -/
def divideOverflow : M Unit := do
  let n ← anyBool
  let z ← anyBool
  updSr fun q => { q with n := n, z := z, v := true, c := false }

/-- The remainder above the quotient, and the flags of the quotient (rules R232, R233). -/
def divideResult (dn : Reg) (quotient remainder : Word) : M Unit := do
  updSr fun q => { q with n := quotient.getLsbD 15, z := quotient == 0, v := false, c := false }
  upd fun s => s.putD dn (remainder ++ quotient)

/-- DIVS: truncation toward zero, the remainder with the dividend's sign (rule R232). -/
def execDivs (dn : Reg) (ea : Ea) (s : State) : Outcome := instr s do
  let v ← operand .word ea
  let d ← ask fun s => s.getD dn
  if v = 0 then divideByZero
  else
    let q := Int.tdiv d.toInt (Size.word.sext v).toInt
    let r := Int.tmod d.toInt (Size.word.sext v).toInt
    if q < -32768 ∨ 32767 < q then divideOverflow
    else divideResult dn (BitVec.ofInt 16 q) (BitVec.ofInt 16 r)

/-- DIVU (rule R233). -/
def execDivu (dn : Reg) (ea : Ea) (s : State) : Outcome := instr s do
  let v ← operand .word ea
  let d ← ask fun s => s.getD dn
  if v = 0 then divideByZero
  else
    let q := d.toNat / v.toNat
    if 65535 < q then divideOverflow
    else divideResult dn (BitVec.ofNat 16 q) (BitVec.ofNat 16 (d.toNat % v.toNat))

end Sys2Proof.Machine
end

