-- ==== Sys2Proof/Machine/Bcd.lean ====
section
/-! DEFINITION. Meanings of the binary coded decimal instructions (45_bcd rules R300 to R305). -/

namespace Sys2Proof.Machine

/-- ABCD (rule R302). -/
def execAbcd (mem : Bool) (rx ry : Reg) (s : State) : Outcome := instr s do
  let (v, d, loc) ← operandPair .byte mem rx ry
  let r ← decimalAdd (v.setWidth 8) (d.setWidth 8)
  writeLoc .byte loc (r.setWidth 32)

/-- SBCD (rule R303). -/
def execSbcd (mem : Bool) (rx ry : Reg) (s : State) : Outcome := instr s do
  let (v, d, loc) ← operandPair .byte mem rx ry
  let r ← decimalSub (v.setWidth 8) (d.setWidth 8)
  writeLoc .byte loc (r.setWidth 32)

/-- NBCD (rule R304). -/
def execNbcd (ea : Ea) (s : State) : Outcome := instr s do
  modifyEa .byte ea fun d => do
    let r ← decimalSub (d.setWidth 8) 0
    pure (r.setWidth 32)

end Sys2Proof.Machine
end

