-- ==== Sys2Proof/Machine/Bits.lean ====
section
/-! DEFINITION. Meanings of the bit manipulation instructions (44_bit_manipulation rules R290 to R296). -/

namespace Sys2Proof.Machine

/-- The operand size: long for a data register, byte elsewhere (rule R290). -/
def bitSize : Ea → Size
  | .dn _ => .long
  | _ => .byte

/-- The bit of the operand that bit number `b` selects (rule R290). -/
def bitIndex (ea : Ea) (b : Nat) : Nat := b % (bitSize ea).bits

/-- Z receives the complement of the selected bit (rule R291). -/
def testBit (n : Nat) (v : Long) : M Unit := updSr fun q => { q with z := !v.getLsbD n }

/-- The value with only bit `n` set. -/
def oneBit (n : Nat) : Long := BitVec.ofNat 32 (2 ^ n)

/-- Testing a bit (rule R292). -/
def bitTest (b : Nat) (ea : Ea) : M Unit := do
  let v ← operand (bitSize ea) ea
  testBit (bitIndex ea b) v

/-- Testing a bit and writing the operand back with it changed by `f` (rules R293 to R295). -/
def bitModify (b : Nat) (ea : Ea) (f : Long → Long → Long) : M Unit :=
  modifyEa (bitSize ea) ea fun v => do
    testBit (bitIndex ea b) v
    pure (f v (oneBit (bitIndex ea b)))

/-- The operand with the bit inverted. -/
def changeBit (v one : Long) : Long := v ^^^ one
/-- The operand with the bit 0. -/
def clearBit (v one : Long) : Long := v &&& ~~~one
/-- The operand with the bit 1. -/
def setBit (v one : Long) : Long := v ||| one

/-- BTST, static (rule R292). -/
def execBtstStatic (bit : Byte) (ea : Ea) (s : State) : Outcome := instr s do
  skipWord
  bitTest bit.toNat ea

/-- BTST, dynamic (rule R292). -/
def execBtstDynamic (dn : Reg) (ea : Ea) (s : State) : Outcome := instr s do
  let b ← ask fun s => s.getD dn
  bitTest b.toNat ea

/-- BCHG, static (rule R293). -/
def execBchgStatic (bit : Byte) (ea : Ea) (s : State) : Outcome := instr s do
  skipWord
  bitModify bit.toNat ea changeBit

/-- BCHG, dynamic (rules R293, R296). -/
def execBchgDynamic (dn : Reg) (ea : Ea) (s : State) : Outcome := instr s do
  let b ← ask fun s => s.getD dn
  bitModify b.toNat ea changeBit

/-- BCLR, static (rule R294). -/
def execBclrStatic (bit : Byte) (ea : Ea) (s : State) : Outcome := instr s do
  skipWord
  bitModify bit.toNat ea clearBit

/-- BCLR, dynamic (rules R294, R296). -/
def execBclrDynamic (dn : Reg) (ea : Ea) (s : State) : Outcome := instr s do
  let b ← ask fun s => s.getD dn
  bitModify b.toNat ea clearBit

/-- BSET, static (rule R295). -/
def execBsetStatic (bit : Byte) (ea : Ea) (s : State) : Outcome := instr s do
  skipWord
  bitModify bit.toNat ea setBit

/-- BSET, dynamic (rules R295, R296). -/
def execBsetDynamic (dn : Reg) (ea : Ea) (s : State) : Outcome := instr s do
  let b ← ask fun s => s.getD dn
  bitModify b.toNat ea setBit

end Sys2Proof.Machine
end

