-- ==== Sys2Proof/Machine/Control.lean ====
section
/-! DEFINITION. Meanings of the program control instructions (46_program_control rules R310 to R321). -/

namespace Sys2Proof.Machine

/-- The target of a branch from the address after the operation word, with an extension word consumed (rules R106, R310). -/
def branchTarget (d : BrDisp) : M Long := do
  let base ← ask State.pc
  match d with
  | .short d => pure (base + d.signExtend 32)
  | .word d =>
    skipWord
    pure (base + d.signExtend 32)

/-- Bcc (rule R310). -/
def execBcc (cond : Cond) (d : BrDisp) (s : State) : Outcome := instr s do
  let target ← branchTarget d
  let q ← ask State.sr
  if holds cond q then jump target else pure ()

/-- BRA (rule R311). -/
def execBra (d : BrDisp) (s : State) : Outcome := instr s do
  let target ← branchTarget d
  jump target

/-- BSR (rule R312). -/
def execBsr (d : BrDisp) (s : State) : Outcome := instr s do
  let target ← branchTarget d
  let next ← ask State.pc
  pushLong next
  jump target

/-- DBcc (rule R313). -/
def execDbcc (cond : Cond) (dn : Reg) (d : Word) (s : State) : Outcome := instr s do
  let target ← branchTarget (.word d)
  let q ← ask State.sr
  if holds cond q then pure ()
  else
    let count ← dataReg .word dn
    let count' := Size.word.trunc (count - 1)
    setDataReg .word dn count'
    if count' = 0xFFFF then pure () else jump target

/-- Scc: a memory destination is read first (rule R314; log 25). -/
def execScc (cond : Cond) (ea : Ea) (s : State) : Outcome := instr s do
  overwriteEa .byte ea do
    let q ← ask State.sr
    pure (if holds cond q then 0xFF else 0)

/-- JMP (rule R315). -/
def execJmp (ea : Ea) (s : State) : Outcome := instr s do
  let target ← effectiveAddress ea
  jump target

/-- JSR: the target is computed before the push (rule R316). -/
def execJsr (ea : Ea) (s : State) : Outcome := instr s do
  let target ← effectiveAddress ea
  let next ← ask State.pc
  pushLong next
  jump target

/-- RTS (rule R317). -/
def execRts (s : State) : Outcome := instr s do
  let target ← popLong
  jump target

/-- RTR: only the condition codes of the popped word are used (rule R318). -/
def execRtr (s : State) : Outcome := instr s do
  let w ← popWord
  updSr fun q => q.withCcr w
  let target ← popLong
  jump target

/-- NOP (rule R319). -/
def execNop (s : State) : Outcome := instr s (pure ())

end Sys2Proof.Machine
end

