-- ==== Sys2Proof/Machine/DataMovement.lean ====
section
/-! DEFINITION. Meanings of the data movement instructions (40_data_movement rules R160 to R190). -/

namespace Sys2Proof.Machine

/-- MOVE of a size: source completely first, then the extension words of the destination with the fetches that replace them, flags, and the destination (rules R88, R126, R160, R162; log 9, 35). -/
def moveData (sz : Size) (src dst : Ea) : M Unit := do
  let v ← operand sz src
  let pc ← ask State.pc
  replaceWords (eaWords sz dst) (pc + 2)
  let loc ← locate sz dst
  updSr fun q => q.logic sz v
  writeLoc sz loc v

/-- MOVE.B (rule R160). -/
def execMoveB (src dst : Ea) (s : State) : Outcome := instr s (moveData .byte src dst)

/-- MOVE.W (rule R160). -/
def execMoveW (src dst : Ea) (s : State) : Outcome := instr s (moveData .word src dst)

/-- MOVE.L (rule R160). -/
def execMoveL (src dst : Ea) (s : State) : Outcome := instr s (moveData .long src dst)

/-- MOVEA of a size: the whole register is written (rules R23, R161). -/
def moveAddress (sz : Size) (src : Ea) (an : Reg) : M Unit := do
  let v ← operand sz src
  upd fun s => s.putA an (sz.sext v)

/-- MOVEA.W (rule R161). -/
def execMoveaW (src : Ea) (an : Reg) (s : State) : Outcome := instr s (moveAddress .word src an)

/-- MOVEA.L (rule R161). -/
def execMoveaL (src : Ea) (an : Reg) (s : State) : Outcome := instr s (moveAddress .long src an)

/-- MOVEQ (rule R164). -/
def execMoveq (dn : Reg) (data : Byte) (s : State) : Outcome := instr s do
  let v : Long := data.signExtend 32
  updSr fun q => q.logic .long v
  upd fun s => s.putD dn v

/-- The sixteen registers in the order of rule R166. -/
def allRegs : List (Fin 16) := [0, 1, 2, 3, 4, 5, 6, 7, 8, 9, 10, 11, 12, 13, 14, 15]

/-- The registers of a MOVEM mask in every mode but `-(An)`: bit `k` is `R[k]` (rule R168). -/
def maskRegs (mask : Word) : List (Fin 16) := allRegs.filter fun k => mask.getLsbD k.val

/-- The registers of a MOVEM mask with `-(An)`, in the order they are stored: bit `k` is `R[15 - k]` (rule R168). -/
def maskRegsDown (mask : Word) : List (Fin 16) :=
  (allRegs.filter fun k => mask.getLsbD k.val).map fun k => 15 - k

/-- Storing registers upwards from an address (rule R166). -/
def storeUp (sz : Size) (sp : Space) : List (Fin 16) → Long → M Unit
  | [], _ => pure ()
  | k :: ks, addr => do
    let v ← ask fun s => s.getR k
    writeMem sz false sp addr v
    storeUp sz sp ks (addr + BitVec.ofNat 32 sz.bytes)

/-- Storing registers downwards from an address, and the last address (rule R166). -/
def storeDown (sz : Size) (sp : Space) : List (Fin 16) → Long → M Long
  | [], addr => pure addr
  | k :: ks, addr => do
    let v ← ask fun s => s.getR k
    let addr' := addr - BitVec.ofNat 32 sz.bytes
    writeMem sz true sp addr' v
    storeDown sz sp ks addr'

/-- Loading registers upwards from an address, each register whole, and the address after the last (rule R167). -/
def loadUp (sz : Size) (sp : Space) : List (Fin 16) → Long → M Long
  | [], addr => pure addr
  | k :: ks, addr => do
    let v ← readMem sz sp addr
    upd fun s => s.putR k (sz.sext v)
    loadUp sz sp ks (addr + BitVec.ofNat 32 sz.bytes)

/-- MOVEM, registers to memory (rules R166, R168). -/
def execMovemToMem (long : Bool) (mask : Word) (ea : Ea) (s : State) : Outcome := instr s do
  skipWord
  match ea with
  | .preDec r =>
    let start ← ask fun s => s.getA r
    let sp ← ask State.dataSpace
    let last ← storeDown (sizeOfBit long) sp (maskRegsDown mask) start
    upd fun s => s.putA r last
  | ea =>
    let start ← effectiveAddress ea
    let sp ← ask State.dataSpace
    storeUp (sizeOfBit long) sp (maskRegs mask) start

/-- The space of a MOVEM source (rules R119, R120, R123). -/
def sourceSpace (ea : Ea) (s : State) : Space :=
  match ea with
  | .pcDisp _ | .pcIndex _ => s.programSpace
  | _ => s.dataSpace

/-- MOVEM, memory to registers, with the extra word read (rules R167, R168; log 24). -/
def execMovemToRegs (long : Bool) (mask : Word) (ea : Ea) (s : State) : Outcome := instr s do
  skipWord
  let sp ← ask (sourceSpace ea)
  match ea with
  | .postInc r =>
    let start ← ask fun s => s.getA r
    let last ← loadUp (sizeOfBit long) sp (maskRegs mask) start
    let _ ← readWord sp last
    upd fun s => s.putA r last
  | ea =>
    let start ← effectiveAddress ea
    let last ← loadUp (sizeOfBit long) sp (maskRegs mask) start
    let _ ← readWord sp last

/-- MOVEP: bytes of a data register at every second address, high-order byte first (rule R176). -/
def execMovep (toMem long : Bool) (dn an : Reg) (d : Word) (s : State) : Outcome := instr s do
  skipWord
  let addr ← ask fun s => s.getA an + d.signExtend 32
  let sp ← ask State.dataSpace
  let v ← ask fun s => s.getD dn
  match toMem, long with
  | true, true =>
    busWrite8 sp addr (v.extractLsb' 24 8)
    busWrite8 sp (addr + 2) (v.extractLsb' 16 8)
    busWrite8 sp (addr + 4) (v.extractLsb' 8 8)
    busWrite8 sp (addr + 6) (v.extractLsb' 0 8)
  | true, false =>
    busWrite8 sp addr (v.extractLsb' 8 8)
    busWrite8 sp (addr + 2) (v.extractLsb' 0 8)
  | false, true =>
    let b3 ← busRead8 sp addr
    let b2 ← busRead8 sp (addr + 2)
    let b1 ← busRead8 sp (addr + 4)
    let b0 ← busRead8 sp (addr + 6)
    upd fun s => s.putD dn (b3 ++ b2 ++ b1 ++ b0)
  | false, false =>
    let b1 ← busRead8 sp addr
    let b0 ← busRead8 sp (addr + 2)
    setDataReg .word dn ((b1 ++ b0).setWidth 32)

/-- EXG of two data registers (rule R180). -/
def execExgDD (rx ry : Reg) (s : State) : Outcome := instr s do
  let x ← ask fun s => s.getD rx
  let y ← ask fun s => s.getD ry
  upd fun s => (s.putD rx y).putD ry x

/-- EXG of two address registers (rule R180). -/
def execExgAA (rx ry : Reg) (s : State) : Outcome := instr s do
  let x ← ask fun s => s.getA rx
  let y ← ask fun s => s.getA ry
  upd fun s => (s.putA rx y).putA ry x

/-- EXG of a data register and an address register (rule R180). -/
def execExgDA (rx ry : Reg) (s : State) : Outcome := instr s do
  let x ← ask fun s => s.getD rx
  let y ← ask fun s => s.getA ry
  upd fun s => (s.putD rx y).putA ry x

/-- LEA (rule R182). -/
def execLea (an : Reg) (ea : Ea) (s : State) : Outcome := instr s do
  let addr ← effectiveAddress ea
  upd fun s => s.putA an addr

/-- PEA: the address is computed before the push (rule R184). -/
def execPea (ea : Ea) (s : State) : Outcome := instr s do
  let addr ← effectiveAddress ea
  pushLong addr

/-- LINK, in the steps' order (rule R186). -/
def execLink (an : Reg) (d : Word) (s : State) : Outcome := instr s do
  skipWord
  upd fun s => s.putA 7 (s.getA 7 - 4)
  let v ← ask fun s => s.getA an
  let top ← ask fun s => s.getA 7
  let sp ← ask State.dataSpace
  writeMem .long true sp top v
  upd fun s => s.putA an (s.getA 7)
  upd fun s => s.putA 7 (s.getA 7 + d.signExtend 32)

/-- UNLK, in the steps' order (rule R188). -/
def execUnlk (an : Reg) (s : State) : Outcome := instr s do
  upd fun s => s.putA 7 (s.getA an)
  let v ← popLong
  upd fun s => s.putA an v

/-- SWAP (rule R190). -/
def execSwap (dn : Reg) (s : State) : Outcome := instr s do
  let v ← ask fun s => s.getD dn
  let r : Long := v.extractLsb' 0 16 ++ v.extractLsb' 16 16
  updSr fun q => q.logic .long r
  upd fun s => s.putD dn r

end Sys2Proof.Machine
end

