-- ==== Sys2Proof/Machine/Logical.lean ====
section
/-! DEFINITION. Meanings of the logical instructions (42_logical rules R250 to R258). -/

namespace Sys2Proof.Machine

/-- A destination replaced by a logical result, with its flags (rules R250, R251). -/
def logicTo (sz : Size) (ea : Ea) (f : Long → Long) : M Unit :=
  modifyEa sz ea fun d => do
    let r := sz.trunc (f d)
    updSr fun q => q.logic sz r
    pure r

/-- AND `<ea>,Dn` (rule R251). -/
def execAndToReg (sz : Size) (dn : Reg) (ea : Ea) (s : State) : Outcome := instr s do
  let v ← operand sz ea
  logicTo sz (.dn dn) fun d => d &&& v

/-- AND `Dn,<ea>` (rule R251). -/
def execAndToMem (sz : Size) (dn : Reg) (ea : Ea) (s : State) : Outcome := instr s do
  let v ← dataReg sz dn
  logicTo sz ea fun d => d &&& v

/-- ANDI (rule R252). -/
def execAndi (sz : Size) (v : Long) (ea : Ea) (s : State) : Outcome := instr s do
  skipImmediate sz
  logicTo sz ea fun d => d &&& v

/-- OR `<ea>,Dn` (rule R253). -/
def execOrToReg (sz : Size) (dn : Reg) (ea : Ea) (s : State) : Outcome := instr s do
  let v ← operand sz ea
  logicTo sz (.dn dn) fun d => d ||| v

/-- OR `Dn,<ea>` (rule R253). -/
def execOrToMem (sz : Size) (dn : Reg) (ea : Ea) (s : State) : Outcome := instr s do
  let v ← dataReg sz dn
  logicTo sz ea fun d => d ||| v

/-- ORI (rule R254). -/
def execOri (sz : Size) (v : Long) (ea : Ea) (s : State) : Outcome := instr s do
  skipImmediate sz
  logicTo sz ea fun d => d ||| v

/-- EOR (rule R255). -/
def execEor (sz : Size) (dn : Reg) (ea : Ea) (s : State) : Outcome := instr s do
  let v ← dataReg sz dn
  logicTo sz ea fun d => d ^^^ v

/-- EORI (rule R256). -/
def execEori (sz : Size) (v : Long) (ea : Ea) (s : State) : Outcome := instr s do
  skipImmediate sz
  logicTo sz ea fun d => d ^^^ v

/-- NOT (rule R257). -/
def execNot (sz : Size) (ea : Ea) (s : State) : Outcome := instr s do
  logicTo sz ea fun d => ~~~d

end Sys2Proof.Machine
end

