-- ==== Sys2Proof/Machine/Shift.lean ====
section
/-! DEFINITION. Meanings of the shift and rotate instructions (43_shift_rotate rules R270 to R281). -/

namespace Sys2Proof.Machine

/-- The shift count of the register forms (rule R270). -/
def shiftCount (byReg : Bool) (count : Reg) : M Nat :=
  if byReg then ask fun s => (s.getD count).toNat % 64 else pure (quickValue count)

/-- The register form: the count is read before the operand is written (rule R270). -/
def shiftRegister (sz : Size) (byReg : Bool) (count dn : Reg) (f : Nat → Sr → Long → Shift) : M Unit := do
  let n ← shiftCount byReg count
  modifyEa sz (.dn dn) fun v => do
    let q ← ask State.sr
    let u := f n q v
    updSr fun q => q.shift sz u
    pure u.r

/-- The memory form: one step on a word (rules R270, R280). -/
def shiftMemory (ea : Ea) (f : Nat → Sr → Long → Shift) : M Unit :=
  modifyEa .word ea fun v => do
    let q ← ask State.sr
    let u := f 1 q v
    updSr fun q => q.shift .word u
    pure u.r

/-- ASR of a data register (rule R273). -/
def execAsrReg (sz : Size) (byReg : Bool) (count dn : Reg) (s : State) : Outcome :=
  instr s (shiftRegister sz byReg count dn (shifted (stepAsr sz)))

/-- ASR of a word in memory (rule R273). -/
def execAsrMem (ea : Ea) (s : State) : Outcome :=
  instr s (shiftMemory ea (shifted (stepAsr .word)))

/-- ASL of a data register (rule R272). -/
def execAslReg (sz : Size) (byReg : Bool) (count dn : Reg) (s : State) : Outcome :=
  instr s (shiftRegister sz byReg count dn (shifted (stepAsl sz)))

/-- ASL of a word in memory (rule R272). -/
def execAslMem (ea : Ea) (s : State) : Outcome :=
  instr s (shiftMemory ea (shifted (stepAsl .word)))

/-- LSR of a data register (rule R275). -/
def execLsrReg (sz : Size) (byReg : Bool) (count dn : Reg) (s : State) : Outcome :=
  instr s (shiftRegister sz byReg count dn (shifted (stepLsr sz)))

/-- LSR of a word in memory (rule R275). -/
def execLsrMem (ea : Ea) (s : State) : Outcome :=
  instr s (shiftMemory ea (shifted (stepLsr .word)))

/-- LSL of a data register (rule R274). -/
def execLslReg (sz : Size) (byReg : Bool) (count dn : Reg) (s : State) : Outcome :=
  instr s (shiftRegister sz byReg count dn (shifted (stepLsl sz)))

/-- LSL of a word in memory (rule R274). -/
def execLslMem (ea : Ea) (s : State) : Outcome :=
  instr s (shiftMemory ea (shifted (stepLsl .word)))

/-- ROXR of a data register (rule R279). -/
def execRoxrReg (sz : Size) (byReg : Bool) (count dn : Reg) (s : State) : Outcome :=
  instr s (shiftRegister sz byReg count dn (rotatedX (stepRoxr sz)))

/-- ROXR of a word in memory (rule R279). -/
def execRoxrMem (ea : Ea) (s : State) : Outcome :=
  instr s (shiftMemory ea (rotatedX (stepRoxr .word)))

/-- ROXL of a data register (rule R278). -/
def execRoxlReg (sz : Size) (byReg : Bool) (count dn : Reg) (s : State) : Outcome :=
  instr s (shiftRegister sz byReg count dn (rotatedX (stepRoxl sz)))

/-- ROXL of a word in memory (rule R278). -/
def execRoxlMem (ea : Ea) (s : State) : Outcome :=
  instr s (shiftMemory ea (rotatedX (stepRoxl .word)))

/-- ROR of a data register (rule R277). -/
def execRorReg (sz : Size) (byReg : Bool) (count dn : Reg) (s : State) : Outcome :=
  instr s (shiftRegister sz byReg count dn (shifted (stepRor sz)))

/-- ROR of a word in memory (rule R277). -/
def execRorMem (ea : Ea) (s : State) : Outcome :=
  instr s (shiftMemory ea (shifted (stepRor .word)))

/-- ROL of a data register (rule R276). -/
def execRolReg (sz : Size) (byReg : Bool) (count dn : Reg) (s : State) : Outcome :=
  instr s (shiftRegister sz byReg count dn (shifted (stepRol sz)))

/-- ROL of a word in memory (rule R276). -/
def execRolMem (ea : Ea) (s : State) : Outcome :=
  instr s (shiftMemory ea (shifted (stepRol .word)))

end Sys2Proof.Machine
end

