-- ==== Sys2Proof/Machine/System.lean ====
section
/-! DEFINITION. Meanings of the system control instructions (47_system_control rules R340 to R370) and of the words of lines 1010 and 1111 (60_exceptions rule R451). -/

namespace Sys2Proof.Machine

/-- ANDI to CCR (rule R350). -/
def execAndiToCcr (v : Byte) (s : State) : Outcome := instr s do
  skipWord
  updSr fun q => q.withCcr (q.toWord &&& v.setWidth 16)

/-- EORI to CCR (rule R352). -/
def execEoriToCcr (v : Byte) (s : State) : Outcome := instr s do
  skipWord
  updSr fun q => q.withCcr (q.toWord ^^^ v.setWidth 16)

/-- ORI to CCR (rule R354). -/
def execOriToCcr (v : Byte) (s : State) : Outcome := instr s do
  skipWord
  updSr fun q => q.withCcr (q.toWord ||| v.setWidth 16)

/-- ANDI to SR, privileged (rule R351). -/
def execAndiToSr (v : Word) (s : State) : Outcome := privileged s do
  skipWord
  updSr fun q => Sr.ofWord (q.toWord &&& v)

/-- EORI to SR, privileged (rule R353). -/
def execEoriToSr (v : Word) (s : State) : Outcome := privileged s do
  skipWord
  updSr fun q => Sr.ofWord (q.toWord ^^^ v)

/-- ORI to SR, privileged (rule R355). -/
def execOriToSr (v : Word) (s : State) : Outcome := privileged s do
  skipWord
  updSr fun q => Sr.ofWord (q.toWord ||| v)

/-- MOVE to CCR: a word operand, of which the low byte is used (rule R346). -/
def execMoveToCcr (ea : Ea) (s : State) : Outcome := instr s do
  let v ← operand .word ea
  updSr fun q => q.withCcr (v.setWidth 16)

/-- MOVE to SR, privileged: the operand is read in the old state (rule R347). -/
def execMoveToSr (ea : Ea) (s : State) : Outcome := privileged s do
  let v ← operand .word ea
  updSr fun _ => Sr.ofWord (v.setWidth 16)

/-- MOVE from SR: a memory destination is read first (rule R348; log 25). -/
def execMoveFromSr (ea : Ea) (s : State) : Outcome := instr s do
  overwriteEa .word ea do
    let q ← ask State.sr
    pure (q.toWord.setWidth 32)

/-- MOVE An,USP, privileged (rule R362). -/
def execMoveToUsp (an : Reg) (s : State) : Outcome := privileged s do
  upd fun s => s.withUsp (s.getA an)

/-- MOVE USP,An, privileged (rule R363). -/
def execMoveFromUsp (an : Reg) (s : State) : Outcome := privileged s do
  upd fun s => s.putA an s.usp

/-- RESET, privileged: the external devices are reset, nothing in the processor changes (rules R52, R366; log 27). -/
def execReset (s : State) : Outcome := privileged s do
  upd fun s => s.resetDevices

/-- RTE, privileged (rule R368). -/
def execRte (s : State) : Outcome := privileged s returnFromException

/-- STOP, privileged (rule R370; log 21). -/
def execStop (v : Word) (s : State) : Outcome := privileged s do
  skipWord
  updSr fun _ => Sr.ofWord v
  upd fun s => s.stop

/-- TRAP: vectors 32 to 47 (rule R341). -/
def execTrap (vector : BitVec 4) (s : State) : Outcome := instr s do
  raise (.trap (32 + vector.setWidth 8))

/-- TRAPV (rule R342). -/
def execTrapv (s : State) : Outcome := instr s do
  let q ← ask State.sr
  if q.v then raise (.trap 7) else pure ()

/-- CHK: Z, V and C are free, N is 1 below zero, 0 above the bound and free otherwise (rule R343, decision D6; log 37). -/
def execChk (dn : Reg) (ea : Ea) (s : State) : Outcome := instr s do
  let w ← operand .word ea
  let d ← dataReg .word dn
  let bound := (Size.word.sext w).toInt
  let v := (Size.word.sext d).toInt
  let z ← anyBool
  let o ← anyBool
  let c ← anyBool
  updSr fun q => { q with z := z, v := o, c := c }
  if v < 0 then
    updSr fun q => { q with n := true }
    raise (.trap 6)
  else if bound < v then
    updSr fun q => { q with n := false }
    raise (.trap 6)
  else
    let n ← anyBool
    updSr fun q => { q with n := n }

/-- An operation word of line 1010: the exception of vector 10, before anything else (rule R451). -/
def execLine1010 (_low : BitVec 12) (s : State) : Outcome := s.group1 10 s.pc

/-- An operation word of line 1111: the exception of vector 11, before anything else (rule R451). -/
def execLine1111 (_low : BitVec 12) (s : State) : Outcome := s.group1 11 s.pc

end Sys2Proof.Machine
end

