-- ==== Sys2Proof/Machine/Dispatch.lean ====
section
/-! DEFINITION. Which meaning each instruction has: one arm per constructor of `Instr`, in the order of spec/opcode_table.json. -/

namespace Sys2Proof.Machine

/-- What one instruction does in a state whose PC is the address of its operation word (rule R404). -/
def exec (i : Instr) (s : State) : Host.Outcome State Fault Refusal :=
  match i with
  | .ori sz imm ea => Sys2Proof.Machine.execOri sz imm ea s
  | .andi sz imm ea => Sys2Proof.Machine.execAndi sz imm ea s
  | .subi sz imm ea => Sys2Proof.Machine.execSubi sz imm ea s
  | .addi sz imm ea => Sys2Proof.Machine.execAddi sz imm ea s
  | .eori sz imm ea => Sys2Proof.Machine.execEori sz imm ea s
  | .cmpi sz imm ea => Sys2Proof.Machine.execCmpi sz imm ea s
  | .oriToCcr imm => Sys2Proof.Machine.execOriToCcr imm s
  | .oriToSr imm => Sys2Proof.Machine.execOriToSr imm s
  | .andiToCcr imm => Sys2Proof.Machine.execAndiToCcr imm s
  | .andiToSr imm => Sys2Proof.Machine.execAndiToSr imm s
  | .eoriToCcr imm => Sys2Proof.Machine.execEoriToCcr imm s
  | .eoriToSr imm => Sys2Proof.Machine.execEoriToSr imm s
  | .btstStatic bit ea => Sys2Proof.Machine.execBtstStatic bit ea s
  | .btstDynamic dn ea => Sys2Proof.Machine.execBtstDynamic dn ea s
  | .bchgStatic bit ea => Sys2Proof.Machine.execBchgStatic bit ea s
  | .bchgDynamic dn ea => Sys2Proof.Machine.execBchgDynamic dn ea s
  | .bclrStatic bit ea => Sys2Proof.Machine.execBclrStatic bit ea s
  | .bclrDynamic dn ea => Sys2Proof.Machine.execBclrDynamic dn ea s
  | .bsetStatic bit ea => Sys2Proof.Machine.execBsetStatic bit ea s
  | .bsetDynamic dn ea => Sys2Proof.Machine.execBsetDynamic dn ea s
  | .movep toMem long dn an d => Sys2Proof.Machine.execMovep toMem long dn an d s
  | .moveB src dst => Sys2Proof.Machine.execMoveB src dst s
  | .moveW src dst => Sys2Proof.Machine.execMoveW src dst s
  | .moveaW src an => Sys2Proof.Machine.execMoveaW src an s
  | .moveL src dst => Sys2Proof.Machine.execMoveL src dst s
  | .moveaL src an => Sys2Proof.Machine.execMoveaL src an s
  | .negx sz ea => Sys2Proof.Machine.execNegx sz ea s
  | .clr sz ea => Sys2Proof.Machine.execClr sz ea s
  | .neg sz ea => Sys2Proof.Machine.execNeg sz ea s
  | .not sz ea => Sys2Proof.Machine.execNot sz ea s
  | .tst sz ea => Sys2Proof.Machine.execTst sz ea s
  | .moveFromSr ea => Sys2Proof.Machine.execMoveFromSr ea s
  | .moveToCcr ea => Sys2Proof.Machine.execMoveToCcr ea s
  | .moveToSr ea => Sys2Proof.Machine.execMoveToSr ea s
  | .chk dn ea => Sys2Proof.Machine.execChk dn ea s
  | .lea an ea => Sys2Proof.Machine.execLea an ea s
  | .nbcd ea => Sys2Proof.Machine.execNbcd ea s
  | .swap dn => Sys2Proof.Machine.execSwap dn s
  | .pea ea => Sys2Proof.Machine.execPea ea s
  | .extW dn => Sys2Proof.Machine.execExtW dn s
  | .extL dn => Sys2Proof.Machine.execExtL dn s
  | .movemToMem long mask ea => Sys2Proof.Machine.execMovemToMem long mask ea s
  | .movemToRegs long mask ea => Sys2Proof.Machine.execMovemToRegs long mask ea s
  | .tas ea => Sys2Proof.Machine.execTas ea s
  | .trap vector => Sys2Proof.Machine.execTrap vector s
  | .link an d => Sys2Proof.Machine.execLink an d s
  | .unlk an => Sys2Proof.Machine.execUnlk an s
  | .moveToUsp an => Sys2Proof.Machine.execMoveToUsp an s
  | .moveFromUsp an => Sys2Proof.Machine.execMoveFromUsp an s
  | .reset => Sys2Proof.Machine.execReset s
  | .nop => Sys2Proof.Machine.execNop s
  | .stop imm => Sys2Proof.Machine.execStop imm s
  | .rte => Sys2Proof.Machine.execRte s
  | .rts => Sys2Proof.Machine.execRts s
  | .trapv => Sys2Proof.Machine.execTrapv s
  | .rtr => Sys2Proof.Machine.execRtr s
  | .jsr ea => Sys2Proof.Machine.execJsr ea s
  | .jmp ea => Sys2Proof.Machine.execJmp ea s
  | .addq data sz ea => Sys2Proof.Machine.execAddq data sz ea s
  | .subq data sz ea => Sys2Proof.Machine.execSubq data sz ea s
  | .scc cond ea => Sys2Proof.Machine.execScc cond ea s
  | .dbcc cond dn d => Sys2Proof.Machine.execDbcc cond dn d s
  | .bra d => Sys2Proof.Machine.execBra d s
  | .bsr d => Sys2Proof.Machine.execBsr d s
  | .bcc cond d => Sys2Proof.Machine.execBcc cond d s
  | .moveq dn data => Sys2Proof.Machine.execMoveq dn data s
  | .orToReg sz dn ea => Sys2Proof.Machine.execOrToReg sz dn ea s
  | .orToMem sz dn ea => Sys2Proof.Machine.execOrToMem sz dn ea s
  | .divu dn ea => Sys2Proof.Machine.execDivu dn ea s
  | .divs dn ea => Sys2Proof.Machine.execDivs dn ea s
  | .sbcd mem rx ry => Sys2Proof.Machine.execSbcd mem rx ry s
  | .subToReg sz dn ea => Sys2Proof.Machine.execSubToReg sz dn ea s
  | .subToMem sz dn ea => Sys2Proof.Machine.execSubToMem sz dn ea s
  | .suba long an ea => Sys2Proof.Machine.execSuba long an ea s
  | .subx sz mem rx ry => Sys2Proof.Machine.execSubx sz mem rx ry s
  | .cmp sz dn ea => Sys2Proof.Machine.execCmp sz dn ea s
  | .cmpa long an ea => Sys2Proof.Machine.execCmpa long an ea s
  | .eor sz dn ea => Sys2Proof.Machine.execEor sz dn ea s
  | .cmpm sz ax ay => Sys2Proof.Machine.execCmpm sz ax ay s
  | .andToReg sz dn ea => Sys2Proof.Machine.execAndToReg sz dn ea s
  | .andToMem sz dn ea => Sys2Proof.Machine.execAndToMem sz dn ea s
  | .mulu dn ea => Sys2Proof.Machine.execMulu dn ea s
  | .muls dn ea => Sys2Proof.Machine.execMuls dn ea s
  | .abcd mem rx ry => Sys2Proof.Machine.execAbcd mem rx ry s
  | .exgDD rx ry => Sys2Proof.Machine.execExgDD rx ry s
  | .exgAA rx ry => Sys2Proof.Machine.execExgAA rx ry s
  | .exgDA rx ry => Sys2Proof.Machine.execExgDA rx ry s
  | .addToReg sz dn ea => Sys2Proof.Machine.execAddToReg sz dn ea s
  | .addToMem sz dn ea => Sys2Proof.Machine.execAddToMem sz dn ea s
  | .adda long an ea => Sys2Proof.Machine.execAdda long an ea s
  | .addx sz mem rx ry => Sys2Proof.Machine.execAddx sz mem rx ry s
  | .asrReg sz byReg count dn => Sys2Proof.Machine.execAsrReg sz byReg count dn s
  | .asrMem ea => Sys2Proof.Machine.execAsrMem ea s
  | .aslReg sz byReg count dn => Sys2Proof.Machine.execAslReg sz byReg count dn s
  | .aslMem ea => Sys2Proof.Machine.execAslMem ea s
  | .lsrReg sz byReg count dn => Sys2Proof.Machine.execLsrReg sz byReg count dn s
  | .lsrMem ea => Sys2Proof.Machine.execLsrMem ea s
  | .lslReg sz byReg count dn => Sys2Proof.Machine.execLslReg sz byReg count dn s
  | .lslMem ea => Sys2Proof.Machine.execLslMem ea s
  | .roxrReg sz byReg count dn => Sys2Proof.Machine.execRoxrReg sz byReg count dn s
  | .roxrMem ea => Sys2Proof.Machine.execRoxrMem ea s
  | .roxlReg sz byReg count dn => Sys2Proof.Machine.execRoxlReg sz byReg count dn s
  | .roxlMem ea => Sys2Proof.Machine.execRoxlMem ea s
  | .rorReg sz byReg count dn => Sys2Proof.Machine.execRorReg sz byReg count dn s
  | .rorMem ea => Sys2Proof.Machine.execRorMem ea s
  | .rolReg sz byReg count dn => Sys2Proof.Machine.execRolReg sz byReg count dn s
  | .rolMem ea => Sys2Proof.Machine.execRolMem ea s
  | .line1010 low => Sys2Proof.Machine.execLine1010 low s
  | .line1111 low => Sys2Proof.Machine.execLine1111 low s

end Sys2Proof.Machine
end

