-- ==== Sys2Proof/Machine/Fetch.lean ====
section
/-! DEFINITION. Fetching instructions and the instruction boundary: the execution loop of rule R404 (60_exceptions) and the prefetch queue (20_memory rules R88, R89; decision D24). The meaning of instructions is a parameter; Machine/Step.lean supplies `exec`. -/

namespace Sys2Proof.Machine

/-! The shape of an instruction, from its operation word alone (rule R101). -/

/-- The instruction of an operation word with extension words of zeros, and its length in words; none for an illegal word (rules R101, R150). -/
def shape (w : Word) : Option (Instr × Nat) :=
  match decodeOp w.toNat [0, 0, 0, 0] with
  | .ok (i, rest) => some (i, 5 - rest.length)
  | .error _ => none

/-! Fetching (rules R45, R88, R100 to R102). -/

/-- The two words at PC: the queue, or two fetches where nothing is held; an odd PC is an address error (rules R31, R45). -/
def openQueue : M (Word × Word) := do
  needEvenPc
  match ← ask State.queue with
  | some q => pure q
  | none =>
    let pc ← ask State.pc
    let w0 ← fetchWord pc
    let w1 ← fetchWord (pc + 2)
    pure (w0, w1)

/-- `n` words of the instruction stream from an address. -/
def fetchWords : Nat → Long → M (List Word)
  | 0, _ => pure []
  | n + 1, addr => do
    let w ← fetchWord addr
    let ws ← fetchWords n (addr + 2)
    pure (w :: ws)

/-- The end of a fetch that was aborted; a fetch neither traps nor refuses. -/
def abortFetch (act : Activity) (e : Abort) (s : State) : Outcome :=
  match e with
  | .access k a => s.group0 k a act
  | .fetch k a => s.group0 k a act
  | .reset ipl => s.externalReset ipl
  | .stop f => .fault f
  | .refuse r => .refused r
  | .trap _ => .refused .illFormed

/-- Either of two words, a free choice where they differ. -/
def eitherWord (old new : Word) : M Word := do
  if old = new then pure new
  else
    let b ← anyBool
    pure (if b then new else old)

/-- A word fetched at the end of the instruction that `old` began: where memory has changed since, the old or the new word (rule R88, decision D24; log 8). -/
def prefetchWord (old : State) (addr : Long) : M Word := do
  let sp ← ask State.programSpace
  let new ← fetchWord addr
  match old.platform.readReply sp addr true with
  | .memory => eitherWord (old.wordAt sp addr) new
  | .device | .busError | .noReply => pure new

/-- The word ahead that was fetched when the last extension word was used: where memory has changed since, that word or the new one (rule R88, decision D24; log 8). -/
def heldWord (addr : Long) (held : Word) : M Word := do
  let sp ← ask State.programSpace
  match ← ask fun s => s.platform.readReply sp addr true with
  | .memory =>
    let new ← ask fun s => s.wordAt sp addr
    eitherWord held new
  | .device | .busError | .noReply => pure held

/-- The two words ahead after an instruction of `n` words begun in `old`, of which the first is held: after a one-word instruction it was in the queue already (rules R88, R491). -/
def prefetch (old : State) (n : Nat) (held : Word) : M (Word × Word) := do
  let pc ← ask State.pc
  let w0 ← if n = 1 then pure held else heldWord pc held
  let w1 ← prefetchWord old (pc + 2)
  pure (w0, w1)

/-! The words of an instruction in the order of their fetches (rules R102, R126, R491; log 9). -/

/-- The number of words whose fetches the meaning of the instruction runs itself: those that replace the extension words of MOVE's destination, which are used after the source has been read (rule R126). -/
def lateFetches : Instr → Nat
  | .moveB _ dst => eaWords .byte dst
  | .moveW _ dst => eaWords .word dst
  | .moveL _ dst => eaWords .long dst
  | _ => 0

/-- The source of a MOVE whose destination is an absolute long address. Its low half is the one word of an instruction that is fetched after an operand has been read. -/
def lateSource : Instr → Option (Size × Ea)
  | .moveB src (.absL _) => some (.byte, src)
  | .moveW src (.absL _) => some (.word, src)
  | .moveL src (.absL _) => some (.long, src)
  | _ => none

/-- The word that the fetch from `addr` right after the source operand delivers. Where the source aborts the instruction no word is fetched, and which one is answered does not matter. -/
def lateWord (i : Instr) (addr : Long) (s : State) : Word :=
  match lateSource i with
  | none => 0
  | some (sz, src) =>
    match (operand sz src >>= fun _ => fetchWord addr).run s.opened with
    | .ok w _ => w
    | .error _ t => t.wordAt t.programSpace addr

/-- The instruction of `n` words whose first words have been fetched, in the state in which it begins. -/
def readInstr (ws : List Word) (n : Nat) (s : State) : Except DecodeError (Instr × List Word) :=
  match decode (ws ++ [0]) with
  | .ok (i, _) => decode (ws ++ [lateWord i (s.pc + BitVec.ofNat 32 (2 * (n - 1))) s])
  | .error e => .error e

/-! One instruction (rule R404). -/

/-- Setting the trace pending marker (rule R53). -/
def State.withTrace (s : State) (b : Bool) : State := { s with tracePending := b }

/-- The first instruction of a handler begins: the markers of groups 0, 1 and 2 end (rules R49, R446). -/
def State.begin (s : State) (q : Word × Word) : State :=
  { s with queue := some q, ir := q.1, inGroup0 := false, inGroup1 := false, inGroup2 := false }

/-- The words ahead after the instruction of `n` words begun in `old`: two from the new PC after a change of flow, and so after a change of S, since the next instruction is fetched in another space (rules R320, R345); else the held word and one more. -/
def wordsAhead (old : State) (n : Nat) : M Unit := do
  let sr ← ask State.sr
  let held ← ask State.queue
  match held, sr.s == old.sr.s with
  | some q, true =>
    let q' ← prefetch old n q.2
    upd fun s => s.withQueue q'
  | _, _ =>
    upd fun s => s.dropQueue
    fillQueue

/-- The fetches at the end of the instruction of `n` words begun in `old` that has come to `t`: none in the stopped state (rules R370, R496). A fault of these fetches aborts (rules R89, R441). -/
def refill (old : State) (n : Nat) (t : State) : Outcome :=
  if t.run = .stopped then .next t.dropQueue
  else
    match (wordsAhead old n).run t with
    | .ok _ u => .next u
    | .error e u => abortFetch (.operation false) e (old.settle u)

/-- The end of the instruction begun in `old`: no trace after a group 0 or group 1 exception; else a trace is pending if T was set at the beginning (rules R53, R404, R432). The first words of a handler have been fetched already (rule R413). -/
def finish (old : State) (n : Nat) (o : Outcome) : Outcome :=
  match o with
  | .next t =>
    if t.inGroup0 || t.inGroup1 then .next t
    else if t.inGroup2 then .next (t.withTrace old.sr.t)
    else refill old n (t.withTrace old.sr.t)
  | .fault f => .fault f
  | .refused r => .refused r

/-- Executing the instruction whose first two words are `q`: an illegal word before anything else; then the fetches that replace its extension words, up to those that its meaning runs, and the meaning, which is also where a privilege violation is taken: the words up to the one after the instruction have then been read and are not used (rules R102, R404, R450, R452, R491, R496; log 9, 33). -/
def execute (ex : Instr → State → Outcome) (q : Word × Word) (s : State) : Outcome :=
  match shape q.1 with
  | none => s.group1 4 s.pc
  | some (i0, n) =>
    match (fetchWords (n - 1 - lateFetches i0) (s.pc + 4)).run s with
    | .error e t => abortFetch .extension e t
    | .ok ws t =>
      let u := t.withAhead ((q.2 :: ws).getLastD 0)
      match readInstr (q.1 :: q.2 :: ws) n u with
      | .ok (i, _) => finish u n (ex i u)
      | .error _ => u.group1 4 u.pc

/-- Fetching and executing one instruction (rule R404). -/
def fetchExecute (ex : Instr → State → Outcome) (s : State) : Outcome :=
  match openQueue.run s with
  | .error e t => abortFetch (.operation s.inGroup1) e t
  | .ok q t => execute ex q (t.begin q)

/-! The instruction boundary (rule R404). -/

/-- The inputs of this boundary: the first sample, or quiet pins (log 15). -/
def State.sample (s : State) : Sample :=
  match s.pins with
  | [] => Sample.quiet
  | p :: _ => p

/-- The sample is used up, and the other bus masters have written (rule R92; log 16). -/
def State.observe (s : State) : State :=
  { s with pins := s.pins.tail, mem := Memory.writeAll s.mem s.sample.dma }

/-- Whether a request level is accepted: above the mask, or a change to level 7 (rules R421, R423). -/
def State.accepts (s : State) (level : BitVec 3) : Bool :=
  s.sr.i < level || (level == 7 && s.prevIpl != 7)

/-- The level sampled now is the previous one at the next boundary (rule R423). -/
def State.sampled (s : State) (level : BitVec 3) : State := { s with prevIpl := level }

/-- What a boundary does after its inputs are taken: reset, halted, trace, interrupt, stopped, or one instruction (rules R404, R405, R432). -/
def boundary (ex : Instr → State → Outcome) (p : Sample) (s : State) : Outcome :=
  if p.reset then s.externalReset p.ipl
  else if s.run = .halted then .next s
  else if s.tracePending then (s.withTrace false).group1 9 s.pc
  else if s.accepts p.ipl then (s.sampled p.ipl).interrupt p.ipl p.iack
  else if s.run = .stopped then .next (s.sampled p.ipl)
  else fetchExecute ex (s.sampled p.ipl)

/-- One call of the loop of rule R404. -/
def stepWith (ex : Instr → State → Outcome) (s : State) : Outcome :=
  boundary ex s.sample s.observe

/-- Storing the words of an instruction at an address of program space. -/
def State.storeWords (s : State) (addr : Long) : List Word → State
  | [] => s
  | w :: ws => (s.putWord s.programSpace addr w).storeWords (addr + 2) ws

/-- The instruction whose bits are `w` placed where the next step takes its instruction: in program space at PC, and its first two words in the queue (log 12). -/
def placeInstruction (s : State) (nbits w : Nat) : State :=
  match wordsOfBytes (bytesOfTableWord nbits w) with
  | w0 :: w1 :: ws => (s.storeWords s.pc (w0 :: w1 :: ws)).withQueue (w0, w1)
  | _ => s

end Sys2Proof.Machine
end

