-- ==== Sys2Proof/Machine/Step.lean ====
section
/-! DEFINITION. One step of the machine: the loop of rule R404 (Machine/Fetch.lean) over the meanings of Machine/Dispatch.lean. -/

namespace Sys2Proof.Machine

/-- One step (rule R404). -/
def step (s : State) : Host.Outcome State Fault Refusal := stepWith exec s

/-- `s` with the instruction whose bits are `w` as its next instruction (log 12). -/
def State.withFetchWord (s : State) (nbits w : Nat) : State := placeInstruction s nbits w

end Sys2Proof.Machine
end

