-- ==== Sys2Proof/Safety.lean ====
section
/-! DEFINITION. The terms that claims are stated in: what a safe run is, the invariant of the machine, operands that memory answers, results written as plain functions of the state, and what an instruction leaves unchanged. -/

namespace Sys2Proof

/-- The number of extension words of a branch (rule R106). -/
def BrDisp.words : BrDisp → Nat
  | .short _ => 0
  | .word _ => 1

/-- The displacement of a branch (rules R106, R107). -/
def BrDisp.offset : BrDisp → Long
  | .short d => d.signExtend 32
  | .word d => d.signExtend 32

end Sys2Proof

namespace Sys2Proof.Machine

/-! Safe runs and the invariant. -/

/-- A run is safe while the processor is not halted (rule R447, decision D13) and no step stops. -/
def Safe (s : State) : Prop := s.run ≠ .halted

/-- A next state. -/
def IsNext (o : Outcome) : Prop := ∃ t, o = .next t

/-- The invariant: memory is in canonical form (rule R69), in the normal state two words are held ahead exactly where PC is even (rules R31, R45; log 33), and a trace is not pending inside the windows of groups 0 and 1 (rules R404, R446). -/
structure Inv (s : State) : Prop where
  memory : Memory.wf s.mem = true
  queue : s.run = .normal → (s.queue.isSome = true ↔ s.pc.getLsbD 0 = false)
  trace : s.tracePending = true → s.inGroup0 = false ∧ s.inGroup1 = false

/-! Operands that memory answers. -/

/-- A read cycle at an address reaches memory, and nothing comes from outside at any cycle. -/
def State.readsMemory (s : State) (sp : Space) (addr : Long) (word : Bool) : Prop :=
  s.cycles = [] ∧ s.platform.readReply sp addr word = .memory

/-- A write cycle at an address reaches memory, and nothing comes from outside at any cycle. -/
def State.writesMemory (s : State) (sp : Space) (addr : Long) (word : Bool) : Prop :=
  s.cycles = [] ∧ s.platform.writeReply sp addr word = .memory

/-- An operand in memory can be read: aligned (rule R67), and memory answers its cycles (rule R78). -/
def State.canRead (s : State) (sz : Size) (sp : Space) (addr : Long) : Prop :=
  match sz with
  | .byte => s.readsMemory sp addr false
  | .word => addr.getLsbD 0 = false ∧ s.readsMemory sp addr true
  | .long => addr.getLsbD 0 = false ∧ s.readsMemory sp addr true ∧ s.readsMemory sp (addr + 2) true

/-- An operand in memory can be written. -/
def State.canWrite (s : State) (sz : Size) (sp : Space) (addr : Long) : Prop :=
  match sz with
  | .byte => s.writesMemory sp addr false
  | .word => addr.getLsbD 0 = false ∧ s.writesMemory sp addr true
  | .long => addr.getLsbD 0 = false ∧ s.writesMemory sp addr true ∧ s.writesMemory sp (addr + 2) true

/-- A location can be read. -/
def State.readable (s : State) (sz : Size) (loc : Loc) : Prop :=
  match loc with
  | .mem sp addr _ => s.canRead sz sp addr
  | .dreg _ | .areg _ | .imm _ => True

/-- A location can be written: no immediate, and data space (rule R62). -/
def State.writable (s : State) (sz : Size) (loc : Loc) : Prop :=
  match loc with
  | .mem sp addr _ => sp.isProgram = false ∧ s.canWrite sz sp addr
  | .dreg _ | .areg _ => True
  | .imm _ => False

/-- The operand at a location, zero-extended from its size. -/
def State.valueAt (s : State) (sz : Size) (loc : Loc) : Long :=
  match loc with
  | .dreg r => sz.trunc (s.getD r)
  | .areg r => sz.trunc (s.getA r)
  | .mem sp addr _ => s.operandAt sz sp addr
  | .imm v => sz.trunc v

/-- Storing an operand in memory, the halves of a long word in the order of rule R68. -/
def State.putOperand (s : State) (sz : Size) (pre : Bool) (sp : Space) (addr : Long) (v : Long) : State :=
  match sz with
  | .byte => s.putByte sp addr (v.setWidth 8)
  | .word => s.putWord sp addr (v.setWidth 16)
  | .long =>
    if s.lowWordFirst pre then
      (s.putWord sp (addr + 2) (v.extractLsb' 0 16)).putWord sp addr (v.extractLsb' 16 16)
    else
      (s.putWord sp addr (v.extractLsb' 16 16)).putWord sp (addr + 2) (v.extractLsb' 0 16)

/-- Storing an operand at a location (rules R21, R23, R127). -/
def State.store (s : State) (sz : Size) (loc : Loc) (v : Long) : State :=
  match loc with
  | .dreg r => s.putD r (sz.merge (s.getD r) v)
  | .areg r => s.putA r (sz.sext v)
  | .mem sp addr pre => s.putOperand sz pre sp addr v
  | .imm _ => s

/-! The state in which an instruction resolves its operands. -/

/-- PC after the operation word and `n` extension words (rule R29). -/
def State.after (s : State) (n : Nat) : State := s.opened.skip n

/-- The location of an operand after `n` extension words of the instruction itself. -/
def State.loc (s : State) (n : Nat) (sz : Size) (ea : Ea) : Loc := ((s.after n).resolve sz ea).1

/-- The state after an operand has been resolved. -/
def State.resolved (s : State) (n : Nat) (sz : Size) (ea : Ea) : State := ((s.after n).resolve sz ea).2

/-- What is at the effective address of an operand. -/
def State.source (s : State) (n : Nat) (sz : Size) (ea : Ea) : Long := s.valueAt sz (s.loc n sz ea)

/-- The operand at an effective address can be read. -/
def State.canSource (s : State) (n : Nat) (sz : Size) (ea : Ea) : Prop := s.readable sz (s.loc n sz ea)

/-- The operand at an effective address can be read and written. -/
def State.canModify (s : State) (n : Nat) (sz : Size) (ea : Ea) : Prop :=
  s.readable sz (s.loc n sz ea) ∧ s.writable sz (s.loc n sz ea)

/-- An operand replaced by `r`, with the status register `q`. -/
def State.modified (s : State) (n : Nat) (sz : Size) (ea : Ea) (q : Sr) (r : Long) : State :=
  ((s.resolved n sz ea).withSr q).store sz (s.loc n sz ea) r

/-- The address of a control operand (rules R182, R315); 0 where there is none. -/
def State.addressOf (s : State) (n : Nat) (ea : Ea) : Long :=
  match s.loc n .long ea with
  | .mem _ addr _ => addr
  | .dreg _ | .areg _ | .imm _ => 0

/-- The operand forms of `Dy,Dx` and `-(Ay),-(Ax)` (rule R131). -/
def pairEa (mem : Bool) (r : Reg) : Ea := if mem then .preDec r else .dn r

/-- `n` free values have been drawn. -/
def State.drew (s : State) (n : Nat) : State := { s with draws := s.draws + n }

/-- The number of words of an immediate operand (rule R121). -/
def immWords (sz : Size) : Nat := if sz = .long then 2 else 1

/-- The push of a long word (00_scope section 6.3). -/
def State.pushed (s : State) (v : Long) : State :=
  (s.putA 7 (s.getA 7 - 4)).putOperand .long true s.dataSpace (s.getA 7 - 4) v

/-! Exception frames (rules R411, R412). -/

/-- Every byte of memory outside `n` bytes from an address of a space. -/
def SameMemoryOutside (s t : State) (sp : Space) (addr : Long) (n : Nat) : Prop :=
  ∀ sp' addr', (∀ k, k < n → s.platform.key sp' addr' ≠ s.platform.key sp (addr + BitVec.ofNat 32 k)) →
    t.byteAt sp' addr' = s.byteAt sp' addr'

/-- The supervisor stack can take the three-word frame, and the vector can be read. -/
def State.canEnter (s : State) (vector : BitVec 8) : Prop :=
  s.ssp.getLsbD 0 = false ∧ s.writesMemory .supervisorData (s.ssp - 2) true ∧
    s.writesMemory .supervisorData (s.ssp - 4) true ∧ s.writesMemory .supervisorData (s.ssp - 6) true ∧
    s.canRead .long .supervisorData (vectorAddress vector)

/-- The three-word frame in memory, in the order of its writes (rule R411). -/
def State.stacked3 (s : State) (old : Sr) (pc : Long) : State :=
  (((s.putWord .supervisorData (s.ssp - 2) (pc.extractLsb' 0 16)).putWord .supervisorData (s.ssp - 6)
    old.toWord).putWord .supervisorData (s.ssp - 4) (pc.extractLsb' 16 16)).withSsp (s.ssp - 6)

/-- Groups 1 and 2 exception processing up to the new PC (rules R410 to R412, R422). -/
def State.vectored (s : State) (mask : Option (BitVec 3)) (vector : BitVec 8) (pc : Long) : State :=
  let u := (s.supervised mask).stacked3 s.sr pc
  u.jumped (u.longAt .supervisorData (vectorAddress vector))

/-- The two words at an even PC are fetched; at an odd PC nothing is (rules R31, R413; log 33). -/
def State.filled (s : State) : State :=
  if s.pc.getLsbD 0 then s else s.withQueue (s.wordAt s.programSpace s.pc, s.wordAt s.programSpace (s.pc + 2))

/-- Memory answers the fetches of the two words at an address of program space, if it is even. -/
def State.canStart (s : State) (pc : Long) : Prop :=
  pc.getLsbD 0 = false → s.readsMemory s.programSpace pc true ∧ s.readsMemory s.programSpace (pc + 2) true

/-- The state that groups 1 and 2 exception processing leaves (rules R410 to R413, R422). -/
def State.entered3 (s : State) (mask : Option (BitVec 3)) (vector : BitVec 8) (pc : Long) : State :=
  (s.vectored mask vector pc).filled

/-- Groups 1 and 2 exception processing runs to its end: stack, vector and the routine's first words. -/
def State.canTake (s : State) (mask : Option (BitVec 3)) (vector : BitVec 8) (pc : Long) : Prop :=
  s.canEnter vector ∧ (s.vectored mask vector pc).canStart (s.vectored mask vector pc).pc

/-- The supervisor stack can take the seven-word frame, the vector can be read, and so can the handler's first words, whatever the bytes of the frame are. -/
def State.canEnter0 (s : State) (k : AccessFault) : Prop :=
  s.ssp.getLsbD 0 = false ∧ s.writesMemory .supervisorData (s.ssp - 2) true ∧
    s.writesMemory .supervisorData (s.ssp - 4) true ∧ s.writesMemory .supervisorData (s.ssp - 6) true ∧
    s.writesMemory .supervisorData (s.ssp - 8) true ∧ s.writesMemory .supervisorData (s.ssp - 10) true ∧
    s.writesMemory .supervisorData (s.ssp - 12) true ∧ s.writesMemory .supervisorData (s.ssp - 14) true ∧
    s.canRead .long .supervisorData (vectorAddress k.vector) ∧
    ∀ t : State, t.platform = s.platform → SameMemoryOutside s t .supervisorData (s.ssp - 14) 14 →
      (s.supervised none).canStart (t.longAt .supervisorData (vectorAddress k.vector))

/-! What is unchanged. -/

/-- Everything but the registers D, A, USP, SSP, PC, SR, memory, the queue and the count of free values. -/
def SameHidden (s t : State) : Prop :=
  t.run = s.run ∧ t.ir = s.ir ∧ t.prevIpl = s.prevIpl ∧ t.inGroup0 = s.inGroup0 ∧ t.inGroup1 = s.inGroup1 ∧
    t.inGroup2 = s.inGroup2 ∧ t.tracePending = s.tracePending ∧ t.platform = s.platform ∧
    t.longSplit = s.longSplit ∧ t.pins = s.pins ∧ t.cycles = s.cycles ∧ t.deviceResets = s.deviceResets

/-- The system byte of the status register. -/
def SameSystem (s t : State) : Prop := t.sr.t = s.sr.t ∧ t.sr.s = s.sr.s ∧ t.sr.i = s.sr.i

/-- All data registers but those of a list. -/
def SameData (s t : State) (except : List Reg) : Prop := ∀ r, r ∉ except → t.getD r = s.getD r

/-- All address registers but those of a list, and the inactive stack pointer. -/
def SameAddress (s t : State) (except : List Reg) : Prop :=
  (∀ r, r ∉ except → t.getA r = s.getA r) ∧ (if s.sr.s then t.usp = s.usp else t.ssp = s.ssp)

/-- What no instruction in user state changes by itself: T, S, the mask, the supervisor stack pointer, the devices and the processing state. -/
def SameSupervisor (s t : State) : Prop :=
  SameSystem s t ∧ t.ssp = s.ssp ∧ t.deviceResets = s.deviceResets ∧ t.run = s.run

/-- Every byte of memory. -/
def SameMemory (s t : State) : Prop := ∀ sp addr, t.byteAt sp addr = s.byteAt sp addr

/-- The address registers that resolving an operand updates (rules R113, R114). -/
def sideRegs : Ea → List Reg
  | .postInc r | .preDec r => [r]
  | _ => []

/-- The data register that an operand is, if it is one. -/
def destRegs : Ea → List Reg
  | .dn r => [r]
  | _ => []

/-- Every byte of memory outside the bytes of a location that is written. -/
def SameMemoryBut (s t : State) (sz : Size) (loc : Loc) : Prop :=
  match loc with
  | .mem sp addr _ => SameMemoryOutside s t sp addr sz.bytes
  | .dreg _ | .areg _ | .imm _ => SameMemory s t

/-! Instructions by what they write. -/

/-- The instructions with one data register as destination, that register, and their other operand. -/
def dataDest : Instr → Option (Reg × Ea)
  | .addToReg _ dn ea | .subToReg _ dn ea | .andToReg _ dn ea | .orToReg _ dn ea => some (dn, ea)
  | .mulu dn ea | .muls dn ea => some (dn, ea)
  | .moveq dn _ | .swap dn | .extW dn | .extL dn => some (dn, .dn dn)
  | .asrReg _ _ _ dn | .aslReg _ _ _ dn | .lsrReg _ _ _ dn | .lslReg _ _ _ dn => some (dn, .dn dn)
  | .roxrReg _ _ _ dn | .roxlReg _ _ _ dn | .rorReg _ _ _ dn | .rolReg _ _ _ dn => some (dn, .dn dn)
  | _ => none

/-- The instructions with one address register as destination, that register, and their other operand. -/
def addressDest : Instr → Option (Reg × Ea)
  | .adda _ an ea | .suba _ an ea | .moveaW ea an | .moveaL ea an | .lea an ea => some (an, ea)
  | .addq _ _ (.an r) | .subq _ _ (.an r) => some (r, .an r)
  | _ => none

/-- The instructions that set condition codes only, and the address registers that reading their operands updates. -/
def compareOnly : Instr → Option (List Reg)
  | .cmp _ _ ea | .cmpa _ _ ea | .cmpi _ _ ea | .tst _ ea | .btstStatic _ ea | .btstDynamic _ ea => some (sideRegs ea)
  | .cmpm _ ax ay => some [ax, ay]
  | _ => none

/-- The instructions that replace the operand at their effective address: the number of their own extension words, the size and the effective address. -/
def operandDest : Instr → Option (Nat × Size × Ea)
  | .addToMem sz _ ea | .subToMem sz _ ea | .andToMem sz _ ea | .orToMem sz _ ea | .eor sz _ ea => some (0, sz, ea)
  | .addi sz _ ea | .subi sz _ ea | .andi sz _ ea | .ori sz _ ea | .eori sz _ ea => some (immWords sz, sz, ea)
  | .neg sz ea | .negx sz ea | .not sz ea | .clr sz ea => some (0, sz, ea)
  | .tas ea | .nbcd ea | .scc _ ea => some (0, .byte, ea)
  | .moveFromSr ea => some (0, .word, ea)
  | .addq _ sz ea | .subq _ sz ea =>
    match ea with
    | .an _ => none
    | _ => some (0, sz, ea)
  | .bchgStatic _ ea | .bclrStatic _ ea | .bsetStatic _ ea => some (1, bitSize ea, ea)
  | .bchgDynamic _ ea | .bclrDynamic _ ea | .bsetDynamic _ ea => some (0, bitSize ea, ea)
  | .asrMem ea | .aslMem ea | .lsrMem ea | .lslMem ea => some (0, .word, ea)
  | .roxrMem ea | .roxlMem ea | .rorMem ea | .rolMem ea => some (0, .word, ea)
  | _ => none

/-- The instructions of `dataDest`, `compareOnly` and `operandDest` that leave all condition codes alone (rule R42). -/
def keepsAll : Instr → Bool
  | .scc _ _ | .moveFromSr _ => true
  | _ => false

/-- Those that leave X, N, V and C alone (rule R42). -/
def keepsAllButZ : Instr → Bool
  | .btstStatic _ _ | .btstDynamic _ _ | .bchgStatic _ _ | .bchgDynamic _ _ | .bclrStatic _ _ | .bclrDynamic _ _ => true
  | .bsetStatic _ _ | .bsetDynamic _ _ => true
  | i => keepsAll i

/-- Those that leave X alone (rule R42). -/
def keepsX : Instr → Bool
  | .andToReg _ _ _ | .orToReg _ _ _ | .mulu _ _ | .muls _ _ | .moveq _ _ | .swap _ | .extW _ | .extL _ => true
  | .rorReg _ _ _ _ | .rolReg _ _ _ _ | .rorMem _ | .rolMem _ => true
  | .cmp _ _ _ | .cmpa _ _ _ | .cmpi _ _ _ | .cmpm _ _ _ | .tst _ _ => true
  | .andToMem _ _ _ | .orToMem _ _ _ | .eor _ _ _ | .andi _ _ _ | .ori _ _ _ | .eori _ _ _ => true
  | .not _ _ | .clr _ _ | .tas _ => true
  | i => keepsAllButZ i

/-- The privileged instructions (rule R340). -/
def isPrivileged : Instr → Bool
  | .oriToSr _ | .andiToSr _ | .eoriToSr _ | .moveToSr _ | .moveToUsp _ | .moveFromUsp _ | .reset
  | .stop _ | .rte => true
  | .ori _ _ _ | .andi _ _ _ | .subi _ _ _ | .addi _ _ _ | .eori _ _ _ | .cmpi _ _ _ | .oriToCcr _
  | .andiToCcr _ | .eoriToCcr _ | .btstStatic _ _ | .btstDynamic _ _ | .bchgStatic _ _
  | .bchgDynamic _ _ | .bclrStatic _ _ | .bclrDynamic _ _ | .bsetStatic _ _ | .bsetDynamic _ _
  | .movep _ _ _ _ _ | .moveB _ _ | .moveW _ _ | .moveaW _ _ | .moveL _ _ | .moveaL _ _ | .negx _ _
  | .clr _ _ | .neg _ _ | .not _ _ | .tst _ _ | .moveFromSr _ | .moveToCcr _ | .chk _ _ | .lea _ _
  | .nbcd _ | .swap _ | .pea _ | .extW _ | .extL _ | .movemToMem _ _ _ | .movemToRegs _ _ _ | .tas _
  | .trap _ | .link _ _ | .unlk _ | .nop | .rts | .trapv | .rtr | .jsr _ | .jmp _ | .addq _ _ _
  | .subq _ _ _ | .scc _ _ | .dbcc _ _ _ | .bra _ | .bsr _ | .bcc _ _ | .moveq _ _ | .orToReg _ _ _
  | .orToMem _ _ _ | .divu _ _ | .divs _ _ | .sbcd _ _ _ | .subToReg _ _ _ | .subToMem _ _ _
  | .suba _ _ _ | .subx _ _ _ _ | .cmp _ _ _ | .cmpa _ _ _ | .eor _ _ _ | .cmpm _ _ _ | .andToReg _ _ _
  | .andToMem _ _ _ | .mulu _ _ | .muls _ _ | .abcd _ _ _ | .exgDD _ _ | .exgAA _ _ | .exgDA _ _
  | .addToReg _ _ _ | .addToMem _ _ _ | .adda _ _ _ | .addx _ _ _ _ | .asrReg _ _ _ _ | .asrMem _
  | .aslReg _ _ _ _ | .aslMem _ | .lsrReg _ _ _ _ | .lsrMem _ | .lslReg _ _ _ _ | .lslMem _
  | .roxrReg _ _ _ _ | .roxrMem _ | .roxlReg _ _ _ _ | .roxlMem _ | .rorReg _ _ _ _ | .rorMem _
  | .rolReg _ _ _ _ | .rolMem _ | .line1010 _ | .line1111 _ => false

/-! The instruction stream (rules R45, R100). -/

/-- The operation word and the word after it: the queue, or memory where nothing is held. -/
def State.nextWords (s : State) : Word × Word :=
  match s.queue with
  | some q => q
  | none => (s.wordAt s.programSpace s.pc, s.wordAt s.programSpace (s.pc + 2))

/-- Word `k` of the instruction stream from PC. -/
def State.streamWord (s : State) (k : Nat) : Word :=
  if k = 0 then s.nextWords.1
  else if k = 1 then s.nextWords.2
  else s.wordAt s.programSpace (s.pc + BitVec.ofNat 32 (2 * k))

/-- The five words that the longest instruction at PC takes. -/
def State.stream (s : State) : List Word :=
  [s.streamWord 0, s.streamWord 1, s.streamWord 2, s.streamWord 3, s.streamWord 4]

/-- An instruction of `n` words can be fetched: PC is even, and memory answers the fetches of its words and of the word after it. -/
def State.canFetch (s : State) (n : Nat) : Prop :=
  s.pc.getLsbD 0 = false ∧ ∀ k, k ≤ n → s.readsMemory s.programSpace (s.pc + BitVec.ofNat 32 (2 * k)) true

/-- The state in which the instruction at the boundary begins, `k` words past its operation word having been fetched: the inputs taken, the interrupt level sampled, the last word fetched held (rules R404, R446, R491). -/
def State.atInstruction (s : State) (k : Nat) : State :=
  ((s.observe.sampled s.sample.ipl).begin s.observe.nextWords).withAhead (s.observe.streamWord k)

/-- The boundary goes on to an instruction: no reset, not halted or stopped, no trace pending, no interrupt accepted (rule R404). -/
def State.runsInstruction (s : State) : Prop :=
  s.sample.reset = false ∧ s.run = .normal ∧ s.tracePending = false ∧ s.accepts s.sample.ipl = false

/-- The vector number an interrupt acknowledge gives where it ends, and how many free values it takes (rules R424 to R426). -/
def State.acknowledged (s : State) (answer : IackResponse) (level : BitVec 3) : Option (BitVec 8 × Nat) :=
  match answer with
  | .vector data => some (data.setWidth 8, 0)
  | .device => some ((Config.device s.draws 7 (busAddress (acknowledgeAddress level))).setWidth 8, 1)
  | .autovector => some (24 + level.setWidth 8, 0)
  | .busError => some (24, 0)
  | .noReply => none

/-- The fetches of the words that replace `n` extension words from PC on have run: the last of them is held (rules R88, R491). -/
def State.replaced (s : State) (n : Nat) : State :=
  if n = 0 then s else s.withAhead (s.wordAt s.programSpace (s.pc + BitVec.ofNat 32 (2 * n)))

/-- Memory answers the fetches that replace `n` extension words from PC on. -/
def State.canReplace (s : State) (n : Nat) : Prop :=
  ∀ k, k < n → s.canRead .word s.programSpace (s.pc + BitVec.ofNat 32 (2 * (k + 1)))

/-- Memory answers the fetches that the meaning of an instruction runs itself (rules R88, R126). -/
def State.canFetchLate (s : State) : Instr → Prop
  | .moveB src dst => (s.resolved 0 .byte src).canReplace (eaWords .byte dst)
  | .moveW src dst => (s.resolved 0 .word src).canReplace (eaWords .word dst)
  | .moveL src dst => (s.resolved 0 .long src).canReplace (eaWords .long dst)
  | _ => True

/-! What comes from outside at a bus cycle (rules R85, R92). -/

/-- The input of a cycle has been taken and the other bus masters have written. -/
def State.heard (s : State) (c : Cycle) : State :=
  { s with cycles := s.cycles.tail, mem := Memory.writeAll s.mem c.dma }

/-- Other masters may write at a cycle; nothing else comes from outside. -/
def Cycle.onlyWrites (c : Cycle) : Prop := c.reset = none ∧ c.reply = .platform ∧ c.second = .platform

/-! The operand references of an instruction, in order, up to and with the first that writes (rules R67, R438). -/

/-- A reference to an operand in memory. -/
structure Reference where
  sz : Size
  write : Bool
  /-- Reached through `-(An)`, or a push (rule R68). -/
  pre : Bool
  sp : Space
  addr : Long
  deriving DecidableEq, Repr

/-- The reference to a location, where it is in memory. -/
def Loc.refer (sz : Size) (write : Bool) : Loc → List Reference
  | .mem sp addr pre => [{ sz := sz, write := write, pre := pre, sp := sp, addr := addr }]
  | .dreg _ | .areg _ | .imm _ => []

/-- The push of a long word. -/
def State.referPush (s : State) : List Reference := (Loc.mem s.dataSpace (s.getA 7 - 4) true).refer .long true

/-- The reads of `Dy,Dx` and `-(Ay),-(Ax)` or `(Ay)+,(Ax)+` operands, and the write of the result where there is one. -/
def State.referPair (s : State) (sz : Size) (src dst : Ea) (write : Bool) : List Reference :=
  let l := ((s.resolved 0 sz src).resolve sz dst).1
  (s.loc 0 sz src).refer sz false ++ l.refer sz false ++ (if write then l.refer sz true else [])

/-- The operand that an instruction reads before anything else: the number of its own extension words, the size and the effective address. -/
def readOperand : Instr → Option (Nat × Size × Ea)
  | .addToReg sz _ ea | .subToReg sz _ ea | .andToReg sz _ ea | .orToReg sz _ ea => some (0, sz, ea)
  | .cmp sz _ ea | .tst sz ea => some (0, sz, ea)
  | .cmpi sz _ ea => some (immWords sz, sz, ea)
  | .adda long _ ea | .suba long _ ea | .cmpa long _ ea => some (0, sizeOfBit long, ea)
  | .moveaW ea _ | .mulu _ ea | .muls _ ea | .divu _ ea | .divs _ ea | .chk _ ea | .moveToCcr ea => some (0, .word, ea)
  | .moveaL ea _ => some (0, .long, ea)
  | .btstStatic _ ea => some (1, bitSize ea, ea)
  | .btstDynamic _ ea => some (0, bitSize ea, ea)
  | .addToMem sz _ ea | .subToMem sz _ ea | .andToMem sz _ ea | .orToMem sz _ ea | .eor sz _ ea => some (0, sz, ea)
  | .addi sz _ ea | .subi sz _ ea | .andi sz _ ea | .ori sz _ ea | .eori sz _ ea => some (immWords sz, sz, ea)
  | .neg sz ea | .negx sz ea | .not sz ea | .clr sz ea | .addq _ sz ea | .subq _ sz ea => some (0, sz, ea)
  | .tas ea | .nbcd ea | .scc _ ea => some (0, .byte, ea)
  | .moveFromSr ea => some (0, .word, ea)
  | .bchgStatic _ ea | .bclrStatic _ ea | .bsetStatic _ ea => some (1, bitSize ea, ea)
  | .bchgDynamic _ ea | .bclrDynamic _ ea | .bsetDynamic _ ea => some (0, bitSize ea, ea)
  | .asrMem ea | .aslMem ea | .lsrMem ea | .lslMem ea => some (0, .word, ea)
  | .roxrMem ea | .roxlMem ea | .rorMem ea | .rolMem ea => some (0, .word, ea)
  | _ => none

/-- The references of MOVE: the source, then the destination. -/
def State.referMove (s : State) (sz : Size) (src dst : Ea) : List Reference :=
  (s.loc 0 sz src).refer sz false ++ ((s.resolved 0 sz src).resolve sz dst).1.refer sz true

/-- The first reference of MOVEM to memory; none where no register is listed. -/
def State.referStores (s : State) (sz : Size) (mask : Word) (ea : Ea) : List Reference :=
  if mask = 0 then []
  else
    match ea with
    | .preDec r => (Loc.mem s.dataSpace (s.getA r - BitVec.ofNat 32 sz.bytes) true).refer sz true
    | ea => (Loc.mem s.dataSpace (s.addressOf 1 ea) false).refer sz true

/-- The first reference of MOVEM from memory; the word that it reads beyond its operands where no register is listed (log 24). -/
def State.referLoads (s : State) (sz : Size) (mask : Word) (ea : Ea) : List Reference :=
  let first := if mask = 0 then .word else sz
  match ea with
  | .postInc r => (Loc.mem s.dataSpace (s.getA r) false).refer first false
  | ea => (Loc.mem (sourceSpace ea s) (s.addressOf 1 ea) false).refer first false

/-- The references of an instruction, up to and with the first that writes and, for MOVEM, MOVEP, RTR and RTE, the first only; none where a privilege check turns it away. -/
def State.references (s : State) (i : Instr) : List Reference :=
  match i with
  | .moveB src dst => s.referMove .byte src dst
  | .moveW src dst => s.referMove .word src dst
  | .moveL src dst => s.referMove .long src dst
  | .moveToSr ea => if s.sr.s then (s.loc 0 .word ea).refer .word false else []
  | .addx sz mem rx ry | .subx sz mem rx ry => s.referPair sz (pairEa mem ry) (pairEa mem rx) true
  | .abcd mem rx ry | .sbcd mem rx ry => s.referPair .byte (pairEa mem ry) (pairEa mem rx) true
  | .cmpm sz ax ay => s.referPair sz (.postInc ay) (.postInc ax) false
  | .bsr _ | .jsr _ | .pea _ | .link _ _ => s.referPush
  | .movemToMem long mask ea => s.referStores (sizeOfBit long) mask ea
  | .movemToRegs long mask ea => s.referLoads (sizeOfBit long) mask ea
  | .movep toMem _ _ an d => (Loc.mem s.dataSpace (s.getA an + d.signExtend 32) false).refer .byte toMem
  | .rte => if s.sr.s then (Loc.mem .supervisorData s.ssp false).refer .word false else []
  | .rts => (Loc.mem s.dataSpace (s.getA 7) false).refer .long false
  | .rtr => (Loc.mem s.dataSpace (s.getA 7) false).refer .word false
  | .unlk an => (Loc.mem s.dataSpace (s.getA an) false).refer .long false
  | i =>
    match readOperand i with
    | some (n, sz, ea) =>
      (s.loc n sz ea).refer sz false ++ (if (operandDest i).isSome then (s.loc n sz ea).refer sz true else [])
    | none => []

/-- The address of the first bus cycle of a reference (rule R68). -/
def Reference.first (r : Reference) (s : State) : Long :=
  if r.write && r.sz == .long && s.lowWordFirst r.pre then r.addr + 2 else r.addr

/-- How a reference faults before it transfers anything: at an odd address, or with BERR in its first cycle (rules R67, R438). -/
def Reference.faults (r : Reference) (s : State) : Option (AccessFault × Long) :=
  if r.sz != .byte && r.addr.getLsbD 0 then some (.address, r.addr)
  else if (if r.write then s.platform.writeReply r.sp (r.first s) (r.sz != .byte) == .busError
      else s.platform.readReply r.sp (r.first s) (r.sz != .byte) == .busError) then some (.bus, r.first s)
  else none

/-! What an aborted instruction leaves (rule R443): nothing here says more than that the locations its rule does not write are unchanged, so no statement depends on what the model chooses among the rest (log 7). -/

/-- The register `R[k]` of 00_scope section 6.2 that a data register is, and an address register. -/
def dataIndex (r : Reg) : Fin 16 := Fin.ofNat 16 r.val
def addressIndex (r : Reg) : Fin 16 := Fin.ofNat 16 (8 + r.val)

/-- The registers, by the numbers of `State.getR`, that the rule of an instruction writes. -/
def writtenRegs : Instr → List (Fin 16)
  | .moveB src dst | .moveW src dst | .moveL src dst =>
    (destRegs dst).map dataIndex ++ (sideRegs src ++ sideRegs dst).map addressIndex
  | .addx _ mem rx ry | .subx _ mem rx ry | .abcd mem rx ry | .sbcd mem rx ry =>
    if mem then [addressIndex rx, addressIndex ry] else [dataIndex rx]
  | .cmpm _ ax ay => [addressIndex ax, addressIndex ay]
  | .bsr _ | .jsr _ | .pea _ | .rts | .rtr | .rte => [15]
  | .link an _ | .unlk an => [15, addressIndex an]
  | .movemToMem _ _ ea => (sideRegs ea).map addressIndex
  | .movemToRegs _ mask ea => maskRegs mask ++ (sideRegs ea).map addressIndex
  | .movep toMem _ dn _ _ => if toMem then [] else [dataIndex dn]
  | .divu dn ea | .divs dn ea => dataIndex dn :: (sideRegs ea).map addressIndex
  | .chk _ ea | .moveToCcr ea | .moveToSr ea => (sideRegs ea).map addressIndex
  | .dbcc _ dn _ => [dataIndex dn]
  | .exgDD rx ry => [dataIndex rx, dataIndex ry]
  | .exgAA rx ry => [addressIndex rx, addressIndex ry]
  | .exgDA rx ry => [dataIndex rx, addressIndex ry]
  | .moveFromUsp an => [addressIndex an]
  | i =>
    match dataDest i, addressDest i, operandDest i, compareOnly i with
    | some (dn, ea), _, _, _ => dataIndex dn :: (sideRegs ea).map addressIndex
    | _, some (an, ea), _, _ => addressIndex an :: (sideRegs ea).map addressIndex
    | _, _, some (_, _, ea), _ => (destRegs ea).map dataIndex ++ (sideRegs ea).map addressIndex
    | _, _, _, some sides => sides.map addressIndex
    | _, _, _, _ => []

/-- The instructions whose rule writes T, S or the mask. -/
def writesSystem : Instr → Bool
  | .andiToSr _ | .eoriToSr _ | .oriToSr _ | .moveToSr _ | .stop _ | .rte => true
  | _ => false

/-- The instructions whose rule writes no condition code (rule R42). -/
def keepsFlags (i : Instr) : Bool :=
  match i with
  | .movemToMem _ _ _ | .movemToRegs _ _ _ | .movep _ _ _ _ _ | .pea _ | .link _ _ | .unlk _ => true
  | .bcc _ _ | .bra _ | .bsr _ | .dbcc _ _ _ | .jmp _ | .jsr _ | .rts | .nop => true
  | .exgDD _ _ | .exgAA _ _ | .exgDA _ _ | .moveToUsp _ | .moveFromUsp _ | .reset | .trap _ | .trapv => true
  | i => keepsAll i || (addressDest i).isSome

/-- The instructions whose rule does not write X (rule R42). -/
def leavesX : Instr → Bool
  | .moveB _ _ | .moveW _ _ | .moveL _ _ | .divu _ _ | .divs _ _ | .chk _ _ => true
  | i => keepsX i || keepsFlags i

/-- How much of a data register the rule of an instruction writes: its low byte, its low word, or all of it (rule R21). -/
def dataSize : Instr → Size
  | .addToReg sz _ _ | .subToReg sz _ _ | .andToReg sz _ _ | .orToReg sz _ _ => sz
  | .asrReg sz _ _ _ | .aslReg sz _ _ _ | .lsrReg sz _ _ _ | .lslReg sz _ _ _ => sz
  | .roxrReg sz _ _ _ | .roxlReg sz _ _ _ | .rorReg sz _ _ _ | .rolReg sz _ _ _ => sz
  | .addx sz _ _ _ | .subx sz _ _ _ => sz
  | .abcd _ _ _ | .sbcd _ _ _ | .moveB _ _ => .byte
  | .moveW _ _ | .extW _ | .dbcc _ _ _ => .word
  | .movep _ long _ _ _ => sizeOfBit long
  | i =>
    match operandDest i with
    | some (_, sz, _) => sz
    | none => .long

/-- The bytes of memory that the rule of an instruction writes: ranges of a space, each of `n` bytes from an address. MOVEP writes every second byte (rule R176). -/
def State.stores (s : State) (i : Instr) : List (Space × Long × Nat) :=
  match i with
  | .movemToMem long mask (.preDec r) =>
    let n := (maskRegs mask).length * (sizeOfBit long).bytes
    [(s.dataSpace, s.getA r - BitVec.ofNat 32 n, n)]
  | .movemToMem long mask ea => [(s.dataSpace, s.addressOf 1 ea, (maskRegs mask).length * (sizeOfBit long).bytes)]
  | .movep true long _ an d =>
    (List.range (sizeOfBit long).bytes).map fun k =>
      (s.dataSpace, s.getA an + d.signExtend 32 + BitVec.ofNat 32 (2 * k), 1)
  | i => ((s.references i).filter (·.write)).map fun r => (r.sp, r.addr, r.sz.bytes)

/-- What an instruction begun in `s` and aborted can leave: everything that its rule does not write is as it was (rules R21, R42, R291, R443). PC, the words ahead and the count of free values are not compared. -/
structure LeftBy (i : Instr) (s u : State) : Prop where
  hidden : SameHidden s u
  registers : ∀ r, r ∉ writtenRegs i → (u.withSr s.sr).getR r = s.getR r
  high : ∀ r, (dataSize i).merge (u.getD r) 0 = (dataSize i).merge (s.getD r) 0
  inactive : if s.sr.s then u.usp = s.usp else u.ssp = s.ssp
  system : writesSystem i = false → SameSystem s u
  flags : keepsFlags i = true → { u.sr with t := s.sr.t, s := s.sr.s, i := s.sr.i } = s.sr
  zeroOnly : keepsAllButZ i = true → u.sr.n = s.sr.n ∧ u.sr.v = s.sr.v ∧ u.sr.c = s.sr.c
  extend : leavesX i = true → u.sr.x = s.sr.x
  memory : ∀ sp addr,
    (∀ w ∈ s.stores i, ∀ k, k < w.2.2 →
      s.platform.key sp addr ≠ s.platform.key w.1 (w.2.1 + BitVec.ofNat 32 k)) →
    u.byteAt sp addr = s.byteAt sp addr

/-- A state in which each register, each field of SR and each byte of memory is that of `s` or that of `t` (rule R443). -/
structure Between (s t u : State) : Prop where
  hidden : SameHidden t u
  data : ∀ r, u.getD r = s.getD r ∨ u.getD r = t.getD r
  address : ∀ r (h : r < 7), u.a[r] = s.a[r] ∨ u.a[r] = t.a[r]
  pointers : (u.usp = s.usp ∨ u.usp = t.usp) ∧ (u.ssp = s.ssp ∨ u.ssp = t.ssp)
  system : (u.sr.t = s.sr.t ∨ u.sr.t = t.sr.t) ∧ (u.sr.s = s.sr.s ∨ u.sr.s = t.sr.s) ∧ (u.sr.i = s.sr.i ∨ u.sr.i = t.sr.i)
  codes : (u.sr.x = s.sr.x ∨ u.sr.x = t.sr.x) ∧ (u.sr.n = s.sr.n ∨ u.sr.n = t.sr.n) ∧ (u.sr.z = s.sr.z ∨ u.sr.z = t.sr.z) ∧
    (u.sr.v = s.sr.v ∨ u.sr.v = t.sr.v) ∧ (u.sr.c = s.sr.c ∨ u.sr.c = t.sr.c)
  memory : ∀ sp addr, u.byteAt sp addr = s.byteAt sp addr ∨ u.byteAt sp addr = t.byteAt sp addr

end Sys2Proof.Machine
end

