-- ==== Sys2Proof/Certificates/Slice0/Obligations.lean ====
section
/-! DEFINITION. The statements for the provers, in the terms of Safety.lean. In each result statement the conclusion is the whole next state: whatever is not named in it is as it was. -/

open Sys2Proof Sys2Proof.Machine

/-! Encoding. -/

/-- Decoding the words of a well-formed instruction gives it back, whatever words follow (rules R100 to R108, R121, R124, R131; the spec gives the encodings as general knowledge, log 1). -/
def Obligations.DecodeOfEncode : Prop :=
  ∀ (i : Instr) (rest : List Word), i.wf = true → decode (encode i ++ rest) = .ok (i, rest)

/-- Words written out from the encodings of the spec, one of each family, and illegal words of rule R150 (general knowledge in the spec, log 1). -/
def Obligations.DecodeSampleWords : Prop :=
  decode [0x76FF] = .ok (.moveq 3 0xFF, []) ∧
  decode [0x48E7, 0xC080] = .ok (.movemToMem true 0xC080 (.preDec 7), []) ∧
  decode [0xD181] = .ok (.addx .long false 0 1, []) ∧
  decode [0x0640, 0x7FFF] = .ok (.addi .word 0x7FFF (.dn 0), []) ∧
  decode [0xB141] = .ok (.eor .word 0 (.dn 1), []) ∧
  decode [0xE3A8] = .ok (.lslReg .long true 1 0, []) ∧
  decode [0x0890, 0x0007] = .ok (.bclrStatic 7 (.ind 0), []) ∧
  decode [0xC101] = .ok (.abcd false 0 1, []) ∧
  decode [0x51C8, 0xFFFC] = .ok (.dbcc .f 0 0xFFFC, []) ∧
  decode [0x4E72, 0x2000] = .ok (.stop 0x2000, []) ∧
  decode [0x4AFC, 0, 0, 0, 0] = .error .illegal ∧
  decode [0x4E74, 0, 0, 0, 0] = .error .illegal ∧
  decode [0x0EC0, 0, 0, 0, 0] = .error .illegal

/-! Values. -/

/-- The flags of an addition and of a subtraction (rules R200, R201, general knowledge in the spec, log 38). -/
def Obligations.AdditionAndSubtractionFlags : Prop :=
  ∀ (sz : Size) (s d : Long) (carry : Bool), sz.fits s = true → sz.fits d = true →
    (let u := addFlags sz s d carry
      let t := d.toNat + s.toNat + bitCode carry
      u.r.toNat = t % 2 ^ sz.bits ∧ (u.c = true ↔ 2 ^ sz.bits ≤ t) ∧
      u.c = ((sz.msb s && sz.msb d) || (!sz.msb u.r && sz.msb d) || (sz.msb s && !sz.msb u.r)) ∧
      u.v = ((sz.msb s && sz.msb d && !sz.msb u.r) || (!sz.msb s && !sz.msb d && sz.msb u.r)) ∧
      (u.v = true ↔ (sz.sext d).toInt + (sz.sext s).toInt + bitCode carry ≠ (sz.sext u.r).toInt) ∧
      ∀ q : Sr, (q.arithmetic sz u).n = sz.msb u.r ∧ (q.arithmetic sz u).z = (u.r == 0)) ∧
    (let u := subFlags sz s d carry
      let r : Int := u.r.toNat
      r = ((d.toNat : Int) - s.toNat - bitCode carry) % (2 ^ sz.bits : Nat) ∧
      (u.c = true ↔ d.toNat < s.toNat + bitCode carry) ∧
      u.c = ((sz.msb s && !sz.msb d) || (sz.msb u.r && !sz.msb d) || (sz.msb s && sz.msb u.r)) ∧
      u.v = ((!sz.msb s && sz.msb d && !sz.msb u.r) || (sz.msb s && !sz.msb d && sz.msb u.r)) ∧
      (u.v = true ↔ (sz.sext d).toInt - (sz.sext s).toInt - bitCode carry ≠ (sz.sext u.r).toInt) ∧
      ∀ q : Sr, (q.arithmetic sz u).n = sz.msb u.r ∧ (q.arithmetic sz u).z = (u.r == 0))

/-- The sixteen conditions by their codes (rule R125, codes and formulas general knowledge in the spec, log 38). -/
def Obligations.ConditionTable : Prop :=
  ∀ q : Sr,
    holds (condOfCode 0) q = true ∧ holds (condOfCode 1) q = false ∧
    holds (condOfCode 2) q = (!q.c && !q.z) ∧ holds (condOfCode 3) q = (q.c || q.z) ∧
    holds (condOfCode 4) q = !q.c ∧ holds (condOfCode 5) q = q.c ∧
    holds (condOfCode 6) q = !q.z ∧ holds (condOfCode 7) q = q.z ∧
    holds (condOfCode 8) q = !q.v ∧ holds (condOfCode 9) q = q.v ∧
    holds (condOfCode 10) q = !q.n ∧ holds (condOfCode 11) q = q.n ∧
    holds (condOfCode 12) q = (q.n == q.v) ∧ holds (condOfCode 13) q = (q.n != q.v) ∧
    holds (condOfCode 14) q = (!q.z && (q.n == q.v)) ∧ holds (condOfCode 15) q = (q.z || (q.n != q.v))

/-- Reading and writing the status register and the condition codes as words (rule R36, general knowledge in the spec, log 2). -/
def Obligations.StatusRegisterWords : Prop :=
  (∀ q : Sr, q.toWord &&& 0x58E0 = 0) ∧ (∀ w : Word, (Sr.ofWord w).toWord = w &&& 0xA71F) ∧
    (∀ q : Sr, Sr.ofWord q.toWord = q) ∧
    ∀ (q : Sr) (w : Word), (q.withCcr w).toWord = (q.toWord &&& 0xFF00) ||| (w &&& 0x001F)

/-- The closed forms of the shifts (rule R281, which the spec derives from rules R272 to R279; log 38). -/
def Obligations.ShiftClosedForms : Prop :=
  ∀ (sz : Size) (n : Nat) (q : Sr) (v : Long), sz.fits v = true →
    let w := sz.bits
    let lsl := shifted (stepLsl sz) n q v
    let asl := shifted (stepAsl sz) n q v
    let lsr := shifted (stepLsr sz) n q v
    let asr := shifted (stepAsr sz) n q v
    (lsl.r.toNat = v.toNat * 2 ^ n % 2 ^ w ∧ lsl.c = (decide (1 ≤ n ∧ n ≤ w) && v.getLsbD (w - n)) ∧ lsl.v = false) ∧
    (asl.r = lsl.r ∧ asl.c = lsl.c ∧
      (asl.v = true ↔ (1 ≤ n ∧ n < w ∧ ¬ ∀ j k, w - 1 - n ≤ j → j < w → w - 1 - n ≤ k → k < w → v.getLsbD j = v.getLsbD k) ∨
        (w ≤ n ∧ v ≠ 0))) ∧
    (lsr.r.toNat = v.toNat / 2 ^ n ∧ lsr.c = (decide (1 ≤ n ∧ n ≤ w) && v.getLsbD (n - 1)) ∧ lsr.v = false) ∧
    ((sz.sext asr.r).toInt = (sz.sext v).toInt / 2 ^ min n (w - 1) ∧
      asr.c = (decide (1 ≤ n) && v.getLsbD (min n w - 1)) ∧ asr.v = false) ∧
    (∀ u ∈ [lsl, asl, lsr, asr], u.x = if n = 0 then q.x else u.c)

/-- The closed forms of the rotates (rule R281, which the spec derives from rules R272 to R279; log 38). -/
def Obligations.RotateClosedForms : Prop :=
  ∀ (sz : Size) (n : Nat) (q : Sr) (v : Long), sz.fits v = true →
    let w := sz.bits
    let k := n % w
    let rol := shifted (stepRol sz) n q v
    let ror := shifted (stepRor sz) n q v
    let k' := n % (w + 1)
    let y := bitCode q.x * 2 ^ w + v.toNat
    let left := y * 2 ^ k' % 2 ^ (w + 1) + y / 2 ^ (w + 1 - k')
    let right := y / 2 ^ k' + y * 2 ^ (w + 1 - k') % 2 ^ (w + 1)
    let roxl := rotatedX (stepRoxl sz) n q v
    let roxr := rotatedX (stepRoxr sz) n q v
    (rol.r.toNat = v.toNat * 2 ^ k % 2 ^ w + v.toNat / 2 ^ (w - k) ∧ rol.c = (decide (0 < n) && rol.r.getLsbD 0)) ∧
    (ror.r.toNat = v.toNat / 2 ^ k + v.toNat * 2 ^ (w - k) % 2 ^ w ∧ ror.c = (decide (0 < n) && sz.msb ror.r)) ∧
    (roxl.r.toNat = left % 2 ^ w ∧ roxl.x = decide (left / 2 ^ w = 1) ∧ roxl.c = roxl.x) ∧
    (roxr.r.toNat = right % 2 ^ w ∧ roxr.x = decide (right / 2 ^ w = 1) ∧ roxr.c = roxr.x) ∧
    rol.x = q.x ∧ ror.x = q.x ∧ rol.v = false ∧ ror.v = false ∧ roxl.v = false ∧ roxr.v = false

/-- The address of an exception vector is four times its number (rule R403). -/
def Obligations.VectorAddressIsFourTimes : Prop :=
  ∀ n : BitVec 8, (vectorAddress n).toNat = 4 * n.toNat

/-- A7 is SSP in supervisor state and USP in user state, at the moment of each access; the other one cannot be reached as an address register, and a change of S, by a write of SR or by exception processing, moves no data (rule R24). -/
def Obligations.ActiveStackPointer : Prop :=
  ∀ (s : State) (v : Long),
    s.getA 7 = (if s.sr.s then s.ssp else s.usp) ∧
    s.putA 7 v = (if s.sr.s then s.withSsp v else s.withUsp v) ∧
    (s.sr.s = true → ∀ r, (s.withUsp v).getA r = s.getA r ∧ (s.putA r v).usp = s.usp) ∧
    (s.sr.s = false → ∀ r, (s.withSsp v).getA r = s.getA r ∧ (s.putA r v).ssp = s.ssp) ∧
    (∀ q : Sr, (s.withSr q).getA 7 = (if q.s then s.ssp else s.usp) ∧ (s.withSr q).ssp = s.ssp ∧
      (s.withSr q).usp = s.usp) ∧
    ∀ mask : Option (BitVec 3), (s.supervised mask).getA 7 = s.ssp ∧ (s.supervised mask).ssp = s.ssp ∧
      (s.supervised mask).usp = s.usp

/-- The operand address of `(An)`, `(An)+` and `-(An)`, in data space, and what becomes of the address register: it steps by one, two or four, and by two for a byte through A7 (rules R112, R113, R114). -/
def Obligations.AddressRegisterIndirect : Prop :=
  ∀ (s : State) (sz : Size) (r : Reg),
    let n : Long := match sz with
      | .byte => if r = 7 then 2 else 1
      | .word => 2
      | .long => 4
    s.dataSpace = (if s.sr.s then .supervisorData else .userData) ∧
    (∃ pre, s.resolve sz (.ind r) = (.mem s.dataSpace (s.getA r) pre, s)) ∧
    (∃ pre, s.resolve sz (.postInc r) = (.mem s.dataSpace (s.getA r) pre, s.putA r (s.getA r + n))) ∧
    ∃ pre, s.resolve sz (.preDec r) = (.mem s.dataSpace (s.getA r - n) pre, s.putA r (s.getA r - n))

/-- Alignment of operands and instructions: a word or long access at an odd address is an address error, transfers nothing and changes nothing; a byte access, and a word or long access at any even address, is never one; an instruction fetch at an odd PC is one, and the step that meets it takes the group 0 exception of that access (rules R31, R67, R404, R440, R442). That the fetch is the next step's, and that its I/N bit is that of the group 1 marker, is the model's reading (log 19, 33). -/
def Obligations.OddAddressesAreErrors : Prop :=
  (∀ (s : State) (sz : Size) (sp : Space) (addr v : Long) (pre : Bool), sz ≠ .byte → addr.getLsbD 0 = true →
    (readMem sz sp addr).run s = .error (.access .address { addr := addr, write := false, space := sp }) s ∧
    (writeMem sz pre sp addr v).run s = .error (.access .address { addr := addr, write := true, space := sp }) s) ∧
  (∀ (s t : State) (sz : Size) (sp : Space) (addr v : Long) (pre : Bool) (a : Access),
    sz = .byte ∨ addr.getLsbD 0 = false →
    (readMem sz sp addr).run s ≠ .error (.access .address a) t ∧
    (writeMem sz pre sp addr v).run s ≠ .error (.access .address a) t) ∧
  (∀ s : State, s.runsInstruction → s.pc.getLsbD 0 = true →
    step s = (s.observe.sampled s.sample.ipl).group0 .address
      { addr := s.pc, write := false, space := s.programSpace } (.operation s.inGroup1))

/-! Results: what an instruction leaves where its operands can be read and written. -/

/-- ADD, SUB, AND, OR, MULU and MULS to a data register (rules R202, R210, R230, R231, R250, R251, R253; log 38). -/
def Obligations.DataRegisterResults : Prop :=
  ∀ (s : State) (sz : Size) (dn : Reg) (ea : Ea), s.canSource 0 sz ea →
    let u := s.resolved 0 sz ea
    let a := addFlags sz (s.source 0 sz ea) (sz.trunc (s.getD dn)) false
    let b := subFlags sz (s.source 0 sz ea) (sz.trunc (s.getD dn)) false
    let n := sz.trunc (s.getD dn) &&& s.source 0 sz ea
    let o := sz.trunc (s.getD dn) ||| s.source 0 sz ea
    exec (.addToReg sz dn ea) s = .next ((u.withSr (s.sr.arithmetic sz a)).putD dn (sz.merge (s.getD dn) a.r)) ∧
    exec (.subToReg sz dn ea) s = .next ((u.withSr (s.sr.arithmetic sz b)).putD dn (sz.merge (s.getD dn) b.r)) ∧
    exec (.andToReg sz dn ea) s = .next ((u.withSr (s.sr.logic sz n)).putD dn (sz.merge (s.getD dn) n)) ∧
    exec (.orToReg sz dn ea) s = .next ((u.withSr (s.sr.logic sz o)).putD dn (sz.merge (s.getD dn) o)) ∧
    (sz = .word →
      let d : Word := (s.getD dn).setWidth 16
      let v : Word := (s.source 0 .word ea).setWidth 16
      let p := BitVec.ofNat 32 (d.toNat * v.toNat)
      let m := BitVec.ofInt 32 (d.toInt * v.toInt)
      exec (.mulu dn ea) s = .next ((u.withSr (s.sr.logic .long p)).putD dn p) ∧
      exec (.muls dn ea) s = .next ((u.withSr (s.sr.logic .long m)).putD dn m))

/-- CMP, CMPA, CMPI, CMPM and TST set condition codes only (rules R218 to R221, R236; log 38, 40). -/
def Obligations.CompareSetsFlags : Prop :=
  ∀ (s : State) (sz : Size),
    (∀ (dn : Reg) (ea : Ea), s.canSource 0 sz ea →
      exec (.cmp sz dn ea) s = .next ((s.resolved 0 sz ea).withSr
        (s.sr.compared sz (subFlags sz (s.source 0 sz ea) (sz.trunc (s.getD dn)) false)))) ∧
    (∀ (long : Bool) (an : Reg) (ea : Ea), s.canSource 0 (sizeOfBit long) ea →
      let u := s.resolved 0 (sizeOfBit long) ea
      exec (.cmpa long an ea) s = .next (u.withSr (s.sr.compared .long
        (subFlags .long ((sizeOfBit long).sext (s.source 0 (sizeOfBit long) ea)) (u.getA an) false)))) ∧
    (∀ (v : Long) (ea : Ea), s.canSource (immWords sz) sz ea →
      exec (.cmpi sz v ea) s = .next ((s.resolved (immWords sz) sz ea).withSr
        (s.sr.compared sz (subFlags sz (sz.trunc v) (s.source (immWords sz) sz ea) false)))) ∧
    (∀ ax ay : Reg,
      let u := s.resolved 0 sz (.postInc ay)
      let w := u.resolve sz (.postInc ax)
      s.canSource 0 sz (.postInc ay) → s.readable sz w.1 →
      exec (.cmpm sz ax ay) s = .next (w.2.withSr
        (s.sr.compared sz (subFlags sz (s.source 0 sz (.postInc ay)) (s.valueAt sz w.1) false)))) ∧
    (∀ ea : Ea, s.canSource 0 sz ea →
      exec (.tst sz ea) s = .next ((s.resolved 0 sz ea).withSr (s.sr.logic sz (s.source 0 sz ea))))

/-- ADDA, SUBA, MOVEA, LEA, and ADDQ and SUBQ to an address register: the whole register, no condition code (rules R23, R161, R182, R203, R205, R211, R213; log 40). -/
def Obligations.AddressRegisterResults : Prop :=
  ∀ (s : State) (an : Reg),
    (∀ (long : Bool) (ea : Ea), s.canSource 0 (sizeOfBit long) ea →
      let u := s.resolved 0 (sizeOfBit long) ea
      let v := (sizeOfBit long).sext (s.source 0 (sizeOfBit long) ea)
      exec (.adda long an ea) s = .next (u.putA an (u.getA an + v)) ∧
      exec (.suba long an ea) s = .next (u.putA an (u.getA an - v)) ∧
      exec (if long then .moveaL ea an else .moveaW ea an) s = .next (u.putA an v)) ∧
    (∀ ea : Ea, ea.isControl = true →
      exec (.lea an ea) s = .next ((s.resolved 0 .long ea).putA an (s.addressOf 0 ea))) ∧
    (∀ (sz : Size) (data : Reg),
      exec (.addq data sz (.an an)) s = .next ((s.after 0).putA an (s.getA an + BitVec.ofNat 32 (quickValue data))) ∧
      exec (.subq data sz (.an an)) s = .next ((s.after 0).putA an (s.getA an - BitVec.ofNat 32 (quickValue data))))

/-- ADD, SUB, AND, OR and EOR of a data register, and ADDI, SUBI, ANDI, ORI and EORI, to an operand (rules R202, R204, R210, R212, R251 to R256; log 38, 40). -/
def Obligations.OperandResults : Prop :=
  ∀ (s : State) (sz : Size) (ea : Ea),
    (∀ dn : Reg, s.canModify 0 sz ea →
      let v := sz.trunc (s.getD dn)
      let d := s.source 0 sz ea
      let a := addFlags sz v d false
      let b := subFlags sz v d false
      exec (.addToMem sz dn ea) s = .next (s.modified 0 sz ea (s.sr.arithmetic sz a) a.r) ∧
      exec (.subToMem sz dn ea) s = .next (s.modified 0 sz ea (s.sr.arithmetic sz b) b.r) ∧
      exec (.andToMem sz dn ea) s = .next (s.modified 0 sz ea (s.sr.logic sz (d &&& v)) (d &&& v)) ∧
      exec (.orToMem sz dn ea) s = .next (s.modified 0 sz ea (s.sr.logic sz (d ||| v)) (d ||| v)) ∧
      exec (.eor sz dn ea) s = .next (s.modified 0 sz ea (s.sr.logic sz (d ^^^ v)) (d ^^^ v))) ∧
    (∀ imm : Long, s.canModify (immWords sz) sz ea →
      let n := immWords sz
      let v := sz.trunc imm
      let d := s.source n sz ea
      let a := addFlags sz v d false
      let b := subFlags sz v d false
      exec (.addi sz imm ea) s = .next (s.modified n sz ea (s.sr.arithmetic sz a) a.r) ∧
      exec (.subi sz imm ea) s = .next (s.modified n sz ea (s.sr.arithmetic sz b) b.r) ∧
      exec (.andi sz imm ea) s = .next (s.modified n sz ea (s.sr.logic sz (d &&& v)) (d &&& v)) ∧
      exec (.ori sz imm ea) s = .next (s.modified n sz ea (s.sr.logic sz (d ||| v)) (d ||| v)) ∧
      exec (.eori sz imm ea) s = .next (s.modified n sz ea (s.sr.logic sz (d ^^^ v)) (d ^^^ v)))

/-- NEG, NEGX, NOT, CLR, TAS, Scc and MOVE from SR (rules R224 to R226, R237, R257, R314, R348; log 2, 25, 38). -/
def Obligations.SingleOperandResults : Prop :=
  ∀ (s : State) (sz : Size) (ea : Ea), s.canModify 0 sz ea →
    let d := s.source 0 sz ea
    let a := subFlags sz d 0 false
    let b := subFlags sz d 0 s.sr.x
    let r := sz.trunc (~~~d)
    (exec (.neg sz ea) s = .next (s.modified 0 sz ea (s.sr.arithmetic sz a) a.r) ∧
      exec (.negx sz ea) s = .next (s.modified 0 sz ea (s.sr.extended sz b) b.r) ∧
      exec (.not sz ea) s = .next (s.modified 0 sz ea (s.sr.logic sz r) r) ∧
      exec (.clr sz ea) s =
        .next (s.modified 0 sz ea { s.sr with n := false, z := true, v := false, c := false } 0)) ∧
    (sz = .byte →
      exec (.tas ea) s = .next (s.modified 0 .byte ea (s.sr.logic .byte d) (d ||| 0x80)) ∧
      ∀ c : Cond, exec (.scc c ea) s = .next (s.modified 0 .byte ea s.sr (if holds c s.sr then 0xFF else 0))) ∧
    (sz = .word → exec (.moveFromSr ea) s = .next (s.modified 0 .word ea s.sr (s.sr.toWord.setWidth 32)))

/-- ADDQ and SUBQ to an operand that is no address register, and MOVEQ (rules R164, R205, R213; log 38). -/
def Obligations.QuickResults : Prop :=
  (∀ (s : State) (data : Reg) (sz : Size) (ea : Ea), s.canModify 0 sz ea → (∀ r, ea ≠ .an r) →
    let v := BitVec.ofNat 32 (if data = 0 then 8 else data.val)
    let a := addFlags sz v (s.source 0 sz ea) false
    let b := subFlags sz v (s.source 0 sz ea) false
    exec (.addq data sz ea) s = .next (s.modified 0 sz ea (s.sr.arithmetic sz a) a.r) ∧
    exec (.subq data sz ea) s = .next (s.modified 0 sz ea (s.sr.arithmetic sz b) b.r)) ∧
  ∀ (s : State) (dn : Reg) (data : Byte),
    exec (.moveq dn data) s =
      .next (((s.after 0).withSr (s.sr.logic .long (data.signExtend 32))).putD dn (data.signExtend 32))

/-- MOVE of each size: the source is read before the destination is resolved and the words that replace its extension words are fetched (rules R88, R126, R160, R162; log 9, 38, 40). -/
def Obligations.MoveResult : Prop :=
  ∀ (s : State) (sz : Size) (src dst : Ea),
    let u := s.resolved 0 sz src
    let w := (u.replaced (eaWords sz dst)).resolve sz dst
    let v := s.source 0 sz src
    s.canSource 0 sz src → u.canReplace (eaWords sz dst) → s.writable sz w.1 →
    exec (match sz with
      | .byte => .moveB src dst
      | .word => .moveW src dst
      | .long => .moveL src dst) s = .next ((w.2.withSr (s.sr.logic sz v)).store sz w.1 v)

/-- ADDX and SUBX, source first, Z only ever cleared (rules R126, R206, R214; log 38, 40). -/
def Obligations.ExtendedResults : Prop :=
  ∀ (s : State) (sz : Size) (mem : Bool) (rx ry : Reg),
    let w := (s.resolved 0 sz (pairEa mem ry)).resolve sz (pairEa mem rx)
    let v := s.source 0 sz (pairEa mem ry)
    let d := s.valueAt sz w.1
    let a := addFlags sz v d s.sr.x
    let b := subFlags sz v d s.sr.x
    s.canSource 0 sz (pairEa mem ry) → s.readable sz w.1 → s.writable sz w.1 →
    exec (.addx sz mem rx ry) s = .next ((w.2.withSr (s.sr.extended sz a)).store sz w.1 a.r) ∧
    exec (.subx sz mem rx ry) s = .next ((w.2.withSr (s.sr.extended sz b)).store sz w.1 b.r)

/-- ABCD, SBCD and NBCD: on decimal digits the decimal result with N and V free; on other digits the result byte and every condition code are free, with X and C one value (rules R300 to R304, decisions D6 and D15; log 22). -/
def Obligations.DecimalResults : Prop :=
  (∀ (s : State) (mem : Bool) (rx ry : Reg),
    let w := (s.resolved 0 .byte (pairEa mem ry)).resolve .byte (pairEa mem rx)
    let v : Byte := (s.source 0 .byte (pairEa mem ry)).setWidth 8
    let d : Byte := (s.valueAt .byte w.1).setWidth 8
    let sum : Int := (bcdValue d : Int) + bcdValue v + bitCode s.sr.x
    let diff : Int := (bcdValue d : Int) - bcdValue v - bitCode s.sr.x
    s.canSource 0 .byte (pairEa mem ry) → s.readable .byte w.1 → s.writable .byte w.1 →
    if bcdValid v && bcdValid d then
      (∃ n o, exec (.abcd mem rx ry) s =
        .next (((w.2.drew 2).withSr { s.sr with
          x := decide (99 < sum), n := n, z := s.sr.z && bcdByte (sum % 100).toNat == 0, v := o,
          c := decide (99 < sum) }).store .byte w.1 ((bcdByte (sum % 100).toNat).setWidth 32))) ∧
      (∃ n o, exec (.sbcd mem rx ry) s =
        .next (((w.2.drew 2).withSr { s.sr with
          x := decide (diff < 0), n := n, z := s.sr.z && bcdByte (diff % 100).toNat == 0, v := o,
          c := decide (diff < 0) }).store .byte w.1 ((bcdByte (diff % 100).toNat).setWidth 32)))
    else
      (∃ (r : Byte) (n z o c : Bool), exec (.abcd mem rx ry) s =
        .next (((w.2.drew 5).withSr { s.sr with x := c, n := n, z := z, v := o, c := c }).store .byte w.1
          (r.setWidth 32))) ∧
      (∃ (r : Byte) (n z o c : Bool), exec (.sbcd mem rx ry) s =
        .next (((w.2.drew 5).withSr { s.sr with x := c, n := n, z := z, v := o, c := c }).store .byte w.1
          (r.setWidth 32)))) ∧
  (∀ (s : State) (ea : Ea), s.canModify 0 .byte ea →
    let d : Byte := (s.source 0 .byte ea).setWidth 8
    let diff : Int := 0 - (bcdValue d : Int) - bitCode s.sr.x
    if bcdValid d then
      ∃ n o, exec (.nbcd ea) s =
        .next ((s.modified 0 .byte ea { s.sr with
          x := decide (diff < 0), n := n, z := s.sr.z && bcdByte (diff % 100).toNat == 0, v := o,
          c := decide (diff < 0) } ((bcdByte (diff % 100).toNat).setWidth 32)).drew 2)
    else
      ∃ (r : Byte) (n z o c : Bool), exec (.nbcd ea) s =
        .next ((s.modified 0 .byte ea { s.sr with x := c, n := n, z := z, v := o, c := c } (r.setWidth 32)).drew 5))

/-- SWAP, EXT, EXG and NOP (rules R180, R190, R227, R319; log 38). -/
def Obligations.RegisterOnlyResults : Prop :=
  ∀ (s : State) (rx ry : Reg),
    let v := s.getD rx
    let h : Long := v.extractLsb' 0 16 ++ v.extractLsb' 16 16
    let b : Word := (v.setWidth 8).signExtend 16
    let l : Long := (v.setWidth 16).signExtend 32
    exec (.swap rx) s = .next (((s.after 0).withSr (s.sr.logic .long h)).putD rx h) ∧
    exec (.extW rx) s = .next (((s.after 0).withSr (s.sr.logic .word (b.setWidth 32))).putD rx
      (v.extractLsb' 16 16 ++ b)) ∧
    exec (.extL rx) s = .next (((s.after 0).withSr (s.sr.logic .long l)).putD rx l) ∧
    exec (.exgDD rx ry) s = .next (((s.after 0).putD rx (s.getD ry)).putD ry (s.getD rx)) ∧
    exec (.exgAA rx ry) s = .next (((s.after 0).putA rx (s.getA ry)).putA ry (s.getA rx)) ∧
    exec (.exgDA rx ry) s = .next (((s.after 0).putD rx (s.getA ry)).putA ry (s.getD rx)) ∧
    exec .nop s = .next (s.after 0)

/-- Shifts and rotates of a data register, with the count, the operand size and what is written, and of a word in memory, by one (rules R270, R271, R280; log 38, 41). -/
def Obligations.ShiftResults : Prop :=
  (∀ (s : State) (sz : Size) (byReg : Bool) (count dn : Reg),
    let n := if byReg then (s.getD count).toNat % 64 else if count = 0 then 8 else count.val
    let v := sz.trunc (s.getD dn)
    let result := fun u : Shift => ((s.after 0).withSr (s.sr.shift sz u)).putD dn (sz.merge (s.getD dn) u.r)
    exec (.asrReg sz byReg count dn) s = .next (result (shifted (stepAsr sz) n s.sr v)) ∧
    exec (.aslReg sz byReg count dn) s = .next (result (shifted (stepAsl sz) n s.sr v)) ∧
    exec (.lsrReg sz byReg count dn) s = .next (result (shifted (stepLsr sz) n s.sr v)) ∧
    exec (.lslReg sz byReg count dn) s = .next (result (shifted (stepLsl sz) n s.sr v)) ∧
    exec (.roxrReg sz byReg count dn) s = .next (result (rotatedX (stepRoxr sz) n s.sr v)) ∧
    exec (.roxlReg sz byReg count dn) s = .next (result (rotatedX (stepRoxl sz) n s.sr v)) ∧
    exec (.rorReg sz byReg count dn) s = .next (result (shifted (stepRor sz) n s.sr v)) ∧
    exec (.rolReg sz byReg count dn) s = .next (result (shifted (stepRol sz) n s.sr v))) ∧
  ∀ (s : State) (ea : Ea), s.canModify 0 .word ea →
    let v := s.source 0 .word ea
    let result := fun u : Shift => s.modified 0 .word ea (s.sr.shift .word u) u.r
    exec (.asrMem ea) s = .next (result (shifted (stepAsr .word) 1 s.sr v)) ∧
    exec (.aslMem ea) s = .next (result (shifted (stepAsl .word) 1 s.sr v)) ∧
    exec (.lsrMem ea) s = .next (result (shifted (stepLsr .word) 1 s.sr v)) ∧
    exec (.lslMem ea) s = .next (result (shifted (stepLsl .word) 1 s.sr v)) ∧
    exec (.roxrMem ea) s = .next (result (rotatedX (stepRoxr .word) 1 s.sr v)) ∧
    exec (.roxlMem ea) s = .next (result (rotatedX (stepRoxl .word) 1 s.sr v)) ∧
    exec (.rorMem ea) s = .next (result (shifted (stepRor .word) 1 s.sr v)) ∧
    exec (.rolMem ea) s = .next (result (shifted (stepRol .word) 1 s.sr v))

/-- BTST, BCHG, BCLR and BSET, static and dynamic (rules R290 to R296; log 38). -/
def Obligations.BitResults : Prop :=
  ∀ (s : State) (ea : Ea),
    let sz := bitSize ea
    (∀ bit : Byte,
      let k := bit.toNat % sz.bits
      let v := s.source 1 sz ea
      let q := { s.sr with z := !v.getLsbD k }
      (s.canSource 1 sz ea → exec (.btstStatic bit ea) s = .next ((s.resolved 1 sz ea).withSr q)) ∧
      (s.canModify 1 sz ea →
        exec (.bchgStatic bit ea) s = .next (s.modified 1 sz ea q (v ^^^ BitVec.twoPow 32 k)) ∧
        exec (.bclrStatic bit ea) s = .next (s.modified 1 sz ea q (v &&& ~~~BitVec.twoPow 32 k)) ∧
        exec (.bsetStatic bit ea) s = .next (s.modified 1 sz ea q (v ||| BitVec.twoPow 32 k)))) ∧
    (∀ dn : Reg,
      let k := (s.getD dn).toNat % sz.bits
      let v := s.source 0 sz ea
      let q := { s.sr with z := !v.getLsbD k }
      (s.canSource 0 sz ea → exec (.btstDynamic dn ea) s = .next ((s.resolved 0 sz ea).withSr q)) ∧
      (s.canModify 0 sz ea →
        exec (.bchgDynamic dn ea) s = .next (s.modified 0 sz ea q (v ^^^ BitVec.twoPow 32 k)) ∧
        exec (.bclrDynamic dn ea) s = .next (s.modified 0 sz ea q (v &&& ~~~BitVec.twoPow 32 k)) ∧
        exec (.bsetDynamic dn ea) s = .next (s.modified 0 sz ea q (v ||| BitVec.twoPow 32 k))))

/-- DIVS and DIVU by a divisor that is not zero: the quotient below the remainder, or an overflow that leaves the register and makes N and Z free (rules R232, R233, decision D14; log 23). -/
def Obligations.DivideResults : Prop :=
  ∀ (s : State) (dn : Reg) (ea : Ea), s.canSource 0 .word ea →
    let u := s.resolved 0 .word ea
    let v : Word := (s.source 0 .word ea).setWidth 16
    v ≠ 0 →
    (∀ q r : Int, (s.getD dn).toInt = q * v.toInt + r → r.natAbs < v.toInt.natAbs →
      (r = 0 ∨ (r < 0 ↔ (s.getD dn).toInt < 0)) →
      if -32768 ≤ q ∧ q ≤ 32767 then
        exec (.divs dn ea) s = .next ((u.withSr { s.sr with
          n := decide (q < 0), z := decide (q = 0), v := false, c := false }).putD dn
            (BitVec.ofInt 16 r ++ BitVec.ofInt 16 q))
      else ∃ n z, exec (.divs dn ea) s =
        .next ((u.drew 2).withSr { s.sr with n := n, z := z, v := true, c := false })) ∧
    (let q := (s.getD dn).toNat / v.toNat
      let r := (s.getD dn).toNat % v.toNat
      if q ≤ 65535 then
        exec (.divu dn ea) s = .next ((u.withSr { s.sr with
          n := q.testBit 15, z := decide (q = 0), v := false, c := false }).putD dn
            (BitVec.ofNat 16 r ++ BitVec.ofNat 16 q))
      else ∃ n z, exec (.divu dn ea) s =
        .next ((u.drew 2).withSr { s.sr with n := n, z := z, v := true, c := false }))

/-- MOVEM from registers to memory, in both directions of storing: every listed register's low bits in memory, everything else as it was (rules R166, R168; log 4, 40). -/
def Obligations.MovemStores : Prop :=
  ∀ (s : State) (long : Bool) (mask : Word), Memory.wf s.mem = true →
    let sz := sizeOfBit long
    (∀ ea : Ea, ea.isControlAlterable = true →
      let start := s.addressOf 1 ea
      let at' := fun k : Nat => start + BitVec.ofNat 32 (k * sz.bytes)
      let regs := maskRegs mask
      (∀ k, k < regs.length → s.canWrite sz s.dataSpace (at' k)) →
      ∃ t, exec (.movemToMem long mask ea) s = .next t ∧
        (∀ k r, regs[k]? = some r → t.operandAt sz s.dataSpace (at' k) = sz.trunc (s.getR r)) ∧
        SameMemoryOutside s t s.dataSpace start (regs.length * sz.bytes) ∧
        t.pc = (s.resolved 1 .long ea).pc ∧ SameData s t [] ∧ SameAddress s t [] ∧ t.sr = s.sr ∧ SameHidden s t ∧
        t.queue = s.queue ∧ t.draws = s.draws) ∧
    (∀ an : Reg,
      let at' := fun k : Nat => s.getA an - BitVec.ofNat 32 ((k + 1) * sz.bytes)
      let regs := maskRegsDown mask
      let low := s.getA an - BitVec.ofNat 32 (regs.length * sz.bytes)
      (∀ k, k < regs.length → s.canWrite sz s.dataSpace (at' k)) →
      ∃ t, exec (.movemToMem long mask (.preDec an)) s = .next t ∧
        (∀ k r, regs[k]? = some r → t.operandAt sz s.dataSpace (at' k) = sz.trunc (s.getR r)) ∧
        t.getA an = low ∧ SameMemoryOutside s t s.dataSpace low (regs.length * sz.bytes) ∧
        t.pc = (s.after 1).pc ∧ SameData s t [] ∧ SameAddress s t [an] ∧ t.sr = s.sr ∧ SameHidden s t ∧
        t.queue = s.queue ∧ t.draws = s.draws)

/-- MOVEM from memory to registers: each listed register whole, sign-extended; with `(An)+` the register ends after the last operand (rules R167, R168; log 24: the word after the last operand is read too). -/
def Obligations.MovemLoads : Prop :=
  ∀ (s : State) (long : Bool) (mask : Word),
    let sz := sizeOfBit long
    let regs := maskRegs mask
    (∀ ea : Ea, ea.isControl = true →
      let sp := sourceSpace ea s
      let at' := fun k : Nat => s.addressOf 1 ea + BitVec.ofNat 32 (k * sz.bytes)
      (∀ k, k < regs.length → s.canRead sz sp (at' k)) → s.canRead .word sp (at' regs.length) →
      ∃ t, exec (.movemToRegs long mask ea) s = .next t ∧
        (∀ k r, regs[k]? = some r → t.getR r = sz.sext (s.operandAt sz sp (at' k))) ∧
        (∀ r, r ∉ regs → t.getR r = s.getR r) ∧ t.pc = (s.resolved 1 .long ea).pc ∧ t.sr = s.sr ∧
        (if s.sr.s then t.usp = s.usp else t.ssp = s.ssp) ∧ SameMemory s t ∧ SameHidden s t ∧
        t.queue = s.queue ∧ t.draws = s.draws) ∧
    (∀ an : Reg,
      let at' := fun k : Nat => s.getA an + BitVec.ofNat 32 (k * sz.bytes)
      (∀ k, k < regs.length → s.canRead sz s.dataSpace (at' k)) → s.canRead .word s.dataSpace (at' regs.length) →
      ∃ t, exec (.movemToRegs long mask (.postInc an)) s = .next t ∧
        (∀ k r, regs[k]? = some r → r.val ≠ 8 + an.val → t.getR r = sz.sext (s.operandAt sz s.dataSpace (at' k))) ∧
        (∀ r : Fin 16, r ∉ regs → r.val ≠ 8 + an.val → t.getR r = s.getR r) ∧ t.getA an = at' regs.length ∧
        t.pc = (s.after 1).pc ∧ t.sr = s.sr ∧
        (if s.sr.s then t.usp = s.usp else t.ssp = s.ssp) ∧ SameMemory s t ∧ SameHidden s t ∧
        t.queue = s.queue ∧ t.draws = s.draws)

/-- MOVEP: bytes at every second address, the high-order byte first (rule R176; log 1). -/
def Obligations.MovepResults : Prop :=
  ∀ (s : State) (dn an : Reg) (d : Word),
    let u := s.after 1
    let sp := s.dataSpace
    let a := s.getA an + d.signExtend 32
    let v := s.getD dn
    (s.writesMemory sp a false → s.writesMemory sp (a + 2) false →
      exec (.movep true false dn an d) s =
        .next ((u.putByte sp a (v.extractLsb' 8 8)).putByte sp (a + 2) (v.extractLsb' 0 8)) ∧
      (s.writesMemory sp (a + 4) false → s.writesMemory sp (a + 6) false →
        exec (.movep true true dn an d) s =
          .next ((((u.putByte sp a (v.extractLsb' 24 8)).putByte sp (a + 2) (v.extractLsb' 16 8)).putByte sp (a + 4)
            (v.extractLsb' 8 8)).putByte sp (a + 6) (v.extractLsb' 0 8)))) ∧
    (s.readsMemory sp a false → s.readsMemory sp (a + 2) false →
      exec (.movep false false dn an d) s =
        .next (u.putD dn (v.extractLsb' 16 16 ++ (s.byteAt sp a ++ s.byteAt sp (a + 2)))) ∧
      (s.readsMemory sp (a + 4) false → s.readsMemory sp (a + 6) false →
        exec (.movep false true dn an d) s =
          .next (u.putD dn (s.byteAt sp a ++ s.byteAt sp (a + 2) ++ s.byteAt sp (a + 4) ++ s.byteAt sp (a + 6)))))

/-- Bcc, BRA, DBcc and JMP: the target counts from the address after the operation word (rules R310, R311, R313, R315; log 38). -/
def Obligations.BranchResults : Prop :=
  ∀ s : State,
    (∀ (c : Cond) (d : BrDisp), exec (.bcc c d) s =
      .next (if holds c s.sr then (s.after d.words).jumped (s.pc + 2 + d.offset) else s.after d.words)) ∧
    (∀ d : BrDisp, exec (.bra d) s = .next ((s.after d.words).jumped (s.pc + 2 + d.offset))) ∧
    (∀ (c : Cond) (dn : Reg) (d : Word),
      let k : Word := (s.getD dn).setWidth 16 - 1
      let u := (s.after 1).putD dn ((s.getD dn).extractLsb' 16 16 ++ k)
      exec (.dbcc c dn d) s = .next (if holds c s.sr then s.after 1
        else if k = 0xFFFF then u else u.jumped (s.pc + 2 + d.signExtend 32))) ∧
    (∀ ea : Ea, ea.isControl = true →
      exec (.jmp ea) s = .next ((s.resolved 0 .long ea).jumped (s.addressOf 0 ea)))

/-- BSR, JSR, PEA and LINK push a long word on the active stack; RTS, RTR and UNLK pop from it (rules R184, R186, R188, R312, R316 to R318; log 4, 40). -/
def Obligations.StackResults : Prop :=
  (∀ s : State, s.canWrite .long s.dataSpace (s.getA 7 - 4) →
    (∀ d : BrDisp, exec (.bsr d) s =
      .next (((s.after d.words).pushed (s.after d.words).pc).jumped (s.pc + 2 + d.offset))) ∧
    (∀ ea : Ea, ea.isControl = true →
      let u := s.resolved 0 .long ea
      exec (.jsr ea) s = .next ((u.pushed u.pc).jumped (s.addressOf 0 ea)) ∧
      exec (.pea ea) s = .next (u.pushed (s.addressOf 0 ea))) ∧
    (∀ (an : Reg) (d : Word),
      let top := s.getA 7 - 4
      let v := if an = 7 then top else s.getA an
      exec (.link an d) s =
        .next ((((s.after 1).pushed v).putA an top).putA 7 (top + d.signExtend 32)))) ∧
  ∀ s : State,
    let sp := s.dataSpace
    let a := s.getA 7
    (s.canRead .long sp a → exec .rts s = .next (((s.after 0).putA 7 (a + 4)).jumped (s.longAt sp a))) ∧
    (s.canRead .word sp a → s.canRead .long sp (a + 2) →
      exec .rtr s = .next ((((s.after 0).putA 7 (a + 6)).withSr (s.sr.withCcr (s.wordAt sp a))).jumped
        (s.longAt sp (a + 2)))) ∧
    (∀ an : Reg, s.canRead .long sp (s.getA an) →
      exec (.unlk an) s = .next (((s.after 0).putA 7 (s.getA an + 4)).putA an (s.longAt sp (s.getA an))))

/-- ANDI, EORI, ORI and MOVE to CCR: bits 4 to 0 only (rules R344, R346, R350, R352, R354; log 2). -/
def Obligations.ConditionCodeWrites : Prop :=
  ∀ s : State,
    (∀ b : Byte,
      exec (.andiToCcr b) s = .next ((s.after 1).withSr (s.sr.withCcr (s.sr.toWord &&& b.setWidth 16))) ∧
      exec (.eoriToCcr b) s = .next ((s.after 1).withSr (s.sr.withCcr (s.sr.toWord ^^^ b.setWidth 16))) ∧
      exec (.oriToCcr b) s = .next ((s.after 1).withSr (s.sr.withCcr (s.sr.toWord ||| b.setWidth 16)))) ∧
    (∀ ea : Ea, s.canSource 0 .word ea →
      exec (.moveToCcr ea) s =
        .next ((s.resolved 0 .word ea).withSr (s.sr.withCcr ((s.source 0 .word ea).setWidth 16))))

/-- The privileged instructions in supervisor state (rules R347, R351, R353, R355, R362, R363, R366, R368, R370; log 2, 21, 27). -/
def Obligations.SupervisorResults : Prop :=
  ∀ s : State, s.sr.s = true →
    (∀ w : Word,
      exec (.andiToSr w) s = .next ((s.after 1).withSr (Sr.ofWord (s.sr.toWord &&& w))) ∧
      exec (.eoriToSr w) s = .next ((s.after 1).withSr (Sr.ofWord (s.sr.toWord ^^^ w))) ∧
      exec (.oriToSr w) s = .next ((s.after 1).withSr (Sr.ofWord (s.sr.toWord ||| w))) ∧
      exec (.stop w) s = .next (((s.after 1).withSr (Sr.ofWord w)).stop)) ∧
    (∀ ea : Ea, s.canSource 0 .word ea →
      exec (.moveToSr ea) s =
        .next ((s.resolved 0 .word ea).withSr (Sr.ofWord ((s.source 0 .word ea).setWidth 16)))) ∧
    (∀ an : Reg, exec (.moveToUsp an) s = .next ((s.after 0).withUsp (s.getA an)) ∧
      exec (.moveFromUsp an) s = .next ((s.after 0).putA an s.usp)) ∧
    exec .reset s = .next ((s.after 0).resetDevices) ∧
    (s.canRead .word .supervisorData s.ssp → s.canRead .long .supervisorData (s.ssp + 2) →
      exec .rte s = .next ((((s.after 0).withSsp (s.ssp + 6)).withSr (Sr.ofWord (s.wordAt .supervisorData s.ssp))).jumped
        (s.longAt .supervisorData (s.ssp + 2))))

/-! Exceptions. -/

/-- TRAP always, TRAPV if V is set, take the exception of their vector with the address of the next instruction; TRAPV else goes on (rules R341, R342, R460, R461; log 19, 33). -/
def Obligations.TrapResults : Prop :=
  ∀ s : State,
    let u := s.after 0
    (∀ n : BitVec 4, u.canTake none (32 + n.setWidth 8) (s.pc + 2) →
      exec (.trap n) s = .next (u.entered3 none (32 + n.setWidth 8) (s.pc + 2)).markGroup2) ∧
    (s.sr.v = true → u.canTake none 7 (s.pc + 2) → exec .trapv s = .next (u.entered3 none 7 (s.pc + 2)).markGroup2) ∧
    (s.sr.v = false → exec .trapv s = .next u)

/-- CHK inside the bounds goes on with N, Z, V and C free; outside them it takes vector 6 with N telling the side. A divisor of zero: C cleared, N, Z and V free, the register unchanged, vector 5. Both stack the address of the next instruction (rules R232, R233, R238, R343, R461; log 19, 23, 33, 37). -/
def Obligations.CheckAndZeroDivideResults : Prop :=
  ∀ (s : State) (dn : Reg) (ea : Ea), s.canSource 0 .word ea →
    let u := s.resolved 0 .word ea
    let v := ((s.getD dn).setWidth 16 : Word).toInt
    let bound := ((s.source 0 .word ea).setWidth 16 : Word).toInt
    (0 ≤ v ∧ v ≤ bound → ∃ n z o c, exec (.chk dn ea) s =
      .next ((u.drew 4).withSr { s.sr with n := n, z := z, v := o, c := c })) ∧
    (v < 0 ∨ bound < v → (∀ q, ((u.drew 3).withSr q).canTake none 6 u.pc) → ∃ z o c, exec (.chk dn ea) s =
      .next (((u.drew 3).withSr { s.sr with
        n := decide (v < 0), z := z, v := o, c := c }).entered3 none 6 u.pc).markGroup2) ∧
    (s.source 0 .word ea = 0 → (∀ q, ((u.drew 3).withSr q).canTake none 5 u.pc) → ∃ n z o,
      let t := (((u.drew 3).withSr { s.sr with n := n, z := z, v := o, c := false }).entered3 none 5 u.pc).markGroup2
      exec (.divs dn ea) s = .next t ∧ exec (.divu dn ea) s = .next t)

/-- External reset at any bus cycle of an instruction that would complete aborts it there, and what the instruction's rule does not write is as it was (rules R21, R42, R443, R465). `t` is what the instruction leaves where nothing comes from outside at its first `n + 1` cycles, which it runs; the reset comes at the last of them. That each cycle takes one input from a list is the model's choice (log 15), and that a reset leaves what an abort leaves (log 7). -/
def Obligations.ResetAbortsInstruction : Prop :=
  ∀ (s t : State) (i : Instr) (n : Nat) (c : Cycle) (cs : List Cycle) (ipl : BitVec 3), i.wf = true →
    Memory.wf s.mem = true → exec i { s with cycles := List.replicate (n + 1) Cycle.quiet } = .next t → t.cycles = [] →
    t.inGroup0 = false → t.inGroup1 = false → t.inGroup2 = false → c.reset = some ipl →
    ∃ u, LeftBy i { s with cycles := cs, mem := Memory.writeAll s.mem c.dma } u ∧
      exec i { s with cycles := List.replicate n Cycle.quiet ++ c :: cs } = u.externalReset ipl

/-- A privileged instruction in user state does nothing but take vector 8 with its own address; in a step, the words up to the one after the instruction's last have been read before and are not used (rules R340, R404, R452, R496). That they are read before the violation is taken, so that a bus error of one comes first, is the model's reading (log 33), and so is the marker that the exception leaves (log 19). -/
def Obligations.PrivilegeViolations : Prop :=
  (∀ (s : State) (i : Instr), isPrivileged i = true → s.sr.s = false → s.canTake none 8 s.pc →
    exec i s = .next (s.entered3 none 8 s.pc).markGroup1) ∧
  (∀ (s : State) (i : Instr) (n : Nat), s.runsInstruction → s.canFetch n → s.sr.s = false →
    shape s.observe.nextWords.1 = some (i, n) → isPrivileged i = true → (s.atInstruction n).canTake none 8 s.pc →
    step s = .next ((s.atInstruction n).entered3 none 8 s.pc).markGroup1)

/-- A step whose operation word is no instruction takes vector 4, and the words of lines 1010 and 1111 take vectors 10 and 11 in either privilege state, with the address of that word (rules R150, R151, R450, R451). The marker that the exception leaves is the model's reading (log 19), and so is the step in which the handler's words are read (log 33). -/
def Obligations.UnimplementedWordsTrap : Prop :=
  (∀ s : State, s.runsInstruction → s.canFetch 1 → shape s.observe.nextWords.1 = none →
    (s.atInstruction 1).canTake none 4 s.pc →
    step s = .next ((s.atInstruction 1).entered3 none 4 s.pc).markGroup1) ∧
  ∀ (s : State) (low : BitVec 12),
    (s.canTake none 10 s.pc → exec (.line1010 low) s = .next (s.entered3 none 10 s.pc).markGroup1) ∧
    (s.canTake none 11 s.pc → exec (.line1111 low) s = .next (s.entered3 none 11 s.pc).markGroup1)

/-- The three-word frame, read back: status register copy, program counter, the new stack pointer, supervisor state without trace, the vector's contents in PC, the first two words of an even address there held, and nothing else (rules R410 to R413; log 33, 39). -/
def Obligations.ThreeWordFrame : Prop :=
  ∀ (s : State) (mask : Option (BitVec 3)) (n : BitVec 8) (pc : Long), Memory.wf s.mem = true →
    let t := s.entered3 mask n pc
    t.ssp = s.ssp - 6 ∧ t.wordAt .supervisorData t.ssp = s.sr.toWord ∧
    t.wordAt .supervisorData (t.ssp + 2) = pc.extractLsb' 16 16 ∧
    t.wordAt .supervisorData (t.ssp + 4) = pc.extractLsb' 0 16 ∧
    t.pc = t.longAt .supervisorData (vectorAddress n) ∧
    t.sr = { s.sr with s := true, t := false, i := mask.getD s.sr.i } ∧ t.run = .normal ∧
    (t.pc.getLsbD 0 = true → t.queue = none) ∧ (t.pc.getLsbD 0 = false →
      t.queue = some (t.wordAt .supervisorProgram t.pc, t.wordAt .supervisorProgram (t.pc + 2))) ∧
    t.d = s.d ∧ t.a = s.a ∧ t.usp = s.usp ∧ SameMemoryOutside s t .supervisorData (s.ssp - 6) 6

/-- RTE at the frame of a group 1 or group 2 exception gives back the status register, the program counter and the stack pointer from before it (rules R368, R411, R470; log 2). -/
def Obligations.ReturnUndoesEntry : Prop :=
  ∀ (s : State) (mask : Option (BitVec 3)) (n : BitVec 8) (pc : Long), Memory.wf s.mem = true → s.canEnter n →
    s.readsMemory .supervisorData (s.ssp - 2) true → s.readsMemory .supervisorData (s.ssp - 4) true →
    s.readsMemory .supervisorData (s.ssp - 6) true →
    ∃ t, exec .rte (s.entered3 mask n pc) = .next t ∧ t.sr = s.sr ∧ t.pc = pc ∧ t.ssp = s.ssp ∧ t.d = s.d ∧ t.a = s.a ∧
      t.usp = s.usp ∧ SameMemoryOutside s t .supervisorData (s.ssp - 6) 6

/-- A bus or address error outside the group 0 window: the seven-word frame, supervisor state without trace, the window open (rules R441, R442, decision D7; log 6, 19, 20, 33, 39). -/
def Obligations.SevenWordFrame : Prop :=
  ∀ (s : State) (k : AccessFault) (a : Access) (act : Activity), Memory.wf s.mem = true → s.inGroup0 = false →
    s.canEnter0 k →
    ∃ t, s.group0 k a act = .next t ∧ t.ssp = s.ssp - 14 ∧
      (t.wordAt .supervisorData t.ssp).extractLsb' 0 5 =
        BitVec.ofBool (!a.write) ++ BitVec.ofBool act.notInstruction ++ a.space.fc ∧
      t.longAt .supervisorData (t.ssp + 2) = a.addr ∧
      (act.notInstruction = false → (∀ b, act ≠ .operation b) → t.wordAt .supervisorData (t.ssp + 6) = s.ir) ∧
      t.wordAt .supervisorData (t.ssp + 8) = s.sr.toWord ∧
      (∀ ipc, act = .operand ipc →
        ∃ j, j < 5 ∧ t.longAt .supervisorData (t.ssp + 10) = ipc + BitVec.ofNat 32 (2 + 2 * j)) ∧
      t.pc = t.longAt .supervisorData (vectorAddress k.vector) ∧
      t.sr = { s.sr with s := true, t := false } ∧ t.inGroup0 = true ∧ t.tracePending = false ∧
      (t.pc.getLsbD 0 = true → t.queue = none) ∧ (t.pc.getLsbD 0 = false →
        t.queue = some (t.wordAt .supervisorProgram t.pc, t.wordAt .supervisorProgram (t.pc + 2))) ∧
      t.d = s.d ∧ t.a = s.a ∧ t.usp = s.usp ∧ SameMemoryOutside s t .supervisorData (s.ssp - 14) 14

/-- A bus or address error in the group 0 window halts the processor, and so does one whose own stacking meets an odd stack pointer (rules R446, R447). That a halted step goes on, takes its sample and lets other masters write to memory, and changes nothing else, is the model's reading (log 18, with the inputs of log 15 and 16). -/
def Obligations.DoubleFaultHalts : Prop :=
  (∀ (s : State) (k : AccessFault) (a : Access) (act : Activity),
    (s.inGroup0 = true → s.group0 k a act = .next s.halt) ∧
    (s.inGroup0 = false → s.ssp.getLsbD 0 = true → ∃ t, s.group0 k a act = .next t ∧ t.run = .halted ∧ t.mem = s.mem)) ∧
  (∀ s : State, s.run = .halted → s.sample.reset = false → step s = .next s.observe)

/-- A reference that faults before it transfers anything, at an odd address or by a bus error in its first cycle, aborts the instruction: the references of every instruction up to and with the first that writes (of MOVEM, MOVEP, RTR and RTE the first only), the ones before it being answered by memory. Group 0 processing of that access follows, with its address, direction and class and the address of the instruction, in a state in which everything that the instruction's rule does not write is as it was: of the rest nothing is said, as rule R443 leaves it open (rules R21, R42, R67, R291, R438, R440 to R443; log 4, 24). -/
def Obligations.FaultingReferencesAbort : Prop :=
  ∀ (s : State) (i : Instr) (n : Nat) (r : Reference) (k : AccessFault) (addr : Long), i.wf = true → s.cycles = [] →
    (s.references i)[n]? = some r → r.faults s = some (k, addr) →
    (∀ j r', j < n → (s.references i)[j]? = some r' → s.canRead r'.sz r'.sp r'.addr) → s.canFetchLate i →
    ∃ u, LeftBy i s u ∧
      exec i s = u.group0 k { addr := addr, write := r.write, space := r.sp } (.operand s.pc)

/-- External reset, from any state: SSP and PC from the reset vector in supervisor program space, S set, T cleared, the mask at seven, no other register. A bus error at one of the vector's words or of the two words at that PC, or an odd PC, halts (rules R51, R446, R480, R485). The model's choices in it: the reset comes from the boundary's sample (log 15); it counts one device reset, and platform and memory stay as they are (log 27); the group 0 marker is set until the first instruction begins, and the first two words are read in this step (log 32); the level on the pins is the previous one (log 36). -/
def Obligations.ExternalResetResult : Prop :=
  ∀ s : State, s.sample.reset = true → s.cycles = [] →
    let o := s.observe
    let sp : Space := .supervisorProgram
    let berr := fun addr : Long => s.platform.readReply sp addr true = .busError
    let ssp := o.longAt sp 0
    let pc := o.longAt sp 4
    let r : State := { o with
      sr := { s.sr with s := true, t := false, i := 7 }
      run := .halted
      queue := none
      prevIpl := s.sample.ipl
      inGroup0 := true
      inGroup1 := false
      inGroup2 := false
      tracePending := false
      deviceResets := s.deviceResets + 1 }
    (s.canRead .long sp 0 → s.canRead .long sp 4 →
      (pc.getLsbD 0 = false → s.canRead .word sp pc → s.canRead .word sp (pc + 2) →
        step s = .next { r with
          ssp := ssp
          pc := pc
          run := .normal
          queue := some (o.wordAt sp pc, o.wordAt sp (pc + 2)) }) ∧
      (pc.getLsbD 0 = true ∨ berr pc ∨ s.readsMemory sp pc true ∧ berr (pc + 2) →
        step s = .next { r with ssp := ssp, pc := pc })) ∧
    (berr 0 ∨ s.readsMemory sp 0 true ∧ berr 2 → step s = .next r) ∧
    (s.canRead .long sp 0 → berr 4 ∨ s.readsMemory sp 4 true ∧ berr 6 → step s = .next { r with ssp := ssp })

/-- An accepted interrupt: mask at its level, the three-word frame with the address of the next instruction, PC from the vector its acknowledge gives, and the routine's first words; the stopped state ends. The acknowledge cycle has the level on A1 to A3 and A4 to A23 high (rules R83, R370, R413, R421, R422, R424 to R426). That the sample of the same boundary answers it is the model's choice (log 15), as are the marker (log 19) and what a device puts on the bus (log 14). -/
def Obligations.InterruptTaken : Prop :=
  (∀ (s : State) (n : BitVec 8) (k : Nat), s.sample.reset = false → s.run ≠ .halted → s.tracePending = false →
    s.accepts s.sample.ipl = true → s.acknowledged s.sample.iack s.sample.ipl = some (n, k) →
    let u := (s.observe.sampled s.sample.ipl).drew k
    u.canTake (some s.sample.ipl) n s.pc → step s = .next (u.entered3 (some s.sample.ipl) n s.pc).markGroup1) ∧
  (∀ level : BitVec 3, (acknowledgeAddress level).extractLsb' 1 3 = level ∧
    (acknowledgeAddress level).extractLsb' 4 20 = 0xFFFFF ∧ Space.interruptAcknowledge.fc = 7)

/-- Level seven: accepted on a change to it whatever the mask, or by comparison; one that stays asserted under mask seven is not taken again; the level of the previous boundary is kept; other levels only above the mask; a stopped processor waits otherwise (rules R370, R421, R423, decision D8). That the level is that of one sample a step, taken also where nothing is accepted, is the model's choice (log 15), and so is what ends the stopped state (log 21). -/
def Obligations.InterruptLevels : Prop :=
  (∀ s : State, (s.prevIpl ≠ 7 → s.accepts 7 = true) ∧ (s.prevIpl = 7 → s.sr.i = 7 → s.accepts 7 = false) ∧
    (s.sr.i < 7 → s.accepts 7 = true) ∧
    (∀ level : BitVec 3, level ≠ 7 → (s.accepts level = true ↔ s.sr.i < level))) ∧
  (∀ s t : State, s.cycles = [] → s.sample.reset = false → s.run ≠ .halted → s.tracePending = false → step s = .next t →
    t.prevIpl = s.sample.ipl) ∧
  (∀ s : State, s.sample.reset = false → s.run = .stopped → s.tracePending = false →
    s.accepts s.sample.ipl = false → step s = .next (s.observe.sampled s.sample.ipl))

/-- A trace pending at a boundary is taken before an interrupt, through vector 9 with the address of the next instruction; an instruction that completes, or that takes a group 2 exception, leaves a trace pending exactly when T was set at its beginning (rules R404, R432). The marker that the exception leaves is the model's reading (log 19), and so is the step in which the handler's words are read (log 33). -/
def Obligations.TraceTaken : Prop :=
  (∀ s : State, s.sample.reset = false → s.run ≠ .halted → s.tracePending = true →
    let u := s.observe.withTrace false
    u.canTake none 9 s.pc → step s = .next (u.entered3 none 9 s.pc).markGroup1) ∧
  (∀ (s t u : State) (n : Nat), t.inGroup0 = false → t.inGroup1 = false →
    finish s n (.next t) = .next u →
    u.inGroup0 = false → u.tracePending = s.sr.t)

/-! Frames: where an instruction comes to a next state without a bus or address error, and nothing comes from outside at its bus cycles. -/

/-- The instructions of `dataDest` change their data register, the condition codes and what their operand's mode updates. -/
def Obligations.FrameOfDataDestinations : Prop :=
  ∀ (s t : State) (i : Instr) (dn : Reg) (ea : Ea), dataDest i = some (dn, ea) → s.cycles = [] → s.inGroup0 = false →
    exec i s = .next t → t.inGroup0 = false →
    SameData s t [dn] ∧ SameAddress s t (sideRegs ea) ∧ SameSystem s t ∧ (keepsX i = true → t.sr.x = s.sr.x) ∧
      SameHidden s t ∧ t.queue = s.queue ∧ SameMemory s t

/-- The instructions of `addressDest` change their address register and what their operand's mode updates, and no condition code. -/
def Obligations.FrameOfAddressDestinations : Prop :=
  ∀ (s t : State) (i : Instr) (an : Reg) (ea : Ea), addressDest i = some (an, ea) → s.cycles = [] → s.inGroup0 = false →
    exec i s = .next t → t.inGroup0 = false →
    SameData s t [] ∧ SameAddress s t (an :: sideRegs ea) ∧ t.sr = s.sr ∧ SameHidden s t ∧ t.queue = s.queue ∧
      SameMemory s t

/-- The instructions of `compareOnly` change condition codes and what their operands' modes update; BTST changes Z alone. -/
def Obligations.FrameOfCompares : Prop :=
  ∀ (s t : State) (i : Instr) (sides : List Reg), compareOnly i = some sides → s.cycles = [] → s.inGroup0 = false →
    exec i s = .next t → t.inGroup0 = false →
    SameData s t [] ∧ SameAddress s t sides ∧ SameSystem s t ∧ t.sr.x = s.sr.x ∧
      (keepsAllButZ i = true → t.sr.n = s.sr.n ∧ t.sr.v = s.sr.v ∧ t.sr.c = s.sr.c) ∧
      SameHidden s t ∧ t.queue = s.queue ∧ SameMemory s t

/-- The instructions of `operandDest` change the operand at their effective address, the condition codes and what its mode updates; every byte of memory outside the operand is unchanged. -/
def Obligations.FrameOfOperandDestinations : Prop :=
  ∀ (s t : State) (i : Instr) (n : Nat) (sz : Size) (ea : Ea), operandDest i = some (n, sz, ea) → i.wf = true →
    s.cycles = [] → s.inGroup0 = false → exec i s = .next t → t.inGroup0 = false →
    SameData s t (destRegs ea) ∧ SameAddress s t (sideRegs ea) ∧ SameSystem s t ∧
      (keepsX i = true → t.sr.x = s.sr.x) ∧
      (keepsAllButZ i = true → t.sr.n = s.sr.n ∧ t.sr.v = s.sr.v ∧ t.sr.c = s.sr.c) ∧
      (keepsAll i = true → t.sr = s.sr) ∧ SameHidden s t ∧ t.queue = s.queue ∧ SameMemoryBut s t sz (s.loc n sz ea)

/-- MOVE, and the two-register forms of ADDX, SUBX, ABCD and SBCD. -/
def Obligations.FrameOfMovesAndPairs : Prop :=
  ∀ s t : State, s.cycles = [] → s.inGroup0 = false → t.inGroup0 = false →
    (∀ (sz : Size) (src dst : Ea) (i : Instr),
      (i = .moveB src dst ∧ sz = .byte ∨ i = .moveW src dst ∧ sz = .word ∨ i = .moveL src dst ∧ sz = .long) →
      i.wf = true → exec i s = .next t →
      SameData s t (destRegs dst) ∧ SameAddress s t (sideRegs src ++ sideRegs dst) ∧ SameSystem s t ∧
        t.sr.x = s.sr.x ∧ SameHidden s t ∧ (eaWords sz dst = 0 → t.queue = s.queue) ∧
        SameMemoryBut s t sz ((s.resolved 0 sz src).resolve sz dst).1) ∧
    (∀ (sz : Size) (mem : Bool) (rx ry : Reg) (i : Instr),
      (i = .addx sz mem rx ry ∨ i = .subx sz mem rx ry ∨ sz = .byte ∧ (i = .abcd mem rx ry ∨ i = .sbcd mem rx ry)) →
      exec i s = .next t →
      SameData s t (if mem then [] else [rx]) ∧ SameAddress s t (if mem then [rx, ry] else []) ∧ SameSystem s t ∧
        SameHidden s t ∧ t.queue = s.queue ∧
        SameMemoryBut s t sz ((s.resolved 0 sz (pairEa mem ry)).resolve sz (pairEa mem rx)).1)

/-- The program control and stack instructions, EXG and MOVEP. -/
def Obligations.FrameOfControlAndStack : Prop :=
  ∀ s t : State, s.cycles = [] → s.inGroup0 = false → t.inGroup0 = false →
    (∀ i : Instr, (i = .nop ∨ (∃ c d, i = .bcc c d) ∨ (∃ d, i = .bra d) ∨ ∃ ea, i = .jmp ea) → i.wf = true →
      exec i s = .next t →
      SameData s t [] ∧ SameAddress s t [] ∧ t.sr = s.sr ∧ SameHidden s t ∧ SameMemory s t) ∧
    (∀ (c : Cond) (dn : Reg) (d : Word), exec (.dbcc c dn d) s = .next t →
      SameData s t [dn] ∧ (t.getD dn).extractLsb' 16 16 = (s.getD dn).extractLsb' 16 16 ∧ SameAddress s t [] ∧
        t.sr = s.sr ∧ SameHidden s t ∧ SameMemory s t) ∧
    (∀ i : Instr, ((∃ d, i = .bsr d) ∨ (∃ ea, i = .jsr ea) ∨ ∃ ea, i = .pea ea) → i.wf = true →
      exec i s = .next t →
      SameData s t [] ∧ SameAddress s t [7] ∧ t.sr = s.sr ∧ SameHidden s t ∧
        SameMemoryOutside s t s.dataSpace (s.getA 7 - 4) 4) ∧
    (∀ (an : Reg) (d : Word), exec (.link an d) s = .next t →
      SameData s t [] ∧ SameAddress s t [7, an] ∧ t.sr = s.sr ∧ SameHidden s t ∧
        SameMemoryOutside s t s.dataSpace (s.getA 7 - 4) 4) ∧
    (exec .rts s = .next t → SameData s t [] ∧ SameAddress s t [7] ∧ t.sr = s.sr ∧ SameHidden s t ∧ SameMemory s t) ∧
    (exec .rtr s = .next t → SameData s t [] ∧ SameAddress s t [7] ∧ SameSystem s t ∧ SameHidden s t ∧ SameMemory s t) ∧
    (∀ an : Reg, exec (.unlk an) s = .next t →
      SameData s t [] ∧ SameAddress s t [7, an] ∧ t.sr = s.sr ∧ SameHidden s t ∧ SameMemory s t) ∧
    (∀ (rx ry : Reg) (i : Instr), (i = .exgDD rx ry ∨ i = .exgAA rx ry ∨ i = .exgDA rx ry) → exec i s = .next t →
      SameData s t [rx, ry] ∧ SameAddress s t [rx, ry] ∧ t.sr = s.sr ∧ SameHidden s t ∧ SameMemory s t) ∧
    (∀ (toMem long : Bool) (dn an : Reg) (d : Word), exec (.movep toMem long dn an d) s = .next t →
      SameData s t (if toMem then [] else [dn]) ∧ SameAddress s t [] ∧ t.sr = s.sr ∧ SameHidden s t ∧
        (∀ sp addr, (toMem = true → ∀ k, k < (if long then 4 else 2) → s.platform.key sp addr ≠
            s.platform.key s.dataSpace (s.getA an + d.signExtend 32 + BitVec.ofNat 32 (2 * k))) →
          t.byteAt sp addr = s.byteAt sp addr))

/-- The instructions on CCR, SR and USP, RESET, STOP and RTE in supervisor state; address registers as the old privilege state names them. That RESET counts one device reset and leaves platform and memory as they are is the model's choice (log 27). -/
def Obligations.FrameOfSystemControl : Prop :=
  ∀ s t : State, s.cycles = [] → s.inGroup0 = false → t.inGroup0 = false →
    (∀ (b : Byte) (i : Instr), (i = .andiToCcr b ∨ i = .eoriToCcr b ∨ i = .oriToCcr b) → exec i s = .next t →
      SameData s t [] ∧ SameAddress s t [] ∧ SameSystem s t ∧ SameHidden s t ∧ SameMemory s t) ∧
    (∀ ea : Ea, exec (.moveToCcr ea) s = .next t →
      SameData s t [] ∧ SameAddress s t (sideRegs ea) ∧ SameSystem s t ∧ SameHidden s t ∧ SameMemory s t) ∧
    (s.sr.s = true →
      (∀ (w : Word) (i : Instr), (i = .andiToSr w ∨ i = .eoriToSr w ∨ i = .oriToSr w) → exec i s = .next t →
        SameData s t [] ∧ SameAddress s (t.withSr s.sr) [] ∧ SameHidden s t ∧ SameMemory s t) ∧
      (∀ w : Word, exec (.stop w) s = .next t →
        SameData s t [] ∧ SameAddress s (t.withSr s.sr) [] ∧ SameHidden s.stop t ∧ SameMemory s t) ∧
      (∀ ea : Ea, exec (.moveToSr ea) s = .next t →
        SameData s t [] ∧ SameAddress s (t.withSr s.sr) (sideRegs ea) ∧ SameHidden s t ∧ SameMemory s t) ∧
      (∀ an : Reg, exec (.moveToUsp an) s = .next t →
        t.d = s.d ∧ t.a = s.a ∧ t.ssp = s.ssp ∧ t.sr = s.sr ∧ SameHidden s t ∧ SameMemory s t) ∧
      (∀ an : Reg, exec (.moveFromUsp an) s = .next t →
        SameData s t [] ∧ SameAddress s t [an] ∧ t.sr = s.sr ∧ SameHidden s t ∧ SameMemory s t) ∧
      (exec .reset s = .next t →
        SameData s t [] ∧ SameAddress s t [] ∧ t.sr = s.sr ∧ SameHidden s.resetDevices t ∧ SameMemory s t) ∧
      (exec .rte s = .next t →
        SameData s t [] ∧ SameAddress s (t.withSr s.sr) [7] ∧ SameHidden s t ∧ SameMemory s t))

/-! The whole machine. -/

/-- The state right after reset meets the invariant (log 10, 11, 12). -/
def Obligations.ResetMeetsInvariant : Prop := Inv State.reset

/-- Every step keeps the invariant, whatever comes from outside: memory in canonical form, two words held in the normal state exactly at an even PC, no trace pending in the windows of groups 0 and 1 (rules R31, R45, R69, R404; log 8, 10, 32, 33). -/
def Obligations.StepKeepsInvariant : Prop :=
  ∀ s t : State, Inv s → step s = .next t → Inv t

/-- A step runs the instruction that the words at PC decode to, in the state of the boundary with the words fetched that replace its extension words, and then fetches the words ahead and marks a trace (rules R45, R101, R404, R491; log 9). -/
def Obligations.StepRunsDecodedInstruction : Prop :=
  ∀ (s : State) (i : Instr) (rest : List Word), s.runsInstruction → i.wf = true →
    decode s.observe.stream = .ok (i, rest) →
    let n := 5 - rest.length
    let u := s.atInstruction (n - lateFetches i)
    s.canFetch n → step s = finish u n (exec i u)

/-- In user state an instruction leaves T, S, the mask, SSP, the devices and the processing state as they are, or it takes an exception: what it leaves is then what group 0, 1 or 2 processing or external reset makes of a state that still has them as they were (rules R25, R345, R475). -/
def Obligations.UserStateIsConfined : Prop :=
  ∀ (s t : State) (i : Instr), s.sr.s = false → exec i s = .next t →
    SameSupervisor s t ∨ ∃ u, SameSupervisor s u ∧
      ((∃ n ∈ [8, 10, 11], u.group1 n s.pc = .next t) ∨
        (∃ n : BitVec 8, (n ∈ [5, 6, 7] ∨ (32 ≤ n ∧ n ≤ 47)) ∧ u.group2 n s.pc = .next t) ∨
        (∃ k a act, u.group0 k a act = .next t) ∨ ∃ ipl, u.externalReset ipl = .next t)

/-- No step changes the platform or the order of long accesses, a step uses one sample of the pins, and it uses the inputs of bus cycles in order: the model's choice (log 4, 13, 15, 16). -/
def Obligations.StepKeepsPlatform : Prop :=
  ∀ s t : State, step s = .next t →
    t.platform = s.platform ∧ t.longSplit = s.longSplit ∧ t.pins = s.pins.tail ∧ ∃ n, t.cycles = s.cycles.drop n

/-- After a one-word instruction the next operation word is the word that was already in the queue, whatever the instruction stored there (rule R88, consequence (a); log 8). -/
def Obligations.PrefetchedWordIsExecuted : Prop :=
  ∀ (s t u : State) (i : Instr) (w0 w1 : Word) (rest : List Word), s.runsInstruction → s.queue = some (w0, w1) →
    i.wf = true → decode (w0 :: rest) = .ok (i, rest) → s.canFetch 1 →
    exec i (s.atInstruction 1) = .next t → t.queue.isSome = true → t.sr.s = s.sr.s →
    t.inGroup0 = false → t.inGroup1 = false → t.inGroup2 = false →
    step s = .next u → u.inGroup0 = false → ∃ w, u.queue = some (w1, w) ∧ u.pc = t.pc

/-- Which words a step fetches ahead, in the order that the model chooses. The word that replaces an extension word, up to the word after the instruction, is read whatever the instruction then does, a privilege violation too: a bus error there aborts it. STOP reads no word past the one after its immediate. After a transfer of control the two words at an even target are read in the same step, and a bus error there is taken then (rules R89, R370, R441, R443, R479, R491, R496). Of what an aborted instruction leaves only what rule R443 says of every model is stated. Rule R88 does not order the replacing fetches against operand references: that they come before them is the model's choice (log 9), and so are the step in which the target is read (log 33) and the I/N bit of its frame (log 19). -/
def Obligations.WordsFetchedAhead : Prop :=
  (∀ (s : State) (i : Instr) (rest : List Word) (k : Nat), s.runsInstruction → i.wf = true →
    decode s.observe.stream = .ok (i, rest) → 2 ≤ k →
    k + lateFetches i ≤ 5 - rest.length → s.canFetch (k - 1) →
    s.platform.readReply s.programSpace (s.pc + BitVec.ofNat 32 (2 * k)) true = .busError →
    ∃ u, LeftBy i (s.atInstruction 1) u ∧ step s = u.group0 .bus
      { addr := s.pc + BitVec.ofNat 32 (2 * k), write := false, space := s.programSpace } .extension) ∧
  (∀ (s : State) (w : Word) (rest : List Word), s.runsInstruction → s.sr.s = true →
    decode s.observe.stream = .ok (.stop w, rest) → s.canFetch 2 →
    step s = .next (((((s.atInstruction 2).after 1).withSr (Sr.ofWord w)).stop).withTrace s.sr.t).dropQueue) ∧
  (∀ (s t : State) (n : Nat), t.inGroup0 = false → t.inGroup1 = false → t.inGroup2 = false → t.run = .normal →
    t.queue = none →
    (t.canStart t.pc → finish s n (.next t) = .next (t.withTrace s.sr.t).filled) ∧
    (t.cycles = [] → t.pc.getLsbD 0 = false → t.platform.readReply t.programSpace t.pc true = .busError →
      ∃ u, Between s (t.withTrace s.sr.t) u ∧ finish s n (.next t) = u.group0 .bus
        { addr := t.pc, write := false, space := t.programSpace } (.operation false)))

/-- What comes from outside between the bus cycles of an instruction: other masters write between the two cycles of a long read and between the read and the write of NOT of a byte or a word in memory, but not between those of TAS of a byte in memory; BERR aborts the cycle it is asserted on whatever the platform says, and without an answer the cycle never ends; external reset at the first operand reference aborts the instruction, and what the instruction's rule does not write is as it was, for instructions that fetch no word late, so not for a MOVE with extension words of its destination; later cycles, and that MOVE, are those of ResetAbortsInstruction (rules R21, R42, R68, R78, R85, R87, R92, R438, R443, R465). That each cycle takes one input from a list is the model's choice (log 15, 16), and that a reset leaves what an abort leaves (log 7). -/
def Obligations.EventsBetweenCycles : Prop :=
  (∀ (s : State) (c c' : Cycle) (cs : List Cycle) (sp : Space) (addr : Long), s.cycles = c :: c' :: cs →
    c.onlyWrites → c'.onlyWrites → addr.getLsbD 0 = false → s.platform.readReply sp addr true = .memory →
    s.platform.readReply sp (addr + 2) true = .memory →
    (readLong sp addr).run s =
      .ok ((s.heard c).wordAt sp addr ++ ((s.heard c).heard c').wordAt sp (addr + 2)) ((s.heard c).heard c')) ∧
  (∀ (s : State) (c : Cycle) (cs : List Cycle) (ea : Ea) (sp : Space) (addr : Long) (pre : Bool), s.cycles = c :: cs →
    c.onlyWrites → s.loc 0 .byte ea = .mem sp addr pre → sp.isProgram = false →
    s.platform.readReply sp addr false = .memory → s.platform.writeReply sp addr false = .memory →
    let u := s.heard c
    let d := u.source 0 .byte ea
    exec (.tas ea) s = .next (u.modified 0 .byte ea (s.sr.logic .byte d) (d ||| 0x80))) ∧
  (∀ (s : State) (c c' : Cycle) (cs : List Cycle) (sz : Size) (ea : Ea) (sp : Space) (addr : Long) (pre : Bool),
    s.cycles = c :: c' :: cs → c.onlyWrites → c'.onlyWrites → s.loc 0 sz ea = .mem sp addr pre → sp.isProgram = false →
    sz = .byte ∨ sz = .word ∧ addr.getLsbD 0 = false → s.platform.readReply sp addr (sz == .word) = .memory →
    s.platform.writeReply sp addr (sz == .word) = .memory →
    let u := s.heard c
    let r := sz.trunc (~~~(u.source 0 sz ea))
    exec (.not sz ea) s = .next ((u.heard c').modified 0 sz ea (s.sr.logic sz r) r)) ∧
  (∀ (s : State) (c : Cycle) (cs : List Cycle) (sp : Space) (addr : Long), s.cycles = c :: cs → c.reset = none →
    addr.getLsbD 0 = false →
    (c.reply = .busError → (readWord sp addr).run s =
      .error (.access .bus { addr := addr, write := false, space := sp }) (s.heard c)) ∧
    (c.reply = .noReply → (readWord sp addr).run s = .error (.stop .busNoResponse) (s.heard c))) ∧
  (∀ (s : State) (c : Cycle) (cs : List Cycle) (ipl : BitVec 3) (i : Instr) (r : Reference), i.wf = true →
    s.cycles = c :: cs → c.reset = some ipl → lateFetches i = 0 → (s.references i)[0]? = some r →
    (r.sz ≠ .byte → r.addr.getLsbD 0 = false) →
    ∃ u, LeftBy i (s.heard c) u ∧ exec i s = u.externalReset ipl)
end

