-- ==== Sys2Proof/Laws/State.lean ====
section
/-! SUPPORT. One lemma per field for each update of the state, and reads of registers and memory after updates, so that no proof unfolds a record update. -/

namespace Sys2Proof.Machine

@[simp] theorem State.putD_d (s : State) (r : Reg) (v : Long) : (s.putD r v).d = s.d.set r v := rfl
@[simp] theorem State.putD_a (s : State) (r : Reg) (v : Long) : (s.putD r v).a = s.a := rfl
@[simp] theorem State.putD_usp (s : State) (r : Reg) (v : Long) : (s.putD r v).usp = s.usp := rfl
@[simp] theorem State.putD_ssp (s : State) (r : Reg) (v : Long) : (s.putD r v).ssp = s.ssp := rfl
@[simp] theorem State.putD_pc (s : State) (r : Reg) (v : Long) : (s.putD r v).pc = s.pc := rfl
@[simp] theorem State.putD_sr (s : State) (r : Reg) (v : Long) : (s.putD r v).sr = s.sr := rfl
@[simp] theorem State.putD_run (s : State) (r : Reg) (v : Long) : (s.putD r v).run = s.run := rfl
@[simp] theorem State.putD_queue (s : State) (r : Reg) (v : Long) : (s.putD r v).queue = s.queue := rfl
@[simp] theorem State.putD_ir (s : State) (r : Reg) (v : Long) : (s.putD r v).ir = s.ir := rfl
@[simp] theorem State.putD_prevIpl (s : State) (r : Reg) (v : Long) : (s.putD r v).prevIpl = s.prevIpl := rfl
@[simp] theorem State.putD_inGroup0 (s : State) (r : Reg) (v : Long) : (s.putD r v).inGroup0 = s.inGroup0 := rfl
@[simp] theorem State.putD_inGroup1 (s : State) (r : Reg) (v : Long) : (s.putD r v).inGroup1 = s.inGroup1 := rfl
@[simp] theorem State.putD_inGroup2 (s : State) (r : Reg) (v : Long) : (s.putD r v).inGroup2 = s.inGroup2 := rfl
@[simp] theorem State.putD_tracePending (s : State) (r : Reg) (v : Long) : (s.putD r v).tracePending = s.tracePending := rfl
@[simp] theorem State.putD_mem (s : State) (r : Reg) (v : Long) : (s.putD r v).mem = s.mem := rfl
@[simp] theorem State.putD_platform (s : State) (r : Reg) (v : Long) : (s.putD r v).platform = s.platform := rfl
@[simp] theorem State.putD_longSplit (s : State) (r : Reg) (v : Long) : (s.putD r v).longSplit = s.longSplit := rfl
@[simp] theorem State.putD_pins (s : State) (r : Reg) (v : Long) : (s.putD r v).pins = s.pins := rfl
@[simp] theorem State.putD_cycles (s : State) (r : Reg) (v : Long) : (s.putD r v).cycles = s.cycles := rfl
@[simp] theorem State.putD_deviceResets (s : State) (r : Reg) (v : Long) : (s.putD r v).deviceResets = s.deviceResets := rfl
@[simp] theorem State.putD_draws (s : State) (r : Reg) (v : Long) : (s.putD r v).draws = s.draws := rfl

@[simp] theorem State.putByte_d (s : State) (sp : Space) (addr : Long) (b : Byte) : (s.putByte sp addr b).d = s.d := rfl
@[simp] theorem State.putByte_a (s : State) (sp : Space) (addr : Long) (b : Byte) : (s.putByte sp addr b).a = s.a := rfl
@[simp] theorem State.putByte_usp (s : State) (sp : Space) (addr : Long) (b : Byte) : (s.putByte sp addr b).usp = s.usp := rfl
@[simp] theorem State.putByte_ssp (s : State) (sp : Space) (addr : Long) (b : Byte) : (s.putByte sp addr b).ssp = s.ssp := rfl
@[simp] theorem State.putByte_pc (s : State) (sp : Space) (addr : Long) (b : Byte) : (s.putByte sp addr b).pc = s.pc := rfl
@[simp] theorem State.putByte_sr (s : State) (sp : Space) (addr : Long) (b : Byte) : (s.putByte sp addr b).sr = s.sr := rfl
@[simp] theorem State.putByte_run (s : State) (sp : Space) (addr : Long) (b : Byte) : (s.putByte sp addr b).run = s.run := rfl
@[simp] theorem State.putByte_queue (s : State) (sp : Space) (addr : Long) (b : Byte) : (s.putByte sp addr b).queue = s.queue := rfl
@[simp] theorem State.putByte_ir (s : State) (sp : Space) (addr : Long) (b : Byte) : (s.putByte sp addr b).ir = s.ir := rfl
@[simp] theorem State.putByte_prevIpl (s : State) (sp : Space) (addr : Long) (b : Byte) : (s.putByte sp addr b).prevIpl = s.prevIpl := rfl
@[simp] theorem State.putByte_inGroup0 (s : State) (sp : Space) (addr : Long) (b : Byte) : (s.putByte sp addr b).inGroup0 = s.inGroup0 := rfl
@[simp] theorem State.putByte_inGroup1 (s : State) (sp : Space) (addr : Long) (b : Byte) : (s.putByte sp addr b).inGroup1 = s.inGroup1 := rfl
@[simp] theorem State.putByte_inGroup2 (s : State) (sp : Space) (addr : Long) (b : Byte) : (s.putByte sp addr b).inGroup2 = s.inGroup2 := rfl
@[simp] theorem State.putByte_tracePending (s : State) (sp : Space) (addr : Long) (b : Byte) : (s.putByte sp addr b).tracePending = s.tracePending := rfl
@[simp] theorem State.putByte_mem (s : State) (sp : Space) (addr : Long) (b : Byte) : (s.putByte sp addr b).mem = Memory.write s.mem (s.platform.key sp addr) b := rfl
@[simp] theorem State.putByte_platform (s : State) (sp : Space) (addr : Long) (b : Byte) : (s.putByte sp addr b).platform = s.platform := rfl
@[simp] theorem State.putByte_longSplit (s : State) (sp : Space) (addr : Long) (b : Byte) : (s.putByte sp addr b).longSplit = s.longSplit := rfl
@[simp] theorem State.putByte_pins (s : State) (sp : Space) (addr : Long) (b : Byte) : (s.putByte sp addr b).pins = s.pins := rfl
@[simp] theorem State.putByte_cycles (s : State) (sp : Space) (addr : Long) (b : Byte) : (s.putByte sp addr b).cycles = s.cycles := rfl
@[simp] theorem State.putByte_deviceResets (s : State) (sp : Space) (addr : Long) (b : Byte) : (s.putByte sp addr b).deviceResets = s.deviceResets := rfl
@[simp] theorem State.putByte_draws (s : State) (sp : Space) (addr : Long) (b : Byte) : (s.putByte sp addr b).draws = s.draws := rfl

@[simp] theorem State.putWord_d (s : State) (sp : Space) (addr : Long) (w : Word) : (s.putWord sp addr w).d = s.d := rfl
@[simp] theorem State.putWord_a (s : State) (sp : Space) (addr : Long) (w : Word) : (s.putWord sp addr w).a = s.a := rfl
@[simp] theorem State.putWord_usp (s : State) (sp : Space) (addr : Long) (w : Word) : (s.putWord sp addr w).usp = s.usp := rfl
@[simp] theorem State.putWord_ssp (s : State) (sp : Space) (addr : Long) (w : Word) : (s.putWord sp addr w).ssp = s.ssp := rfl
@[simp] theorem State.putWord_pc (s : State) (sp : Space) (addr : Long) (w : Word) : (s.putWord sp addr w).pc = s.pc := rfl
@[simp] theorem State.putWord_sr (s : State) (sp : Space) (addr : Long) (w : Word) : (s.putWord sp addr w).sr = s.sr := rfl
@[simp] theorem State.putWord_run (s : State) (sp : Space) (addr : Long) (w : Word) : (s.putWord sp addr w).run = s.run := rfl
@[simp] theorem State.putWord_queue (s : State) (sp : Space) (addr : Long) (w : Word) : (s.putWord sp addr w).queue = s.queue := rfl
@[simp] theorem State.putWord_ir (s : State) (sp : Space) (addr : Long) (w : Word) : (s.putWord sp addr w).ir = s.ir := rfl
@[simp] theorem State.putWord_prevIpl (s : State) (sp : Space) (addr : Long) (w : Word) : (s.putWord sp addr w).prevIpl = s.prevIpl := rfl
@[simp] theorem State.putWord_inGroup0 (s : State) (sp : Space) (addr : Long) (w : Word) : (s.putWord sp addr w).inGroup0 = s.inGroup0 := rfl
@[simp] theorem State.putWord_inGroup1 (s : State) (sp : Space) (addr : Long) (w : Word) : (s.putWord sp addr w).inGroup1 = s.inGroup1 := rfl
@[simp] theorem State.putWord_inGroup2 (s : State) (sp : Space) (addr : Long) (w : Word) : (s.putWord sp addr w).inGroup2 = s.inGroup2 := rfl
@[simp] theorem State.putWord_tracePending (s : State) (sp : Space) (addr : Long) (w : Word) : (s.putWord sp addr w).tracePending = s.tracePending := rfl
@[simp] theorem State.putWord_platform (s : State) (sp : Space) (addr : Long) (w : Word) : (s.putWord sp addr w).platform = s.platform := rfl
@[simp] theorem State.putWord_longSplit (s : State) (sp : Space) (addr : Long) (w : Word) : (s.putWord sp addr w).longSplit = s.longSplit := rfl
@[simp] theorem State.putWord_pins (s : State) (sp : Space) (addr : Long) (w : Word) : (s.putWord sp addr w).pins = s.pins := rfl
@[simp] theorem State.putWord_cycles (s : State) (sp : Space) (addr : Long) (w : Word) : (s.putWord sp addr w).cycles = s.cycles := rfl
@[simp] theorem State.putWord_deviceResets (s : State) (sp : Space) (addr : Long) (w : Word) : (s.putWord sp addr w).deviceResets = s.deviceResets := rfl
@[simp] theorem State.putWord_draws (s : State) (sp : Space) (addr : Long) (w : Word) : (s.putWord sp addr w).draws = s.draws := rfl

@[simp] theorem State.withSr_d (s : State) (q : Sr) : (s.withSr q).d = s.d := rfl
@[simp] theorem State.withSr_a (s : State) (q : Sr) : (s.withSr q).a = s.a := rfl
@[simp] theorem State.withSr_usp (s : State) (q : Sr) : (s.withSr q).usp = s.usp := rfl
@[simp] theorem State.withSr_ssp (s : State) (q : Sr) : (s.withSr q).ssp = s.ssp := rfl
@[simp] theorem State.withSr_pc (s : State) (q : Sr) : (s.withSr q).pc = s.pc := rfl
@[simp] theorem State.withSr_sr (s : State) (q : Sr) : (s.withSr q).sr = q := rfl
@[simp] theorem State.withSr_run (s : State) (q : Sr) : (s.withSr q).run = s.run := rfl
@[simp] theorem State.withSr_queue (s : State) (q : Sr) : (s.withSr q).queue = s.queue := rfl
@[simp] theorem State.withSr_ir (s : State) (q : Sr) : (s.withSr q).ir = s.ir := rfl
@[simp] theorem State.withSr_prevIpl (s : State) (q : Sr) : (s.withSr q).prevIpl = s.prevIpl := rfl
@[simp] theorem State.withSr_inGroup0 (s : State) (q : Sr) : (s.withSr q).inGroup0 = s.inGroup0 := rfl
@[simp] theorem State.withSr_inGroup1 (s : State) (q : Sr) : (s.withSr q).inGroup1 = s.inGroup1 := rfl
@[simp] theorem State.withSr_inGroup2 (s : State) (q : Sr) : (s.withSr q).inGroup2 = s.inGroup2 := rfl
@[simp] theorem State.withSr_tracePending (s : State) (q : Sr) : (s.withSr q).tracePending = s.tracePending := rfl
@[simp] theorem State.withSr_mem (s : State) (q : Sr) : (s.withSr q).mem = s.mem := rfl
@[simp] theorem State.withSr_platform (s : State) (q : Sr) : (s.withSr q).platform = s.platform := rfl
@[simp] theorem State.withSr_longSplit (s : State) (q : Sr) : (s.withSr q).longSplit = s.longSplit := rfl
@[simp] theorem State.withSr_pins (s : State) (q : Sr) : (s.withSr q).pins = s.pins := rfl
@[simp] theorem State.withSr_cycles (s : State) (q : Sr) : (s.withSr q).cycles = s.cycles := rfl
@[simp] theorem State.withSr_deviceResets (s : State) (q : Sr) : (s.withSr q).deviceResets = s.deviceResets := rfl
@[simp] theorem State.withSr_draws (s : State) (q : Sr) : (s.withSr q).draws = s.draws := rfl

@[simp] theorem State.withSsp_d (s : State) (v : Long) : (s.withSsp v).d = s.d := rfl
@[simp] theorem State.withSsp_a (s : State) (v : Long) : (s.withSsp v).a = s.a := rfl
@[simp] theorem State.withSsp_usp (s : State) (v : Long) : (s.withSsp v).usp = s.usp := rfl
@[simp] theorem State.withSsp_ssp (s : State) (v : Long) : (s.withSsp v).ssp = v := rfl
@[simp] theorem State.withSsp_pc (s : State) (v : Long) : (s.withSsp v).pc = s.pc := rfl
@[simp] theorem State.withSsp_sr (s : State) (v : Long) : (s.withSsp v).sr = s.sr := rfl
@[simp] theorem State.withSsp_run (s : State) (v : Long) : (s.withSsp v).run = s.run := rfl
@[simp] theorem State.withSsp_queue (s : State) (v : Long) : (s.withSsp v).queue = s.queue := rfl
@[simp] theorem State.withSsp_ir (s : State) (v : Long) : (s.withSsp v).ir = s.ir := rfl
@[simp] theorem State.withSsp_prevIpl (s : State) (v : Long) : (s.withSsp v).prevIpl = s.prevIpl := rfl
@[simp] theorem State.withSsp_inGroup0 (s : State) (v : Long) : (s.withSsp v).inGroup0 = s.inGroup0 := rfl
@[simp] theorem State.withSsp_inGroup1 (s : State) (v : Long) : (s.withSsp v).inGroup1 = s.inGroup1 := rfl
@[simp] theorem State.withSsp_inGroup2 (s : State) (v : Long) : (s.withSsp v).inGroup2 = s.inGroup2 := rfl
@[simp] theorem State.withSsp_tracePending (s : State) (v : Long) : (s.withSsp v).tracePending = s.tracePending := rfl
@[simp] theorem State.withSsp_mem (s : State) (v : Long) : (s.withSsp v).mem = s.mem := rfl
@[simp] theorem State.withSsp_platform (s : State) (v : Long) : (s.withSsp v).platform = s.platform := rfl
@[simp] theorem State.withSsp_longSplit (s : State) (v : Long) : (s.withSsp v).longSplit = s.longSplit := rfl
@[simp] theorem State.withSsp_pins (s : State) (v : Long) : (s.withSsp v).pins = s.pins := rfl
@[simp] theorem State.withSsp_cycles (s : State) (v : Long) : (s.withSsp v).cycles = s.cycles := rfl
@[simp] theorem State.withSsp_deviceResets (s : State) (v : Long) : (s.withSsp v).deviceResets = s.deviceResets := rfl
@[simp] theorem State.withSsp_draws (s : State) (v : Long) : (s.withSsp v).draws = s.draws := rfl

@[simp] theorem State.withUsp_d (s : State) (v : Long) : (s.withUsp v).d = s.d := rfl
@[simp] theorem State.withUsp_a (s : State) (v : Long) : (s.withUsp v).a = s.a := rfl
@[simp] theorem State.withUsp_usp (s : State) (v : Long) : (s.withUsp v).usp = v := rfl
@[simp] theorem State.withUsp_ssp (s : State) (v : Long) : (s.withUsp v).ssp = s.ssp := rfl
@[simp] theorem State.withUsp_pc (s : State) (v : Long) : (s.withUsp v).pc = s.pc := rfl
@[simp] theorem State.withUsp_sr (s : State) (v : Long) : (s.withUsp v).sr = s.sr := rfl
@[simp] theorem State.withUsp_run (s : State) (v : Long) : (s.withUsp v).run = s.run := rfl
@[simp] theorem State.withUsp_queue (s : State) (v : Long) : (s.withUsp v).queue = s.queue := rfl
@[simp] theorem State.withUsp_ir (s : State) (v : Long) : (s.withUsp v).ir = s.ir := rfl
@[simp] theorem State.withUsp_prevIpl (s : State) (v : Long) : (s.withUsp v).prevIpl = s.prevIpl := rfl
@[simp] theorem State.withUsp_inGroup0 (s : State) (v : Long) : (s.withUsp v).inGroup0 = s.inGroup0 := rfl
@[simp] theorem State.withUsp_inGroup1 (s : State) (v : Long) : (s.withUsp v).inGroup1 = s.inGroup1 := rfl
@[simp] theorem State.withUsp_inGroup2 (s : State) (v : Long) : (s.withUsp v).inGroup2 = s.inGroup2 := rfl
@[simp] theorem State.withUsp_tracePending (s : State) (v : Long) : (s.withUsp v).tracePending = s.tracePending := rfl
@[simp] theorem State.withUsp_mem (s : State) (v : Long) : (s.withUsp v).mem = s.mem := rfl
@[simp] theorem State.withUsp_platform (s : State) (v : Long) : (s.withUsp v).platform = s.platform := rfl
@[simp] theorem State.withUsp_longSplit (s : State) (v : Long) : (s.withUsp v).longSplit = s.longSplit := rfl
@[simp] theorem State.withUsp_pins (s : State) (v : Long) : (s.withUsp v).pins = s.pins := rfl
@[simp] theorem State.withUsp_cycles (s : State) (v : Long) : (s.withUsp v).cycles = s.cycles := rfl
@[simp] theorem State.withUsp_deviceResets (s : State) (v : Long) : (s.withUsp v).deviceResets = s.deviceResets := rfl
@[simp] theorem State.withUsp_draws (s : State) (v : Long) : (s.withUsp v).draws = s.draws := rfl

@[simp] theorem State.drawn_d (s : State) : (s.drawn).d = s.d := rfl
@[simp] theorem State.drawn_a (s : State) : (s.drawn).a = s.a := rfl
@[simp] theorem State.drawn_usp (s : State) : (s.drawn).usp = s.usp := rfl
@[simp] theorem State.drawn_ssp (s : State) : (s.drawn).ssp = s.ssp := rfl
@[simp] theorem State.drawn_pc (s : State) : (s.drawn).pc = s.pc := rfl
@[simp] theorem State.drawn_sr (s : State) : (s.drawn).sr = s.sr := rfl
@[simp] theorem State.drawn_run (s : State) : (s.drawn).run = s.run := rfl
@[simp] theorem State.drawn_queue (s : State) : (s.drawn).queue = s.queue := rfl
@[simp] theorem State.drawn_ir (s : State) : (s.drawn).ir = s.ir := rfl
@[simp] theorem State.drawn_prevIpl (s : State) : (s.drawn).prevIpl = s.prevIpl := rfl
@[simp] theorem State.drawn_inGroup0 (s : State) : (s.drawn).inGroup0 = s.inGroup0 := rfl
@[simp] theorem State.drawn_inGroup1 (s : State) : (s.drawn).inGroup1 = s.inGroup1 := rfl
@[simp] theorem State.drawn_inGroup2 (s : State) : (s.drawn).inGroup2 = s.inGroup2 := rfl
@[simp] theorem State.drawn_tracePending (s : State) : (s.drawn).tracePending = s.tracePending := rfl
@[simp] theorem State.drawn_mem (s : State) : (s.drawn).mem = s.mem := rfl
@[simp] theorem State.drawn_platform (s : State) : (s.drawn).platform = s.platform := rfl
@[simp] theorem State.drawn_longSplit (s : State) : (s.drawn).longSplit = s.longSplit := rfl
@[simp] theorem State.drawn_pins (s : State) : (s.drawn).pins = s.pins := rfl
@[simp] theorem State.drawn_cycles (s : State) : (s.drawn).cycles = s.cycles := rfl
@[simp] theorem State.drawn_deviceResets (s : State) : (s.drawn).deviceResets = s.deviceResets := rfl
@[simp] theorem State.drawn_draws (s : State) : (s.drawn).draws = s.draws + 1 := rfl

@[simp] theorem State.jumped_d (s : State) (target : Long) : (s.jumped target).d = s.d := rfl
@[simp] theorem State.jumped_a (s : State) (target : Long) : (s.jumped target).a = s.a := rfl
@[simp] theorem State.jumped_usp (s : State) (target : Long) : (s.jumped target).usp = s.usp := rfl
@[simp] theorem State.jumped_ssp (s : State) (target : Long) : (s.jumped target).ssp = s.ssp := rfl
@[simp] theorem State.jumped_pc (s : State) (target : Long) : (s.jumped target).pc = target := rfl
@[simp] theorem State.jumped_sr (s : State) (target : Long) : (s.jumped target).sr = s.sr := rfl
@[simp] theorem State.jumped_run (s : State) (target : Long) : (s.jumped target).run = s.run := rfl
@[simp] theorem State.jumped_queue (s : State) (target : Long) : (s.jumped target).queue = none := rfl
@[simp] theorem State.jumped_ir (s : State) (target : Long) : (s.jumped target).ir = s.ir := rfl
@[simp] theorem State.jumped_prevIpl (s : State) (target : Long) : (s.jumped target).prevIpl = s.prevIpl := rfl
@[simp] theorem State.jumped_inGroup0 (s : State) (target : Long) : (s.jumped target).inGroup0 = s.inGroup0 := rfl
@[simp] theorem State.jumped_inGroup1 (s : State) (target : Long) : (s.jumped target).inGroup1 = s.inGroup1 := rfl
@[simp] theorem State.jumped_inGroup2 (s : State) (target : Long) : (s.jumped target).inGroup2 = s.inGroup2 := rfl
@[simp] theorem State.jumped_tracePending (s : State) (target : Long) : (s.jumped target).tracePending = s.tracePending := rfl
@[simp] theorem State.jumped_mem (s : State) (target : Long) : (s.jumped target).mem = s.mem := rfl
@[simp] theorem State.jumped_platform (s : State) (target : Long) : (s.jumped target).platform = s.platform := rfl
@[simp] theorem State.jumped_longSplit (s : State) (target : Long) : (s.jumped target).longSplit = s.longSplit := rfl
@[simp] theorem State.jumped_pins (s : State) (target : Long) : (s.jumped target).pins = s.pins := rfl
@[simp] theorem State.jumped_cycles (s : State) (target : Long) : (s.jumped target).cycles = s.cycles := rfl
@[simp] theorem State.jumped_deviceResets (s : State) (target : Long) : (s.jumped target).deviceResets = s.deviceResets := rfl
@[simp] theorem State.jumped_draws (s : State) (target : Long) : (s.jumped target).draws = s.draws := rfl

@[simp] theorem State.opened_d (s : State) : (s.opened).d = s.d := rfl
@[simp] theorem State.opened_a (s : State) : (s.opened).a = s.a := rfl
@[simp] theorem State.opened_usp (s : State) : (s.opened).usp = s.usp := rfl
@[simp] theorem State.opened_ssp (s : State) : (s.opened).ssp = s.ssp := rfl
@[simp] theorem State.opened_pc (s : State) : (s.opened).pc = s.pc + 2 := rfl
@[simp] theorem State.opened_sr (s : State) : (s.opened).sr = s.sr := rfl
@[simp] theorem State.opened_run (s : State) : (s.opened).run = s.run := rfl
@[simp] theorem State.opened_queue (s : State) : (s.opened).queue = s.queue := rfl
@[simp] theorem State.opened_ir (s : State) : (s.opened).ir = s.ir := rfl
@[simp] theorem State.opened_prevIpl (s : State) : (s.opened).prevIpl = s.prevIpl := rfl
@[simp] theorem State.opened_inGroup0 (s : State) : (s.opened).inGroup0 = s.inGroup0 := rfl
@[simp] theorem State.opened_inGroup1 (s : State) : (s.opened).inGroup1 = s.inGroup1 := rfl
@[simp] theorem State.opened_inGroup2 (s : State) : (s.opened).inGroup2 = s.inGroup2 := rfl
@[simp] theorem State.opened_tracePending (s : State) : (s.opened).tracePending = s.tracePending := rfl
@[simp] theorem State.opened_mem (s : State) : (s.opened).mem = s.mem := rfl
@[simp] theorem State.opened_platform (s : State) : (s.opened).platform = s.platform := rfl
@[simp] theorem State.opened_longSplit (s : State) : (s.opened).longSplit = s.longSplit := rfl
@[simp] theorem State.opened_pins (s : State) : (s.opened).pins = s.pins := rfl
@[simp] theorem State.opened_cycles (s : State) : (s.opened).cycles = s.cycles := rfl
@[simp] theorem State.opened_deviceResets (s : State) : (s.opened).deviceResets = s.deviceResets := rfl
@[simp] theorem State.opened_draws (s : State) : (s.opened).draws = s.draws := rfl

@[simp] theorem State.skip_d (s : State) (n : Nat) : (s.skip n).d = s.d := rfl
@[simp] theorem State.skip_a (s : State) (n : Nat) : (s.skip n).a = s.a := rfl
@[simp] theorem State.skip_usp (s : State) (n : Nat) : (s.skip n).usp = s.usp := rfl
@[simp] theorem State.skip_ssp (s : State) (n : Nat) : (s.skip n).ssp = s.ssp := rfl
@[simp] theorem State.skip_pc (s : State) (n : Nat) : (s.skip n).pc = s.pc + BitVec.ofNat 32 (2 * n) := rfl
@[simp] theorem State.skip_sr (s : State) (n : Nat) : (s.skip n).sr = s.sr := rfl
@[simp] theorem State.skip_run (s : State) (n : Nat) : (s.skip n).run = s.run := rfl
@[simp] theorem State.skip_queue (s : State) (n : Nat) : (s.skip n).queue = s.queue := rfl
@[simp] theorem State.skip_ir (s : State) (n : Nat) : (s.skip n).ir = s.ir := rfl
@[simp] theorem State.skip_prevIpl (s : State) (n : Nat) : (s.skip n).prevIpl = s.prevIpl := rfl
@[simp] theorem State.skip_inGroup0 (s : State) (n : Nat) : (s.skip n).inGroup0 = s.inGroup0 := rfl
@[simp] theorem State.skip_inGroup1 (s : State) (n : Nat) : (s.skip n).inGroup1 = s.inGroup1 := rfl
@[simp] theorem State.skip_inGroup2 (s : State) (n : Nat) : (s.skip n).inGroup2 = s.inGroup2 := rfl
@[simp] theorem State.skip_tracePending (s : State) (n : Nat) : (s.skip n).tracePending = s.tracePending := rfl
@[simp] theorem State.skip_mem (s : State) (n : Nat) : (s.skip n).mem = s.mem := rfl
@[simp] theorem State.skip_platform (s : State) (n : Nat) : (s.skip n).platform = s.platform := rfl
@[simp] theorem State.skip_longSplit (s : State) (n : Nat) : (s.skip n).longSplit = s.longSplit := rfl
@[simp] theorem State.skip_pins (s : State) (n : Nat) : (s.skip n).pins = s.pins := rfl
@[simp] theorem State.skip_cycles (s : State) (n : Nat) : (s.skip n).cycles = s.cycles := rfl
@[simp] theorem State.skip_deviceResets (s : State) (n : Nat) : (s.skip n).deviceResets = s.deviceResets := rfl
@[simp] theorem State.skip_draws (s : State) (n : Nat) : (s.skip n).draws = s.draws := rfl

@[simp] theorem State.after_d (s : State) (n : Nat) : (s.after n).d = s.d := rfl
@[simp] theorem State.after_a (s : State) (n : Nat) : (s.after n).a = s.a := rfl
@[simp] theorem State.after_usp (s : State) (n : Nat) : (s.after n).usp = s.usp := rfl
@[simp] theorem State.after_ssp (s : State) (n : Nat) : (s.after n).ssp = s.ssp := rfl
@[simp] theorem State.after_pc (s : State) (n : Nat) : (s.after n).pc = s.pc + 2 + BitVec.ofNat 32 (2 * n) := rfl
@[simp] theorem State.after_sr (s : State) (n : Nat) : (s.after n).sr = s.sr := rfl
@[simp] theorem State.after_run (s : State) (n : Nat) : (s.after n).run = s.run := rfl
@[simp] theorem State.after_queue (s : State) (n : Nat) : (s.after n).queue = s.queue := rfl
@[simp] theorem State.after_ir (s : State) (n : Nat) : (s.after n).ir = s.ir := rfl
@[simp] theorem State.after_prevIpl (s : State) (n : Nat) : (s.after n).prevIpl = s.prevIpl := rfl
@[simp] theorem State.after_inGroup0 (s : State) (n : Nat) : (s.after n).inGroup0 = s.inGroup0 := rfl
@[simp] theorem State.after_inGroup1 (s : State) (n : Nat) : (s.after n).inGroup1 = s.inGroup1 := rfl
@[simp] theorem State.after_inGroup2 (s : State) (n : Nat) : (s.after n).inGroup2 = s.inGroup2 := rfl
@[simp] theorem State.after_tracePending (s : State) (n : Nat) : (s.after n).tracePending = s.tracePending := rfl
@[simp] theorem State.after_mem (s : State) (n : Nat) : (s.after n).mem = s.mem := rfl
@[simp] theorem State.after_platform (s : State) (n : Nat) : (s.after n).platform = s.platform := rfl
@[simp] theorem State.after_longSplit (s : State) (n : Nat) : (s.after n).longSplit = s.longSplit := rfl
@[simp] theorem State.after_pins (s : State) (n : Nat) : (s.after n).pins = s.pins := rfl
@[simp] theorem State.after_cycles (s : State) (n : Nat) : (s.after n).cycles = s.cycles := rfl
@[simp] theorem State.after_deviceResets (s : State) (n : Nat) : (s.after n).deviceResets = s.deviceResets := rfl
@[simp] theorem State.after_draws (s : State) (n : Nat) : (s.after n).draws = s.draws := rfl

@[simp] theorem State.supervised_d (s : State) (mask : Option (BitVec 3)) : (s.supervised mask).d = s.d := rfl
@[simp] theorem State.supervised_a (s : State) (mask : Option (BitVec 3)) : (s.supervised mask).a = s.a := rfl
@[simp] theorem State.supervised_usp (s : State) (mask : Option (BitVec 3)) : (s.supervised mask).usp = s.usp := rfl
@[simp] theorem State.supervised_ssp (s : State) (mask : Option (BitVec 3)) : (s.supervised mask).ssp = s.ssp := rfl
@[simp] theorem State.supervised_pc (s : State) (mask : Option (BitVec 3)) : (s.supervised mask).pc = s.pc := rfl
@[simp] theorem State.supervised_sr (s : State) (mask : Option (BitVec 3)) : (s.supervised mask).sr = { s.sr with s := true, t := false, i := mask.getD s.sr.i } := rfl
@[simp] theorem State.supervised_run (s : State) (mask : Option (BitVec 3)) : (s.supervised mask).run = .normal := rfl
@[simp] theorem State.supervised_queue (s : State) (mask : Option (BitVec 3)) : (s.supervised mask).queue = s.queue := rfl
@[simp] theorem State.supervised_ir (s : State) (mask : Option (BitVec 3)) : (s.supervised mask).ir = s.ir := rfl
@[simp] theorem State.supervised_prevIpl (s : State) (mask : Option (BitVec 3)) : (s.supervised mask).prevIpl = s.prevIpl := rfl
@[simp] theorem State.supervised_inGroup0 (s : State) (mask : Option (BitVec 3)) : (s.supervised mask).inGroup0 = s.inGroup0 := rfl
@[simp] theorem State.supervised_inGroup1 (s : State) (mask : Option (BitVec 3)) : (s.supervised mask).inGroup1 = s.inGroup1 := rfl
@[simp] theorem State.supervised_inGroup2 (s : State) (mask : Option (BitVec 3)) : (s.supervised mask).inGroup2 = s.inGroup2 := rfl
@[simp] theorem State.supervised_tracePending (s : State) (mask : Option (BitVec 3)) : (s.supervised mask).tracePending = s.tracePending := rfl
@[simp] theorem State.supervised_mem (s : State) (mask : Option (BitVec 3)) : (s.supervised mask).mem = s.mem := rfl
@[simp] theorem State.supervised_platform (s : State) (mask : Option (BitVec 3)) : (s.supervised mask).platform = s.platform := rfl
@[simp] theorem State.supervised_longSplit (s : State) (mask : Option (BitVec 3)) : (s.supervised mask).longSplit = s.longSplit := rfl
@[simp] theorem State.supervised_pins (s : State) (mask : Option (BitVec 3)) : (s.supervised mask).pins = s.pins := rfl
@[simp] theorem State.supervised_cycles (s : State) (mask : Option (BitVec 3)) : (s.supervised mask).cycles = s.cycles := rfl
@[simp] theorem State.supervised_deviceResets (s : State) (mask : Option (BitVec 3)) : (s.supervised mask).deviceResets = s.deviceResets := rfl
@[simp] theorem State.supervised_draws (s : State) (mask : Option (BitVec 3)) : (s.supervised mask).draws = s.draws := rfl

@[simp] theorem State.halt_d (s : State) : (s.halt).d = s.d := rfl
@[simp] theorem State.halt_a (s : State) : (s.halt).a = s.a := rfl
@[simp] theorem State.halt_usp (s : State) : (s.halt).usp = s.usp := rfl
@[simp] theorem State.halt_ssp (s : State) : (s.halt).ssp = s.ssp := rfl
@[simp] theorem State.halt_pc (s : State) : (s.halt).pc = s.pc := rfl
@[simp] theorem State.halt_sr (s : State) : (s.halt).sr = s.sr := rfl
@[simp] theorem State.halt_run (s : State) : (s.halt).run = .halted := rfl
@[simp] theorem State.halt_queue (s : State) : (s.halt).queue = s.queue := rfl
@[simp] theorem State.halt_ir (s : State) : (s.halt).ir = s.ir := rfl
@[simp] theorem State.halt_prevIpl (s : State) : (s.halt).prevIpl = s.prevIpl := rfl
@[simp] theorem State.halt_inGroup0 (s : State) : (s.halt).inGroup0 = s.inGroup0 := rfl
@[simp] theorem State.halt_inGroup1 (s : State) : (s.halt).inGroup1 = s.inGroup1 := rfl
@[simp] theorem State.halt_inGroup2 (s : State) : (s.halt).inGroup2 = s.inGroup2 := rfl
@[simp] theorem State.halt_tracePending (s : State) : (s.halt).tracePending = s.tracePending := rfl
@[simp] theorem State.halt_mem (s : State) : (s.halt).mem = s.mem := rfl
@[simp] theorem State.halt_platform (s : State) : (s.halt).platform = s.platform := rfl
@[simp] theorem State.halt_longSplit (s : State) : (s.halt).longSplit = s.longSplit := rfl
@[simp] theorem State.halt_pins (s : State) : (s.halt).pins = s.pins := rfl
@[simp] theorem State.halt_cycles (s : State) : (s.halt).cycles = s.cycles := rfl
@[simp] theorem State.halt_deviceResets (s : State) : (s.halt).deviceResets = s.deviceResets := rfl
@[simp] theorem State.halt_draws (s : State) : (s.halt).draws = s.draws := rfl

@[simp] theorem State.stop_d (s : State) : (s.stop).d = s.d := rfl
@[simp] theorem State.stop_a (s : State) : (s.stop).a = s.a := rfl
@[simp] theorem State.stop_usp (s : State) : (s.stop).usp = s.usp := rfl
@[simp] theorem State.stop_ssp (s : State) : (s.stop).ssp = s.ssp := rfl
@[simp] theorem State.stop_pc (s : State) : (s.stop).pc = s.pc := rfl
@[simp] theorem State.stop_sr (s : State) : (s.stop).sr = s.sr := rfl
@[simp] theorem State.stop_run (s : State) : (s.stop).run = .stopped := rfl
@[simp] theorem State.stop_queue (s : State) : (s.stop).queue = s.queue := rfl
@[simp] theorem State.stop_ir (s : State) : (s.stop).ir = s.ir := rfl
@[simp] theorem State.stop_prevIpl (s : State) : (s.stop).prevIpl = s.prevIpl := rfl
@[simp] theorem State.stop_inGroup0 (s : State) : (s.stop).inGroup0 = s.inGroup0 := rfl
@[simp] theorem State.stop_inGroup1 (s : State) : (s.stop).inGroup1 = s.inGroup1 := rfl
@[simp] theorem State.stop_inGroup2 (s : State) : (s.stop).inGroup2 = s.inGroup2 := rfl
@[simp] theorem State.stop_tracePending (s : State) : (s.stop).tracePending = s.tracePending := rfl
@[simp] theorem State.stop_mem (s : State) : (s.stop).mem = s.mem := rfl
@[simp] theorem State.stop_platform (s : State) : (s.stop).platform = s.platform := rfl
@[simp] theorem State.stop_longSplit (s : State) : (s.stop).longSplit = s.longSplit := rfl
@[simp] theorem State.stop_pins (s : State) : (s.stop).pins = s.pins := rfl
@[simp] theorem State.stop_cycles (s : State) : (s.stop).cycles = s.cycles := rfl
@[simp] theorem State.stop_deviceResets (s : State) : (s.stop).deviceResets = s.deviceResets := rfl
@[simp] theorem State.stop_draws (s : State) : (s.stop).draws = s.draws := rfl

@[simp] theorem State.markGroup0_d (s : State) : (s.markGroup0).d = s.d := rfl
@[simp] theorem State.markGroup0_a (s : State) : (s.markGroup0).a = s.a := rfl
@[simp] theorem State.markGroup0_usp (s : State) : (s.markGroup0).usp = s.usp := rfl
@[simp] theorem State.markGroup0_ssp (s : State) : (s.markGroup0).ssp = s.ssp := rfl
@[simp] theorem State.markGroup0_pc (s : State) : (s.markGroup0).pc = s.pc := rfl
@[simp] theorem State.markGroup0_sr (s : State) : (s.markGroup0).sr = s.sr := rfl
@[simp] theorem State.markGroup0_run (s : State) : (s.markGroup0).run = s.run := rfl
@[simp] theorem State.markGroup0_queue (s : State) : (s.markGroup0).queue = s.queue := rfl
@[simp] theorem State.markGroup0_ir (s : State) : (s.markGroup0).ir = s.ir := rfl
@[simp] theorem State.markGroup0_prevIpl (s : State) : (s.markGroup0).prevIpl = s.prevIpl := rfl
@[simp] theorem State.markGroup0_inGroup0 (s : State) : (s.markGroup0).inGroup0 = true := rfl
@[simp] theorem State.markGroup0_inGroup1 (s : State) : (s.markGroup0).inGroup1 = s.inGroup1 := rfl
@[simp] theorem State.markGroup0_inGroup2 (s : State) : (s.markGroup0).inGroup2 = s.inGroup2 := rfl
@[simp] theorem State.markGroup0_tracePending (s : State) : (s.markGroup0).tracePending = false := rfl
@[simp] theorem State.markGroup0_mem (s : State) : (s.markGroup0).mem = s.mem := rfl
@[simp] theorem State.markGroup0_platform (s : State) : (s.markGroup0).platform = s.platform := rfl
@[simp] theorem State.markGroup0_longSplit (s : State) : (s.markGroup0).longSplit = s.longSplit := rfl
@[simp] theorem State.markGroup0_pins (s : State) : (s.markGroup0).pins = s.pins := rfl
@[simp] theorem State.markGroup0_cycles (s : State) : (s.markGroup0).cycles = s.cycles := rfl
@[simp] theorem State.markGroup0_deviceResets (s : State) : (s.markGroup0).deviceResets = s.deviceResets := rfl
@[simp] theorem State.markGroup0_draws (s : State) : (s.markGroup0).draws = s.draws := rfl

@[simp] theorem State.markGroup1_d (s : State) : (s.markGroup1).d = s.d := rfl
@[simp] theorem State.markGroup1_a (s : State) : (s.markGroup1).a = s.a := rfl
@[simp] theorem State.markGroup1_usp (s : State) : (s.markGroup1).usp = s.usp := rfl
@[simp] theorem State.markGroup1_ssp (s : State) : (s.markGroup1).ssp = s.ssp := rfl
@[simp] theorem State.markGroup1_pc (s : State) : (s.markGroup1).pc = s.pc := rfl
@[simp] theorem State.markGroup1_sr (s : State) : (s.markGroup1).sr = s.sr := rfl
@[simp] theorem State.markGroup1_run (s : State) : (s.markGroup1).run = s.run := rfl
@[simp] theorem State.markGroup1_queue (s : State) : (s.markGroup1).queue = s.queue := rfl
@[simp] theorem State.markGroup1_ir (s : State) : (s.markGroup1).ir = s.ir := rfl
@[simp] theorem State.markGroup1_prevIpl (s : State) : (s.markGroup1).prevIpl = s.prevIpl := rfl
@[simp] theorem State.markGroup1_inGroup0 (s : State) : (s.markGroup1).inGroup0 = s.inGroup0 := rfl
@[simp] theorem State.markGroup1_inGroup1 (s : State) : (s.markGroup1).inGroup1 = true := rfl
@[simp] theorem State.markGroup1_inGroup2 (s : State) : (s.markGroup1).inGroup2 = s.inGroup2 := rfl
@[simp] theorem State.markGroup1_tracePending (s : State) : (s.markGroup1).tracePending = s.tracePending := rfl
@[simp] theorem State.markGroup1_mem (s : State) : (s.markGroup1).mem = s.mem := rfl
@[simp] theorem State.markGroup1_platform (s : State) : (s.markGroup1).platform = s.platform := rfl
@[simp] theorem State.markGroup1_longSplit (s : State) : (s.markGroup1).longSplit = s.longSplit := rfl
@[simp] theorem State.markGroup1_pins (s : State) : (s.markGroup1).pins = s.pins := rfl
@[simp] theorem State.markGroup1_cycles (s : State) : (s.markGroup1).cycles = s.cycles := rfl
@[simp] theorem State.markGroup1_deviceResets (s : State) : (s.markGroup1).deviceResets = s.deviceResets := rfl
@[simp] theorem State.markGroup1_draws (s : State) : (s.markGroup1).draws = s.draws := rfl

@[simp] theorem State.markGroup2_d (s : State) : (s.markGroup2).d = s.d := rfl
@[simp] theorem State.markGroup2_a (s : State) : (s.markGroup2).a = s.a := rfl
@[simp] theorem State.markGroup2_usp (s : State) : (s.markGroup2).usp = s.usp := rfl
@[simp] theorem State.markGroup2_ssp (s : State) : (s.markGroup2).ssp = s.ssp := rfl
@[simp] theorem State.markGroup2_pc (s : State) : (s.markGroup2).pc = s.pc := rfl
@[simp] theorem State.markGroup2_sr (s : State) : (s.markGroup2).sr = s.sr := rfl
@[simp] theorem State.markGroup2_run (s : State) : (s.markGroup2).run = s.run := rfl
@[simp] theorem State.markGroup2_queue (s : State) : (s.markGroup2).queue = s.queue := rfl
@[simp] theorem State.markGroup2_ir (s : State) : (s.markGroup2).ir = s.ir := rfl
@[simp] theorem State.markGroup2_prevIpl (s : State) : (s.markGroup2).prevIpl = s.prevIpl := rfl
@[simp] theorem State.markGroup2_inGroup0 (s : State) : (s.markGroup2).inGroup0 = s.inGroup0 := rfl
@[simp] theorem State.markGroup2_inGroup1 (s : State) : (s.markGroup2).inGroup1 = s.inGroup1 := rfl
@[simp] theorem State.markGroup2_inGroup2 (s : State) : (s.markGroup2).inGroup2 = true := rfl
@[simp] theorem State.markGroup2_tracePending (s : State) : (s.markGroup2).tracePending = s.tracePending := rfl
@[simp] theorem State.markGroup2_mem (s : State) : (s.markGroup2).mem = s.mem := rfl
@[simp] theorem State.markGroup2_platform (s : State) : (s.markGroup2).platform = s.platform := rfl
@[simp] theorem State.markGroup2_longSplit (s : State) : (s.markGroup2).longSplit = s.longSplit := rfl
@[simp] theorem State.markGroup2_pins (s : State) : (s.markGroup2).pins = s.pins := rfl
@[simp] theorem State.markGroup2_cycles (s : State) : (s.markGroup2).cycles = s.cycles := rfl
@[simp] theorem State.markGroup2_deviceResets (s : State) : (s.markGroup2).deviceResets = s.deviceResets := rfl
@[simp] theorem State.markGroup2_draws (s : State) : (s.markGroup2).draws = s.draws := rfl

@[simp] theorem State.withAhead_d (s : State) (w : Word) : (s.withAhead w).d = s.d := rfl
@[simp] theorem State.withAhead_a (s : State) (w : Word) : (s.withAhead w).a = s.a := rfl
@[simp] theorem State.withAhead_usp (s : State) (w : Word) : (s.withAhead w).usp = s.usp := rfl
@[simp] theorem State.withAhead_ssp (s : State) (w : Word) : (s.withAhead w).ssp = s.ssp := rfl
@[simp] theorem State.withAhead_pc (s : State) (w : Word) : (s.withAhead w).pc = s.pc := rfl
@[simp] theorem State.withAhead_sr (s : State) (w : Word) : (s.withAhead w).sr = s.sr := rfl
@[simp] theorem State.withAhead_run (s : State) (w : Word) : (s.withAhead w).run = s.run := rfl
@[simp] theorem State.withAhead_queue (s : State) (w : Word) : (s.withAhead w).queue = s.queue.map fun q => (q.1, w) := rfl
@[simp] theorem State.withAhead_ir (s : State) (w : Word) : (s.withAhead w).ir = s.ir := rfl
@[simp] theorem State.withAhead_prevIpl (s : State) (w : Word) : (s.withAhead w).prevIpl = s.prevIpl := rfl
@[simp] theorem State.withAhead_inGroup0 (s : State) (w : Word) : (s.withAhead w).inGroup0 = s.inGroup0 := rfl
@[simp] theorem State.withAhead_inGroup1 (s : State) (w : Word) : (s.withAhead w).inGroup1 = s.inGroup1 := rfl
@[simp] theorem State.withAhead_inGroup2 (s : State) (w : Word) : (s.withAhead w).inGroup2 = s.inGroup2 := rfl
@[simp] theorem State.withAhead_tracePending (s : State) (w : Word) : (s.withAhead w).tracePending = s.tracePending := rfl
@[simp] theorem State.withAhead_mem (s : State) (w : Word) : (s.withAhead w).mem = s.mem := rfl
@[simp] theorem State.withAhead_platform (s : State) (w : Word) : (s.withAhead w).platform = s.platform := rfl
@[simp] theorem State.withAhead_longSplit (s : State) (w : Word) : (s.withAhead w).longSplit = s.longSplit := rfl
@[simp] theorem State.withAhead_pins (s : State) (w : Word) : (s.withAhead w).pins = s.pins := rfl
@[simp] theorem State.withAhead_cycles (s : State) (w : Word) : (s.withAhead w).cycles = s.cycles := rfl
@[simp] theorem State.withAhead_deviceResets (s : State) (w : Word) : (s.withAhead w).deviceResets = s.deviceResets := rfl
@[simp] theorem State.withAhead_draws (s : State) (w : Word) : (s.withAhead w).draws = s.draws := rfl

@[simp] theorem State.heard_d (s : State) (c : Cycle) : (s.heard c).d = s.d := rfl
@[simp] theorem State.heard_a (s : State) (c : Cycle) : (s.heard c).a = s.a := rfl
@[simp] theorem State.heard_usp (s : State) (c : Cycle) : (s.heard c).usp = s.usp := rfl
@[simp] theorem State.heard_ssp (s : State) (c : Cycle) : (s.heard c).ssp = s.ssp := rfl
@[simp] theorem State.heard_pc (s : State) (c : Cycle) : (s.heard c).pc = s.pc := rfl
@[simp] theorem State.heard_sr (s : State) (c : Cycle) : (s.heard c).sr = s.sr := rfl
@[simp] theorem State.heard_run (s : State) (c : Cycle) : (s.heard c).run = s.run := rfl
@[simp] theorem State.heard_queue (s : State) (c : Cycle) : (s.heard c).queue = s.queue := rfl
@[simp] theorem State.heard_ir (s : State) (c : Cycle) : (s.heard c).ir = s.ir := rfl
@[simp] theorem State.heard_prevIpl (s : State) (c : Cycle) : (s.heard c).prevIpl = s.prevIpl := rfl
@[simp] theorem State.heard_inGroup0 (s : State) (c : Cycle) : (s.heard c).inGroup0 = s.inGroup0 := rfl
@[simp] theorem State.heard_inGroup1 (s : State) (c : Cycle) : (s.heard c).inGroup1 = s.inGroup1 := rfl
@[simp] theorem State.heard_inGroup2 (s : State) (c : Cycle) : (s.heard c).inGroup2 = s.inGroup2 := rfl
@[simp] theorem State.heard_tracePending (s : State) (c : Cycle) : (s.heard c).tracePending = s.tracePending := rfl
@[simp] theorem State.heard_mem (s : State) (c : Cycle) : (s.heard c).mem = Memory.writeAll s.mem c.dma := rfl
@[simp] theorem State.heard_platform (s : State) (c : Cycle) : (s.heard c).platform = s.platform := rfl
@[simp] theorem State.heard_longSplit (s : State) (c : Cycle) : (s.heard c).longSplit = s.longSplit := rfl
@[simp] theorem State.heard_pins (s : State) (c : Cycle) : (s.heard c).pins = s.pins := rfl
@[simp] theorem State.heard_cycles (s : State) (c : Cycle) : (s.heard c).cycles = s.cycles.tail := rfl
@[simp] theorem State.heard_deviceResets (s : State) (c : Cycle) : (s.heard c).deviceResets = s.deviceResets := rfl
@[simp] theorem State.heard_draws (s : State) (c : Cycle) : (s.heard c).draws = s.draws := rfl

@[simp] theorem State.drew_d (s : State) (n : Nat) : (s.drew n).d = s.d := rfl
@[simp] theorem State.drew_a (s : State) (n : Nat) : (s.drew n).a = s.a := rfl
@[simp] theorem State.drew_usp (s : State) (n : Nat) : (s.drew n).usp = s.usp := rfl
@[simp] theorem State.drew_ssp (s : State) (n : Nat) : (s.drew n).ssp = s.ssp := rfl
@[simp] theorem State.drew_pc (s : State) (n : Nat) : (s.drew n).pc = s.pc := rfl
@[simp] theorem State.drew_sr (s : State) (n : Nat) : (s.drew n).sr = s.sr := rfl
@[simp] theorem State.drew_run (s : State) (n : Nat) : (s.drew n).run = s.run := rfl
@[simp] theorem State.drew_queue (s : State) (n : Nat) : (s.drew n).queue = s.queue := rfl
@[simp] theorem State.drew_ir (s : State) (n : Nat) : (s.drew n).ir = s.ir := rfl
@[simp] theorem State.drew_prevIpl (s : State) (n : Nat) : (s.drew n).prevIpl = s.prevIpl := rfl
@[simp] theorem State.drew_inGroup0 (s : State) (n : Nat) : (s.drew n).inGroup0 = s.inGroup0 := rfl
@[simp] theorem State.drew_inGroup1 (s : State) (n : Nat) : (s.drew n).inGroup1 = s.inGroup1 := rfl
@[simp] theorem State.drew_inGroup2 (s : State) (n : Nat) : (s.drew n).inGroup2 = s.inGroup2 := rfl
@[simp] theorem State.drew_tracePending (s : State) (n : Nat) : (s.drew n).tracePending = s.tracePending := rfl
@[simp] theorem State.drew_mem (s : State) (n : Nat) : (s.drew n).mem = s.mem := rfl
@[simp] theorem State.drew_platform (s : State) (n : Nat) : (s.drew n).platform = s.platform := rfl
@[simp] theorem State.drew_longSplit (s : State) (n : Nat) : (s.drew n).longSplit = s.longSplit := rfl
@[simp] theorem State.drew_pins (s : State) (n : Nat) : (s.drew n).pins = s.pins := rfl
@[simp] theorem State.drew_cycles (s : State) (n : Nat) : (s.drew n).cycles = s.cycles := rfl
@[simp] theorem State.drew_deviceResets (s : State) (n : Nat) : (s.drew n).deviceResets = s.deviceResets := rfl
@[simp] theorem State.drew_draws (s : State) (n : Nat) : (s.drew n).draws = s.draws + n := rfl

@[simp] theorem State.resetDevices_d (s : State) : (s.resetDevices).d = s.d := rfl
@[simp] theorem State.resetDevices_a (s : State) : (s.resetDevices).a = s.a := rfl
@[simp] theorem State.resetDevices_usp (s : State) : (s.resetDevices).usp = s.usp := rfl
@[simp] theorem State.resetDevices_ssp (s : State) : (s.resetDevices).ssp = s.ssp := rfl
@[simp] theorem State.resetDevices_pc (s : State) : (s.resetDevices).pc = s.pc := rfl
@[simp] theorem State.resetDevices_sr (s : State) : (s.resetDevices).sr = s.sr := rfl
@[simp] theorem State.resetDevices_run (s : State) : (s.resetDevices).run = s.run := rfl
@[simp] theorem State.resetDevices_queue (s : State) : (s.resetDevices).queue = s.queue := rfl
@[simp] theorem State.resetDevices_ir (s : State) : (s.resetDevices).ir = s.ir := rfl
@[simp] theorem State.resetDevices_prevIpl (s : State) : (s.resetDevices).prevIpl = s.prevIpl := rfl
@[simp] theorem State.resetDevices_inGroup0 (s : State) : (s.resetDevices).inGroup0 = s.inGroup0 := rfl
@[simp] theorem State.resetDevices_inGroup1 (s : State) : (s.resetDevices).inGroup1 = s.inGroup1 := rfl
@[simp] theorem State.resetDevices_inGroup2 (s : State) : (s.resetDevices).inGroup2 = s.inGroup2 := rfl
@[simp] theorem State.resetDevices_tracePending (s : State) : (s.resetDevices).tracePending = s.tracePending := rfl
@[simp] theorem State.resetDevices_mem (s : State) : (s.resetDevices).mem = s.mem := rfl
@[simp] theorem State.resetDevices_platform (s : State) : (s.resetDevices).platform = s.platform := rfl
@[simp] theorem State.resetDevices_longSplit (s : State) : (s.resetDevices).longSplit = s.longSplit := rfl
@[simp] theorem State.resetDevices_pins (s : State) : (s.resetDevices).pins = s.pins := rfl
@[simp] theorem State.resetDevices_cycles (s : State) : (s.resetDevices).cycles = s.cycles := rfl
@[simp] theorem State.resetDevices_deviceResets (s : State) : (s.resetDevices).deviceResets = s.deviceResets + 1 := rfl
@[simp] theorem State.resetDevices_draws (s : State) : (s.resetDevices).draws = s.draws := rfl

@[simp] theorem State.begin_d (s : State) (w : Word × Word) : (s.begin w).d = s.d := rfl
@[simp] theorem State.begin_a (s : State) (w : Word × Word) : (s.begin w).a = s.a := rfl
@[simp] theorem State.begin_usp (s : State) (w : Word × Word) : (s.begin w).usp = s.usp := rfl
@[simp] theorem State.begin_ssp (s : State) (w : Word × Word) : (s.begin w).ssp = s.ssp := rfl
@[simp] theorem State.begin_pc (s : State) (w : Word × Word) : (s.begin w).pc = s.pc := rfl
@[simp] theorem State.begin_sr (s : State) (w : Word × Word) : (s.begin w).sr = s.sr := rfl
@[simp] theorem State.begin_run (s : State) (w : Word × Word) : (s.begin w).run = s.run := rfl
@[simp] theorem State.begin_queue (s : State) (w : Word × Word) : (s.begin w).queue = some w := rfl
@[simp] theorem State.begin_ir (s : State) (w : Word × Word) : (s.begin w).ir = w.1 := rfl
@[simp] theorem State.begin_prevIpl (s : State) (w : Word × Word) : (s.begin w).prevIpl = s.prevIpl := rfl
@[simp] theorem State.begin_inGroup0 (s : State) (w : Word × Word) : (s.begin w).inGroup0 = false := rfl
@[simp] theorem State.begin_inGroup1 (s : State) (w : Word × Word) : (s.begin w).inGroup1 = false := rfl
@[simp] theorem State.begin_inGroup2 (s : State) (w : Word × Word) : (s.begin w).inGroup2 = false := rfl
@[simp] theorem State.begin_tracePending (s : State) (w : Word × Word) : (s.begin w).tracePending = s.tracePending := rfl
@[simp] theorem State.begin_mem (s : State) (w : Word × Word) : (s.begin w).mem = s.mem := rfl
@[simp] theorem State.begin_platform (s : State) (w : Word × Word) : (s.begin w).platform = s.platform := rfl
@[simp] theorem State.begin_longSplit (s : State) (w : Word × Word) : (s.begin w).longSplit = s.longSplit := rfl
@[simp] theorem State.begin_pins (s : State) (w : Word × Word) : (s.begin w).pins = s.pins := rfl
@[simp] theorem State.begin_cycles (s : State) (w : Word × Word) : (s.begin w).cycles = s.cycles := rfl
@[simp] theorem State.begin_deviceResets (s : State) (w : Word × Word) : (s.begin w).deviceResets = s.deviceResets := rfl
@[simp] theorem State.begin_draws (s : State) (w : Word × Word) : (s.begin w).draws = s.draws := rfl

@[simp] theorem State.withQueue_d (s : State) (w : Word × Word) : (s.withQueue w).d = s.d := rfl
@[simp] theorem State.withQueue_a (s : State) (w : Word × Word) : (s.withQueue w).a = s.a := rfl
@[simp] theorem State.withQueue_usp (s : State) (w : Word × Word) : (s.withQueue w).usp = s.usp := rfl
@[simp] theorem State.withQueue_ssp (s : State) (w : Word × Word) : (s.withQueue w).ssp = s.ssp := rfl
@[simp] theorem State.withQueue_pc (s : State) (w : Word × Word) : (s.withQueue w).pc = s.pc := rfl
@[simp] theorem State.withQueue_sr (s : State) (w : Word × Word) : (s.withQueue w).sr = s.sr := rfl
@[simp] theorem State.withQueue_run (s : State) (w : Word × Word) : (s.withQueue w).run = s.run := rfl
@[simp] theorem State.withQueue_queue (s : State) (w : Word × Word) : (s.withQueue w).queue = some w := rfl
@[simp] theorem State.withQueue_ir (s : State) (w : Word × Word) : (s.withQueue w).ir = s.ir := rfl
@[simp] theorem State.withQueue_prevIpl (s : State) (w : Word × Word) : (s.withQueue w).prevIpl = s.prevIpl := rfl
@[simp] theorem State.withQueue_inGroup0 (s : State) (w : Word × Word) : (s.withQueue w).inGroup0 = s.inGroup0 := rfl
@[simp] theorem State.withQueue_inGroup1 (s : State) (w : Word × Word) : (s.withQueue w).inGroup1 = s.inGroup1 := rfl
@[simp] theorem State.withQueue_inGroup2 (s : State) (w : Word × Word) : (s.withQueue w).inGroup2 = s.inGroup2 := rfl
@[simp] theorem State.withQueue_tracePending (s : State) (w : Word × Word) : (s.withQueue w).tracePending = s.tracePending := rfl
@[simp] theorem State.withQueue_mem (s : State) (w : Word × Word) : (s.withQueue w).mem = s.mem := rfl
@[simp] theorem State.withQueue_platform (s : State) (w : Word × Word) : (s.withQueue w).platform = s.platform := rfl
@[simp] theorem State.withQueue_longSplit (s : State) (w : Word × Word) : (s.withQueue w).longSplit = s.longSplit := rfl
@[simp] theorem State.withQueue_pins (s : State) (w : Word × Word) : (s.withQueue w).pins = s.pins := rfl
@[simp] theorem State.withQueue_cycles (s : State) (w : Word × Word) : (s.withQueue w).cycles = s.cycles := rfl
@[simp] theorem State.withQueue_deviceResets (s : State) (w : Word × Word) : (s.withQueue w).deviceResets = s.deviceResets := rfl
@[simp] theorem State.withQueue_draws (s : State) (w : Word × Word) : (s.withQueue w).draws = s.draws := rfl

@[simp] theorem State.dropQueue_d (s : State) : (s.dropQueue).d = s.d := rfl
@[simp] theorem State.dropQueue_a (s : State) : (s.dropQueue).a = s.a := rfl
@[simp] theorem State.dropQueue_usp (s : State) : (s.dropQueue).usp = s.usp := rfl
@[simp] theorem State.dropQueue_ssp (s : State) : (s.dropQueue).ssp = s.ssp := rfl
@[simp] theorem State.dropQueue_pc (s : State) : (s.dropQueue).pc = s.pc := rfl
@[simp] theorem State.dropQueue_sr (s : State) : (s.dropQueue).sr = s.sr := rfl
@[simp] theorem State.dropQueue_run (s : State) : (s.dropQueue).run = s.run := rfl
@[simp] theorem State.dropQueue_queue (s : State) : (s.dropQueue).queue = none := rfl
@[simp] theorem State.dropQueue_ir (s : State) : (s.dropQueue).ir = s.ir := rfl
@[simp] theorem State.dropQueue_prevIpl (s : State) : (s.dropQueue).prevIpl = s.prevIpl := rfl
@[simp] theorem State.dropQueue_inGroup0 (s : State) : (s.dropQueue).inGroup0 = s.inGroup0 := rfl
@[simp] theorem State.dropQueue_inGroup1 (s : State) : (s.dropQueue).inGroup1 = s.inGroup1 := rfl
@[simp] theorem State.dropQueue_inGroup2 (s : State) : (s.dropQueue).inGroup2 = s.inGroup2 := rfl
@[simp] theorem State.dropQueue_tracePending (s : State) : (s.dropQueue).tracePending = s.tracePending := rfl
@[simp] theorem State.dropQueue_mem (s : State) : (s.dropQueue).mem = s.mem := rfl
@[simp] theorem State.dropQueue_platform (s : State) : (s.dropQueue).platform = s.platform := rfl
@[simp] theorem State.dropQueue_longSplit (s : State) : (s.dropQueue).longSplit = s.longSplit := rfl
@[simp] theorem State.dropQueue_pins (s : State) : (s.dropQueue).pins = s.pins := rfl
@[simp] theorem State.dropQueue_cycles (s : State) : (s.dropQueue).cycles = s.cycles := rfl
@[simp] theorem State.dropQueue_deviceResets (s : State) : (s.dropQueue).deviceResets = s.deviceResets := rfl
@[simp] theorem State.dropQueue_draws (s : State) : (s.dropQueue).draws = s.draws := rfl

@[simp] theorem State.withTrace_d (s : State) (b : Bool) : (s.withTrace b).d = s.d := rfl
@[simp] theorem State.withTrace_a (s : State) (b : Bool) : (s.withTrace b).a = s.a := rfl
@[simp] theorem State.withTrace_usp (s : State) (b : Bool) : (s.withTrace b).usp = s.usp := rfl
@[simp] theorem State.withTrace_ssp (s : State) (b : Bool) : (s.withTrace b).ssp = s.ssp := rfl
@[simp] theorem State.withTrace_pc (s : State) (b : Bool) : (s.withTrace b).pc = s.pc := rfl
@[simp] theorem State.withTrace_sr (s : State) (b : Bool) : (s.withTrace b).sr = s.sr := rfl
@[simp] theorem State.withTrace_run (s : State) (b : Bool) : (s.withTrace b).run = s.run := rfl
@[simp] theorem State.withTrace_queue (s : State) (b : Bool) : (s.withTrace b).queue = s.queue := rfl
@[simp] theorem State.withTrace_ir (s : State) (b : Bool) : (s.withTrace b).ir = s.ir := rfl
@[simp] theorem State.withTrace_prevIpl (s : State) (b : Bool) : (s.withTrace b).prevIpl = s.prevIpl := rfl
@[simp] theorem State.withTrace_inGroup0 (s : State) (b : Bool) : (s.withTrace b).inGroup0 = s.inGroup0 := rfl
@[simp] theorem State.withTrace_inGroup1 (s : State) (b : Bool) : (s.withTrace b).inGroup1 = s.inGroup1 := rfl
@[simp] theorem State.withTrace_inGroup2 (s : State) (b : Bool) : (s.withTrace b).inGroup2 = s.inGroup2 := rfl
@[simp] theorem State.withTrace_tracePending (s : State) (b : Bool) : (s.withTrace b).tracePending = b := rfl
@[simp] theorem State.withTrace_mem (s : State) (b : Bool) : (s.withTrace b).mem = s.mem := rfl
@[simp] theorem State.withTrace_platform (s : State) (b : Bool) : (s.withTrace b).platform = s.platform := rfl
@[simp] theorem State.withTrace_longSplit (s : State) (b : Bool) : (s.withTrace b).longSplit = s.longSplit := rfl
@[simp] theorem State.withTrace_pins (s : State) (b : Bool) : (s.withTrace b).pins = s.pins := rfl
@[simp] theorem State.withTrace_cycles (s : State) (b : Bool) : (s.withTrace b).cycles = s.cycles := rfl
@[simp] theorem State.withTrace_deviceResets (s : State) (b : Bool) : (s.withTrace b).deviceResets = s.deviceResets := rfl
@[simp] theorem State.withTrace_draws (s : State) (b : Bool) : (s.withTrace b).draws = s.draws := rfl

@[simp] theorem State.sampled_d (s : State) (level : BitVec 3) : (s.sampled level).d = s.d := rfl
@[simp] theorem State.sampled_a (s : State) (level : BitVec 3) : (s.sampled level).a = s.a := rfl
@[simp] theorem State.sampled_usp (s : State) (level : BitVec 3) : (s.sampled level).usp = s.usp := rfl
@[simp] theorem State.sampled_ssp (s : State) (level : BitVec 3) : (s.sampled level).ssp = s.ssp := rfl
@[simp] theorem State.sampled_pc (s : State) (level : BitVec 3) : (s.sampled level).pc = s.pc := rfl
@[simp] theorem State.sampled_sr (s : State) (level : BitVec 3) : (s.sampled level).sr = s.sr := rfl
@[simp] theorem State.sampled_run (s : State) (level : BitVec 3) : (s.sampled level).run = s.run := rfl
@[simp] theorem State.sampled_queue (s : State) (level : BitVec 3) : (s.sampled level).queue = s.queue := rfl
@[simp] theorem State.sampled_ir (s : State) (level : BitVec 3) : (s.sampled level).ir = s.ir := rfl
@[simp] theorem State.sampled_prevIpl (s : State) (level : BitVec 3) : (s.sampled level).prevIpl = level := rfl
@[simp] theorem State.sampled_inGroup0 (s : State) (level : BitVec 3) : (s.sampled level).inGroup0 = s.inGroup0 := rfl
@[simp] theorem State.sampled_inGroup1 (s : State) (level : BitVec 3) : (s.sampled level).inGroup1 = s.inGroup1 := rfl
@[simp] theorem State.sampled_inGroup2 (s : State) (level : BitVec 3) : (s.sampled level).inGroup2 = s.inGroup2 := rfl
@[simp] theorem State.sampled_tracePending (s : State) (level : BitVec 3) : (s.sampled level).tracePending = s.tracePending := rfl
@[simp] theorem State.sampled_mem (s : State) (level : BitVec 3) : (s.sampled level).mem = s.mem := rfl
@[simp] theorem State.sampled_platform (s : State) (level : BitVec 3) : (s.sampled level).platform = s.platform := rfl
@[simp] theorem State.sampled_longSplit (s : State) (level : BitVec 3) : (s.sampled level).longSplit = s.longSplit := rfl
@[simp] theorem State.sampled_pins (s : State) (level : BitVec 3) : (s.sampled level).pins = s.pins := rfl
@[simp] theorem State.sampled_cycles (s : State) (level : BitVec 3) : (s.sampled level).cycles = s.cycles := rfl
@[simp] theorem State.sampled_deviceResets (s : State) (level : BitVec 3) : (s.sampled level).deviceResets = s.deviceResets := rfl
@[simp] theorem State.sampled_draws (s : State) (level : BitVec 3) : (s.sampled level).draws = s.draws := rfl

@[simp] theorem State.putA_d (s : State) (r : Reg) (v : Long) : (s.putA r v).d = s.d := by
  unfold State.putA; split <;> (try split) <;> rfl
@[simp] theorem State.putA_pc (s : State) (r : Reg) (v : Long) : (s.putA r v).pc = s.pc := by
  unfold State.putA; split <;> (try split) <;> rfl
@[simp] theorem State.putA_sr (s : State) (r : Reg) (v : Long) : (s.putA r v).sr = s.sr := by
  unfold State.putA; split <;> (try split) <;> rfl
@[simp] theorem State.putA_run (s : State) (r : Reg) (v : Long) : (s.putA r v).run = s.run := by
  unfold State.putA; split <;> (try split) <;> rfl
@[simp] theorem State.putA_queue (s : State) (r : Reg) (v : Long) : (s.putA r v).queue = s.queue := by
  unfold State.putA; split <;> (try split) <;> rfl
@[simp] theorem State.putA_ir (s : State) (r : Reg) (v : Long) : (s.putA r v).ir = s.ir := by
  unfold State.putA; split <;> (try split) <;> rfl
@[simp] theorem State.putA_prevIpl (s : State) (r : Reg) (v : Long) : (s.putA r v).prevIpl = s.prevIpl := by
  unfold State.putA; split <;> (try split) <;> rfl
@[simp] theorem State.putA_inGroup0 (s : State) (r : Reg) (v : Long) : (s.putA r v).inGroup0 = s.inGroup0 := by
  unfold State.putA; split <;> (try split) <;> rfl
@[simp] theorem State.putA_inGroup1 (s : State) (r : Reg) (v : Long) : (s.putA r v).inGroup1 = s.inGroup1 := by
  unfold State.putA; split <;> (try split) <;> rfl
@[simp] theorem State.putA_inGroup2 (s : State) (r : Reg) (v : Long) : (s.putA r v).inGroup2 = s.inGroup2 := by
  unfold State.putA; split <;> (try split) <;> rfl
@[simp] theorem State.putA_tracePending (s : State) (r : Reg) (v : Long) : (s.putA r v).tracePending = s.tracePending := by
  unfold State.putA; split <;> (try split) <;> rfl
@[simp] theorem State.putA_mem (s : State) (r : Reg) (v : Long) : (s.putA r v).mem = s.mem := by
  unfold State.putA; split <;> (try split) <;> rfl
@[simp] theorem State.putA_platform (s : State) (r : Reg) (v : Long) : (s.putA r v).platform = s.platform := by
  unfold State.putA; split <;> (try split) <;> rfl
@[simp] theorem State.putA_longSplit (s : State) (r : Reg) (v : Long) : (s.putA r v).longSplit = s.longSplit := by
  unfold State.putA; split <;> (try split) <;> rfl
@[simp] theorem State.putA_pins (s : State) (r : Reg) (v : Long) : (s.putA r v).pins = s.pins := by
  unfold State.putA; split <;> (try split) <;> rfl
@[simp] theorem State.putA_cycles (s : State) (r : Reg) (v : Long) : (s.putA r v).cycles = s.cycles := by
  unfold State.putA; split <;> (try split) <;> rfl
@[simp] theorem State.putA_deviceResets (s : State) (r : Reg) (v : Long) : (s.putA r v).deviceResets = s.deviceResets := by
  unfold State.putA; split <;> (try split) <;> rfl
@[simp] theorem State.putA_draws (s : State) (r : Reg) (v : Long) : (s.putA r v).draws = s.draws := by
  unfold State.putA; split <;> (try split) <;> rfl

@[simp] theorem State.putOperand_d (s : State) (sz : Size) (pre : Bool) (sp : Space) (addr v : Long) :
    (s.putOperand sz pre sp addr v).d = s.d := by
  cases sz <;> simp only [State.putOperand] <;> (try split) <;> rfl
@[simp] theorem State.putOperand_a (s : State) (sz : Size) (pre : Bool) (sp : Space) (addr v : Long) :
    (s.putOperand sz pre sp addr v).a = s.a := by
  cases sz <;> simp only [State.putOperand] <;> (try split) <;> rfl
@[simp] theorem State.putOperand_usp (s : State) (sz : Size) (pre : Bool) (sp : Space) (addr v : Long) :
    (s.putOperand sz pre sp addr v).usp = s.usp := by
  cases sz <;> simp only [State.putOperand] <;> (try split) <;> rfl
@[simp] theorem State.putOperand_ssp (s : State) (sz : Size) (pre : Bool) (sp : Space) (addr v : Long) :
    (s.putOperand sz pre sp addr v).ssp = s.ssp := by
  cases sz <;> simp only [State.putOperand] <;> (try split) <;> rfl
@[simp] theorem State.putOperand_pc (s : State) (sz : Size) (pre : Bool) (sp : Space) (addr v : Long) :
    (s.putOperand sz pre sp addr v).pc = s.pc := by
  cases sz <;> simp only [State.putOperand] <;> (try split) <;> rfl
@[simp] theorem State.putOperand_sr (s : State) (sz : Size) (pre : Bool) (sp : Space) (addr v : Long) :
    (s.putOperand sz pre sp addr v).sr = s.sr := by
  cases sz <;> simp only [State.putOperand] <;> (try split) <;> rfl
@[simp] theorem State.putOperand_run (s : State) (sz : Size) (pre : Bool) (sp : Space) (addr v : Long) :
    (s.putOperand sz pre sp addr v).run = s.run := by
  cases sz <;> simp only [State.putOperand] <;> (try split) <;> rfl
@[simp] theorem State.putOperand_queue (s : State) (sz : Size) (pre : Bool) (sp : Space) (addr v : Long) :
    (s.putOperand sz pre sp addr v).queue = s.queue := by
  cases sz <;> simp only [State.putOperand] <;> (try split) <;> rfl
@[simp] theorem State.putOperand_ir (s : State) (sz : Size) (pre : Bool) (sp : Space) (addr v : Long) :
    (s.putOperand sz pre sp addr v).ir = s.ir := by
  cases sz <;> simp only [State.putOperand] <;> (try split) <;> rfl
@[simp] theorem State.putOperand_prevIpl (s : State) (sz : Size) (pre : Bool) (sp : Space) (addr v : Long) :
    (s.putOperand sz pre sp addr v).prevIpl = s.prevIpl := by
  cases sz <;> simp only [State.putOperand] <;> (try split) <;> rfl
@[simp] theorem State.putOperand_inGroup0 (s : State) (sz : Size) (pre : Bool) (sp : Space) (addr v : Long) :
    (s.putOperand sz pre sp addr v).inGroup0 = s.inGroup0 := by
  cases sz <;> simp only [State.putOperand] <;> (try split) <;> rfl
@[simp] theorem State.putOperand_inGroup1 (s : State) (sz : Size) (pre : Bool) (sp : Space) (addr v : Long) :
    (s.putOperand sz pre sp addr v).inGroup1 = s.inGroup1 := by
  cases sz <;> simp only [State.putOperand] <;> (try split) <;> rfl
@[simp] theorem State.putOperand_inGroup2 (s : State) (sz : Size) (pre : Bool) (sp : Space) (addr v : Long) :
    (s.putOperand sz pre sp addr v).inGroup2 = s.inGroup2 := by
  cases sz <;> simp only [State.putOperand] <;> (try split) <;> rfl
@[simp] theorem State.putOperand_tracePending (s : State) (sz : Size) (pre : Bool) (sp : Space) (addr v : Long) :
    (s.putOperand sz pre sp addr v).tracePending = s.tracePending := by
  cases sz <;> simp only [State.putOperand] <;> (try split) <;> rfl
@[simp] theorem State.putOperand_platform (s : State) (sz : Size) (pre : Bool) (sp : Space) (addr v : Long) :
    (s.putOperand sz pre sp addr v).platform = s.platform := by
  cases sz <;> simp only [State.putOperand] <;> (try split) <;> rfl
@[simp] theorem State.putOperand_longSplit (s : State) (sz : Size) (pre : Bool) (sp : Space) (addr v : Long) :
    (s.putOperand sz pre sp addr v).longSplit = s.longSplit := by
  cases sz <;> simp only [State.putOperand] <;> (try split) <;> rfl
@[simp] theorem State.putOperand_pins (s : State) (sz : Size) (pre : Bool) (sp : Space) (addr v : Long) :
    (s.putOperand sz pre sp addr v).pins = s.pins := by
  cases sz <;> simp only [State.putOperand] <;> (try split) <;> rfl
@[simp] theorem State.putOperand_cycles (s : State) (sz : Size) (pre : Bool) (sp : Space) (addr v : Long) :
    (s.putOperand sz pre sp addr v).cycles = s.cycles := by
  cases sz <;> simp only [State.putOperand] <;> (try split) <;> rfl
@[simp] theorem State.putOperand_deviceResets (s : State) (sz : Size) (pre : Bool) (sp : Space) (addr v : Long) :
    (s.putOperand sz pre sp addr v).deviceResets = s.deviceResets := by
  cases sz <;> simp only [State.putOperand] <;> (try split) <;> rfl
@[simp] theorem State.putOperand_draws (s : State) (sz : Size) (pre : Bool) (sp : Space) (addr v : Long) :
    (s.putOperand sz pre sp addr v).draws = s.draws := by
  cases sz <;> simp only [State.putOperand] <;> (try split) <;> rfl
@[simp] theorem State.replaced_d (s : State) (n : Nat) : (s.replaced n).d = s.d := by
  unfold State.replaced; split <;> rfl
@[simp] theorem State.filled_d (s : State) : s.filled.d = s.d := by
  unfold State.filled; split <;> rfl
@[simp] theorem State.replaced_a (s : State) (n : Nat) : (s.replaced n).a = s.a := by
  unfold State.replaced; split <;> rfl
@[simp] theorem State.filled_a (s : State) : s.filled.a = s.a := by
  unfold State.filled; split <;> rfl
@[simp] theorem State.replaced_usp (s : State) (n : Nat) : (s.replaced n).usp = s.usp := by
  unfold State.replaced; split <;> rfl
@[simp] theorem State.filled_usp (s : State) : s.filled.usp = s.usp := by
  unfold State.filled; split <;> rfl
@[simp] theorem State.replaced_ssp (s : State) (n : Nat) : (s.replaced n).ssp = s.ssp := by
  unfold State.replaced; split <;> rfl
@[simp] theorem State.filled_ssp (s : State) : s.filled.ssp = s.ssp := by
  unfold State.filled; split <;> rfl
@[simp] theorem State.replaced_pc (s : State) (n : Nat) : (s.replaced n).pc = s.pc := by
  unfold State.replaced; split <;> rfl
@[simp] theorem State.filled_pc (s : State) : s.filled.pc = s.pc := by
  unfold State.filled; split <;> rfl
@[simp] theorem State.replaced_sr (s : State) (n : Nat) : (s.replaced n).sr = s.sr := by
  unfold State.replaced; split <;> rfl
@[simp] theorem State.filled_sr (s : State) : s.filled.sr = s.sr := by
  unfold State.filled; split <;> rfl
@[simp] theorem State.replaced_run (s : State) (n : Nat) : (s.replaced n).run = s.run := by
  unfold State.replaced; split <;> rfl
@[simp] theorem State.filled_run (s : State) : s.filled.run = s.run := by
  unfold State.filled; split <;> rfl
@[simp] theorem State.replaced_ir (s : State) (n : Nat) : (s.replaced n).ir = s.ir := by
  unfold State.replaced; split <;> rfl
@[simp] theorem State.filled_ir (s : State) : s.filled.ir = s.ir := by
  unfold State.filled; split <;> rfl
@[simp] theorem State.replaced_prevIpl (s : State) (n : Nat) : (s.replaced n).prevIpl = s.prevIpl := by
  unfold State.replaced; split <;> rfl
@[simp] theorem State.filled_prevIpl (s : State) : s.filled.prevIpl = s.prevIpl := by
  unfold State.filled; split <;> rfl
@[simp] theorem State.replaced_inGroup0 (s : State) (n : Nat) : (s.replaced n).inGroup0 = s.inGroup0 := by
  unfold State.replaced; split <;> rfl
@[simp] theorem State.filled_inGroup0 (s : State) : s.filled.inGroup0 = s.inGroup0 := by
  unfold State.filled; split <;> rfl
@[simp] theorem State.replaced_inGroup1 (s : State) (n : Nat) : (s.replaced n).inGroup1 = s.inGroup1 := by
  unfold State.replaced; split <;> rfl
@[simp] theorem State.filled_inGroup1 (s : State) : s.filled.inGroup1 = s.inGroup1 := by
  unfold State.filled; split <;> rfl
@[simp] theorem State.replaced_inGroup2 (s : State) (n : Nat) : (s.replaced n).inGroup2 = s.inGroup2 := by
  unfold State.replaced; split <;> rfl
@[simp] theorem State.filled_inGroup2 (s : State) : s.filled.inGroup2 = s.inGroup2 := by
  unfold State.filled; split <;> rfl
@[simp] theorem State.replaced_tracePending (s : State) (n : Nat) : (s.replaced n).tracePending = s.tracePending := by
  unfold State.replaced; split <;> rfl
@[simp] theorem State.filled_tracePending (s : State) : s.filled.tracePending = s.tracePending := by
  unfold State.filled; split <;> rfl
@[simp] theorem State.replaced_mem (s : State) (n : Nat) : (s.replaced n).mem = s.mem := by
  unfold State.replaced; split <;> rfl
@[simp] theorem State.filled_mem (s : State) : s.filled.mem = s.mem := by
  unfold State.filled; split <;> rfl
@[simp] theorem State.replaced_platform (s : State) (n : Nat) : (s.replaced n).platform = s.platform := by
  unfold State.replaced; split <;> rfl
@[simp] theorem State.filled_platform (s : State) : s.filled.platform = s.platform := by
  unfold State.filled; split <;> rfl
@[simp] theorem State.replaced_longSplit (s : State) (n : Nat) : (s.replaced n).longSplit = s.longSplit := by
  unfold State.replaced; split <;> rfl
@[simp] theorem State.filled_longSplit (s : State) : s.filled.longSplit = s.longSplit := by
  unfold State.filled; split <;> rfl
@[simp] theorem State.replaced_pins (s : State) (n : Nat) : (s.replaced n).pins = s.pins := by
  unfold State.replaced; split <;> rfl
@[simp] theorem State.filled_pins (s : State) : s.filled.pins = s.pins := by
  unfold State.filled; split <;> rfl
@[simp] theorem State.replaced_cycles (s : State) (n : Nat) : (s.replaced n).cycles = s.cycles := by
  unfold State.replaced; split <;> rfl
@[simp] theorem State.filled_cycles (s : State) : s.filled.cycles = s.cycles := by
  unfold State.filled; split <;> rfl
@[simp] theorem State.replaced_deviceResets (s : State) (n : Nat) : (s.replaced n).deviceResets = s.deviceResets := by
  unfold State.replaced; split <;> rfl
@[simp] theorem State.filled_deviceResets (s : State) : s.filled.deviceResets = s.deviceResets := by
  unfold State.filled; split <;> rfl
@[simp] theorem State.replaced_draws (s : State) (n : Nat) : (s.replaced n).draws = s.draws := by
  unfold State.replaced; split <;> rfl
@[simp] theorem State.filled_draws (s : State) : s.filled.draws = s.draws := by
  unfold State.filled; split <;> rfl

@[simp] theorem State.getD_putD (s : State) (r q : Reg) (v : Long) :
    (s.putD r v).getD q = if q = r then v else s.getD q := by
  simp only [State.getD, State.putD, Fin.getElem_fin, Vector.getElem_set, Fin.ext_iff, eq_comm]

@[simp] theorem State.getD_putA (s : State) (r q : Reg) (v : Long) : (s.putA r v).getD q = s.getD q := by
  simp [State.getD]

@[simp] theorem State.getA_putD (s : State) (r q : Reg) (v : Long) : (s.putD r v).getA q = s.getA q := rfl

@[simp] theorem State.getA_putA (s : State) (r q : Reg) (v : Long) :
    (s.putA r v).getA q = if q = r then v else s.getA q := by
  obtain ⟨r, hr⟩ := r
  obtain ⟨q, hq⟩ := q
  by_cases h1 : r < 7
  · by_cases h2 : q < 7
    · simp [State.getA, State.putA, h1, h2, Vector.getElem_set, eq_comm]
    · have : q ≠ r := by omega
      simp [State.getA, State.putA, h1, h2, this]
  · by_cases h2 : q < 7
    · have : q ≠ r := by omega
      by_cases hs : s.sr.s = true <;> simp [State.getA, State.putA, h1, h2, hs, this]
    · have : q = r := by omega
      by_cases hs : s.sr.s = true <;> simp [State.getA, State.putA, h1, hs, this]

@[simp] theorem State.getD_putByte (s : State) (sp : Space) (addr : Long) (b : Byte) (r : Reg) : (s.putByte sp addr b).getD r = s.getD r := rfl
@[simp] theorem State.getA_putByte (s : State) (sp : Space) (addr : Long) (b : Byte) (r : Reg) : (s.putByte sp addr b).getA r = s.getA r := rfl
@[simp] theorem State.getD_putWord (s : State) (sp : Space) (addr : Long) (w : Word) (r : Reg) : (s.putWord sp addr w).getD r = s.getD r := rfl
@[simp] theorem State.getA_putWord (s : State) (sp : Space) (addr : Long) (w : Word) (r : Reg) : (s.putWord sp addr w).getA r = s.getA r := rfl
@[simp] theorem State.getD_withSr (s : State) (q : Sr) (r : Reg) : (s.withSr q).getD r = s.getD r := rfl
@[simp] theorem State.byteAt_withSr (s : State) (q : Sr) (sp : Space) (addr : Long) :
    (s.withSr q).byteAt sp addr = s.byteAt sp addr := rfl
@[simp] theorem State.wordAt_withSr (s : State) (q : Sr) (sp : Space) (addr : Long) :
    (s.withSr q).wordAt sp addr = s.wordAt sp addr := rfl
@[simp] theorem State.longAt_withSr (s : State) (q : Sr) (sp : Space) (addr : Long) :
    (s.withSr q).longAt sp addr = s.longAt sp addr := rfl
@[simp] theorem State.getD_withSsp (s : State) (v : Long) (r : Reg) : (s.withSsp v).getD r = s.getD r := rfl
@[simp] theorem State.byteAt_withSsp (s : State) (v : Long) (sp : Space) (addr : Long) :
    (s.withSsp v).byteAt sp addr = s.byteAt sp addr := rfl
@[simp] theorem State.wordAt_withSsp (s : State) (v : Long) (sp : Space) (addr : Long) :
    (s.withSsp v).wordAt sp addr = s.wordAt sp addr := rfl
@[simp] theorem State.longAt_withSsp (s : State) (v : Long) (sp : Space) (addr : Long) :
    (s.withSsp v).longAt sp addr = s.longAt sp addr := rfl
@[simp] theorem State.getD_withUsp (s : State) (v : Long) (r : Reg) : (s.withUsp v).getD r = s.getD r := rfl
@[simp] theorem State.byteAt_withUsp (s : State) (v : Long) (sp : Space) (addr : Long) :
    (s.withUsp v).byteAt sp addr = s.byteAt sp addr := rfl
@[simp] theorem State.wordAt_withUsp (s : State) (v : Long) (sp : Space) (addr : Long) :
    (s.withUsp v).wordAt sp addr = s.wordAt sp addr := rfl
@[simp] theorem State.longAt_withUsp (s : State) (v : Long) (sp : Space) (addr : Long) :
    (s.withUsp v).longAt sp addr = s.longAt sp addr := rfl
@[simp] theorem State.getD_drawn (s : State) (r : Reg) : (s.drawn).getD r = s.getD r := rfl
@[simp] theorem State.getA_drawn (s : State) (r : Reg) : (s.drawn).getA r = s.getA r := rfl
@[simp] theorem State.byteAt_drawn (s : State) (sp : Space) (addr : Long) :
    (s.drawn).byteAt sp addr = s.byteAt sp addr := rfl
@[simp] theorem State.wordAt_drawn (s : State) (sp : Space) (addr : Long) :
    (s.drawn).wordAt sp addr = s.wordAt sp addr := rfl
@[simp] theorem State.longAt_drawn (s : State) (sp : Space) (addr : Long) :
    (s.drawn).longAt sp addr = s.longAt sp addr := rfl
@[simp] theorem State.getD_jumped (s : State) (target : Long) (r : Reg) : (s.jumped target).getD r = s.getD r := rfl
@[simp] theorem State.getA_jumped (s : State) (target : Long) (r : Reg) : (s.jumped target).getA r = s.getA r := rfl
@[simp] theorem State.byteAt_jumped (s : State) (target : Long) (sp : Space) (addr : Long) :
    (s.jumped target).byteAt sp addr = s.byteAt sp addr := rfl
@[simp] theorem State.wordAt_jumped (s : State) (target : Long) (sp : Space) (addr : Long) :
    (s.jumped target).wordAt sp addr = s.wordAt sp addr := rfl
@[simp] theorem State.longAt_jumped (s : State) (target : Long) (sp : Space) (addr : Long) :
    (s.jumped target).longAt sp addr = s.longAt sp addr := rfl
@[simp] theorem State.getD_opened (s : State) (r : Reg) : (s.opened).getD r = s.getD r := rfl
@[simp] theorem State.getA_opened (s : State) (r : Reg) : (s.opened).getA r = s.getA r := rfl
@[simp] theorem State.byteAt_opened (s : State) (sp : Space) (addr : Long) :
    (s.opened).byteAt sp addr = s.byteAt sp addr := rfl
@[simp] theorem State.wordAt_opened (s : State) (sp : Space) (addr : Long) :
    (s.opened).wordAt sp addr = s.wordAt sp addr := rfl
@[simp] theorem State.longAt_opened (s : State) (sp : Space) (addr : Long) :
    (s.opened).longAt sp addr = s.longAt sp addr := rfl
@[simp] theorem State.getD_skip (s : State) (n : Nat) (r : Reg) : (s.skip n).getD r = s.getD r := rfl
@[simp] theorem State.getA_skip (s : State) (n : Nat) (r : Reg) : (s.skip n).getA r = s.getA r := rfl
@[simp] theorem State.byteAt_skip (s : State) (n : Nat) (sp : Space) (addr : Long) :
    (s.skip n).byteAt sp addr = s.byteAt sp addr := rfl
@[simp] theorem State.wordAt_skip (s : State) (n : Nat) (sp : Space) (addr : Long) :
    (s.skip n).wordAt sp addr = s.wordAt sp addr := rfl
@[simp] theorem State.longAt_skip (s : State) (n : Nat) (sp : Space) (addr : Long) :
    (s.skip n).longAt sp addr = s.longAt sp addr := rfl
@[simp] theorem State.getD_after (s : State) (n : Nat) (r : Reg) : (s.after n).getD r = s.getD r := rfl
@[simp] theorem State.getA_after (s : State) (n : Nat) (r : Reg) : (s.after n).getA r = s.getA r := rfl
@[simp] theorem State.byteAt_after (s : State) (n : Nat) (sp : Space) (addr : Long) :
    (s.after n).byteAt sp addr = s.byteAt sp addr := rfl
@[simp] theorem State.wordAt_after (s : State) (n : Nat) (sp : Space) (addr : Long) :
    (s.after n).wordAt sp addr = s.wordAt sp addr := rfl
@[simp] theorem State.longAt_after (s : State) (n : Nat) (sp : Space) (addr : Long) :
    (s.after n).longAt sp addr = s.longAt sp addr := rfl
@[simp] theorem State.getD_supervised (s : State) (mask : Option (BitVec 3)) (r : Reg) : (s.supervised mask).getD r = s.getD r := rfl
@[simp] theorem State.byteAt_supervised (s : State) (mask : Option (BitVec 3)) (sp : Space) (addr : Long) :
    (s.supervised mask).byteAt sp addr = s.byteAt sp addr := rfl
@[simp] theorem State.wordAt_supervised (s : State) (mask : Option (BitVec 3)) (sp : Space) (addr : Long) :
    (s.supervised mask).wordAt sp addr = s.wordAt sp addr := rfl
@[simp] theorem State.longAt_supervised (s : State) (mask : Option (BitVec 3)) (sp : Space) (addr : Long) :
    (s.supervised mask).longAt sp addr = s.longAt sp addr := rfl
@[simp] theorem State.getD_halt (s : State) (r : Reg) : (s.halt).getD r = s.getD r := rfl
@[simp] theorem State.getA_halt (s : State) (r : Reg) : (s.halt).getA r = s.getA r := rfl
@[simp] theorem State.byteAt_halt (s : State) (sp : Space) (addr : Long) :
    (s.halt).byteAt sp addr = s.byteAt sp addr := rfl
@[simp] theorem State.wordAt_halt (s : State) (sp : Space) (addr : Long) :
    (s.halt).wordAt sp addr = s.wordAt sp addr := rfl
@[simp] theorem State.longAt_halt (s : State) (sp : Space) (addr : Long) :
    (s.halt).longAt sp addr = s.longAt sp addr := rfl
@[simp] theorem State.getD_stop (s : State) (r : Reg) : (s.stop).getD r = s.getD r := rfl
@[simp] theorem State.getA_stop (s : State) (r : Reg) : (s.stop).getA r = s.getA r := rfl
@[simp] theorem State.byteAt_stop (s : State) (sp : Space) (addr : Long) :
    (s.stop).byteAt sp addr = s.byteAt sp addr := rfl
@[simp] theorem State.wordAt_stop (s : State) (sp : Space) (addr : Long) :
    (s.stop).wordAt sp addr = s.wordAt sp addr := rfl
@[simp] theorem State.longAt_stop (s : State) (sp : Space) (addr : Long) :
    (s.stop).longAt sp addr = s.longAt sp addr := rfl
@[simp] theorem State.getD_markGroup0 (s : State) (r : Reg) : (s.markGroup0).getD r = s.getD r := rfl
@[simp] theorem State.getA_markGroup0 (s : State) (r : Reg) : (s.markGroup0).getA r = s.getA r := rfl
@[simp] theorem State.byteAt_markGroup0 (s : State) (sp : Space) (addr : Long) :
    (s.markGroup0).byteAt sp addr = s.byteAt sp addr := rfl
@[simp] theorem State.wordAt_markGroup0 (s : State) (sp : Space) (addr : Long) :
    (s.markGroup0).wordAt sp addr = s.wordAt sp addr := rfl
@[simp] theorem State.longAt_markGroup0 (s : State) (sp : Space) (addr : Long) :
    (s.markGroup0).longAt sp addr = s.longAt sp addr := rfl
@[simp] theorem State.getD_markGroup1 (s : State) (r : Reg) : (s.markGroup1).getD r = s.getD r := rfl
@[simp] theorem State.getA_markGroup1 (s : State) (r : Reg) : (s.markGroup1).getA r = s.getA r := rfl
@[simp] theorem State.byteAt_markGroup1 (s : State) (sp : Space) (addr : Long) :
    (s.markGroup1).byteAt sp addr = s.byteAt sp addr := rfl
@[simp] theorem State.wordAt_markGroup1 (s : State) (sp : Space) (addr : Long) :
    (s.markGroup1).wordAt sp addr = s.wordAt sp addr := rfl
@[simp] theorem State.longAt_markGroup1 (s : State) (sp : Space) (addr : Long) :
    (s.markGroup1).longAt sp addr = s.longAt sp addr := rfl
@[simp] theorem State.getD_markGroup2 (s : State) (r : Reg) : (s.markGroup2).getD r = s.getD r := rfl
@[simp] theorem State.getA_markGroup2 (s : State) (r : Reg) : (s.markGroup2).getA r = s.getA r := rfl
@[simp] theorem State.byteAt_markGroup2 (s : State) (sp : Space) (addr : Long) :
    (s.markGroup2).byteAt sp addr = s.byteAt sp addr := rfl
@[simp] theorem State.wordAt_markGroup2 (s : State) (sp : Space) (addr : Long) :
    (s.markGroup2).wordAt sp addr = s.wordAt sp addr := rfl
@[simp] theorem State.longAt_markGroup2 (s : State) (sp : Space) (addr : Long) :
    (s.markGroup2).longAt sp addr = s.longAt sp addr := rfl
@[simp] theorem State.getD_withAhead (s : State) (w : Word) (r : Reg) : (s.withAhead w).getD r = s.getD r := rfl
@[simp] theorem State.getA_withAhead (s : State) (w : Word) (r : Reg) : (s.withAhead w).getA r = s.getA r := rfl
@[simp] theorem State.byteAt_withAhead (s : State) (w : Word) (sp : Space) (addr : Long) :
    (s.withAhead w).byteAt sp addr = s.byteAt sp addr := rfl
@[simp] theorem State.wordAt_withAhead (s : State) (w : Word) (sp : Space) (addr : Long) :
    (s.withAhead w).wordAt sp addr = s.wordAt sp addr := rfl
@[simp] theorem State.longAt_withAhead (s : State) (w : Word) (sp : Space) (addr : Long) :
    (s.withAhead w).longAt sp addr = s.longAt sp addr := rfl
@[simp] theorem State.getD_heard (s : State) (c : Cycle) (r : Reg) : (s.heard c).getD r = s.getD r := rfl
@[simp] theorem State.getA_heard (s : State) (c : Cycle) (r : Reg) : (s.heard c).getA r = s.getA r := rfl
@[simp] theorem State.getD_drew (s : State) (n : Nat) (r : Reg) : (s.drew n).getD r = s.getD r := rfl
@[simp] theorem State.getA_drew (s : State) (n : Nat) (r : Reg) : (s.drew n).getA r = s.getA r := rfl
@[simp] theorem State.byteAt_drew (s : State) (n : Nat) (sp : Space) (addr : Long) :
    (s.drew n).byteAt sp addr = s.byteAt sp addr := rfl
@[simp] theorem State.wordAt_drew (s : State) (n : Nat) (sp : Space) (addr : Long) :
    (s.drew n).wordAt sp addr = s.wordAt sp addr := rfl
@[simp] theorem State.longAt_drew (s : State) (n : Nat) (sp : Space) (addr : Long) :
    (s.drew n).longAt sp addr = s.longAt sp addr := rfl
@[simp] theorem State.getD_resetDevices (s : State) (r : Reg) : (s.resetDevices).getD r = s.getD r := rfl
@[simp] theorem State.getA_resetDevices (s : State) (r : Reg) : (s.resetDevices).getA r = s.getA r := rfl
@[simp] theorem State.byteAt_resetDevices (s : State) (sp : Space) (addr : Long) :
    (s.resetDevices).byteAt sp addr = s.byteAt sp addr := rfl
@[simp] theorem State.wordAt_resetDevices (s : State) (sp : Space) (addr : Long) :
    (s.resetDevices).wordAt sp addr = s.wordAt sp addr := rfl
@[simp] theorem State.longAt_resetDevices (s : State) (sp : Space) (addr : Long) :
    (s.resetDevices).longAt sp addr = s.longAt sp addr := rfl
@[simp] theorem State.getD_begin (s : State) (w : Word × Word) (r : Reg) : (s.begin w).getD r = s.getD r := rfl
@[simp] theorem State.getA_begin (s : State) (w : Word × Word) (r : Reg) : (s.begin w).getA r = s.getA r := rfl
@[simp] theorem State.byteAt_begin (s : State) (w : Word × Word) (sp : Space) (addr : Long) :
    (s.begin w).byteAt sp addr = s.byteAt sp addr := rfl
@[simp] theorem State.wordAt_begin (s : State) (w : Word × Word) (sp : Space) (addr : Long) :
    (s.begin w).wordAt sp addr = s.wordAt sp addr := rfl
@[simp] theorem State.longAt_begin (s : State) (w : Word × Word) (sp : Space) (addr : Long) :
    (s.begin w).longAt sp addr = s.longAt sp addr := rfl
@[simp] theorem State.getD_withQueue (s : State) (w : Word × Word) (r : Reg) : (s.withQueue w).getD r = s.getD r := rfl
@[simp] theorem State.getA_withQueue (s : State) (w : Word × Word) (r : Reg) : (s.withQueue w).getA r = s.getA r := rfl
@[simp] theorem State.byteAt_withQueue (s : State) (w : Word × Word) (sp : Space) (addr : Long) :
    (s.withQueue w).byteAt sp addr = s.byteAt sp addr := rfl
@[simp] theorem State.wordAt_withQueue (s : State) (w : Word × Word) (sp : Space) (addr : Long) :
    (s.withQueue w).wordAt sp addr = s.wordAt sp addr := rfl
@[simp] theorem State.longAt_withQueue (s : State) (w : Word × Word) (sp : Space) (addr : Long) :
    (s.withQueue w).longAt sp addr = s.longAt sp addr := rfl
@[simp] theorem State.getD_dropQueue (s : State) (r : Reg) : (s.dropQueue).getD r = s.getD r := rfl
@[simp] theorem State.getA_dropQueue (s : State) (r : Reg) : (s.dropQueue).getA r = s.getA r := rfl
@[simp] theorem State.byteAt_dropQueue (s : State) (sp : Space) (addr : Long) :
    (s.dropQueue).byteAt sp addr = s.byteAt sp addr := rfl
@[simp] theorem State.wordAt_dropQueue (s : State) (sp : Space) (addr : Long) :
    (s.dropQueue).wordAt sp addr = s.wordAt sp addr := rfl
@[simp] theorem State.longAt_dropQueue (s : State) (sp : Space) (addr : Long) :
    (s.dropQueue).longAt sp addr = s.longAt sp addr := rfl
@[simp] theorem State.getD_withTrace (s : State) (b : Bool) (r : Reg) : (s.withTrace b).getD r = s.getD r := rfl
@[simp] theorem State.getA_withTrace (s : State) (b : Bool) (r : Reg) : (s.withTrace b).getA r = s.getA r := rfl
@[simp] theorem State.byteAt_withTrace (s : State) (b : Bool) (sp : Space) (addr : Long) :
    (s.withTrace b).byteAt sp addr = s.byteAt sp addr := rfl
@[simp] theorem State.wordAt_withTrace (s : State) (b : Bool) (sp : Space) (addr : Long) :
    (s.withTrace b).wordAt sp addr = s.wordAt sp addr := rfl
@[simp] theorem State.longAt_withTrace (s : State) (b : Bool) (sp : Space) (addr : Long) :
    (s.withTrace b).longAt sp addr = s.longAt sp addr := rfl
@[simp] theorem State.getD_sampled (s : State) (level : BitVec 3) (r : Reg) : (s.sampled level).getD r = s.getD r := rfl
@[simp] theorem State.getA_sampled (s : State) (level : BitVec 3) (r : Reg) : (s.sampled level).getA r = s.getA r := rfl
@[simp] theorem State.byteAt_sampled (s : State) (level : BitVec 3) (sp : Space) (addr : Long) :
    (s.sampled level).byteAt sp addr = s.byteAt sp addr := rfl
@[simp] theorem State.wordAt_sampled (s : State) (level : BitVec 3) (sp : Space) (addr : Long) :
    (s.sampled level).wordAt sp addr = s.wordAt sp addr := rfl
@[simp] theorem State.longAt_sampled (s : State) (level : BitVec 3) (sp : Space) (addr : Long) :
    (s.sampled level).longAt sp addr = s.longAt sp addr := rfl

/-- A7 follows S only (rule R24). -/
theorem State.getA_withSr (s : State) (q : Sr) (r : Reg) (h : q.s = s.sr.s) : (s.withSr q).getA r = s.getA r := by
  simp [State.getA, State.withSr, h]

@[simp] theorem State.getD_putOperand (s : State) (sz : Size) (pre : Bool) (sp : Space) (addr v : Long) (q : Reg) :
    (s.putOperand sz pre sp addr v).getD q = s.getD q := by
  simp [State.getD]

@[simp] theorem State.getA_putOperand (s : State) (sz : Size) (pre : Bool) (sp : Space) (addr v : Long) (q : Reg) :
    (s.putOperand sz pre sp addr v).getA q = s.getA q := by
  simp [State.getA]

@[simp] theorem State.byteAt_putA (s : State) (r : Reg) (v : Long) (sp : Space) (addr : Long) :
    (s.putA r v).byteAt sp addr = s.byteAt sp addr := by
  simp [State.byteAt]

@[simp] theorem State.byteAt_putD (s : State) (r : Reg) (v : Long) (sp : Space) (addr : Long) :
    (s.putD r v).byteAt sp addr = s.byteAt sp addr := rfl

end Sys2Proof.Machine
end

