-- ==== Sys2Proof/Laws/Memory.lean ====
section
/-! SUPPORT. Memory: reading after writing, and every operation keeps the canonical form of `Memory.wf`. -/

namespace Sys2Proof.Machine

/-- Every entry of a canonical memory from `low` has a key of at least `low`. -/
theorem Memory.read_below {low k : Nat} {m : Memory} (h : Memory.wfFrom low m = true) (hk : k < low) :
    Memory.read m k = unlisted := by
  induction m generalizing low with
  | nil => rfl
  | cons e m ih =>
    obtain ⟨j, b⟩ := e
    simp only [Memory.wfFrom, Bool.and_eq_true, decide_eq_true_eq] at h
    simp only [Memory.read]
    rw [if_neg (by omega)]
    exact ih h.2 (by omega)

/-- A canonical memory from `low` is one from anything lower. -/
theorem Memory.wfFrom_mono {low low' : Nat} {m : Memory} (h : Memory.wfFrom low m = true) (hl : low' ≤ low) :
    Memory.wfFrom low' m = true := by
  cases m with
  | nil => rfl
  | cons e m =>
    obtain ⟨j, b⟩ := e
    simp only [Memory.wfFrom, Bool.and_eq_true, decide_eq_true_eq] at h ⊢
    exact ⟨⟨⟨by omega, h.1.1.2⟩, h.1.2⟩, h.2⟩

/-- Writing keeps the canonical form. -/
theorem Memory.wfFrom_write {low k : Nat} {m : Memory} {b : Byte} (h : Memory.wfFrom low m = true) (hl : low ≤ k)
    (hk : k < keyLimit) : Memory.wfFrom low (Memory.write m k b) = true := by
  induction m generalizing low with
  | nil =>
    simp only [Memory.write]
    split
    · rfl
    · simp [Memory.wfFrom, *]
  | cons e m ih =>
    obtain ⟨j, c⟩ := e
    have h' := h
    simp only [Memory.wfFrom, Bool.and_eq_true, decide_eq_true_eq, bne_iff_ne, ne_eq] at h'
    obtain ⟨⟨⟨h1, h2⟩, h3⟩, h4⟩ := h'
    simp only [Memory.write]
    split
    · split
      · exact h
      · simp only [Memory.wfFrom, Bool.and_eq_true, decide_eq_true_eq, bne_iff_ne, ne_eq]
        exact ⟨⟨⟨hl, hk⟩, by assumption⟩, ⟨⟨by omega, h2⟩, h3⟩, h4⟩
    · split
      · split
        · exact Memory.wfFrom_mono h4 (by omega)
        · simp only [Memory.wfFrom, Bool.and_eq_true, decide_eq_true_eq, bne_iff_ne, ne_eq]
          subst k
          exact ⟨⟨⟨hl, hk⟩, by assumption⟩, h4⟩
      · simp only [Memory.wfFrom, Bool.and_eq_true, decide_eq_true_eq, bne_iff_ne, ne_eq]
        exact ⟨⟨⟨h1, h2⟩, h3⟩, ih h4 (by omega)⟩

/-- Reading what was just written. -/
theorem Memory.read_write_same {low k : Nat} {m : Memory} {b : Byte} (h : Memory.wfFrom low m = true) :
    Memory.read (Memory.write m k b) k = b := by
  induction m generalizing low with
  | nil =>
    simp only [Memory.write]
    split <;> simp_all [Memory.read]
  | cons e m ih =>
    obtain ⟨j, c⟩ := e
    have h' := h
    simp only [Memory.wfFrom, Bool.and_eq_true, decide_eq_true_eq] at h'
    simp only [Memory.write]
    split
    · split
      · rename_i hlt hb
        rw [hb]
        simp only [Memory.read]
        rw [if_neg (by omega)]
        exact Memory.read_below h'.2 (by omega)
      · simp [Memory.read]
    · split
      · split
        · rename_i hb
          rw [hb]
          exact Memory.read_below h'.2 (by omega)
        · simp [Memory.read]
      · simp only [Memory.read]
        rw [if_neg (by omega)]
        exact ih h'.2

/-- A write leaves every other byte alone. -/
theorem Memory.read_write_other {k k' : Nat} {b : Byte} (m : Memory) (h : k' ≠ k) :
    Memory.read (Memory.write m k b) k' = Memory.read m k' := by
  induction m with
  | nil =>
    simp only [Memory.write]
    split
    · rfl
    · simp [Memory.read, Ne.symm h]
  | cons e m ih =>
    obtain ⟨j, c⟩ := e
    simp only [Memory.write]
    split
    · split
      · rfl
      · simp [Memory.read, Ne.symm h]
    · split
      · subst k
        split <;> simp [Memory.read, Ne.symm h]
      · simp only [Memory.read]
        split
        · rfl
        · exact ih

/-- A write keeps the canonical form. -/
theorem Memory.wf_write {k : Nat} {m : Memory} {b : Byte} (h : Memory.wf m = true) (hk : k < keyLimit) :
    Memory.wf (Memory.write m k b) = true :=
  Memory.wfFrom_write h (Nat.zero_le k) hk

/-- What other bus masters write keeps the canonical form. -/
theorem Memory.wf_writeAll {m : Memory} (l : List Host.Cell) (h : Memory.wf m = true) :
    Memory.wf (Memory.writeAll m l) = true := by
  induction l generalizing m with
  | nil => exact h
  | cons e l ih =>
    obtain ⟨k, b⟩ := e
    exact ih (Memory.wf_write h (Nat.mod_lt _ (by decide)))

/-- The memory at reset is in canonical form. -/
theorem Memory.wf_reset : Memory.wf State.reset.mem = true := rfl

/-- A key is below the limit. -/
theorem Platform.key_lt (p : Platform) (sp : Space) (addr : Long) : p.key sp addr < keyLimit := by
  have h1 := (p.bank sp addr).isLt
  have h2 : addr.toNat % 16777216 < 16777216 := Nat.mod_lt _ (by decide)
  simp only [Platform.key, busAddress, keyLimit]
  omega

/-- Two addresses of one space have the same key exactly when they have the same bus address. -/
theorem Platform.key_eq (p : Platform) (sp : Space) (a b : Long) :
    p.key sp a = p.key sp b ↔ busAddress a = busAddress b := by
  constructor
  · have h1 := (p.bank sp a).isLt
    have h2 := (p.bank sp b).isLt
    have h3 : busAddress a < 16777216 := Nat.mod_lt _ (by decide)
    have h4 : busAddress b < 16777216 := Nat.mod_lt _ (by decide)
    simp only [Platform.key]
    omega
  · intro h
    have : p.bank sp a = p.bank sp b := by simp only [Platform.bank, Mapping.covers, h]
    simp only [Platform.key, this, h]

/-- Reading a byte just stored. -/
theorem State.byteAt_putByte_same {s : State} {sp : Space} {addr : Long} {b : Byte} (h : Memory.wf s.mem = true) :
    (s.putByte sp addr b).byteAt sp addr = b :=
  Memory.read_write_same h

/-- A stored byte leaves every other byte alone. -/
theorem State.byteAt_putByte_other {s : State} {sp sp' : Space} {addr addr' : Long} {b : Byte}
    (h : s.platform.key sp' addr' ≠ s.platform.key sp addr) :
    (s.putByte sp addr b).byteAt sp' addr' = s.byteAt sp' addr' :=
  Memory.read_write_other _ h

/-- Storing a byte keeps the canonical form. -/
theorem State.wf_putByte {s : State} {sp : Space} {addr : Long} {b : Byte} (h : Memory.wf s.mem = true) :
    Memory.wf (s.putByte sp addr b).mem = true :=
  Memory.wf_write h (Platform.key_lt _ _ _)

/-- Storing a word keeps the canonical form. -/
theorem State.wf_putWord {s : State} {sp : Space} {addr : Long} {w : Word} (h : Memory.wf s.mem = true) :
    Memory.wf (s.putWord sp addr w).mem = true :=
  State.wf_putByte (State.wf_putByte h)

/-- Storing an operand keeps the canonical form. -/
theorem State.wf_putOperand {s : State} {sz : Size} {pre : Bool} {sp : Space} {addr v : Long}
    (h : Memory.wf s.mem = true) : Memory.wf (s.putOperand sz pre sp addr v).mem = true := by
  cases sz <;> simp only [State.putOperand]
  · exact State.wf_putByte h
  · exact State.wf_putWord h
  · split <;> exact State.wf_putWord (State.wf_putWord h)

/-- The key of the second byte of a word is not the key of its first. -/
theorem Platform.key_succ_ne (p : Platform) (sp : Space) (addr : Long) : p.key sp addr ≠ p.key sp (addr + 1) := by
  intro h
  rw [Platform.key_eq] at h
  simp only [busAddress, BitVec.toNat_add] at h
  have := addr.isLt
  simp at h
  omega

/-- Reading a word just stored (rule R64). -/
theorem State.wordAt_putWord_same {s : State} {sp : Space} {addr : Long} {w : Word} (h : Memory.wf s.mem = true) :
    (s.putWord sp addr w).wordAt sp addr = w := by
  have h1 : (s.putWord sp addr w).byteAt sp addr = w.extractLsb' 8 8 := by
    unfold State.putWord
    rw [State.byteAt_putByte_other (by simpa using Platform.key_succ_ne _ _ _)]
    exact State.byteAt_putByte_same h
  have h2 : (s.putWord sp addr w).byteAt sp (addr + 1) = w.extractLsb' 0 8 := by
    unfold State.putWord
    exact State.byteAt_putByte_same (State.wf_putByte h)
  simp only [State.wordAt, h1, h2]
  ext i hi
  simp only [BitVec.getElem_append, BitVec.getElem_extractLsb']
  split
  · simp [BitVec.getLsbD_eq_getElem hi]
  · have : 8 + (i - 8) = i := by omega
    simp [this, BitVec.getLsbD_eq_getElem hi]

end Sys2Proof.Machine
end

