-- ==== Sys2Proof/Laws/Ops.lean ====
section
/-! SUPPORT. What a computation answers, step by step, and for each shared operation one lemma that says what it does where memory answers its cycles: to be cited instead of unfolding it. -/

namespace Sys2Proof.Machine

/-! Sequencing. -/

/-- Sequencing, evaluated. -/
theorem bind_run {α β : Type} (m : M α) (f : α → M β) (s : State) :
    (m >>= f).run s = match m.run s with
      | .ok a t => (f a).run t
      | .error e t => .error e t := by
  simp only [EStateM.run, bind, EStateM.bind]
  split <;> rename_i h <;> simp [h]

/-- A computation goes on where the first part answers. -/
theorem bind_ok {α β : Type} {m : M α} {f : α → M β} {s t : State} {a : α} (h : m.run s = .ok a t) :
    (m >>= f).run s = (f a).run t := by
  rw [bind_run, h]

/-- A computation aborts where the first part aborts. -/
theorem bind_error {α β : Type} {m : M α} {f : α → M β} {s t : State} {e : Abort} (h : m.run s = .error e t) :
    (m >>= f).run s = .error e t := by
  rw [bind_run, h]

/-- Where a sequence answers, both its parts did. -/
theorem bind_ok_cases {α β : Type} {m : M α} {f : α → M β} {s u : State} {b : β} (h : (m >>= f).run s = .ok b u) :
    ∃ a t, m.run s = .ok a t ∧ (f a).run t = .ok b u := by
  rw [bind_run] at h
  split at h
  · exact ⟨_, _, by assumption, h⟩
  · cases h

/-- Where a sequence aborts, one of its parts did. -/
theorem bind_error_cases {α β : Type} {m : M α} {f : α → M β} {s u : State} {e : Abort}
    (h : (m >>= f).run s = .error e u) : m.run s = .error e u ∨ ∃ a t, m.run s = .ok a t ∧ (f a).run t = .error e u := by
  rw [bind_run] at h
  split at h
  · exact .inr ⟨_, _, by assumption, h⟩
  · cases h
    exact .inl (by assumption)

@[simp] theorem pure_run {α : Type} (a : α) (s : State) : (pure a : M α).run s = .ok a s := rfl

@[simp] theorem ask_run {α : Type} (f : State → α) (s : State) : (ask f).run s = .ok (f s) s := rfl

@[simp] theorem upd_run (f : State → State) (s : State) : (upd f).run s = .ok () (f s) := rfl

@[simp] theorem updSr_run (f : Sr → Sr) (s : State) : (updSr f).run s = .ok () (s.withSr (f s.sr)) := rfl

@[simp] theorem raise_run {α : Type} (e : Abort) (s : State) : (raise e : M α).run s = .error e s := rfl

@[simp] theorem jump_run (target : Long) (s : State) : (jump target).run s = .ok () (s.jumped target) := rfl

@[simp] theorem anyLong_run (s : State) :
    anyLong.run s = .ok (Config.free s.draws) s.drawn := rfl

@[simp] theorem anyBool_run (s : State) :
    anyBool.run s = .ok ((Config.free s.draws).getLsbD 0) s.drawn := rfl

@[simp] theorem anyBits_run (n : Nat) (s : State) :
    (anyBits n).run s = .ok ((Config.free s.draws).setWidth n) s.drawn := rfl

@[simp] theorem skipWord_run (s : State) : skipWord.run s = .ok () (s.skip 1) := rfl

@[simp] theorem skipImmediate_run (sz : Size) (s : State) :
    (skipImmediate sz).run s = .ok () (s.skip (immWords sz)) := rfl

@[simp] theorem locate_run (sz : Size) (ea : Ea) (s : State) :
    (locate sz ea).run s = .ok (s.resolve sz ea).1 (s.resolve sz ea).2 := rfl

@[simp] theorem dataReg_run (sz : Size) (r : Reg) (s : State) :
    (dataReg sz r).run s = .ok (sz.trunc (s.getD r)) s := rfl

@[simp] theorem setDataReg_run (sz : Size) (r : Reg) (v : Long) (s : State) :
    (setDataReg sz r v).run s = .ok () (s.putD r (sz.merge (s.getD r) v)) := rfl

/-! Bus cycles that memory answers. -/

/-- Whether memory answers depends on the platform and the inputs of cycles only. -/
theorem State.canRead_of_bus {s t : State} {sz : Size} {sp : Space} {addr : Long} (h : s.canRead sz sp addr)
    (hp : t.platform = s.platform ∧ t.cycles = s.cycles) : t.canRead sz sp addr := by
  cases sz <;> simpa [State.canRead, State.readsMemory, hp.1, hp.2] using h

/-- Whether memory answers depends on the platform and the inputs of cycles only. -/
theorem State.canWrite_of_bus {s t : State} {sz : Size} {sp : Space} {addr : Long} (h : s.canWrite sz sp addr)
    (hp : t.platform = s.platform ∧ t.cycles = s.cycles) : t.canWrite sz sp addr := by
  cases sz <;> simpa [State.canWrite, State.writesMemory, hp.1, hp.2] using h

/-- A cycle at which nothing comes from outside. -/
theorem startCycle_quiet {s : State} (h : s.cycles = []) : startCycle.run s = .ok Cycle.quiet s := by
  simp only [EStateM.run, startCycle, h]

/-- A cycle at which other masters write and nothing resets. -/
theorem startCycle_heard {s : State} {c : Cycle} {cs : List Cycle} (h : s.cycles = c :: cs) (hr : c.reset = none) :
    startCycle.run s = .ok c (s.heard c) := by
  simp only [EStateM.run, startCycle, h, hr, State.heard, List.tail_cons]

/-- A cycle before which external reset comes. -/
theorem startCycle_reset {s : State} {c : Cycle} {cs : List Cycle} {ipl : BitVec 3} (h : s.cycles = c :: cs)
    (hr : c.reset = some ipl) : startCycle.run s = .error (.reset ipl) (s.heard c) := by
  simp only [EStateM.run, startCycle, h, hr, State.heard, List.tail_cons]

theorem busRead8_ok {s : State} {sp : Space} {addr : Long} (h : s.readsMemory sp addr false) :
    (busRead8 sp addr).run s = .ok (s.byteAt sp addr) s := by
  simp [busRead8, startCycle_quiet h.1, h.2, Cycle.quiet, CycleReply.onRead, endRead8]

theorem busRead16_ok {s : State} {sp : Space} {addr : Long} (h : s.readsMemory sp addr true) :
    (busRead16 sp addr).run s = .ok (s.wordAt sp addr) s := by
  simp [busRead16, startCycle_quiet h.1, h.2, Cycle.quiet, CycleReply.onRead, endRead16]

theorem busWrite8_ok {s : State} {sp : Space} {addr : Long} {b : Byte} (h : s.writesMemory sp addr false) :
    (busWrite8 sp addr b).run s = .ok () (s.putByte sp addr b) := by
  simp [busWrite8, startCycle_quiet h.1, h.2, Cycle.quiet, CycleReply.onWrite, endWrite8]

theorem busWrite16_ok {s : State} {sp : Space} {addr : Long} {w : Word} (h : s.writesMemory sp addr true) :
    (busWrite16 sp addr w).run s = .ok () (s.putWord sp addr w) := by
  simp [busWrite16, startCycle_quiet h.1, h.2, Cycle.quiet, CycleReply.onWrite, endWrite16]

theorem needEven_run (s : State) (sp : Space) (addr : Long) (write : Bool) :
    (needEven sp addr write).run s =
      if addr.getLsbD 0 then .error (.access .address { addr := addr, write := write, space := sp }) s
      else .ok () s := rfl

theorem needEven_ok {s : State} {sp : Space} {addr : Long} {write : Bool} (h : addr.getLsbD 0 = false) :
    (needEven sp addr write).run s = .ok () s := by
  rw [needEven_run, h]
  rfl

/-- A word or long access at an odd address is an address error (rule R67). -/
theorem needEven_odd {s : State} {sp : Space} {addr : Long} {write : Bool} (h : addr.getLsbD 0 = true) :
    (needEven sp addr write).run s =
      .error (.access .address { addr := addr, write := write, space := sp }) s := by
  rw [needEven_run, h]
  rfl

theorem readWord_ok {s : State} {sp : Space} {addr : Long} (h : s.canRead .word sp addr) :
    (readWord sp addr).run s = .ok (s.wordAt sp addr) s := by
  rw [readWord, bind_ok (needEven_ok h.1), busRead16_ok h.2]

theorem readLong_ok {s : State} {sp : Space} {addr : Long} (h : s.canRead .long sp addr) :
    (readLong sp addr).run s = .ok (s.longAt sp addr) s := by
  rw [readLong, bind_ok (needEven_ok h.1), bind_ok (busRead16_ok h.2.1), bind_ok (busRead16_ok h.2.2)]
  rfl

/-- `MemRead` (rule R70). -/
theorem readMem_ok {s : State} {sz : Size} {sp : Space} {addr : Long} (h : s.canRead sz sp addr) :
    (readMem sz sp addr).run s = .ok (s.operandAt sz sp addr) s := by
  cases sz
  · simp only [readMem, bind_ok (busRead8_ok h)]
    rfl
  · simp only [readMem, bind_ok (readWord_ok h)]
    rfl
  · simp only [readMem, readLong_ok h]
    rfl

theorem writeWord_ok {s : State} {sp : Space} {addr : Long} {w : Word} (h : s.canWrite .word sp addr) :
    (writeWord sp addr w).run s = .ok () (s.putWord sp addr w) := by
  rw [writeWord, bind_ok (needEven_ok h.1), busWrite16_ok h.2]

/-- `MemWrite` (rule R71). -/
theorem writeMem_ok {s : State} {sz : Size} {pre : Bool} {sp : Space} {addr v : Long} (h : s.canWrite sz sp addr) :
    (writeMem sz pre sp addr v).run s = .ok () (s.putOperand sz pre sp addr v) := by
  cases sz
  · exact busWrite8_ok h
  · exact writeWord_ok h
  · obtain ⟨h1, h2, h3⟩ := h
    simp only [writeMem, bind_run, ask_run, State.putOperand, writeLong, needEven_ok h1]
    split
    · simp only [bind_run, busWrite16_ok h3]
      exact busWrite16_ok h2
    · simp only [bind_run, busWrite16_ok h2]
      exact busWrite16_ok h3

/-- `read_ea` (rule R127). -/
theorem readLoc_ok {s : State} {sz : Size} {loc : Loc} (h : s.readable sz loc) :
    (readLoc sz loc).run s = .ok (s.valueAt sz loc) s := by
  cases loc with
  | mem sp addr pre => exact readMem_ok h
  | dreg r => rfl
  | areg r => rfl
  | imm v => rfl

/-- `write_ea` (rule R127). -/
theorem writeLoc_ok {s : State} {sz : Size} {loc : Loc} {v : Long} (h : s.writable sz loc) :
    (writeLoc sz loc v).run s = .ok () (s.store sz loc v) := by
  cases loc with
  | mem sp addr pre =>
    simp only [writeLoc, h.1]
    exact writeMem_ok h.2
  | dreg r => rfl
  | areg r => rfl
  | imm v => exact h.elim

/-- Resolving and reading an operand (rule R126). -/
theorem operand_ok {s : State} {sz : Size} {ea : Ea}
    (h : (s.resolve sz ea).2.readable sz (s.resolve sz ea).1) :
    (operand sz ea).run s = .ok ((s.resolve sz ea).2.valueAt sz (s.resolve sz ea).1) (s.resolve sz ea).2 := by
  rw [operand, bind_ok (locate_run sz ea s), readLoc_ok h]

/-- The push of a long word. -/
theorem pushLong_ok {s : State} {v : Long} (h : s.canWrite .long s.dataSpace (s.getA 7 - 4)) :
    (pushLong v).run s = .ok () (s.pushed v) := by
  have hs : (s.putA 7 (s.getA 7 - 4)).dataSpace = s.dataSpace := by simp [State.dataSpace]
  have h' : (s.putA 7 (s.getA 7 - 4)).canWrite .long s.dataSpace (s.getA 7 - 4) := by
    simpa [State.canWrite, State.writesMemory] using h
  simp only [pushLong, bind_run, upd_run, ask_run, State.getA_putA, if_true, hs]
  exact writeMem_ok h'

/-- The pop of a long word. -/
theorem popLong_ok {s : State} (h : s.canRead .long s.dataSpace (s.getA 7)) :
    popLong.run s = .ok (s.longAt s.dataSpace (s.getA 7)) (s.putA 7 (s.getA 7 + 4)) := by
  simp only [popLong, bind_run, ask_run, readLong_ok h, upd_run, pure_run]

/-- The pop of a word. -/
theorem popWord_ok {s : State} (h : s.canRead .word s.dataSpace (s.getA 7)) :
    popWord.run s = .ok (s.wordAt s.dataSpace (s.getA 7)) (s.putA 7 (s.getA 7 + 2)) := by
  simp only [popWord, bind_run, ask_run, readWord_ok h, upd_run, pure_run]

/-- Bit 0 of an address is its remainder by 2. -/
theorem even_iff {a : Long} : a.getLsbD 0 = false ↔ a.toNat % 2 = 0 := by
  rw [BitVec.getLsbD, Nat.testBit_zero]
  simp

/-- Subtracting an even number keeps an address even. -/
theorem even_sub {a : Long} {n : Nat} (h : a.getLsbD 0 = false) (hn : n % 2 = 0) :
    (a - BitVec.ofNat 32 n).getLsbD 0 = false := by
  rw [even_iff] at h ⊢
  have := a.isLt
  simp only [BitVec.toNat_sub, BitVec.toNat_ofNat]
  omega

/-- Adding an even number keeps an address even. -/
theorem even_add {a : Long} {n : Nat} (h : a.getLsbD 0 = false) (hn : n % 2 = 0) :
    (a + BitVec.ofNat 32 n).getLsbD 0 = false := by
  rw [even_iff] at h ⊢
  have := a.isLt
  simp only [BitVec.toNat_add, BitVec.toNat_ofNat]
  omega

/-- The supervisor stack can take a word. -/
theorem State.canEnter_write {s : State} {n : BitVec 8} (h : s.canEnter n) :
    s.canWrite .word .supervisorData (s.ssp - 2) ∧ s.canWrite .word .supervisorData (s.ssp - 4) ∧
      s.canWrite .word .supervisorData (s.ssp - 6) := by
  obtain ⟨h0, h1, h2, h3, h4⟩ := h
  exact ⟨⟨even_sub (n := 2) h0 rfl, h1⟩, ⟨even_sub (n := 4) h0 rfl, h2⟩, ⟨even_sub (n := 6) h0 rfl, h3⟩⟩

/-- A word of the instruction stream (rule R102). -/
theorem fetchWord_ok {s : State} {addr : Long} (h : s.canRead .word s.programSpace addr) :
    (fetchWord addr).run s = .ok (s.wordAt s.programSpace addr) s := by
  have := readWord_ok h
  simp only [EStateM.run] at this ⊢
  simp only [fetchWord, EStateM.run, this]

/-- The two words at PC (rules R88, R413). -/
theorem fillQueue_ok {s : State} (h : s.canStart s.pc) : fillQueue.run s = .ok () s.filled := by
  rw [fillQueue, bind_ok (ask_run _ _), State.filled]
  cases he : s.pc.getLsbD 0 with
  | true => rfl
  | false =>
    obtain ⟨h1, h2⟩ := h he
    have e2 : (s.pc + 2).getLsbD 0 = false := even_add (n := 2) he rfl
    simp only [Bool.false_eq_true, if_false]
    rw [bind_ok (fetchWord_ok ⟨he, h1⟩), bind_ok (fetchWord_ok ⟨e2, h2⟩)]
    rfl

/-- The fetches that replace extension words (rules R88, R491). -/
theorem replaceWords_ok {s : State} {n : Nat} (h : s.canReplace n) :
    (replaceWords n (s.pc + 2)).run s = .ok () (s.replaced n) := by
  suffices H : ∀ (n : Nat) (u : State) (a : Long), u.programSpace = s.programSpace →
      (∀ k, k < n → u.canRead .word s.programSpace (a + BitVec.ofNat 32 (2 * k))) →
      (replaceWords n a).run u = .ok () (if n = 0 then u else
        u.withAhead (u.wordAt s.programSpace (a + BitVec.ofNat 32 (2 * (n - 1))))) by
    rw [H n s (s.pc + 2) rfl (fun k hk => by
      have := h k hk
      rwa [Nat.mul_add, BitVec.ofNat_add, BitVec.add_comm (BitVec.ofNat 32 (2 * k)), ← BitVec.add_assoc] at this)]
    simp only [State.replaced]
    split
    · rfl
    · rename_i h0
      have : BitVec.ofNat 32 (2 * n) = 2 + BitVec.ofNat 32 (2 * (n - 1)) := by
        rw [show 2 * n = 2 + 2 * (n - 1) by omega, BitVec.ofNat_add]
        rfl
      rw [this, BitVec.add_assoc]
  intro n
  induction n with
  | zero => intro u a _ _; rfl
  | succ n ih =>
    intro u a hs hr
    have h0 := hr 0 (by omega)
    rw [Nat.mul_zero, show BitVec.ofNat 32 0 = 0#32 from rfl, BitVec.add_zero, ← hs] at h0
    rw [replaceWords, bind_ok (fetchWord_ok h0), bind_ok (upd_run _ _), ih (u.withAhead _) (a + 2)]
    · simp only [Nat.succ_ne_zero, if_false, Nat.add_sub_cancel]
      split
      · rename_i hn
        subst hn
        simp [hs]
      · rename_i hn
        have e : a + 2 + BitVec.ofNat 32 (2 * (n - 1)) = a + BitVec.ofNat 32 (2 * n) := by
          rw [show 2 * n = 2 + 2 * (n - 1) by omega, BitVec.ofNat_add, BitVec.add_assoc]
          rfl
        rw [e]
        simp only [State.wordAt_withAhead]
        simp only [State.withAhead, Option.map_map]
        rfl
    · exact hs
    · intro k hk
      have := hr (k + 1) (by omega)
      rw [show 2 * (k + 1) = 2 + 2 * k by omega, BitVec.ofNat_add, ← BitVec.add_assoc] at this
      exact State.canRead_of_bus this ⟨rfl, rfl⟩

/-- Groups 1 and 2 exception processing where the stack, the vector and the routine's first words answer (rules R410 to R413). -/
theorem enter_ok {s : State} {mask : Option (BitVec 3)} {vec : M (BitVec 8)} {n : BitVec 8} {pc : Long}
    (hv : ∀ u, vec.run u = .ok n u) (h : s.canTake mask n pc) :
    (enter mask vec pc).run s = .ok () (s.entered3 mask n pc) := by
  obtain ⟨w2, w4, w6⟩ := State.canEnter_write h.1
  have h4 : s.canRead .long .supervisorData (vectorAddress n) := h.1.2.2.2.2
  simp only [enter, bind_run, ask_run, upd_run, hv, State.supervised_ssp]
  have bus : ∀ {u : State} {a : Long} {w : Word}, s.canWrite .word .supervisorData a →
      u.platform = s.platform ∧ u.cycles = s.cycles →
      (writeWord .supervisorData a w).run u = .ok () (u.putWord .supervisorData a w) :=
    fun hw hp => writeWord_ok (State.canWrite_of_bus hw hp)
  rw [bus w2 (by simp)]
  simp only
  rw [bus w6 (by simp)]
  simp only
  rw [bus w4 (by simp)]
  simp only
  rw [readLong_ok (State.canRead_of_bus h4 (by simp))]
  simp only [jump_run]
  exact fillQueue_ok h.2

end Sys2Proof.Machine
end

