-- ==== Sys2Proof/Laws/Keeps.lean ====
section
/-! SUPPORT. Properties of the state that computations keep, whether they answer or abort: one lemma per way of composing and per shared operation, for any property that the basic updates keep. -/

namespace Sys2Proof.Machine

/-- A computation keeps a property of the state, however it ends. -/
def Keeps (P : State → Prop) {α : Type} (m : M α) : Prop :=
  ∀ s, P s → match m.run s with
    | .ok _ t => P t
    | .error _ t => P t

/-- The updates that instructions in either privilege state make. -/
structure Stable (P : State → Prop) : Prop where
  byte : ∀ s sp addr b, P s → P (s.putByte sp addr b)
  drawn : ∀ s, P s → P s.drawn
  data : ∀ s r v, P s → P (s.putD r v)
  address : ∀ s r v, P s → P (s.putA r v)
  skip : ∀ s n, P s → P (s.skip n)
  jumped : ∀ s v, P s → P (s.jumped v)
  ahead : ∀ s w, P s → P (s.withAhead w)
  heard : ∀ s c, P s → P (s.heard c)
  flags : ∀ s (q : Sr), q.t = s.sr.t → q.s = s.sr.s → q.i = s.sr.i → P s → P (s.withSr q)

variable {P : State → Prop} {α β : Type}

theorem Keeps.ok {m : M α} (h : Keeps P m) {s t : State} {a : α} (hs : P s) (hm : m.run s = .ok a t) : P t := by
  have := h s hs
  rwa [hm] at this

theorem Keeps.error {m : M α} (h : Keeps P m) {s t : State} {e : Abort} (hs : P s) (hm : m.run s = .error e t) :
    P t := by
  have := h s hs
  rwa [hm] at this

theorem keeps_pure (a : α) : Keeps P (pure a : M α) := fun _ hs => hs

theorem keeps_ask (f : State → α) : Keeps P (ask f) := fun _ hs => hs

theorem keeps_raise (e : Abort) : Keeps P (raise e : M α) := fun _ hs => hs

theorem keeps_upd {f : State → State} (h : ∀ s, P s → P (f s)) : Keeps P (upd f) := fun s hs => h s hs

theorem keeps_bind {m : M α} {f : α → M β} (hm : Keeps P m) (hf : ∀ a, Keeps P (f a)) : Keeps P (m >>= f) := by
  intro s hs
  rw [bind_run]
  have h := hm s hs
  cases h1 : m.run s with
  | ok a t =>
    rw [h1] at h
    exact hf a t h
  | error e t =>
    rw [h1] at h
    exact h

theorem keeps_ite {c : Prop} [Decidable c] {m m' : M α} (h : Keeps P m) (h' : Keeps P m') :
    Keeps P (if c then m else m') := by
  split
  · exact h
  · exact h'

theorem keeps_needEven (sp : Space) (addr : Long) (w : Bool) : Keeps P (needEven sp addr w) := by
  intro s hs
  rw [needEven_run]
  split <;> rename_i h <;> split at h <;> cases h <;> exact hs

section
variable (hP : Stable P)
include hP

theorem Stable.word (s : State) (sp : Space) (addr : Long) (w : Word) (h : P s) : P (s.putWord sp addr w) :=
  hP.byte _ _ _ _ (hP.byte _ _ _ _ h)

theorem keeps_anyLong : Keeps P anyLong := fun s hs => hP.drawn s hs

theorem keeps_anyBool : Keeps P anyBool := keeps_bind (keeps_anyLong hP) fun _ => keeps_pure _

theorem keeps_anyBits (n : Nat) : Keeps P (anyBits n) := keeps_bind (keeps_anyLong hP) fun _ => keeps_pure _

theorem keeps_startCycle : Keeps P startCycle := by
  intro s hs
  cases h : s.cycles with
  | nil => rw [startCycle_quiet h]; exact hs
  | cons c cs =>
    have hc := hP.heard s c hs
    cases hr : c.reset with
    | none => rw [startCycle_heard h hr]; exact hc
    | some ipl => rw [startCycle_reset h hr]; exact hc

theorem keeps_deviceWord (sp : Space) (addr : Long) : Keeps P (deviceWord sp addr) := fun s hs => hP.drawn s hs

theorem keeps_endRead8 (r : ReadReply) (sp : Space) (addr : Long) : Keeps P (endRead8 r sp addr) := by
  cases r
  · exact keeps_ask _
  · exact keeps_bind (keeps_deviceWord hP _ _) fun _ => keeps_pure _
  · exact keeps_raise _
  · exact keeps_raise _

theorem keeps_endRead16 (r : ReadReply) (sp : Space) (addr : Long) : Keeps P (endRead16 r sp addr) := by
  cases r
  · exact keeps_ask _
  · exact keeps_deviceWord hP _ _
  · exact keeps_raise _
  · exact keeps_raise _

theorem keeps_endWrite8 (r : WriteReply) (sp : Space) (addr : Long) (b : Byte) : Keeps P (endWrite8 r sp addr b) := by
  cases r
  · exact keeps_upd fun s hs => hP.byte s _ _ _ hs
  · exact keeps_pure _
  · exact keeps_raise _
  · exact keeps_raise _

theorem keeps_endWrite16 (r : WriteReply) (sp : Space) (addr : Long) (w : Word) : Keeps P (endWrite16 r sp addr w) := by
  cases r
  · exact keeps_upd fun s hs => hP.word s _ _ _ hs
  · exact keeps_pure _
  · exact keeps_raise _
  · exact keeps_raise _

theorem keeps_busRead8 (sp : Space) (addr : Long) : Keeps P (busRead8 sp addr) :=
  keeps_bind (keeps_startCycle hP) fun _ => keeps_bind (keeps_ask _) fun _ => keeps_endRead8 hP _ _ _

theorem keeps_busRead16 (sp : Space) (addr : Long) : Keeps P (busRead16 sp addr) :=
  keeps_bind (keeps_startCycle hP) fun _ => keeps_bind (keeps_ask _) fun _ => keeps_endRead16 hP _ _ _

theorem keeps_busWrite8 (sp : Space) (addr : Long) (b : Byte) : Keeps P (busWrite8 sp addr b) :=
  keeps_bind (keeps_startCycle hP) fun _ => keeps_bind (keeps_ask _) fun _ => keeps_endWrite8 hP _ _ _ _

theorem keeps_busWrite16 (sp : Space) (addr : Long) (w : Word) : Keeps P (busWrite16 sp addr w) :=
  keeps_bind (keeps_startCycle hP) fun _ => keeps_bind (keeps_ask _) fun _ => keeps_endWrite16 hP _ _ _ _

theorem keeps_busModify8 (sp : Space) (addr : Long) {f : Byte → M Byte} (hf : ∀ b, Keeps P (f b)) :
    Keeps P (busModify8 sp addr f) :=
  keeps_bind (keeps_startCycle hP) fun _ => keeps_bind (keeps_ask _) fun _ =>
    keeps_bind (keeps_endRead8 hP _ _ _) fun _ => keeps_bind (hf _) fun _ => keeps_bind (keeps_ask _) fun _ =>
      keeps_endWrite8 hP _ _ _ _

theorem keeps_readWord (sp : Space) (addr : Long) : Keeps P (readWord sp addr) :=
  keeps_bind (keeps_needEven _ _ _) fun _ => keeps_busRead16 hP _ _

theorem keeps_readLong (sp : Space) (addr : Long) : Keeps P (readLong sp addr) :=
  keeps_bind (keeps_needEven _ _ _) fun _ => keeps_bind (keeps_busRead16 hP _ _) fun _ =>
    keeps_bind (keeps_busRead16 hP _ _) fun _ => keeps_pure _

theorem keeps_readMem (sz : Size) (sp : Space) (addr : Long) : Keeps P (readMem sz sp addr) := by
  cases sz
  · exact keeps_bind (keeps_busRead8 hP _ _) fun _ => keeps_pure _
  · exact keeps_bind (keeps_readWord hP _ _) fun _ => keeps_pure _
  · exact keeps_readLong hP _ _

theorem keeps_writeWord (sp : Space) (addr : Long) (w : Word) : Keeps P (writeWord sp addr w) :=
  keeps_bind (keeps_needEven _ _ _) fun _ => keeps_busWrite16 hP _ _ _

theorem keeps_writeMem (sz : Size) (pre : Bool) (sp : Space) (addr v : Long) : Keeps P (writeMem sz pre sp addr v) := by
  cases sz
  · exact keeps_busWrite8 hP _ _ _
  · exact keeps_writeWord hP _ _ _
  · refine keeps_bind (keeps_ask _) fun l => keeps_bind (keeps_needEven _ _ _) fun _ => ?_
    cases l
    · exact keeps_bind (keeps_busWrite16 hP _ _ _) fun _ => keeps_busWrite16 hP _ _ _
    · exact keeps_bind (keeps_busWrite16 hP _ _ _) fun _ => keeps_busWrite16 hP _ _ _

theorem keeps_pushLong (v : Long) : Keeps P (pushLong v) :=
  keeps_bind (keeps_upd fun s hs => hP.address s _ _ hs) fun _ => keeps_bind (keeps_ask _) fun _ =>
    keeps_bind (keeps_ask _) fun _ => keeps_writeMem hP _ _ _ _ _

theorem keeps_popWord : Keeps P popWord :=
  keeps_bind (keeps_ask _) fun _ => keeps_bind (keeps_ask _) fun _ => keeps_bind (keeps_readWord hP _ _) fun _ =>
    keeps_bind (keeps_upd fun s hs => hP.address s _ _ hs) fun _ => keeps_pure _

theorem keeps_popLong : Keeps P popLong :=
  keeps_bind (keeps_ask _) fun _ => keeps_bind (keeps_ask _) fun _ => keeps_bind (keeps_readLong hP _ _) fun _ =>
    keeps_bind (keeps_upd fun s hs => hP.address s _ _ hs) fun _ => keeps_pure _

theorem keeps_fetchWord (addr : Long) : Keeps P (fetchWord addr) := by
  intro s hs
  have h := keeps_readWord hP s.programSpace addr s hs
  simp only [EStateM.run, fetchWord] at h ⊢
  split at h <;> rename_i e <;> rw [e]
  · exact h
  · rename_i x t
    cases x <;> exact h

/-- The words of a handler or a target are fetched into the queue. -/
theorem keeps_fillQueue (hq : ∀ s q, P s → P (s.withQueue q)) : Keeps P fillQueue :=
  keeps_bind (keeps_ask _) fun _ => keeps_ite (keeps_pure _)
    (keeps_bind (keeps_fetchWord hP _) fun _ => keeps_bind (keeps_fetchWord hP _) fun _ => keeps_upd fun s hs => hq s _ hs)

theorem keeps_replaceWords (n : Nat) (addr : Long) : Keeps P (replaceWords n addr) := by
  induction n generalizing addr with
  | zero => exact keeps_pure _
  | succ n ih =>
    exact keeps_bind (keeps_fetchWord hP _) fun _ => keeps_bind (keeps_upd fun s hs => hP.ahead s _ hs) fun _ => ih _

theorem keeps_jump (v : Long) : Keeps P (jump v) := keeps_upd fun s hs => hP.jumped s _ hs

theorem keeps_updSr {f : Sr → Sr} (h : ∀ q, (f q).t = q.t ∧ (f q).s = q.s ∧ (f q).i = q.i) : Keeps P (updSr f) :=
  keeps_upd fun s hs => hP.flags s _ (h _).1 (h _).2.1 (h _).2.2 hs

theorem keeps_skipWord : Keeps P skipWord := keeps_upd fun s hs => hP.skip s _ hs

theorem keeps_skipImmediate (sz : Size) : Keeps P (skipImmediate sz) := keeps_upd fun s hs => hP.skip s _ hs

theorem Stable.resolve (s : State) (sz : Size) (ea : Ea) (h : P s) : P (s.resolve sz ea).2 := by
  cases ea with
  | postInc r | preDec r => exact hP.address _ _ _ h
  | dn r | an r | ind r => exact h
  | disp r d => exact hP.skip _ _ h
  | index r x => exact hP.skip _ _ h
  | absW a | absL a | pcDisp a | pcIndex a | imm a => exact hP.skip _ _ h

theorem keeps_locate (sz : Size) (ea : Ea) : Keeps P (locate sz ea) := fun s hs => hP.resolve s sz ea hs

theorem keeps_readLoc (sz : Size) (loc : Loc) : Keeps P (readLoc sz loc) := by
  cases loc with
  | mem sp addr pre => exact keeps_readMem hP _ _ _
  | dreg r | areg r => exact keeps_ask _
  | imm v => exact keeps_pure _

theorem keeps_writeLoc (sz : Size) (loc : Loc) (v : Long) : Keeps P (writeLoc sz loc v) := by
  cases loc with
  | mem sp addr pre => exact keeps_ite (keeps_raise _) (keeps_writeMem hP _ _ _ _ _)
  | dreg r => exact keeps_upd fun s hs => hP.data s _ _ hs
  | areg r => exact keeps_upd fun s hs => hP.address s _ _ hs
  | imm v => exact keeps_raise _

theorem keeps_operand (sz : Size) (ea : Ea) : Keeps P (operand sz ea) :=
  keeps_bind (keeps_locate hP _ _) fun _ => keeps_readLoc hP _ _

theorem keeps_setDataReg (sz : Size) (r : Reg) (v : Long) : Keeps P (setDataReg sz r v) :=
  keeps_upd fun s hs => hP.data s _ _ hs

theorem keeps_effectiveAddress (ea : Ea) : Keeps P (effectiveAddress ea) := by
  refine keeps_bind (keeps_locate hP _ _) fun l => ?_
  cases l with
  | mem sp addr pre => exact keeps_pure _
  | dreg r | areg r => exact keeps_raise _
  | imm v => exact keeps_raise _

theorem keeps_modifyEa (sz : Size) (ea : Ea) {f : Long → M Long} (hf : ∀ v, Keeps P (f v)) :
    Keeps P (modifyEa sz ea f) :=
  keeps_bind (keeps_locate hP _ _) fun _ => keeps_bind (keeps_readLoc hP _ _) fun _ =>
    keeps_bind (hf _) fun _ => keeps_writeLoc hP _ _ _

theorem keeps_modifyIndivisible (ea : Ea) {f : Long → M Long} (hf : ∀ v, Keeps P (f v)) :
    Keeps P (modifyIndivisible ea f) := by
  refine keeps_bind (keeps_locate hP _ _) fun l => ?_
  cases l with
  | mem sp addr pre =>
    exact keeps_ite (keeps_raise _) (keeps_busModify8 hP _ _ fun _ => keeps_bind (hf _) fun _ => keeps_pure _)
  | dreg r | areg r | imm v =>
    exact keeps_bind (keeps_readLoc hP _ _) fun _ => keeps_bind (hf _) fun _ => keeps_writeLoc hP _ _ _

theorem keeps_overwriteEa (sz : Size) (ea : Ea) {v : M Long} (hv : Keeps P v) : Keeps P (overwriteEa sz ea v) := by
  refine keeps_bind (keeps_locate hP _ _) fun l => ?_
  cases l with
  | mem sp addr pre =>
    exact keeps_bind (keeps_readLoc hP _ _) fun _ => keeps_bind hv fun _ => keeps_writeLoc hP _ _ _
  | dreg r | areg r => exact keeps_bind hv fun _ => keeps_writeLoc hP _ _ _
  | imm v => exact keeps_bind hv fun _ => keeps_writeLoc hP _ _ _

theorem keeps_operandPair (sz : Size) (mem : Bool) (rx ry : Reg) : Keeps P (operandPair sz mem rx ry) :=
  keeps_bind (keeps_locate hP _ _) fun _ => keeps_bind (keeps_readLoc hP _ _) fun _ =>
    keeps_bind (keeps_locate hP _ _) fun _ => keeps_bind (keeps_readLoc hP _ _) fun _ => keeps_pure _

end

end Sys2Proof.Machine
end

