-- ==== Sys2Proof/Laws/Operands.lean ====
section
/-! SUPPORT. What the shared operations of instructions do where memory answers: reading, replacing and overwriting an operand, in the terms of Safety.lean. -/

namespace Sys2Proof.Machine

/-- An instruction whose body answers. -/
theorem instr_ok {s t : State} {body : M Unit} (h : body.run s.opened = .ok () t) : instr s body = .next t := by
  simp [instr, h, conclude]

/-- An instruction whose body meets a bus or address error. -/
theorem instr_access {s t : State} {body : M Unit} {k : AccessFault} {a : Access}
    (h : body.run s.opened = .error (.access k a) t) :
    instr s body = (s.settle t).group0 k a (.operand s.pc) := by
  simp [instr, h, conclude]

/-- An instruction whose body traps. -/
theorem instr_trap {s t : State} {body : M Unit} {n : BitVec 8} (h : body.run s.opened = .error (.trap n) t) :
    instr s body = t.group2 n s.pc := by
  simp [instr, h, conclude]

/-- No extension word consumed. -/
theorem State.after_zero (s : State) : s.after 0 = s.opened := by
  simp [State.after, State.skip, State.opened]

/-- The first extension words of the instruction itself. -/
theorem State.opened_skip (s : State) (n : Nat) : s.opened.skip n = s.after n := rfl

/-- Two counts of extension words add up. -/
theorem State.skip_skip (s : State) (m n : Nat) : (s.skip m).skip n = s.skip (m + n) := by
  simp only [State.skip, State.mk.injEq, true_and, and_true]
  rw [BitVec.add_assoc, ← BitVec.ofNat_add, Nat.mul_add]

section Resolve
variable (s : State) (sz : Size) (ea : Ea)

@[simp] theorem State.resolve_platform : (s.resolve sz ea).2.platform = s.platform := by
  cases ea <;> simp [State.resolve]

@[simp] theorem State.resolve_cycles : (s.resolve sz ea).2.cycles = s.cycles := by
  cases ea <;> simp [State.resolve]

@[simp] theorem State.resolve_mem : (s.resolve sz ea).2.mem = s.mem := by
  cases ea <;> simp [State.resolve]

@[simp] theorem State.resolve_sr : (s.resolve sz ea).2.sr = s.sr := by
  cases ea <;> simp [State.resolve]

@[simp] theorem State.resolve_d : (s.resolve sz ea).2.d = s.d := by
  cases ea <;> simp [State.resolve]

@[simp] theorem State.resolve_draws : (s.resolve sz ea).2.draws = s.draws := by
  cases ea <;> simp [State.resolve]

@[simp] theorem State.resolve_longSplit : (s.resolve sz ea).2.longSplit = s.longSplit := by
  cases ea <;> simp [State.resolve]

@[simp] theorem State.resolve_getD (r : Reg) : (s.resolve sz ea).2.getD r = s.getD r := by
  simp [State.getD]

@[simp] theorem State.resolve_byteAt (sp : Space) (addr : Long) :
    (s.resolve sz ea).2.byteAt sp addr = s.byteAt sp addr := by
  simp [State.byteAt]

@[simp] theorem State.resolve_wordAt (sp : Space) (addr : Long) :
    (s.resolve sz ea).2.wordAt sp addr = s.wordAt sp addr := by
  simp [State.wordAt]

@[simp] theorem State.resolve_longAt (sp : Space) (addr : Long) :
    (s.resolve sz ea).2.longAt sp addr = s.longAt sp addr := by
  simp [State.longAt]

@[simp] theorem State.resolve_operandAt (sz' : Size) (sp : Space) (addr : Long) :
    (s.resolve sz ea).2.operandAt sz' sp addr = s.operandAt sz' sp addr := by
  cases sz' <;> simp [State.operandAt]

@[simp] theorem State.resolve_dataSpace : (s.resolve sz ea).2.dataSpace = s.dataSpace := by
  simp [State.dataSpace]

@[simp] theorem State.resolve_programSpace : (s.resolve sz ea).2.programSpace = s.programSpace := by
  simp [State.programSpace]

end Resolve

@[simp] theorem State.resolved_platform (s : State) (n : Nat) (sz : Size) (ea : Ea) :
    (s.resolved n sz ea).platform = s.platform := by
  simp [State.resolved, State.after]

@[simp] theorem State.resolved_cycles (s : State) (n : Nat) (sz : Size) (ea : Ea) :
    (s.resolved n sz ea).cycles = s.cycles := by
  simp [State.resolved, State.after]

@[simp] theorem State.resolved_sr (s : State) (n : Nat) (sz : Size) (ea : Ea) : (s.resolved n sz ea).sr = s.sr := by
  simp [State.resolved, State.after]

@[simp] theorem State.resolved_draws (s : State) (n : Nat) (sz : Size) (ea : Ea) :
    (s.resolved n sz ea).draws = s.draws := by
  simp [State.resolved, State.after]

@[simp] theorem State.resolved_getD (s : State) (n : Nat) (sz : Size) (ea : Ea) (r : Reg) :
    (s.resolved n sz ea).getD r = s.getD r := by
  simp [State.resolved]

/-- Whether a location can be read depends on the platform and the inputs of cycles only. -/
theorem State.readable_of_bus {s t : State} {sz : Size} {loc : Loc} (h : s.readable sz loc)
    (hp : t.platform = s.platform ∧ t.cycles = s.cycles) : t.readable sz loc := by
  cases loc with
  | mem sp addr pre => exact State.canRead_of_bus h hp
  | dreg r => trivial
  | areg r => trivial
  | imm v => trivial

/-- Whether a location can be written depends on the platform and the inputs of cycles only. -/
theorem State.writable_of_bus {s t : State} {sz : Size} {loc : Loc} (h : s.writable sz loc)
    (hp : t.platform = s.platform ∧ t.cycles = s.cycles) : t.writable sz loc := by
  cases loc with
  | mem sp addr pre => exact ⟨h.1, State.canWrite_of_bus h.2 hp⟩
  | dreg r => trivial
  | areg r => trivial
  | imm v => exact h.elim

/-- The operand at a resolved location is the one that was there before resolving. -/
theorem State.valueAt_resolve (s : State) (sz : Size) (ea : Ea) :
    (s.resolve sz ea).2.valueAt sz (s.resolve sz ea).1 = s.valueAt sz (s.resolve sz ea).1 := by
  cases ea <;> simp [State.resolve, State.valueAt, State.operandAt, State.longAt, State.wordAt, State.byteAt]

/-- Consuming extension words changes no operand. -/
theorem State.valueAt_after (s : State) (n : Nat) (sz : Size) (loc : Loc) :
    (s.after n).valueAt sz loc = s.valueAt sz loc := by
  cases loc <;> rfl

/-- Reading the operand of an instruction after `n` extension words. -/
theorem operand_after {s : State} {n : Nat} {sz : Size} {ea : Ea} (h : s.canSource n sz ea) :
    (operand sz ea).run (s.after n) = .ok (s.source n sz ea) (s.resolved n sz ea) := by
  have h' : ((s.after n).resolve sz ea).2.readable sz ((s.after n).resolve sz ea).1 :=
    State.readable_of_bus h (by simp [State.after])
  rw [operand_ok h', State.valueAt_resolve, State.valueAt_after]
  rfl

/-- Replacing the operand of an instruction after `n` extension words, by a computation that answers `r` in `t`. -/
theorem modifyEa_after {s t : State} {n : Nat} {sz : Size} {ea : Ea} {f : Long → M Long} {r : Long}
    (h : s.canModify n sz ea) (hf : (f (s.source n sz ea)).run (s.resolved n sz ea) = .ok r t)
    (hp : t.platform = s.platform ∧ t.cycles = s.cycles) :
    (modifyEa sz ea f).run (s.after n) = .ok () (t.store sz (s.loc n sz ea) r) := by
  have h' : ((s.after n).resolve sz ea).2.readable sz ((s.after n).resolve sz ea).1 :=
    State.readable_of_bus h.1 (by simp [State.after])
  rw [modifyEa, bind_ok (locate_run _ _ _), bind_ok (readLoc_ok h'), State.valueAt_resolve, State.valueAt_after]
  simp only [State.source, State.loc, State.resolved] at hf ⊢
  rw [bind_ok hf]
  exact writeLoc_ok (State.writable_of_bus h.2 hp)

/-- Overwriting the operand of an instruction after `n` extension words. -/
theorem overwriteEa_after {s t : State} {n : Nat} {sz : Size} {ea : Ea} {v : M Long} {r : Long}
    (h : s.canModify n sz ea) (hv : v.run (s.resolved n sz ea) = .ok r t) (hp : t.platform = s.platform ∧ t.cycles = s.cycles) :
    (overwriteEa sz ea v).run (s.after n) = .ok () (t.store sz (s.loc n sz ea) r) := by
  have h' : ((s.after n).resolve sz ea).2.readable sz ((s.after n).resolve sz ea).1 :=
    State.readable_of_bus h.1 (by simp [State.after])
  have hw : t.writable sz (s.loc n sz ea) := State.writable_of_bus h.2 hp
  have hw' : (writeLoc sz (s.loc n sz ea) r).run t = .ok () (t.store sz (s.loc n sz ea) r) := writeLoc_ok hw
  rw [overwriteEa, bind_ok (locate_run _ _ _)]
  have hr := readLoc_ok h'
  simp only [State.loc, State.resolved] at hv hw' ⊢
  cases hl : ((s.after n).resolve sz ea).1 with
  | mem sp addr pre =>
    rw [hl] at hr hw'
    simp only
    rw [bind_ok hr, bind_ok hv]
    exact hw'
  | dreg q | areg q =>
    rw [hl] at hw'
    simp only
    rw [bind_ok hv]
    exact hw'
  | imm q =>
    rw [hl] at hw'
    simp only
    rw [bind_ok hv]
    exact hw'

end Sys2Proof.Machine
end

