-- ==== Sys2Proof/Laws/PerInstr.lean ====
section
/-! SUPPORT. The family `WordCount`: an instruction is one to five words long (rules R100, R101), instruction by instruction. -/

namespace Sys2Proof.Laws

/-- The encoding of an instruction has one to five words. -/
def WordCount.Statement (i : Instr) : Prop := 1 ≤ (encode i).length ∧ (encode i).length ≤ 5

theorem WordCount.imm (sz : Size) (v : Long) : (encodeImm sz v).length ≤ 2 := by
  cases sz <;> simp [encodeImm, wordsOfLong]

theorem WordCount.ext (sz : Size) (ea : Ea) : (ea.ext sz).length ≤ 2 := by
  cases ea <;> simp [Ea.ext, wordsOfLong, WordCount.imm]

theorem WordCount.ofEa (b : Nat) (sz : Size) (ea : Ea) :
    1 ≤ (encodeEa b sz ea).length ∧ (encodeEa b sz ea).length ≤ 5 := by
  have := WordCount.ext sz ea
  simp only [encodeEa, List.length_cons]
  omega

theorem WordCount.ofWordEa (b : Nat) (x : Word) (sz : Size) (ea : Ea) :
    1 ≤ (encodeWordEa b x sz ea).length ∧ (encodeWordEa b x sz ea).length ≤ 5 := by
  have := WordCount.ext sz ea
  simp only [encodeWordEa, List.length_cons]
  omega

theorem WordCount.ofImmEa (b : Nat) (sz : Size) (v : Long) (ea : Ea) :
    1 ≤ (encodeImmEa b sz v ea).length ∧ (encodeImmEa b sz v ea).length ≤ 5 := by
  have := WordCount.ext sz ea
  have := WordCount.imm sz v
  simp only [encodeImmEa, List.length_cons, List.length_append]
  omega

theorem WordCount.ofMove (b : Nat) (sz : Size) (src dst : Ea) :
    1 ≤ (encodeMove b sz src dst).length ∧ (encodeMove b sz src dst).length ≤ 5 := by
  have := WordCount.ext sz src
  have := WordCount.ext sz dst
  simp only [encodeMove, List.length_cons, List.length_append]
  omega

theorem WordCount.ofBranch (c : Nat) (d : BrDisp) :
    1 ≤ (encodeBranch c d).length ∧ (encodeBranch c d).length ≤ 5 := by
  cases d <;> simp [encodeBranch]

theorem WordCount.ofFixed {l : List Word} (n : Nat) (h : l.length = n) (h1 : 1 ≤ n) (h5 : n ≤ 5) :
    1 ≤ l.length ∧ l.length ≤ 5 := by
  omega

theorem WordCount.ori : ∀ sz imm ea, WordCount.Statement (.ori sz imm ea) := fun _ _ _ => WordCount.ofImmEa _ _ _ _
theorem WordCount.andi : ∀ sz imm ea, WordCount.Statement (.andi sz imm ea) := fun _ _ _ => WordCount.ofImmEa _ _ _ _
theorem WordCount.subi : ∀ sz imm ea, WordCount.Statement (.subi sz imm ea) := fun _ _ _ => WordCount.ofImmEa _ _ _ _
theorem WordCount.addi : ∀ sz imm ea, WordCount.Statement (.addi sz imm ea) := fun _ _ _ => WordCount.ofImmEa _ _ _ _
theorem WordCount.eori : ∀ sz imm ea, WordCount.Statement (.eori sz imm ea) := fun _ _ _ => WordCount.ofImmEa _ _ _ _
theorem WordCount.cmpi : ∀ sz imm ea, WordCount.Statement (.cmpi sz imm ea) := fun _ _ _ => WordCount.ofImmEa _ _ _ _
theorem WordCount.oriToCcr : ∀ imm, WordCount.Statement (.oriToCcr imm) := fun _ => WordCount.ofFixed 2 rfl (by decide) (by decide)
theorem WordCount.oriToSr : ∀ imm, WordCount.Statement (.oriToSr imm) := fun _ => WordCount.ofFixed 2 rfl (by decide) (by decide)
theorem WordCount.andiToCcr : ∀ imm, WordCount.Statement (.andiToCcr imm) := fun _ => WordCount.ofFixed 2 rfl (by decide) (by decide)
theorem WordCount.andiToSr : ∀ imm, WordCount.Statement (.andiToSr imm) := fun _ => WordCount.ofFixed 2 rfl (by decide) (by decide)
theorem WordCount.eoriToCcr : ∀ imm, WordCount.Statement (.eoriToCcr imm) := fun _ => WordCount.ofFixed 2 rfl (by decide) (by decide)
theorem WordCount.eoriToSr : ∀ imm, WordCount.Statement (.eoriToSr imm) := fun _ => WordCount.ofFixed 2 rfl (by decide) (by decide)
theorem WordCount.btstStatic : ∀ bit ea, WordCount.Statement (.btstStatic bit ea) := fun _ _ => WordCount.ofWordEa _ _ _ _
theorem WordCount.btstDynamic : ∀ dn ea, WordCount.Statement (.btstDynamic dn ea) := fun _ _ => WordCount.ofEa _ _ _
theorem WordCount.bchgStatic : ∀ bit ea, WordCount.Statement (.bchgStatic bit ea) := fun _ _ => WordCount.ofWordEa _ _ _ _
theorem WordCount.bchgDynamic : ∀ dn ea, WordCount.Statement (.bchgDynamic dn ea) := fun _ _ => WordCount.ofEa _ _ _
theorem WordCount.bclrStatic : ∀ bit ea, WordCount.Statement (.bclrStatic bit ea) := fun _ _ => WordCount.ofWordEa _ _ _ _
theorem WordCount.bclrDynamic : ∀ dn ea, WordCount.Statement (.bclrDynamic dn ea) := fun _ _ => WordCount.ofEa _ _ _
theorem WordCount.bsetStatic : ∀ bit ea, WordCount.Statement (.bsetStatic bit ea) := fun _ _ => WordCount.ofWordEa _ _ _ _
theorem WordCount.bsetDynamic : ∀ dn ea, WordCount.Statement (.bsetDynamic dn ea) := fun _ _ => WordCount.ofEa _ _ _
theorem WordCount.movep : ∀ toMem long dn an d, WordCount.Statement (.movep toMem long dn an d) := fun _ _ _ _ _ => WordCount.ofFixed 2 rfl (by decide) (by decide)
theorem WordCount.moveB : ∀ src dst, WordCount.Statement (.moveB src dst) := fun _ _ => WordCount.ofMove _ _ _ _
theorem WordCount.moveW : ∀ src dst, WordCount.Statement (.moveW src dst) := fun _ _ => WordCount.ofMove _ _ _ _
theorem WordCount.moveaW : ∀ src an, WordCount.Statement (.moveaW src an) := fun _ _ => WordCount.ofEa _ _ _
theorem WordCount.moveL : ∀ src dst, WordCount.Statement (.moveL src dst) := fun _ _ => WordCount.ofMove _ _ _ _
theorem WordCount.moveaL : ∀ src an, WordCount.Statement (.moveaL src an) := fun _ _ => WordCount.ofEa _ _ _
theorem WordCount.negx : ∀ sz ea, WordCount.Statement (.negx sz ea) := fun _ _ => WordCount.ofEa _ _ _
theorem WordCount.clr : ∀ sz ea, WordCount.Statement (.clr sz ea) := fun _ _ => WordCount.ofEa _ _ _
theorem WordCount.neg : ∀ sz ea, WordCount.Statement (.neg sz ea) := fun _ _ => WordCount.ofEa _ _ _
theorem WordCount.not : ∀ sz ea, WordCount.Statement (.not sz ea) := fun _ _ => WordCount.ofEa _ _ _
theorem WordCount.tst : ∀ sz ea, WordCount.Statement (.tst sz ea) := fun _ _ => WordCount.ofEa _ _ _
theorem WordCount.moveFromSr : ∀ ea, WordCount.Statement (.moveFromSr ea) := fun _ => WordCount.ofEa _ _ _
theorem WordCount.moveToCcr : ∀ ea, WordCount.Statement (.moveToCcr ea) := fun _ => WordCount.ofEa _ _ _
theorem WordCount.moveToSr : ∀ ea, WordCount.Statement (.moveToSr ea) := fun _ => WordCount.ofEa _ _ _
theorem WordCount.chk : ∀ dn ea, WordCount.Statement (.chk dn ea) := fun _ _ => WordCount.ofEa _ _ _
theorem WordCount.lea : ∀ an ea, WordCount.Statement (.lea an ea) := fun _ _ => WordCount.ofEa _ _ _
theorem WordCount.nbcd : ∀ ea, WordCount.Statement (.nbcd ea) := fun _ => WordCount.ofEa _ _ _
theorem WordCount.swap : ∀ dn, WordCount.Statement (.swap dn) := fun _ => WordCount.ofFixed 1 rfl (by decide) (by decide)
theorem WordCount.pea : ∀ ea, WordCount.Statement (.pea ea) := fun _ => WordCount.ofEa _ _ _
theorem WordCount.extW : ∀ dn, WordCount.Statement (.extW dn) := fun _ => WordCount.ofFixed 1 rfl (by decide) (by decide)
theorem WordCount.extL : ∀ dn, WordCount.Statement (.extL dn) := fun _ => WordCount.ofFixed 1 rfl (by decide) (by decide)
theorem WordCount.movemToMem : ∀ long mask ea, WordCount.Statement (.movemToMem long mask ea) := fun _ _ _ => WordCount.ofWordEa _ _ _ _
theorem WordCount.movemToRegs : ∀ long mask ea, WordCount.Statement (.movemToRegs long mask ea) := fun _ _ _ => WordCount.ofWordEa _ _ _ _
theorem WordCount.tas : ∀ ea, WordCount.Statement (.tas ea) := fun _ => WordCount.ofEa _ _ _
theorem WordCount.trap : ∀ vector, WordCount.Statement (.trap vector) := fun _ => WordCount.ofFixed 1 rfl (by decide) (by decide)
theorem WordCount.link : ∀ an d, WordCount.Statement (.link an d) := fun _ _ => WordCount.ofFixed 2 rfl (by decide) (by decide)
theorem WordCount.unlk : ∀ an, WordCount.Statement (.unlk an) := fun _ => WordCount.ofFixed 1 rfl (by decide) (by decide)
theorem WordCount.moveToUsp : ∀ an, WordCount.Statement (.moveToUsp an) := fun _ => WordCount.ofFixed 1 rfl (by decide) (by decide)
theorem WordCount.moveFromUsp : ∀ an, WordCount.Statement (.moveFromUsp an) := fun _ => WordCount.ofFixed 1 rfl (by decide) (by decide)
theorem WordCount.reset : WordCount.Statement (.reset) := WordCount.ofFixed 1 rfl (by decide) (by decide)
theorem WordCount.nop : WordCount.Statement (.nop) := WordCount.ofFixed 1 rfl (by decide) (by decide)
theorem WordCount.stop : ∀ imm, WordCount.Statement (.stop imm) := fun _ => WordCount.ofFixed 2 rfl (by decide) (by decide)
theorem WordCount.rte : WordCount.Statement (.rte) := WordCount.ofFixed 1 rfl (by decide) (by decide)
theorem WordCount.rts : WordCount.Statement (.rts) := WordCount.ofFixed 1 rfl (by decide) (by decide)
theorem WordCount.trapv : WordCount.Statement (.trapv) := WordCount.ofFixed 1 rfl (by decide) (by decide)
theorem WordCount.rtr : WordCount.Statement (.rtr) := WordCount.ofFixed 1 rfl (by decide) (by decide)
theorem WordCount.jsr : ∀ ea, WordCount.Statement (.jsr ea) := fun _ => WordCount.ofEa _ _ _
theorem WordCount.jmp : ∀ ea, WordCount.Statement (.jmp ea) := fun _ => WordCount.ofEa _ _ _
theorem WordCount.addq : ∀ data sz ea, WordCount.Statement (.addq data sz ea) := fun _ _ _ => WordCount.ofEa _ _ _
theorem WordCount.subq : ∀ data sz ea, WordCount.Statement (.subq data sz ea) := fun _ _ _ => WordCount.ofEa _ _ _
theorem WordCount.scc : ∀ cond ea, WordCount.Statement (.scc cond ea) := fun _ _ => WordCount.ofEa _ _ _
theorem WordCount.dbcc : ∀ cond dn d, WordCount.Statement (.dbcc cond dn d) := fun _ _ _ => WordCount.ofFixed 2 rfl (by decide) (by decide)
theorem WordCount.bra : ∀ d, WordCount.Statement (.bra d) := fun _ => WordCount.ofBranch _ _
theorem WordCount.bsr : ∀ d, WordCount.Statement (.bsr d) := fun _ => WordCount.ofBranch _ _
theorem WordCount.bcc : ∀ cond d, WordCount.Statement (.bcc cond d) := fun _ _ => WordCount.ofBranch _ _
theorem WordCount.moveq : ∀ dn data, WordCount.Statement (.moveq dn data) := fun _ _ => WordCount.ofFixed 1 rfl (by decide) (by decide)
theorem WordCount.orToReg : ∀ sz dn ea, WordCount.Statement (.orToReg sz dn ea) := fun _ _ _ => WordCount.ofEa _ _ _
theorem WordCount.orToMem : ∀ sz dn ea, WordCount.Statement (.orToMem sz dn ea) := fun _ _ _ => WordCount.ofEa _ _ _
theorem WordCount.divu : ∀ dn ea, WordCount.Statement (.divu dn ea) := fun _ _ => WordCount.ofEa _ _ _
theorem WordCount.divs : ∀ dn ea, WordCount.Statement (.divs dn ea) := fun _ _ => WordCount.ofEa _ _ _
theorem WordCount.sbcd : ∀ mem rx ry, WordCount.Statement (.sbcd mem rx ry) := fun _ _ _ => WordCount.ofFixed 1 rfl (by decide) (by decide)
theorem WordCount.subToReg : ∀ sz dn ea, WordCount.Statement (.subToReg sz dn ea) := fun _ _ _ => WordCount.ofEa _ _ _
theorem WordCount.subToMem : ∀ sz dn ea, WordCount.Statement (.subToMem sz dn ea) := fun _ _ _ => WordCount.ofEa _ _ _
theorem WordCount.suba : ∀ long an ea, WordCount.Statement (.suba long an ea) := fun _ _ _ => WordCount.ofEa _ _ _
theorem WordCount.subx : ∀ sz mem rx ry, WordCount.Statement (.subx sz mem rx ry) := fun _ _ _ _ => WordCount.ofFixed 1 rfl (by decide) (by decide)
theorem WordCount.cmp : ∀ sz dn ea, WordCount.Statement (.cmp sz dn ea) := fun _ _ _ => WordCount.ofEa _ _ _
theorem WordCount.cmpa : ∀ long an ea, WordCount.Statement (.cmpa long an ea) := fun _ _ _ => WordCount.ofEa _ _ _
theorem WordCount.eor : ∀ sz dn ea, WordCount.Statement (.eor sz dn ea) := fun _ _ _ => WordCount.ofEa _ _ _
theorem WordCount.cmpm : ∀ sz ax ay, WordCount.Statement (.cmpm sz ax ay) := fun _ _ _ => WordCount.ofFixed 1 rfl (by decide) (by decide)
theorem WordCount.andToReg : ∀ sz dn ea, WordCount.Statement (.andToReg sz dn ea) := fun _ _ _ => WordCount.ofEa _ _ _
theorem WordCount.andToMem : ∀ sz dn ea, WordCount.Statement (.andToMem sz dn ea) := fun _ _ _ => WordCount.ofEa _ _ _
theorem WordCount.mulu : ∀ dn ea, WordCount.Statement (.mulu dn ea) := fun _ _ => WordCount.ofEa _ _ _
theorem WordCount.muls : ∀ dn ea, WordCount.Statement (.muls dn ea) := fun _ _ => WordCount.ofEa _ _ _
theorem WordCount.abcd : ∀ mem rx ry, WordCount.Statement (.abcd mem rx ry) := fun _ _ _ => WordCount.ofFixed 1 rfl (by decide) (by decide)
theorem WordCount.exgDD : ∀ rx ry, WordCount.Statement (.exgDD rx ry) := fun _ _ => WordCount.ofFixed 1 rfl (by decide) (by decide)
theorem WordCount.exgAA : ∀ rx ry, WordCount.Statement (.exgAA rx ry) := fun _ _ => WordCount.ofFixed 1 rfl (by decide) (by decide)
theorem WordCount.exgDA : ∀ rx ry, WordCount.Statement (.exgDA rx ry) := fun _ _ => WordCount.ofFixed 1 rfl (by decide) (by decide)
theorem WordCount.addToReg : ∀ sz dn ea, WordCount.Statement (.addToReg sz dn ea) := fun _ _ _ => WordCount.ofEa _ _ _
theorem WordCount.addToMem : ∀ sz dn ea, WordCount.Statement (.addToMem sz dn ea) := fun _ _ _ => WordCount.ofEa _ _ _
theorem WordCount.adda : ∀ long an ea, WordCount.Statement (.adda long an ea) := fun _ _ _ => WordCount.ofEa _ _ _
theorem WordCount.addx : ∀ sz mem rx ry, WordCount.Statement (.addx sz mem rx ry) := fun _ _ _ _ => WordCount.ofFixed 1 rfl (by decide) (by decide)
theorem WordCount.asrReg : ∀ sz byReg count dn, WordCount.Statement (.asrReg sz byReg count dn) := fun _ _ _ _ => WordCount.ofFixed 1 rfl (by decide) (by decide)
theorem WordCount.asrMem : ∀ ea, WordCount.Statement (.asrMem ea) := fun _ => WordCount.ofEa _ _ _
theorem WordCount.aslReg : ∀ sz byReg count dn, WordCount.Statement (.aslReg sz byReg count dn) := fun _ _ _ _ => WordCount.ofFixed 1 rfl (by decide) (by decide)
theorem WordCount.aslMem : ∀ ea, WordCount.Statement (.aslMem ea) := fun _ => WordCount.ofEa _ _ _
theorem WordCount.lsrReg : ∀ sz byReg count dn, WordCount.Statement (.lsrReg sz byReg count dn) := fun _ _ _ _ => WordCount.ofFixed 1 rfl (by decide) (by decide)
theorem WordCount.lsrMem : ∀ ea, WordCount.Statement (.lsrMem ea) := fun _ => WordCount.ofEa _ _ _
theorem WordCount.lslReg : ∀ sz byReg count dn, WordCount.Statement (.lslReg sz byReg count dn) := fun _ _ _ _ => WordCount.ofFixed 1 rfl (by decide) (by decide)
theorem WordCount.lslMem : ∀ ea, WordCount.Statement (.lslMem ea) := fun _ => WordCount.ofEa _ _ _
theorem WordCount.roxrReg : ∀ sz byReg count dn, WordCount.Statement (.roxrReg sz byReg count dn) := fun _ _ _ _ => WordCount.ofFixed 1 rfl (by decide) (by decide)
theorem WordCount.roxrMem : ∀ ea, WordCount.Statement (.roxrMem ea) := fun _ => WordCount.ofEa _ _ _
theorem WordCount.roxlReg : ∀ sz byReg count dn, WordCount.Statement (.roxlReg sz byReg count dn) := fun _ _ _ _ => WordCount.ofFixed 1 rfl (by decide) (by decide)
theorem WordCount.roxlMem : ∀ ea, WordCount.Statement (.roxlMem ea) := fun _ => WordCount.ofEa _ _ _
theorem WordCount.rorReg : ∀ sz byReg count dn, WordCount.Statement (.rorReg sz byReg count dn) := fun _ _ _ _ => WordCount.ofFixed 1 rfl (by decide) (by decide)
theorem WordCount.rorMem : ∀ ea, WordCount.Statement (.rorMem ea) := fun _ => WordCount.ofEa _ _ _
theorem WordCount.rolReg : ∀ sz byReg count dn, WordCount.Statement (.rolReg sz byReg count dn) := fun _ _ _ _ => WordCount.ofFixed 1 rfl (by decide) (by decide)
theorem WordCount.rolMem : ∀ ea, WordCount.Statement (.rolMem ea) := fun _ => WordCount.ofEa _ _ _
theorem WordCount.line1010 : ∀ low, WordCount.Statement (.line1010 low) := fun _ => WordCount.ofFixed 1 rfl (by decide) (by decide)
theorem WordCount.line1111 : ∀ low, WordCount.Statement (.line1111 low) := fun _ => WordCount.ofFixed 1 rfl (by decide) (by decide)

end Sys2Proof.Laws
end

