-- ==== Sys2Proof/Laws/Results.lean ====
section
/-! SUPPORT. What the shared computations of the instruction families answer, in the terms of Safety.lean: to be cited instead of unfolding a meaning. -/

namespace Sys2Proof.Machine

/-! Values of an operand size. -/

theorem trunc_trunc (sz : Size) (v : Long) : sz.trunc (sz.trunc v) = sz.trunc v := by
  cases sz <;> simp [Size.trunc]

theorem trunc_operandAt (s : State) (sz : Size) (sp : Space) (a : Long) : sz.trunc (s.operandAt sz sp a) =
    s.operandAt sz sp a := by
  cases sz <;> simp [Size.trunc, State.operandAt]

/-- An operand is already of its size. -/
theorem trunc_source (s : State) (n : Nat) (sz : Size) (ea : Ea) : sz.trunc (s.source n sz ea) = s.source n sz
    ea := by
  simp only [State.source]
  cases s.loc n sz ea <;> simp [State.valueAt, trunc_trunc, trunc_operandAt]

theorem trunc_and (sz : Size) (a b : Long) : sz.trunc (a &&& b) = sz.trunc a &&& sz.trunc b := by
  cases sz <;> simp [Size.trunc]

theorem trunc_or (sz : Size) (a b : Long) : sz.trunc (a ||| b) = sz.trunc a ||| sz.trunc b := by
  cases sz <;> simp [Size.trunc]

theorem trunc_xor (sz : Size) (a b : Long) : sz.trunc (a ^^^ b) = sz.trunc a ^^^ sz.trunc b := by
  cases sz <;> simp [Size.trunc]

theorem sext_trunc (sz : Size) (v : Long) : sz.sext (sz.trunc v) = sz.sext v := by
  cases sz
  · simp only [Size.sext, Size.trunc]; congr 1; ext i hi; simp
  · simp only [Size.sext, Size.trunc]; congr 1; ext i hi; simp
  · rfl

theorem trunc_word (v : Long) : Size.word.trunc v = (v.setWidth 16).setWidth 32 := rfl

/-- The value of the low word, unsigned. -/
theorem toNat_low_word (v : Long) : ((v.setWidth 16).setWidth 32 : Long).toNat = (v.setWidth 16).toNat := by
  rw [BitVec.toNat_setWidth]
  exact Nat.mod_eq_of_lt (Nat.lt_of_lt_of_le (BitVec.isLt _) (by decide))

/-- The value of the low word, signed. -/
theorem toInt_low_word (v : Long) : ((v.setWidth 16).signExtend 32 : Long).toInt = (v.setWidth 16).toInt := by
  rw [BitVec.toInt_signExtend_of_le (by decide)]

theorem oneBit_eq_twoPow (k : Nat) : oneBit k = BitVec.twoPow 32 k := by
  apply BitVec.eq_of_toNat_eq
  simp [oneBit, BitVec.toNat_twoPow]

/-! Replacing an operand and its flags. -/

theorem State.withSr_self (u : State) (q : Sr) (h : u.sr = q) : u.withSr q = u := by subst h; rfl

theorem arithmeticTo_dn (s : State) (sz : Size) (dn : Reg) (f : Long → Sum) :
    (arithmeticTo sz (.dn dn) f).run s = .ok () ((s.withSr (s.sr.arithmetic sz (f (sz.trunc (s.getD dn))))).putD dn
      (sz.merge (s.getD dn) (f (sz.trunc (s.getD dn))).r)) := rfl

theorem logicTo_dn (s : State) (sz : Size) (dn : Reg) (f : Long → Long) :
    (logicTo sz (.dn dn) f).run s = .ok () ((s.withSr (s.sr.logic sz (sz.trunc (f (sz.trunc (s.getD dn)))))).putD dn
      (sz.merge (s.getD dn) (sz.trunc (f (sz.trunc (s.getD dn)))))) := rfl

/-- Replacing an operand by a value that depends on it and on the status register only. -/
theorem modify_flags {s : State} {n : Nat} {sz : Size} {ea : Ea} {f : Long → M Long} {q : Sr} {r : Long}
    (h : s.canModify n sz ea)
    (hf : ∀ u : State, u.sr = s.sr → (f (s.source n sz ea)).run u = .ok r (u.withSr q)) :
    (modifyEa sz ea f).run (s.after n) = .ok () (s.modified n sz ea q r) :=
  modifyEa_after h (hf _ (by simp)) (by simp)

/-- Overwriting an operand by a value that depends on the status register only. -/
theorem overwrite_flags {s : State} {n : Nat} {sz : Size} {ea : Ea} {f : M Long} {q : Sr} {r : Long}
    (h : s.canModify n sz ea)
    (hf : ∀ u : State, u.sr = s.sr → f.run u = .ok r (u.withSr q)) :
    (overwriteEa sz ea f).run (s.after n) = .ok () (s.modified n sz ea q r) :=
  overwriteEa_after h (hf _ (by simp)) (by simp)

/-- A sum or difference to an operand (rules R202, R210). -/
theorem arith_after {s : State} {n : Nat} {sz : Size} {ea : Ea} {f : Long → Sum} (h : s.canModify n sz ea) :
    (arithmeticTo sz ea f).run (s.after n) = .ok () (s.modified n sz ea (s.sr.arithmetic sz (f (s.source n sz ea)))
      (f (s.source n sz ea)).r) :=
  modify_flags h fun u hu => by rw [← hu]; rfl

/-- A logical result to an operand (rule R250). -/
theorem logic_after {s : State} {n : Nat} {sz : Size} {ea : Ea} {f : Long → Long} (h : s.canModify n sz ea) :
    (logicTo sz ea f).run (s.after n) = .ok () (s.modified n sz ea (s.sr.logic sz (sz.trunc (f (s.source n sz ea))))
      (sz.trunc (f (s.source n sz ea)))) :=
  modify_flags h fun u hu => by rw [← hu]; rfl

/-- A shift or rotate of a word in memory (rule R280). -/
theorem shift_after {s : State} {ea : Ea} {f : Nat → Sr → Long → Shift} (h : s.canModify 0 .word ea) :
    (shiftMemory ea f).run s.opened = .ok ()
      (s.modified 0 .word ea (s.sr.shift .word (f 1 s.sr (s.source 0 .word ea)))
        (f 1 s.sr (s.source 0 .word ea)).r) := by
  rw [← State.after_zero, shiftMemory]
  exact modify_flags h fun u hu => by rw [← hu]; rfl

/-- Testing a bit (rule R291). -/
theorem bitTest_after {s : State} {n : Nat} {ea : Ea} (b : Nat) (h : s.canSource n (bitSize ea) ea) :
   (bitTest b ea).run (s.after n) = .ok ()
       ((s.resolved n (bitSize ea) ea).withSr
         { s.sr with z := !(s.source n (bitSize ea) ea).getLsbD (b % (bitSize ea).bits) }) := by
  rw [bitTest, bind_ok (operand_after h)]
  simp [testBit, bitIndex]

/-- Testing and changing a bit (rule R291). -/
theorem bitModify_after {s : State} {n : Nat} {ea : Ea} (b : Nat) (g : Long → Long → Long)
    (h : s.canModify n (bitSize ea) ea) :
   (bitModify b ea g).run (s.after n) = .ok ()
       (s.modified n (bitSize ea) ea
         { s.sr with z := !(s.source n (bitSize ea) ea).getLsbD (b % (bitSize ea).bits) }
           (g (s.source n (bitSize ea) ea) (oneBit (b % (bitSize ea).bits)))) := by
  rw [bitModify]
  exact modify_flags h fun u hu => by rw [← hu]; rfl

theorem pair_value (s : State) (sz : Size) (mem : Bool) (rx ry : Reg) :
    (s.resolved 0 sz (pairEa mem ry)).valueAt sz ((s.resolved 0 sz (pairEa mem ry)).resolve sz (pairEa mem rx)).1 =
      s.valueAt sz ((s.resolved 0 sz (pairEa mem ry)).resolve sz (pairEa mem rx)).1 := by
  cases mem
  · rfl
  · cases sz <;> simp [pairEa, State.resolve, State.valueAt, State.operandAt, State.longAt, State.wordAt,
      State.byteAt, State.resolved, State.after]

/-- The operands of the two-register forms (rule R131). -/
theorem operandPair_after {s : State} {sz : Size} {mem : Bool} {rx ry : Reg}
    (h1 : s.canSource 0 sz (pairEa mem ry))
    (h2 : s.readable sz ((s.resolved 0 sz (pairEa mem ry)).resolve sz (pairEa mem rx)).1) :
    (operandPair sz mem rx ry).run (s.after 0) = .ok (s.source 0 sz (pairEa mem ry),
      s.valueAt sz ((s.resolved 0 sz (pairEa mem ry)).resolve sz (pairEa mem rx)).1,
      ((s.resolved 0 sz (pairEa mem ry)).resolve sz (pairEa mem rx)).1)
      ((s.resolved 0 sz (pairEa mem ry)).resolve sz (pairEa mem rx)).2 := by
  have e1 : (if mem then Ea.preDec ry else .dn ry) = pairEa mem ry := rfl
  have e2 : (if mem then Ea.preDec rx else .dn rx) = pairEa mem rx := rfl
  rw [operandPair, e1, e2]
  have ho := operand_after h1
  rw [operand, bind_ok (locate_run _ _ _)] at ho
  rw [bind_ok (locate_run _ _ _), bind_ok ho, bind_ok (locate_run _ _ _)]
  have : (((s.resolved 0 sz (pairEa mem ry)).resolve sz (pairEa mem rx)).2).readable sz
    ((s.resolved 0 sz (pairEa mem ry)).resolve sz (pairEa mem rx)).1 := State.readable_of_bus h2 (by simp)
  rw [bind_ok (readLoc_ok this), State.valueAt_resolve, pair_value]
  rfl

/-! Addresses, branches and the stack. -/

/-- The address of a control operand. -/
theorem effectiveAddress_after {s : State} {n : Nat} {ea : Ea} (h : ea.isControl = true) :
    (effectiveAddress ea).run (s.after n) = .ok (s.addressOf n ea) (s.resolved n .long ea) := by
  cases ea <;> simp [Ea.isControl] at h <;> rfl

/-- Resolving a control operand updates no address register. -/
theorem State.resolved_getA_of_control (s : State) (ea : Ea) (h : ea.isControl = true) (n : Nat) (r : Reg) :
    (s.resolved n .long ea).getA r = s.getA r := by
  cases ea <;> simp [Ea.isControl] at h <;> rfl

/-- The target of a branch (rules R106, R310). -/
theorem branchTarget_opened (s : State) (d : BrDisp) : (branchTarget d).run s.opened = .ok (s.pc + 2 + d.offset)
    (s.after d.words) := by
  cases d
  · simp only [branchTarget, bind_run, ask_run, pure_run, BrDisp.words, State.after_zero]
    rfl
  · simp only [branchTarget, bind_run, ask_run, pure_run, skipWord_run, BrDisp.words]
    rfl

/-- A push after the operands have been resolved. -/
theorem pushLong_after {s u : State} (v : Long) (h : s.canWrite .long s.dataSpace (s.getA 7 - 4))
    (hp : u.platform = s.platform ∧ u.cycles = s.cycles)
   (hs : u.sr = s.sr) (ha : u.getA 7 = s.getA 7) : (pushLong v).run u = .ok () (u.pushed v) := by
  apply pushLong_ok
  have : u.dataSpace = s.dataSpace := by simp [State.dataSpace, hs]
  rw [this, ha]
  exact State.canWrite_of_bus h hp

theorem State.putA7_putA7 (s : State) (x y : Long) : (s.putA 7 x).putA 7 y = s.putA 7 y := by
  have h7 : ¬ ((7 : Reg).val < 7) := by decide
  simp only [State.putA, h7, dif_neg, not_false_eq_true]
  cases hs : s.sr.s <;> simp [hs]

theorem State.longAt_putA (s : State) (r : Reg) (v : Long) (sp : Space) (a : Long) : (s.putA r v).longAt sp a =
    s.longAt sp a := by
  simp [State.longAt, State.wordAt]

/-! Exceptions. -/

/-- A privileged instruction in supervisor state. -/
theorem privileged_ok {s t : State} {body : M Unit} (hs : s.sr.s = true) (h : body.run s.opened = .ok () t) :
    privileged s body = .next t := by
  rw [privileged, if_pos hs]
  exact instr_ok h

/-- A group 2 exception where the stack, the vector and the handler answer. -/
theorem State.group2_ok {t : State} {n : BitVec 8} {ipc : Long} (h : t.canTake none n t.pc) :
    t.group2 n ipc = .next (t.entered3 none n t.pc).markGroup2 := by
  rw [State.group2, enter_ok (vec := pure n) (fun _ => rfl) h]
  rfl

/-- A group 1 exception where the stack, the vector and the handler answer. -/
theorem State.group1_ok {t : State} {n : BitVec 8} {pc : Long} (h : t.canTake none n pc) :
    t.group1 n pc = .next (t.entered3 none n pc).markGroup1 := by
  rw [State.group1, enter_ok (vec := pure n) (fun _ => rfl) h]
  rfl

/-! Free values. -/

theorem State.putA_drew (u : State) (r : Reg) (v : Long) (n : Nat) : (u.drew n).putA r v = (u.putA r v).drew n := by
  by_cases h : r.val < 7
  · simp only [State.putA, dif_pos h]; rfl
  · simp only [State.putA, dif_neg h, show (u.drew n).sr = u.sr from rfl]; by_cases hs : u.sr.s = true
    · simp only [if_pos hs]; rfl
    · simp only [if_neg hs]; rfl

/-- Storing an operand and drawing free values commute. -/
theorem State.store_drew (u : State) (sz : Size) (loc : Loc) (v : Long) (n : Nat) : (u.drew n).store sz loc v =
    (u.store sz loc v).drew n := by
  cases loc with
  | dreg r => rfl
  | areg r => exact State.putA_drew _ _ _ _
  | mem sp a pre =>
    cases sz
    · rfl
    · rfl
    · simp only [State.store, State.putOperand, show (u.drew n).lowWordFirst pre = u.lowWordFirst pre from rfl]
      cases u.lowWordFirst pre <;> rfl
  | imm v => rfl

/-- A decimal result (rule R302). -/
theorem decimalResult_run (t : Int) (c : Bool) (u : State) : ∃ n o, (decimalResult t c).run u = .ok
    (bcdByte (t % 100).toNat)
   ((u.drew 2).withSr { u.sr with x := c, n := n, z := u.sr.z && bcdByte (t % 100).toNat == 0, v := o, c := c }) := by
  refine ⟨(Config.free u.draws).getLsbD 0, (Config.free (u.draws+1)).getLsbD 0, ?_⟩
  simp only [decimalResult, bind_run, anyBool_run, updSr_run, pure_run]
  simp only [State.drawn_sr, State.drawn_draws]
  rfl

/-- The result on digits that are not decimal, one value for X and C (rules R300, R302). -/
theorem decimalInvalid_run (u : State) : ∃ (r : Byte) (n z o c : Bool), decimalInvalid.run u = .ok r
   ((u.drew 5).withSr { u.sr with x := c, n := n, z := z, v := o, c := c }) := by
  refine ⟨(Config.free u.draws).setWidth 8, (Config.free (u.draws+2)).getLsbD 0, (Config.free (u.draws+3)).getLsbD 0,
    (Config.free (u.draws+4)).getLsbD 0, (Config.free (u.draws+1)).getLsbD 0, ?_⟩
  simp only [decimalInvalid, bind_run, anyBool_run, anyBits_run, updSr_run, pure_run]
  simp only [State.drawn_sr, State.drawn_draws]
  simp only [State.drawn, State.withSr, State.drew]

theorem decimalAdd_valid (s d : Byte) (u : State) (h : (bcdValid s && bcdValid d) = true) :
  (decimalAdd s d).run u =
      (decimalResult ((bcdValue d : Int) + bcdValue s + bitCode u.sr.x)
        (decide (99 < (bcdValue d : Int) + bcdValue s + bitCode u.sr.x))).run u := by
  simp only [decimalAdd, bind_run, ask_run]
  rw [if_pos h]
  have : (decide (99 < bcdValue d + bcdValue s + bitCode u.sr.x)) = decide
      (99 < (bcdValue d : Int) + bcdValue s + bitCode u.sr.x) := by
    apply decide_eq_decide.2; omega
  simp only [this]
  rfl

theorem decimalSub_valid (s d : Byte) (u : State) (h : (bcdValid s && bcdValid d) = true) :
  (decimalSub s d).run u =
      (decimalResult ((bcdValue d : Int) - bcdValue s - bitCode u.sr.x)
        (decide ((bcdValue d : Int) - bcdValue s - bitCode u.sr.x < 0))).run u := by
  simp only [decimalSub, bind_run, ask_run]
  rw [if_pos h]

theorem decimalAdd_invalid (s d : Byte) (u : State) (h : ¬ (bcdValid s && bcdValid d) = true) :
  (decimalAdd s d).run u = decimalInvalid.run u := by
  simp only [decimalAdd, bind_run, ask_run]
  rw [if_neg h]

theorem decimalSub_invalid (s d : Byte) (u : State) (h : ¬ (bcdValid s && bcdValid d) = true) :
  (decimalSub s d).run u = decimalInvalid.run u := by
  simp only [decimalSub, bind_run, ask_run]
  rw [if_neg h]

/-! Division. -/

/-- The quotient and remainder of a truncating division, by what defines them (rule R232). -/
theorem tdiv_unique (d v q r : Int) (h : d = q * v + r) (hr : r.natAbs < v.natAbs) (hs : r = 0 ∨ (r < 0 ↔ d < 0)) :
   d.tdiv v = q ∧ d.tmod v = r := by
  have e := Int.mul_tdiv_add_tmod d v
  have l : (d.tmod v).natAbs < v.natAbs := by
    rw [Int.natAbs_tmod]; exact Nat.mod_lt _ (by omega)
  have hm : d.tmod v = 0 ∨ (d.tmod v < 0 ↔ d < 0) := by
    rcases (show d < 0 ∨ d ≥ 0 by omega) with hd | hd
    · have : d.tmod v ≤ 0 := by
        have := Int.tmod_nonneg (a := -d) v (by omega)
        rw [Int.neg_tmod] at this; omega
      omega
    · have : 0 ≤ d.tmod v := Int.tmod_nonneg v hd
      omega
  generalize d.tmod v = r' at *
  generalize d.tdiv v = q' at *
  have hk : (q' - q) * v = r - r' := by rw [Int.sub_mul]; rw [Int.mul_comm q' v]; omega
  have hlt : (r - r').natAbs < v.natAbs := by
    rcases hs with hs | hs <;> rcases hm with hm | hm <;> omega
  have : q' - q = 0 := by
    refine Decidable.byContradiction fun hne => ?_
    have h1 : (r - r').natAbs = (q' - q).natAbs * v.natAbs := by rw [← hk, Int.natAbs_mul]
    have h2 : 1 ≤ (q' - q).natAbs := by omega
    have := Nat.mul_le_mul_right v.natAbs h2
    omega
  rw [this] at hk
  omega

end Sys2Proof.Machine
end

