-- ==== Sys2Proof/Tests/Slice0.lean ====
section
/-! SUPPORT. Tests: every check of WellFormed refuses an ill-formed term; every constructor's decoding on words written out from the encodings of spec/opcode_table.json; single steps with the results that spec/95_test_vectors.md gives; and for each statement with hypotheses a state and operands that meet them. -/

namespace Sys2Proof.Tests

open Sys2Proof.Machine

/-! Well-formedness: one ill-formed term for each check. -/

/-- None of the terms is well formed. -/
def noneWf (l : List Instr) : Bool := l.all fun i => !i.wf

/-- Operand categories (rule R132). -/
theorem test_wf_categories :
    noneWf [.ori .byte 1 (.an 0), .addi .word 1 (.pcDisp 0), .cmpi .long 1 (.imm 0), .btstStatic 1 (.imm 0),
      .btstDynamic 1 (.an 0), .bchgStatic 1 (.pcDisp 0), .bsetDynamic 1 (.an 2), .moveB (.dn 0) (.an 1),
      .moveW (.dn 0) (.imm 0), .moveL (.dn 0) (.pcDisp 0), .neg .word (.an 1), .scc .eq (.pcDisp 4),
      .eor .word 0 (.imm 1), .moveToCcr (.an 0), .divu 0 (.an 1), .lea 0 (.postInc 1), .jmp (.dn 0), .pea (.imm 0),
      .movemToMem true 1 (.postInc 0), .movemToRegs true 1 (.preDec 0), .addq 1 .word (.imm 0), .orToReg .word 0 (.an 1),
      .orToMem .word 0 (.dn 1), .addToMem .long 0 (.an 1), .asrMem (.dn 0)] = true := by decide

/-- Byte operands in address registers (rules R22, R111). -/
theorem test_wf_byte_address_register :
    noneWf [.moveB (.an 0) (.dn 1), .addq 1 .byte (.an 0), .addToReg .byte 0 (.an 1), .cmp .byte 0 (.an 1)] = true := by
  decide

/-- Immediates that do not fit their size (rule R121). -/
theorem test_wf_immediates :
    noneWf [.ori .byte 0x100 (.dn 0), .subi .word 0x10000 (.dn 0), .btstDynamic 0 (.imm 0x100),
      .moveB (.imm 0x100) (.dn 0), .moveW (.imm 0x10000) (.dn 0), .moveaW (.imm 0x10000) 0, .divs 0 (.imm 0x10000),
      .andToReg .byte 0 (.imm 0x100), .addToReg .word 0 (.imm 0x10000), .adda false 0 (.imm 0x10000)] = true := by decide

/-- Branch displacements and conditions (rule R106). -/
theorem test_wf_branches :
    noneWf [.bra (.short 0), .bsr (.short 0), .bcc .eq (.short 0), .bcc .t (.short 2), .bcc .f (.word 2)] = true := by decide

/-! Decoding: words written out from the encodings of spec/opcode_table.json. -/

/-- Each list of words decodes to its instruction, which takes all of them. -/
def allRead (l : List (List Word × Instr)) : Bool :=
  l.all fun p => match decode p.1 with
    | .ok (i, rest) => i == p.2 && rest.isEmpty && i.wf
    | .error _ => false

theorem test_decode_immediates :
    allRead [
      ([0b0000000000000101, 0xAB7F], .ori .byte 0x7F (.dn 5)),
      ([0b0000001001010011, 0x8001], .andi .word 0x8001 (.ind 3)),
      ([0b0000010010011110, 0x1234, 0x5678], .subi .long 0x12345678 (.postInc 6)),
      ([0b0000011001101010, 0x0001, 0xFFFE], .addi .word 1 (.disp 2 0xFFFE)),
      ([0b0000101010111001, 0x0000, 0x0001, 0x00FF, 0x3000], .eori .long 1 (.absL 0x00FF3000)),
      ([0b0000110000110001, 0x0080, 0x97FE], .cmpi .byte 0x80 (.index 1 { isAddr := true, reg := 1, isLong := false, d8 := 0xFE }))] = true := by decide

theorem test_decode_status_immediates :
    allRead [
      ([0b0000000000111100, 0x0010], .oriToCcr 0x10),
      ([0b0000000001111100, 0x0700], .oriToSr 0x0700),
      ([0b0000001000111100, 0x00EF], .andiToCcr 0xEF),
      ([0b0000001001111100, 0xF8FF], .andiToSr 0xF8FF),
      ([0b0000101000111100, 0x0001], .eoriToCcr 1),
      ([0b0000101001111100, 0x8000], .eoriToSr 0x8000)] = true := by decide

theorem test_decode_bits :
    allRead [
      ([0b0000100000111010, 0x0007, 0x0010], .btstStatic 7 (.pcDisp 0x10)),
      ([0b0000110100111100, 0x0055], .btstDynamic 6 (.imm 0x55)),
      ([0b0000100001000001, 0x001F], .bchgStatic 31 (.dn 1)),
      ([0b0000010101100101], .bchgDynamic 2 (.preDec 5)),
      ([0b0000100010010000, 0x0007], .bclrStatic 7 (.ind 0)),
      ([0b0000111110000011], .bclrDynamic 7 (.dn 3)),
      ([0b0000100011111000, 0x0003, 0x8000], .bsetStatic 3 (.absW 0x8000)),
      ([0b0000001111011010], .bsetDynamic 1 (.postInc 2))] = true := by decide

theorem test_decode_moves :
    allRead [
      ([0b0000011110001101, 0x0102], .movep true false 3 5 0x0102),
      ([0b0001001011100110], .moveB (.preDec 6) (.postInc 1)),
      ([0b0011010101111100, 0x1111, 0x2222], .moveW (.imm 0x1111) (.disp 2 0x2222)),
      ([0b0011110001001011], .moveaW (.an 3) 6),
      ([0b0010001111111001, 0x0001, 0x0002, 0x0003, 0x0004], .moveL (.absL 0x00010002) (.absL 0x00030004)),
      ([0b0010111001000010], .moveaL (.dn 2) 7),
      ([0b0111011010000000], .moveq 3 0x80),
      ([0b0100100011100111, 0xC080], .movemToMem true 0xC080 (.preDec 7)),
      ([0b0100110010011101, 0x0103], .movemToRegs false 0x0103 (.postInc 5))] = true := by decide

theorem test_decode_single_operand :
    allRead [
      ([0b0100000001000100], .negx .word (.dn 4)),
      ([0b0100001000100111], .clr .byte (.preDec 7)),
      ([0b0100010010000111], .neg .long (.dn 7)),
      ([0b0100011001010110], .not .word (.ind 6)),
      ([0b0100101010011001], .tst .long (.postInc 1)),
      ([0b0100101011010010], .tas (.ind 2)),
      ([0b0100100000010101], .nbcd (.ind 5)),
      ([0b0100100001000110], .swap 6),
      ([0b0100100010000001], .extW 1),
      ([0b0100100011000010], .extL 2)] = true := by decide

theorem test_decode_status_moves :
    allRead [
      ([0b0100000011000011], .moveFromSr (.dn 3)),
      ([0b0100010011111100, 0x001F], .moveToCcr (.imm 0x1F)),
      ([0b0100011011010001], .moveToSr (.ind 1)),
      ([0b0100111001100011], .moveToUsp 3),
      ([0b0100111001101100], .moveFromUsp 4)] = true := by decide

theorem test_decode_addresses :
    allRead [
      ([0b0100011110000101], .chk 3 (.dn 5)),
      ([0b0100100111111011, 0x0802], .lea 4 (.pcIndex { isAddr := false, reg := 0, isLong := true, d8 := 2 })),
      ([0b0100100001101100, 0x7FFF], .pea (.disp 4 0x7FFF)),
      ([0b0100111010111000, 0x4000], .jsr (.absW 0x4000)),
      ([0b0100111011010111], .jmp (.ind 7)),
      ([0b0100111001010110, 0xFFFC], .link 6 0xFFFC),
      ([0b0100111001011101], .unlk 5)] = true := by decide

theorem test_decode_system :
    allRead [
      ([0b0100111001001101], .trap 13),
      ([0b0100111001110000], .reset),
      ([0b0100111001110001], .nop),
      ([0b0100111001110010, 0x2000], .stop 0x2000),
      ([0b0100111001110011], .rte),
      ([0b0100111001110101], .rts),
      ([0b0100111001110110], .trapv),
      ([0b0100111001110111], .rtr),
      ([0b1010000100100011], .line1010 0x123),
      ([0b1111111111111111], .line1111 0xFFF)] = true := by decide

theorem test_decode_quick_and_conditions :
    allRead [
      ([0b0101000001001010], .addq 0 .word (.an 2)),
      ([0b0101101100010011], .subq 5 .byte (.ind 3)),
      ([0b0101110111000001], .scc .lt (.dn 1)),
      ([0b0101011011001100, 0xFFF0], .dbcc .ne 4 0xFFF0),
      ([0b0110000011111110], .bra (.short 0xFE)),
      ([0b0110000100000000, 0x0100], .bsr (.word 0x0100)),
      ([0b0110001011111111], .bcc .hi (.short 0xFF))] = true := by decide

theorem test_decode_or_and_divide :
    allRead [
      ([0b1000001010010110], .orToReg .long 1 (.ind 6)),
      ([0b1000101100100000], .orToMem .byte 5 (.preDec 0)),
      ([0b1000010011000011], .divu 2 (.dn 3)),
      ([0b1000100111011001], .divs 4 (.postInc 1)),
      ([0b1000110100001010], .sbcd true 6 2)] = true := by decide

theorem test_decode_subtract_and_compare :
    allRead [
      ([0b1001111001001011], .subToReg .word 7 (.an 3)),
      ([0b1001011110010001], .subToMem .long 3 (.ind 1)),
      ([0b1001101111000110], .suba true 5 (.dn 6)),
      ([0b1001001101000100], .subx .word false 1 4),
      ([0b1011011000010100], .cmp .byte 3 (.ind 4)),
      ([0b1011010011011101], .cmpa false 2 (.postInc 5)),
      ([0b1011100110000001], .eor .long 4 (.dn 1)),
      ([0b1011001101001110], .cmpm .word 1 6)] = true := by decide

theorem test_decode_and_multiply_exchange :
    allRead [
      ([0b1100110001000010], .andToReg .word 6 (.dn 2)),
      ([0b1100001110011100], .andToMem .long 1 (.postInc 4)),
      ([0b1100101011010000], .mulu 5 (.ind 0)),
      ([0b1100000111000111], .muls 0 (.dn 7)),
      ([0b1100010100000101], .abcd false 2 5),
      ([0b1100001101000110], .exgDD 1 6),
      ([0b1100010101001101], .exgAA 2 5),
      ([0b1100011110001100], .exgDA 3 4)] = true := by decide

theorem test_decode_add :
    allRead [
      ([0b1101100000000001], .addToReg .byte 4 (.dn 1)),
      ([0b1101010101010111], .addToMem .word 2 (.ind 7)),
      ([0b1101001011111100, 0x8000], .adda false 1 (.imm 0x8000)),
      ([0b1101101110001011], .addx .long true 5 3)] = true := by decide

theorem test_decode_shifts_of_registers :
    allRead [
      ([0b1110000000000011], .asrReg .byte false 0 3),
      ([0b1110001101100100], .aslReg .word true 1 4),
      ([0b1110010010001101], .lsrReg .long false 2 5),
      ([0b1110011100101110], .lslReg .byte true 3 6),
      ([0b1110100001010111], .roxrReg .word false 4 7),
      ([0b1110101110110000], .roxlReg .long true 5 0),
      ([0b1110110000011001], .rorReg .byte false 6 1),
      ([0b1110111101111010], .rolReg .word true 7 2)] = true := by decide

theorem test_decode_shifts_of_memory :
    allRead [
      ([0b1110000011010001], .asrMem (.ind 1)),
      ([0b1110000111011010], .aslMem (.postInc 2)),
      ([0b1110001011100011], .lsrMem (.preDec 3)),
      ([0b1110001111010100], .lslMem (.ind 4)),
      ([0b1110010011010101], .roxrMem (.ind 5)),
      ([0b1110010111011110], .roxlMem (.postInc 6)),
      ([0b1110011011100111], .rorMem (.preDec 7)),
      ([0b1110011111010000], .rolMem (.ind 0))] = true := by decide

/-- Words that are no instruction: ILLEGAL's, a control word, sizes 11, an address register where none is allowed, mode 7 with register 5 (rules R108, R132, R150). -/
theorem test_decode_illegal :
    ([0x4AFC, 0x4E74, 0x0EC0, 0x40FF, 0x4248, 0xD009, 0x303D, 0x003D] : List Word).all (fun w =>
      match decode [w, 0, 0, 0, 0] with
      | .ok _ => false
      | .error e => e == .illegal) = true := by decide

/-- The numbering of the table's bits: the second word is bits 31 to 16. -/
theorem test_decodeTableWord :
    decodeTableWord 16 0x7680 = some (.moveq 3 0x80) ∧ decodeTableWord 32 0xFFFC4E56 = some (.link 6 0xFFFC) := by decide

/-- The instruction placed by `withFetchWord` is the next one, also right after reset. -/
theorem test_withFetchWord :
    (match step (State.reset.withFetchWord 16 0x7680) with
      | .next t => t.getD 3 == 0xFFFFFF80 && t.pc == 2
      | .fault _ | .refused _ => false) = true := by decide

/-! Single steps, with the results of spec/95_test_vectors.md section 2. -/

/-- The start of a row of spec/95_test_vectors.md: SSP = $2000, SR = $2700, PC = $1000, flat memory with the words of the instruction. -/
def start (words : List Word) : State :=
  State.storeWords { State.reset with ssp := 0x2000, pc := 0x1000, queue := none, inGroup0 := false } 0x1000 words

/-- A word of memory. -/
def put (s : State) (addr : Long) (w : Word) : State := s.putWord .supervisorData addr w

/-- The low byte of the status register written. -/
def ccr (s : State) (w : Word) : State := s.withSr (s.sr.withCcr w)

/-- The status register written. -/
def srOf (s : State) (w : Word) : State := s.withSr (Sr.ofWord w)

/-- A step answers a next state of which `p` holds. -/
def leaves (s : State) (p : State → Bool) : Bool :=
  match step s with
  | .next t => p t
  | .fault _ | .refused _ => false

/-- A long word of memory. -/
def long (s : State) (addr : Long) : Long := s.longAt .supervisorData addr

/-- The condition codes X, N, Z, V, C as a number. -/
def codes (s : State) : Nat := (s.sr.toWord &&& 0x1F).toNat

/-- `MOVE.B (A7)+,D0`. -/
theorem test_step_move_b_a7 :
    leaves (put (start [0x101F]) 0x2000 0x8000) (fun t =>
      t.getD 0 == 0x80 && t.ssp == 0x2002 && codes t == 0b01000) = true := by decide

/-- `MOVE.W (A0)+,(A0)+`. -/
theorem test_step_move_same_register :
    leaves ((put (start [0x30D8]) 0x3000 0x1234).putA 0 0x3000) (fun t =>
      t.getA 0 == 0x3004 && t.wordAt .supervisorData 0x3002 == 0x1234) = true := by decide

/-- `MOVE.W 2(A0,D1.L),D0`. -/
theorem test_step_move_index_long :
    leaves (((put (start [0x3030, 0x1802]) 0x23000 0x6B6B).putA 0 0x3000).putD 1 0x0001FFFE) (fun t =>
      t.getD 0 == 0x6B6B && t.pc == 0x1004) = true := by decide

/-- `MOVEA.W #$8000,A1`. -/
theorem test_step_movea_w :
    leaves (ccr (start [0x327C, 0x8000]) 0x1F) (fun t =>
      t.getA 1 == 0xFFFF8000 && codes t == 0b11111) = true := by decide

/-- `MOVEM.L D0/A0,-(A0)`. -/
theorem test_step_movem_base_in_list :
    leaves (((start [0x48E0, 0x8080]).putA 0 0x3008).putD 0 0xAAAAAAAA) (fun t =>
      t.getA 0 == 0x3000 && long t 0x3000 == 0xAAAAAAAA && long t 0x3004 == 0x3008) = true := by decide

/-- `MOVEM.W (A0)+,D0/A1`. -/
theorem test_step_movem_load_word :
    leaves (((put (put (start [0x4C98, 0x0201]) 0x3000 0x8000) 0x3002 0x7FFF).putA 0 0x3000).putD 0 0x12345678) (fun t =>
      t.getD 0 == 0xFFFF8000 && t.getA 0 == 0x3004 && t.getA 1 == 0x7FFF) = true := by decide

/-- `MOVEP.L D0,2(A0)`. -/
theorem test_step_movep_l :
    leaves (((start [0x01C8, 0x0002]).putA 0 0x4000).putD 0 0xDEADBEEF) (fun t =>
      t.byteAt .supervisorData 0x4002 == 0xDE && t.byteAt .supervisorData 0x4008 == 0xEF && t.byteAt .supervisorData 0x4003 == 0) = true := by decide

/-- `LINK A7,#-4`. -/
theorem test_step_link_a7 :
    leaves (start [0x4E57, 0xFFFC]) (fun t =>
      t.ssp == 0x1FF8 && long t 0x1FFC == 0x1FFC) = true := by decide

/-- `ADD.W D1,D0`. -/
theorem test_step_add_w :
    leaves (((start [0xD041]).putD 0 0x00017FFF).putD 1 1) (fun t =>
      t.getD 0 == 0x00018000 && codes t == 0b01010) = true := by decide

/-- `ADDX.L -(A0),-(A0)`. -/
theorem test_step_addx_same_register :
    leaves ((put (put (start [0xD188]) 0x3006 1) 0x3002 2).putA 0 0x3008) (fun t =>
      t.getA 0 == 0x3000 && long t 0x3000 == 3 && codes t == 0) = true := by decide

/-- `SUB.W D1,D0`. -/
theorem test_step_sub_w :
    leaves (((start [0x9041]).putD 0 0x8000).putD 1 1) (fun t =>
      t.getD 0 == 0x7FFF && codes t == 0b00010) = true := by decide

/-- `CMPM.W (A0)+,(A0)+`. -/
theorem test_step_cmpm_same_register :
    leaves ((put (put (start [0xB148]) 0x3000 2) 0x3002 1).putA 0 0x3000) (fun t =>
      t.getA 0 == 0x3004 && codes t == 0b01001) = true := by decide

/-- `DIVS D1,D0`: -7 / -2. -/
theorem test_step_divs_signs :
    leaves (((start [0x81C1]).putD 0 0xFFFFFFF9).putD 1 0xFFFE) (fun t =>
      t.getD 0 == 0xFFFF0003 && codes t == 0) = true := by decide

/-- `DIVU D1,D0`: overflow leaves D0; N and Z are free. -/
theorem test_step_divu_overflow :
    leaves (((start [0x80C1]).putD 0 0x10000).putD 1 1) (fun t =>
      t.getD 0 == 0x10000 && t.sr.v && !t.sr.c && !t.sr.x) = true := by decide

/-- `MULS D1,D0`: -32768 squared. -/
theorem test_step_muls :
    leaves (((start [0xC1C1]).putD 0 0x8000).putD 1 0x8000) (fun t =>
      t.getD 0 == 0x40000000 && codes t == 0) = true := by decide

/-- `Bcc` with displacement $FF goes to an odd address (rule R106, decision D23). -/
theorem test_step_branch_odd :
    leaves (start [0x64FF]) (fun t =>
      t.pc == 0x1001 && t.queue == none) = true := by decide

/-- `DBF D0`: the count ends at -1 and the upper word is kept. -/
theorem test_step_dbcc_ends :
    leaves ((start [0x51C8, 0xFFFC]).putD 0 0x12340000) (fun t =>
      t.getD 0 == 0x1234FFFF && t.pc == 0x1004) = true := by decide

/-- `TRAP #0` (scenario of section 2.9). -/
theorem test_step_trap :
    leaves (put (start [0x4E40]) 0x82 0x1100) (fun t =>
      t.pc == 0x1100 && t.ssp == 0x1FFA && t.wordAt .supervisorData 0x1FFA == 0x2700 && long t 0x1FFC == 0x1002) = true := by decide

/-- `ADD.B A1,D0` is illegal: vector 4, the address of the word. -/
theorem test_step_illegal :
    leaves (put (start [0xD009]) 0x12 0x1100) (fun t =>
      t.pc == 0x1100 && t.ssp == 0x1FFA && long t 0x1FFC == 0x1000) = true := by decide

/-- `RESET` in user state: vector 8. -/
theorem test_step_privilege :
    leaves (put (srOf (start [0x4E70]) 0) 0x22 0x1100) (fun t =>
      t.pc == 0x1100 && t.sr.s && long t 0x1FFC == 0x1000 && t.deviceResets == 1) = true := by decide

/-- The handlers of the bus error at $01020304 and of the address error at $01020306. No byte of the two vectors is zero, so that the kernel can read them in memory that holds free values. -/
def guarded (s : State) : State := put (put (put (put s 0x8 0x0102) 0xA 0x0304) 0xC 0x0102) 0xE 0x0306

/-- scenario E7: `MOVE.W (A0),D0` at an odd address. -/
theorem test_step_address_error :
    leaves ((guarded (start [0x3010])).putA 0 0x2001) (fun t =>
      t.ssp == 0x1FF2 && t.pc == 0x01020306 && t.inGroup0 && t.sr.s && t.getD 0 == 0 && t.getA 0 == 0x2001) = true := by decide

/-- scenario E12: T set leaves a trace pending. -/
theorem test_step_trace :
    leaves (srOf (start [0x7001]) 0xA700) (fun t =>
      t.tracePending && t.getD 0 == 1 && t.pc == 0x1002) = true := by decide

/-- `STOP #$2000`. -/
theorem test_step_stop :
    leaves (start [0x4E72, 0x2000]) (fun t =>
      t.run == .stopped && t.sr.i == 0 && t.pc == 0x1004) = true := by decide

/-- `RTE` to user state. -/
theorem test_step_rte :
    leaves (put (put (start [0x4E73]) 0x2000 0x0015) 0x2004 0x1234) (fun t =>
      t.pc == 0x1234 && !t.sr.s && t.ssp == 0x2006 && codes t == 0b10101) = true := by decide

/-! Bus cycles: what is fetched when, and what comes from outside between cycles. -/

/-- A platform on which word cycles at an address in program space end with BERR (rule R78). -/
def noProgramAt (addr : Nat) : Platform :=
  { Platform.flat with
    regions := [{ base := addr, size := 2, ud := false, up := true, sd := false, sp := true, bytes := false,
                  words := true, onRead := .busError, onWrite := .memory }] }


/-- Rule R126: `MOVE.W (A0),xxx.L` reads its source before the low half of the destination address is fetched. -/
theorem test_step_move_source_first :
    leaves { (guarded (start [0x33D0, 0x0001, 0x0002])).putA 0 0x3001 with platform := noProgramAt 0x1006 } (fun t =>
      t.pc == 0x01020306) = true := by decide

/-- Rule R89: the word after a taken two-word branch is read. -/
theorem test_step_branch_reads_on :
    leaves { guarded (start [0x6000, 0x0100]) with platform := noProgramAt 0x1004 } (fun t => t.pc == 0x01020304) = true := by
  decide

/-- Rule R370: STOP reads the word after its immediate and no further. -/
theorem test_step_stop_reads :
    leaves { guarded (start [0x4E72, 0x2000]) with platform := noProgramAt 0x1006 } (fun t =>
      t.run == .stopped) = true ∧
    leaves { guarded (start [0x4E72, 0x2000]) with platform := noProgramAt 0x1004 } (fun t =>
      t.pc == 0x01020304) = true := ⟨by decide, by decide⟩

/-- Another master writes $FF at $3002 and at $3003 before this cycle. -/
def meddle : Cycle := { Cycle.quiet with dma := [(0x3002, 0xFF), (0x3003, 0xFF)] }

/-- Rules R85, R92: `MOVE.L (A0),D0` reads its two words in two cycles. -/
theorem test_exec_torn_long :
    (match exec (.moveL (.ind 0) (.dn 0)) { State.reset.putA 0 0x3000 with cycles := [.quiet, meddle] } with
      | .next t => t.getD 0 == 0x0000FFFF
      | .fault _ | .refused _ => false) = true := by decide

/-- Rule R87: nothing comes between the read and the write of TAS, and something can between those of `BSET #7`. -/
theorem test_step_tas_indivisible :
    leaves { (start [0x4AD0]).putA 0 0x3002 with cycles := [.quiet, .quiet, .quiet, meddle] } (fun t =>
      t.byteAt .supervisorData 0x3002 == 0xFF) = true ∧
    leaves { (start [0x08D0, 7]).putA 0 0x3002 with cycles := [.quiet, .quiet, .quiet, .quiet, meddle] } (fun t =>
      t.byteAt .supervisorData 0x3002 == 0x80 && t.byteAt .supervisorData 0x3003 == 0xFF) = true := ⟨by decide, by decide⟩

/-- Rule R465: a reset before the operand read of `MOVE.W (A0)+,D0` leaves D0 as it was. -/
theorem test_step_reset_aborts :
    leaves { put ((start [0x3018]).putA 0 0x3000) 2 0x4000 with
      cycles := [.quiet, .quiet, { Cycle.quiet with reset := some 0 }] } (fun t =>
      t.ssp == 0x4000 && t.pc == 0 && t.inGroup0 && t.sr.i == 7 && t.getD 0 == 0) = true := by decide

/-! Witnesses: for each statement with hypotheses, a state and operands that meet them. -/

/-- A supervisor state at $1000 with even stack and address registers. -/
def here : State := ((start [0x4E71, 0x4E71]).putA 0 0x3000).putA 1 0x4000

/-- The same in user state. -/
def user : State := srOf here 0

/-- An instruction comes to a next state without a bus or address error. -/
def completes (o : Host.Outcome State Fault Refusal) : Bool :=
  match o with
  | .next t => !t.inGroup0
  | .fault _ | .refused _ => false

/-- All of memory answers and nothing comes from outside at any cycle. -/
def Quiet (s : State) : Prop := s.platform = Platform.flat ∧ s.cycles = []

theorem Quiet.reads {s : State} (h : Quiet s) (sp : Space) (addr : Long) (word : Bool) : s.readsMemory sp addr word :=
  ⟨h.2, by rw [h.1]; rfl⟩

theorem Quiet.writes {s : State} (h : Quiet s) (sp : Space) (addr : Long) (word : Bool) : s.writesMemory sp addr word :=
  ⟨h.2, by rw [h.1]; rfl⟩

theorem Quiet.canRead {s : State} (h : Quiet s) (sz : Size) (sp : Space) {addr : Long} (he : addr.getLsbD 0 = false) :
    s.canRead sz sp addr := by
  cases sz
  · exact h.reads _ _ _
  · exact ⟨he, h.reads _ _ _⟩
  · exact ⟨he, h.reads _ _ _, h.reads _ _ _⟩

theorem Quiet.canWrite {s : State} (h : Quiet s) (sz : Size) (sp : Space) {addr : Long} (he : addr.getLsbD 0 = false) :
    s.canWrite sz sp addr := by
  cases sz
  · exact h.writes _ _ _
  · exact ⟨he, h.writes _ _ _⟩
  · exact ⟨he, h.writes _ _ _, h.writes _ _ _⟩

theorem vectorAddress_even : ∀ n : BitVec 8, (vectorAddress n).getLsbD 0 = false := by decide

theorem Quiet.canEnter {s : State} (h : Quiet s) (n : BitVec 8) (he : s.ssp.getLsbD 0 = false) : s.canEnter n :=
  ⟨he, h.writes _ _ _, h.writes _ _ _, h.writes _ _ _, h.canRead .long _ (vectorAddress_even n)⟩

theorem Quiet.canTake {s : State} (h : Quiet s) (mask : Option (BitVec 3)) (n : BitVec 8) (pc : Long)
    (he : s.ssp.getLsbD 0 = false) : s.canTake mask n pc :=
  have q : Quiet (s.vectored mask n pc) :=
    ⟨by simp [State.vectored, State.stacked3, h.1], by simp [State.vectored, State.stacked3, h.2]⟩
  ⟨h.canEnter n he, fun _ => ⟨q.reads _ _ _, q.reads _ _ _⟩⟩

theorem Quiet.canEnter0 {s : State} (h : Quiet s) (k : AccessFault) (he : s.ssp.getLsbD 0 = false) : s.canEnter0 k :=
  ⟨he, h.writes _ _ _, h.writes _ _ _, h.writes _ _ _, h.writes _ _ _, h.writes _ _ _, h.writes _ _ _, h.writes _ _ _,
    h.canRead .long _ (vectorAddress_even _), fun _ _ _ _ => ⟨Quiet.reads (s := s.supervised none) h _ _ _,
      Quiet.reads (s := s.supervised none) h _ _ _⟩⟩

theorem Quiet.canFetch {s : State} (h : Quiet s) (n : Nat) (he : s.pc.getLsbD 0 = false) : s.canFetch n :=
  ⟨he, fun _ _ => h.reads _ _ _⟩

theorem quiet_here : Quiet here := ⟨rfl, rfl⟩

theorem quiet_user : Quiet user := ⟨rfl, rfl⟩

theorem witness_DecodeOfEncode : (Instr.movemToMem true 0xFFFF (.preDec 7)).wf = true := rfl

/-- For AdditionAndSubtractionFlags, ShiftClosedForms and RotateClosedForms. -/
theorem witness_values : Size.byte.fits 0 = true ∧ Size.byte.fits 0xFF = true ∧ Size.word.fits 0xFFFF = true ∧
    Size.long.fits 0xFFFFFFFF = true := by decide

theorem witness_ActiveStackPointer : here.sr.s = true ∧ user.sr.s = false := ⟨rfl, rfl⟩

theorem witness_OddAddressesAreErrors :
    (Size.word ≠ .byte ∧ Size.long ≠ .byte ∧ (1 : Long).getLsbD 0 = true ∧ (0xFFFFFFFF : Long).getLsbD 0 = true) ∧
    ((Size.byte = .byte ∨ (1 : Long).getLsbD 0 = false) ∧ (Size.long = .byte ∨ (0xFFFFFFFE : Long).getLsbD 0 = false)) ∧
    (State.jumped here 0x1001).runsInstruction ∧ (State.jumped here 0x1001).pc.getLsbD 0 = true := by
  refine ⟨by decide, by decide, ⟨rfl, rfl, rfl, rfl⟩, rfl⟩

/-- For DataRegisterResults and ConditionCodeWrites. -/
theorem witness_sources :
    here.canSource 0 .byte (.ind 0) ∧ here.canSource 0 .word (.postInc 0) ∧ here.canSource 0 .long (.preDec 1) ∧
    here.canSource 0 .long (.pcDisp 2) ∧ here.canSource 0 .word (.dn 7) ∧ here.canSource 0 .word (.imm 0xFFFF) :=
  ⟨⟨rfl, rfl⟩, ⟨rfl, rfl, rfl⟩, ⟨rfl, ⟨rfl, rfl⟩, rfl, rfl⟩, ⟨rfl, ⟨rfl, rfl⟩, rfl, rfl⟩, trivial, trivial⟩

/-- For OperandResults, SingleOperandResults, ShiftResults and BitResults. -/
theorem witness_modified_operands :
    here.canModify 0 .byte (.ind 0) ∧ here.canModify 0 .word (.postInc 0) ∧ here.canModify 0 .long (.preDec 1) ∧
    here.canModify (immWords .long) .long (.absL 0xFFFFFFFC) ∧ here.canModify 0 .long (.dn 7) ∧
    here.canModify 1 (bitSize (.ind 0)) (.ind 0) ∧ here.canModify 1 (bitSize (.dn 0)) (.dn 0) :=
  ⟨⟨⟨rfl, rfl⟩, rfl, ⟨rfl, rfl⟩⟩, ⟨⟨rfl, rfl, rfl⟩, rfl, ⟨rfl, rfl, rfl⟩⟩, ⟨⟨rfl, ⟨rfl, rfl⟩, rfl, rfl⟩, rfl, ⟨rfl, ⟨rfl, rfl⟩, rfl, rfl⟩⟩,
    ⟨⟨rfl, ⟨rfl, rfl⟩, rfl, rfl⟩, rfl, ⟨rfl, ⟨rfl, rfl⟩, rfl, rfl⟩⟩, ⟨trivial, trivial⟩, ⟨⟨rfl, rfl⟩, rfl, ⟨rfl, rfl⟩⟩,
    ⟨trivial, trivial⟩⟩

theorem witness_CompareSetsFlags :
    here.canSource 0 .long (.dn 0) ∧ here.canSource 0 (sizeOfBit false) (.an 7) ∧
    here.canSource (immWords .byte) .byte (.pcDisp 0) ∧ here.canSource 0 .long (.postInc 1) ∧
    here.readable .long ((here.resolved 0 .long (.postInc 1)).resolve .long (.postInc 1)).1 :=
  ⟨trivial, trivial, ⟨rfl, rfl⟩, ⟨rfl, ⟨rfl, rfl⟩, rfl, rfl⟩, ⟨rfl, ⟨rfl, rfl⟩, rfl, rfl⟩⟩

theorem witness_AddressRegisterResults :
    here.canSource 0 (sizeOfBit true) (.an 7) ∧ here.canSource 0 (sizeOfBit false) (.ind 0) ∧
      (Ea.pcDisp 0xFFFF).isControl = true := ⟨trivial, ⟨rfl, rfl, rfl⟩, rfl⟩

theorem witness_QuickResults : here.canModify 0 .byte (.preDec 7) ∧ ∀ r, Ea.preDec 7 ≠ .an r :=
  ⟨⟨⟨rfl, rfl⟩, rfl, ⟨rfl, rfl⟩⟩, fun _ h => by cases h⟩

/-- With no destination extension word and with two. -/
theorem witness_MoveResult :
    let u := here.resolved 0 .word (.postInc 0)
    here.canSource 0 .word (.postInc 0) ∧
      (u.canReplace (eaWords .word (.postInc 0)) ∧
        here.writable .word ((u.replaced (eaWords .word (.postInc 0))).resolve .word (.postInc 0)).1) ∧
      (u.canReplace (eaWords .word (.absL 0x3000)) ∧
        here.writable .word ((u.replaced (eaWords .word (.absL 0x3000))).resolve .word (.absL 0x3000)).1) :=
  ⟨⟨rfl, rfl, rfl⟩, ⟨fun _ h => (by cases h), rfl, ⟨rfl, rfl, rfl⟩⟩,
    fun k _ => Quiet.canRead (s := here.resolved 0 .word (.postInc 0)) ⟨rfl, rfl⟩ .word _ (even_add rfl (by omega)),
    rfl, ⟨rfl, rfl, rfl⟩⟩

theorem witness_ExtendedResults_DecimalResults :
    (let w := (here.resolved 0 .long (pairEa true 0)).resolve .long (pairEa true 0);
      here.canSource 0 .long (pairEa true 0) ∧ here.readable .long w.1 ∧ here.writable .long w.1) ∧
    (let w := (here.resolved 0 .byte (pairEa true 7)).resolve .byte (pairEa true 0);
      here.canSource 0 .byte (pairEa true 7) ∧ here.readable .byte w.1 ∧ here.writable .byte w.1) ∧
    (bcdValid 0 && bcdValid 0x99) = true ∧ (bcdValid 0x9A && bcdValid 0) = false ∧ (bcdValid 0xA0) = false ∧
    here.canModify 0 .byte (.preDec 7) :=
  ⟨⟨⟨rfl, ⟨rfl, rfl⟩, rfl, rfl⟩, ⟨rfl, ⟨rfl, rfl⟩, rfl, rfl⟩, rfl, ⟨rfl, ⟨rfl, rfl⟩, rfl, rfl⟩⟩, ⟨⟨rfl, rfl⟩, ⟨rfl, rfl⟩, rfl, ⟨rfl, rfl⟩⟩, rfl, rfl, rfl, ⟨rfl, rfl⟩, rfl, ⟨rfl, rfl⟩⟩

/-- Quotients at the edges of 16 bits, and a negative remainder. -/
theorem witness_DivideResults :
    let at' := fun d v : Long => (here.putD 0 d).putD 1 v
    let divisor := fun s : State => ((s.source 0 .word (.dn 1)).setWidth 16 : Word)
    (∀ d v, (at' d v).canSource 0 .word (.dn 1)) ∧
    (divisor (at' 0x7FFF 1) ≠ 0 ∧ ((at' 0x7FFF 1).getD 0).toInt = 32767 * (divisor (at' 0x7FFF 1)).toInt + 0) ∧
    (divisor (at' 0x8000 1) ≠ 0 ∧ ((at' 0x8000 1).getD 0).toInt = 32768 * (divisor (at' 0x8000 1)).toInt + 0) ∧
    (((at' 0xFFFF8000 1).getD 0).toInt = -32768 * (divisor (at' 0xFFFF8000 1)).toInt + 0) ∧
    (((at' 0xFFFF7FFF 1).getD 0).toInt = -32769 * (divisor (at' 0xFFFF7FFF 1)).toInt + 0) ∧
    (((at' 0xFFFFFFF9 0xFFFE).getD 0).toInt = 3 * (divisor (at' 0xFFFFFFF9 0xFFFE)).toInt + -1 ∧
      (-1 : Int).natAbs < (divisor (at' 0xFFFFFFF9 0xFFFE)).toInt.natAbs ∧
      ((-1 : Int) < 0 ↔ ((at' 0xFFFFFFF9 0xFFFE).getD 0).toInt < 0)) ∧
    ((at' 0xFFFF 1).getD 0).toNat / (divisor (at' 0xFFFF 1)).toNat = 65535 ∧
    ((at' 0x10000 1).getD 0).toNat / (divisor (at' 0x10000 1)).toNat = 65536 :=
  ⟨fun _ _ => trivial, by decide, by decide, by decide, by decide, by decide, by decide, by decide⟩

theorem witness_MovemStores :
    Memory.wf here.mem = true ∧ (Ea.ind 0).isControlAlterable = true ∧
    (∀ k, k < (maskRegs 0xFFFF).length → here.canWrite .long here.dataSpace (here.addressOf 1 (.ind 0) + BitVec.ofNat 32 (k * 4))) ∧
    (∀ k, k < (maskRegsDown 0xFFFF).length → here.canWrite .long here.dataSpace (here.getA 0 - BitVec.ofNat 32 ((k + 1) * 4))) :=
  ⟨by decide, rfl, fun k _ => quiet_here.canWrite _ _ (even_add rfl (by omega)),
    fun k _ => quiet_here.canWrite _ _ (even_sub rfl (by omega))⟩

theorem witness_MovemLoads :
    (Ea.pcDisp 2).isControl = true ∧
    (∀ k, k < (maskRegs 0xFFFF).length →
      here.canRead .long (sourceSpace (.pcDisp 2) here) (here.addressOf 1 (.pcDisp 2) + BitVec.ofNat 32 (k * 4))) ∧
    here.canRead .word (sourceSpace (.pcDisp 2) here) (here.addressOf 1 (.pcDisp 2) + BitVec.ofNat 32 (16 * 4)) ∧
    (∀ k, k < (maskRegs 0x0100).length → here.canRead .word here.dataSpace (here.getA 0 + BitVec.ofNat 32 (k * 2))) ∧
    here.canRead .word here.dataSpace (here.getA 0 + BitVec.ofNat 32 (1 * 2)) :=
  ⟨rfl, fun k _ => quiet_here.canRead _ _ (even_add rfl (by omega)), quiet_here.canRead _ _ rfl,
    fun k _ => quiet_here.canRead _ _ (even_add rfl (by omega)), quiet_here.canRead _ _ rfl⟩

theorem witness_MovepResults :
    here.writesMemory .supervisorData 0x3001 false ∧ here.writesMemory .supervisorData 0xFFFFFFFF false ∧
      here.readsMemory .supervisorData 0x3001 false ∧ here.readsMemory .supervisorData 0xFFFFFFFF false :=
  ⟨quiet_here.writes _ _ _, quiet_here.writes _ _ _, quiet_here.reads _ _ _, quiet_here.reads _ _ _⟩

theorem witness_BranchResults : (Ea.pcIndex { isAddr := true, reg := 7, isLong := true, d8 := 0x80 }).isControl = true :=
  rfl

theorem witness_StackResults :
    here.canWrite .long here.dataSpace (here.getA 7 - 4) ∧ (Ea.absW 0x8000).isControl = true ∧
      here.canRead .long here.dataSpace (here.getA 7) ∧ here.canRead .word here.dataSpace (here.getA 7) ∧
      here.canRead .long here.dataSpace (here.getA 7 + 2) ∧ here.canRead .long here.dataSpace (here.getA 1) :=
  ⟨quiet_here.canWrite _ _ rfl, rfl, quiet_here.canRead _ _ rfl, quiet_here.canRead _ _ rfl, quiet_here.canRead _ _ rfl,
    quiet_here.canRead _ _ rfl⟩

theorem witness_SupervisorResults :
    here.sr.s = true ∧ here.canSource 0 .word (.imm 0) ∧ here.canRead .word .supervisorData here.ssp ∧
      here.canRead .long .supervisorData (here.ssp + 2) :=
  ⟨rfl, trivial, quiet_here.canRead _ _ rfl, quiet_here.canRead _ _ rfl⟩

theorem witness_TrapResults :
    (here.after 0).canTake none (32 + (0 : BitVec 4).setWidth 8) (here.pc + 2) ∧
      (here.after 0).canTake none (32 + (15 : BitVec 4).setWidth 8) (here.pc + 2) ∧
      (ccr here 2).sr.v = true ∧ ((ccr here 2).after 0).canTake none 7 ((ccr here 2).pc + 2) ∧ here.sr.v = false :=
  ⟨Quiet.canTake (s := here.after 0) ⟨rfl, rfl⟩ _ _ _ rfl, Quiet.canTake (s := here.after 0) ⟨rfl, rfl⟩ _ _ _ rfl, rfl,
    Quiet.canTake (s := (ccr here 2).after 0) ⟨rfl, rfl⟩ _ _ _ rfl, rfl⟩

/-- At both bounds, and one beyond each. -/
theorem witness_CheckAndZeroDivideResults_check :
    let v := fun d : Long => (((here.putD 0 d).getD 0).setWidth 16 : Word).toInt
    let u := here.resolved 0 .word (.imm 5)
    here.canSource 0 .word (.imm 5) ∧ v 0 = 0 ∧ v 5 = 5 ∧ v 0xFFFF = -1 ∧ v 6 = 6 ∧
      ((here.source 0 .word (.imm 5)).setWidth 16 : Word).toInt = 5 ∧ ∀ q, ((u.drew 3).withSr q).canTake none 6 u.pc :=
  ⟨trivial, rfl, rfl, rfl, rfl, rfl,
    fun q => Quiet.canTake (s := ((here.resolved 0 .word (.imm 5)).drew 3).withSr q) ⟨rfl, rfl⟩ _ _ _
      (congrArg (·.getLsbD 0) (show _ = (0x2000 : Long) from rfl))⟩

theorem witness_CheckAndZeroDivideResults_divide :
    let u := here.resolved 0 .word (.imm 0)
    here.canSource 0 .word (.imm 0) ∧ here.source 0 .word (.imm 0) = 0 ∧
      ∀ q, ((u.drew 3).withSr q).canTake none 5 u.pc :=
  ⟨trivial, rfl, fun q => Quiet.canTake (s := ((here.resolved 0 .word (.imm 0)).drew 3).withSr q) ⟨rfl, rfl⟩ _ _ _
      (congrArg (·.getLsbD 0) (show _ = (0x2000 : Long) from rfl))⟩

theorem witness_PrivilegeViolations :
    (isPrivileged .reset = true ∧ user.sr.s = false ∧ user.canTake none 8 user.pc) ∧
    (let s := srOf (start [0x4E72, 0x2000]) 0;
      s.runsInstruction ∧ s.canFetch 2 ∧ s.sr.s = false ∧ shape s.observe.nextWords.1 = some (.stop 0, 2) ∧
        isPrivileged (.stop 0) = true ∧ (s.atInstruction 2).canTake none 8 s.pc) :=
  ⟨⟨rfl, rfl, quiet_user.canTake _ _ _ rfl⟩, ⟨rfl, rfl, rfl, rfl⟩, Quiet.canFetch ⟨rfl, rfl⟩ _ rfl, rfl, by decide, rfl,
    Quiet.canTake (s := (srOf (start [0x4E72, 0x2000]) 0).atInstruction 2) ⟨rfl, rfl⟩ _ _ _ rfl⟩

theorem witness_UnimplementedWordsTrap :
    (let s := start [0x4AFC];
      s.runsInstruction ∧ s.canFetch 1 ∧ shape s.observe.nextWords.1 = none ∧ (s.atInstruction 1).canTake none 4 s.pc) ∧
    user.canTake none 10 user.pc ∧ here.canTake none 11 here.pc :=
  ⟨⟨⟨rfl, rfl, rfl, rfl⟩, Quiet.canFetch ⟨rfl, rfl⟩ _ rfl, by decide,
      Quiet.canTake (s := (start [0x4AFC]).atInstruction 1) ⟨rfl, rfl⟩ _ _ _ rfl⟩,
    quiet_user.canTake _ _ _ rfl, quiet_here.canTake _ _ _ rfl⟩

theorem witness_ThreeWordFrame_ReturnUndoesEntry :
    Memory.wf user.mem = true ∧ user.canEnter 255 ∧ user.readsMemory .supervisorData (user.ssp - 2) true ∧
      user.readsMemory .supervisorData (user.ssp - 4) true ∧ user.readsMemory .supervisorData (user.ssp - 6) true ∧
      (user.entered3 none 255 0).pc.getLsbD 0 = false ∧
      ((put user 0x3FE 1).entered3 none 255 0).pc.getLsbD 0 = true :=
  ⟨by decide, quiet_user.canEnter _ rfl, quiet_user.reads _ _ _, quiet_user.reads _ _ _, quiet_user.reads _ _ _,
    by decide, by decide⟩

theorem witness_SevenWordFrame :
    Memory.wf here.mem = true ∧ here.inGroup0 = false ∧ here.canEnter0 .bus ∧ here.canEnter0 .address ∧
      (Activity.extension.notInstruction = false ∧ ∀ b, Activity.extension ≠ .operation b) :=
  ⟨by decide, rfl, quiet_here.canEnter0 _ rfl, quiet_here.canEnter0 _ rfl, rfl, fun _ h => by cases h⟩

theorem witness_DoubleFaultHalts :
    here.markGroup0.inGroup0 = true ∧ here.inGroup0 = false ∧ (here.withSsp 0x1FFF).ssp.getLsbD 0 = true ∧
      here.halt.run = .halted ∧ here.halt.sample.reset = false := ⟨rfl, rfl, rfl, rfl, rfl⟩

/-- A platform on which data reads, or data writes, of the word at an address end with BERR (rule R78). -/
def noDataAt (addr : Nat) (read : ReadReply) (write : WriteReply) : Platform :=
  { Platform.flat with
    regions := [{ base := addr, size := 2, ud := true, up := false, sd := true, sp := false, bytes := true,
                  words := true, onRead := read, onWrite := write }] }

/-- The hypotheses of FaultingReferencesAbort, for a reference `r` that faults as `k` at `addr`. -/
def Aborts (s : State) (i : Instr) (n : Nat) (r : Reference) (k : AccessFault) (addr : Long) : Prop :=
  i.wf = true ∧ s.cycles = [] ∧ (s.references i)[n]? = some r ∧ r.faults s = some (k, addr) ∧
    (∀ j r', j < n → (s.references i)[j]? = some r' → s.canRead r'.sz r'.sp r'.addr) ∧ s.canFetchLate i

/-- An odd word, read by the operand of TST. -/
theorem witness_FaultingReferencesAbort_odd_read :
    Aborts (here.putA 0 0x3001) (.tst .word (.preDec 0)) 0
      { sz := .word, write := false, pre := true, sp := .supervisorData, addr := 0x2FFF } .address 0x2FFF :=
  ⟨rfl, rfl, by decide, by decide, fun _ _ h => (by cases h), trivial⟩

/-- An odd destination of a MOVE whose source is read first. -/
theorem witness_FaultingReferencesAbort_odd_write :
    Aborts here (.moveW (.ind 0) (.absL 0x3001)) 1
      { sz := .word, write := true, pre := false, sp := .supervisorData, addr := 0x3001 } .address 0x3001 :=
  ⟨rfl, rfl, by decide, by decide, fun j r' hj hr => by
      have : j = 0 := by omega
      subst this
      cases hr
      exact quiet_here.canRead _ _ rfl,
    fun k _ => Quiet.canRead (s := here.resolved 0 .word (.ind 0)) ⟨rfl, rfl⟩ .word _ (even_add rfl (by omega))⟩

/-- A write of a long word through `-(A0)`, which writes the word at the higher address first. -/
theorem witness_FaultingReferencesAbort_bus_write :
    Aborts { here with platform := noDataAt 0x2FFE .memory .busError } (.moveL (.dn 0) (.preDec 0)) 0
      { sz := .long, write := true, pre := true, sp := .supervisorData, addr := 0x2FFC } .bus 0x2FFE :=
  ⟨rfl, rfl, by decide, by decide, fun _ _ h => (by cases h), fun _ h => (by cases h)⟩

/-- The write of NEG, after its read of the same word. -/
theorem witness_FaultingReferencesAbort_modify :
    Aborts { here with platform := noDataAt 0x3000 .memory .busError } (.neg .word (.ind 0)) 1
      { sz := .word, write := true, pre := false, sp := .supervisorData, addr := 0x3000 } .bus 0x3000 :=
  ⟨rfl, rfl, by decide, by decide, fun j r' hj hr => by
      have : j = 0 := by omega
      subst this
      cases hr
      exact ⟨by decide, rfl, rfl⟩, trivial⟩

/-- A read through `-(SSP)`, which the instruction's rule writes. -/
theorem witness_FaultingReferencesAbort_stack :
    Aborts { here with platform := noDataAt 0x1FFE .busError .memory } (.tst .word (.preDec 7)) 0
      { sz := .word, write := false, pre := true, sp := .supervisorData, addr := 0x1FFE } .bus 0x1FFE :=
  ⟨rfl, rfl, by decide, by decide, fun _ _ h => (by cases h), trivial⟩

/-- A state whose next sample is `p`. -/
def sampling (s : State) (p : Sample) : State := { s with pins := [p] }

theorem witness_ExternalResetResult :
    let s := sampling (put here 6 0x1000) { Sample.quiet with reset := true }
    let pc := s.observe.longAt .supervisorProgram 4
    s.sample.reset = true ∧ s.cycles = [] ∧ s.canRead .long .supervisorProgram 0 ∧ s.canRead .long .supervisorProgram 4 ∧
      pc.getLsbD 0 = false ∧ s.canRead .word .supervisorProgram pc ∧ s.canRead .word .supervisorProgram (pc + 2) :=
  ⟨rfl, rfl, Quiet.canRead ⟨rfl, rfl⟩ _ _ rfl, Quiet.canRead ⟨rfl, rfl⟩ _ _ rfl, by decide,
    Quiet.canRead ⟨rfl, rfl⟩ _ _ (by decide), Quiet.canRead ⟨rfl, rfl⟩ _ _ (by decide)⟩

/-- An odd PC in the vector; a bus error at each word of the vector and at the first two words of the program. -/
theorem witness_ExternalResetResult_halts :
    (State.longAt (sampling (put here 6 0x1001) { Sample.quiet with reset := true }).observe .supervisorProgram 4).getLsbD 0
      = true ∧
    (noProgramAt 0).readReply .supervisorProgram 0 true = .busError ∧
    ((noProgramAt 2).readReply .supervisorProgram 0 true = .memory ∧
      (noProgramAt 2).readReply .supervisorProgram 2 true = .busError) ∧
    (noProgramAt 4).readReply .supervisorProgram 4 true = .busError ∧
    ((noProgramAt 6).readReply .supervisorProgram 4 true = .memory ∧
      (noProgramAt 6).readReply .supervisorProgram 6 true = .busError) ∧
    (noProgramAt 0x1000).readReply .supervisorProgram 0x1000 true = .busError ∧
    ((noProgramAt 0x1002).readReply .supervisorProgram 0x1000 true = .memory ∧
      (noProgramAt 0x1002).readReply .supervisorProgram (0x1000 + 2) true = .busError) := by decide

/-- The hypotheses of InterruptTaken, for vector `n` after `k` free values. -/
def Taken (s : State) (n : BitVec 8) (k : Nat) : Prop :=
  s.sample.reset = false ∧ s.run ≠ .halted ∧ s.tracePending = false ∧ s.accepts s.sample.ipl = true ∧
    s.acknowledged s.sample.iack s.sample.ipl = some (n, k) ∧
    ((s.observe.sampled s.sample.ipl).drew k).canTake (some s.sample.ipl) n s.pc

/-- A supplied vector at level seven, an autovector at level one, a spurious interrupt in the stopped state, and a device's vector. -/
theorem witness_InterruptTaken :
    Taken (sampling (srOf here 0x2600) { Sample.quiet with ipl := 7, iack := .vector 0xFF0F }) 15 0 ∧
    Taken (sampling (srOf here 0x2000) { Sample.quiet with ipl := 1 }) 25 0 ∧
    Taken (sampling (srOf here 0x2000).stop { Sample.quiet with ipl := 1, iack := .busError }) 24 0 ∧
    Taken (sampling (srOf here 0x2000) { Sample.quiet with ipl := 6, iack := .device })
      ((Config.device 0 7 0xFFFFFC).setWidth 8) 1 :=
  ⟨⟨rfl, by decide, rfl, rfl, rfl, Quiet.canTake ⟨rfl, rfl⟩ _ _ _ rfl⟩,
    ⟨rfl, by decide, rfl, rfl, rfl, Quiet.canTake ⟨rfl, rfl⟩ _ _ _ rfl⟩,
    ⟨rfl, by decide, rfl, rfl, rfl, Quiet.canTake ⟨rfl, rfl⟩ _ _ _ rfl⟩,
    ⟨rfl, by decide, rfl, rfl, rfl, Quiet.canTake ⟨rfl, rfl⟩ _ _ _ rfl⟩⟩

theorem witness_InterruptLevels :
    (here.prevIpl ≠ 7 ∧ (here.sampled 7).prevIpl = 7 ∧ here.sr.i = 7 ∧ (srOf here 0x2600).sr.i < 7 ∧ (6 : BitVec 3) ≠ 7) ∧
    (here.cycles = [] ∧ here.sample.reset = false ∧ here.run ≠ .halted ∧ here.tracePending = false ∧
      completes (step here) = true) ∧
    (here.stop.run = .stopped ∧ here.stop.accepts here.stop.sample.ipl = false) :=
  ⟨by decide, by decide, by decide⟩

theorem witness_TraceTaken :
    ((here.withTrace true).sample.reset = false ∧ here.run ≠ .halted ∧ (here.withTrace true).tracePending = true ∧
      ((here.withTrace true).observe.withTrace false).canTake none 9 here.pc) ∧
    (here.inGroup0 = false ∧ here.inGroup1 = false ∧ completes (finish (srOf here 0xA700) 1 (.next here)) = true) ∧
    completes (finish (srOf here 0xA700) 1 (.next here.markGroup2)) = true :=
  ⟨⟨rfl, by decide, rfl, Quiet.canTake ⟨rfl, rfl⟩ _ _ _ rfl⟩, by decide, by decide⟩

/-- For FrameOfDataDestinations and FrameOfAddressDestinations. -/
theorem witness_frames_data_and_address :
    dataDest (.addToReg .word 0 (.postInc 0)) = some (0, .postInc 0) ∧ here.cycles = [] ∧ here.inGroup0 = false ∧
    completes (exec (.addToReg .word 0 (.postInc 0)) here) = true ∧
    addressDest (.adda true 7 (.preDec 1)) = some (7, .preDec 1) ∧
    completes (exec (.adda true 7 (.preDec 1)) here) = true := by decide

/-- For FrameOfCompares and FrameOfOperandDestinations. -/
theorem witness_frames_compare_and_operand :
    compareOnly (.cmpm .word 0 1) = some [0, 1] ∧ completes (exec (.cmpm .word 0 1) here) = true ∧
    completes (exec (.btstStatic 7 (.ind 0)) here) = true ∧ keepsAllButZ (.btstStatic 7 (.ind 0)) = true ∧
    operandDest (.addi .long 1 (.preDec 0)) = some (2, .long, .preDec 0) ∧ (Instr.addi .long 1 (.preDec 0)).wf = true ∧
    completes (exec (.addi .long 1 (.preDec 0)) here) = true ∧ keepsAll (.scc .t (.ind 0)) = true ∧
    completes (exec (.scc .t (.ind 0)) here) = true := by decide

theorem witness_FrameOfMovesAndPairs :
    (Instr.moveL (.preDec 0) (.postInc 1)).wf = true ∧
      ([.moveB (.dn 0) (.ind 0), .moveW (.dn 0) (.ind 0), .moveL (.preDec 0) (.postInc 1), .addx .long true 0 1,
        .subx .byte false 0 0, .abcd true 0 1, .sbcd false 1 2] : List Instr).all (fun i => completes (exec i here)) = true := by
  decide

theorem witness_FrameOfControlAndStack :
    ([.nop, .bcc .ne (.word 0), .bra (.short 0xFE), .jmp (.ind 0), .dbcc .f 0 0, .bsr (.word 0), .jsr (.ind 0),
      .pea (.ind 0), .link 7 0, .link 6 0x8000, .rts, .rtr, .unlk 7, .unlk 1, .exgDD 0 0, .exgAA 0 7, .exgDA 0 7,
      .movep true true 0 0 1, .movep true false 0 0 1, .movep false true 0 0 1, .movep false false 0 0 1] : List Instr).all
      (fun i => i.wf && completes (exec i here)) = true := by decide

theorem witness_FrameOfSystemControl :
    here.sr.s = true ∧
    ([.andiToCcr 0, .eoriToCcr 1, .oriToCcr 1, .moveToCcr (.postInc 0), .andiToSr 0, .eoriToSr 0x2000, .oriToSr 0x8000,
      .stop 0, .moveToSr (.preDec 7), .moveToUsp 7, .moveFromUsp 7, .reset, .rte] : List Instr).all
      (fun i => completes (exec i here)) = true := by decide

theorem witness_StepKeepsInvariant :
    Inv { here with queue := some (0x4E71, 0x4E71) } ∧
      completes (step { here with queue := some (0x4E71, 0x4E71) }) = true :=
  ⟨⟨by decide, fun _ => by decide, by decide⟩, by decide⟩

/-- One word with nothing fetched late, and three of which the last two are. -/
theorem witness_StepRunsDecodedInstruction :
    (here.runsInstruction ∧ Instr.nop.wf = true ∧ decode here.observe.stream = .ok (.nop, [0x4E71, 0, 0, 0]) ∧
      here.canFetch (5 - 4)) ∧
    (let s := start [0x33C0, 0x0000, 0x3000];
      s.runsInstruction ∧ (Instr.moveW (.dn 0) (.absL 0x3000)).wf = true ∧
      decode s.observe.stream = .ok (.moveW (.dn 0) (.absL 0x3000), [0, 0]) ∧ s.canFetch (5 - 2)) :=
  ⟨⟨⟨rfl, rfl, rfl, rfl⟩, rfl, rfl, quiet_here.canFetch _ rfl⟩, ⟨rfl, rfl, rfl, rfl⟩, rfl, rfl,
    Quiet.canFetch ⟨rfl, rfl⟩ _ rfl⟩

theorem witness_UserStateIsConfined : user.sr.s = false ∧ completes (exec .nop user) = true ∧
    completes (exec (.trap 0) user) = true := by decide

theorem witness_StepKeepsPlatform : completes (step (sampling here Sample.quiet)) = true := by decide

/-- `MOVE.W D0,(A0)` stores over the word after itself. -/
theorem witness_PrefetchedWordIsExecuted :
    let s := { here.putA 0 0x1002 with queue := some (0x3080, 0x4E71) }
    s.runsInstruction ∧ s.queue = some (0x3080, 0x4E71) ∧ (Instr.moveW (.dn 0) (.ind 0)).wf = true ∧
    decode [0x3080] = .ok (.moveW (.dn 0) (.ind 0), []) ∧ s.canFetch 1 ∧
    (match exec (.moveW (.dn 0) (.ind 0)) (s.atInstruction 1) with
      | .next t => t.queue.isSome && t.sr.s == s.sr.s && !t.inGroup0 && !t.inGroup1 && !t.inGroup2
      | .fault _ | .refused _ => false) = true ∧ completes (step s) = true :=
  ⟨⟨rfl, rfl, rfl, rfl⟩, rfl, rfl, rfl, Quiet.canFetch ⟨rfl, rfl⟩ _ rfl, by decide, by decide⟩

/-- A bus error at the first and at the last word that `ADDI.L #1,xxx.L` fetches ahead; a STOP; a target that can be fetched, and one that cannot. -/
theorem witness_WordsFetchedAhead :
    (∀ k, k = 2 ∨ k = 5 →
      let s := { start [0x06B9, 0, 1, 0, 0x3000] with platform := noProgramAt (0x1000 + 2 * k) }
      let i : Instr := .addi .long 1 (.absL 0x3000)
      s.runsInstruction ∧ i.wf = true ∧ decode s.observe.stream = .ok (i, []) ∧
        2 ≤ k ∧ k + lateFetches i ≤ 5 - 0 ∧ s.canFetch (k - 1) ∧
        s.platform.readReply s.programSpace (s.pc + BitVec.ofNat 32 (2 * k)) true = .busError) ∧
    (let s := start [0x4E72, 0x2000];
      s.runsInstruction ∧ s.sr.s = true ∧ decode s.observe.stream = .ok (.stop 0x2000, [0, 0, 0]) ∧ s.canFetch 2) ∧
    (here.inGroup0 = false ∧ here.inGroup1 = false ∧ here.inGroup2 = false ∧ here.run = .normal ∧ here.queue = none ∧
      here.canStart here.pc ∧ here.cycles = [] ∧ here.pc.getLsbD 0 = false ∧
      (noProgramAt 0x1000).readReply here.programSpace here.pc true = .busError) := by
  refine ⟨?_, ⟨⟨rfl, rfl, rfl, rfl⟩, rfl, rfl, Quiet.canFetch ⟨rfl, rfl⟩ _ rfl⟩,
    rfl, rfl, rfl, rfl, rfl, fun _ => ⟨quiet_here.reads _ _ _, quiet_here.reads _ _ _⟩, rfl, rfl, by decide⟩
  rintro k (rfl | rfl)
  · refine ⟨⟨rfl, rfl, rfl, rfl⟩, rfl, rfl, by decide, by decide, ⟨rfl, fun j hj => ⟨rfl, ?_⟩⟩, by decide⟩
    revert j
    decide
  · refine ⟨⟨rfl, rfl, rfl, rfl⟩, rfl, rfl, by decide, by decide, ⟨rfl, fun j hj => ⟨rfl, ?_⟩⟩, by decide⟩
    revert j
    decide

/-- STOP in user state, bus cycle by bus cycle: its two words, the word after them (rule R496), three writes, the vector's two words and the handler's. -/
theorem test_step_privileged_reads_ahead :
    (match step { srOf (start [0x4E72, 0x2000]) 0 with cycles := List.replicate 12 Cycle.quiet } with
      | .next t => t.cycles.length == 12 - (2 + 1 + 3 + 2 + 2) && t.ssp == 0x1FFA
      | .fault _ | .refused _ => false) = true := by decide

theorem witness_EventsBetweenCycles :
    (meddle.onlyWrites ∧ Cycle.quiet.onlyWrites) ∧
    (here.platform.readReply .supervisorData 0x3000 true = .memory ∧
      here.platform.readReply .supervisorData (0x3000 + 2) true = .memory) ∧
    (here.loc 0 .byte (.ind 0) = .mem .supervisorData 0x3000 false ∧ Space.supervisorData.isProgram = false ∧
      here.platform.readReply .supervisorData 0x3000 false = .memory ∧
      here.platform.writeReply .supervisorData 0x3000 false = .memory) ∧
    (here.loc 0 .word (.ind 0) = .mem .supervisorData 0x3000 false ∧
      here.platform.readReply .supervisorData 0x3000 (Size.word == .word) = .memory ∧
      here.platform.writeReply .supervisorData 0x3000 (Size.word == .word) = .memory) ∧
    ((∃ c : Cycle, c.reset = none ∧ c.reply = .busError) ∧ (∃ c : Cycle, c.reset = none ∧ c.reply = .noReply) ∧
      ∃ c : Cycle, c.reset = some 0) ∧
    ((here.references (.tst .word (.ind 0)))[0]? = some
        { sz := .word, write := false, pre := false, sp := .supervisorData, addr := 0x3000 } ∧
      lateFetches (.tst .word (.ind 0)) = 0 ∧ (Instr.tst .word (.ind 0)).wf = true ∧ (0x3000 : Long).getLsbD 0 = false) :=
  ⟨⟨⟨rfl, rfl, rfl⟩, rfl, rfl, rfl⟩, ⟨rfl, rfl⟩, ⟨by decide, rfl, rfl, rfl⟩, ⟨by decide, rfl, rfl⟩,
    ⟨⟨{ Cycle.quiet with reply := .busError }, rfl, rfl⟩, ⟨{ Cycle.quiet with reply := .noReply }, rfl, rfl⟩,
      { Cycle.quiet with reset := some 0 }, rfl⟩,
    by decide, rfl, rfl, by decide⟩

/-- The first cycle of NEG, which reads, and its second, which writes; the fetch that MOVE runs late. -/
theorem witness_ResetAbortsInstruction :
    ([(.neg .word (.ind 0), 0), (.neg .word (.ind 0), 1), (.moveW (.dn 0) (.absW 0x3000), 0)] : List (Instr × Nat)).all
      (fun p => p.1.wf && match exec p.1 { here with cycles := List.replicate (p.2 + 1) Cycle.quiet } with
        | .next t => t.cycles.isEmpty && !t.inGroup0 && !t.inGroup1 && !t.inGroup2
        | .fault _ | .refused _ => false) = true ∧
    Memory.wf here.mem = true ∧ { Cycle.quiet with reset := some 0 }.reset = some 0 := by decide

end Sys2Proof.Tests
end

section
/-! PROOF. The active stack pointer (rule R24): A7 in each privilege state, and the stack pointer that is out of reach. -/

namespace Sys2Proof.Machine

/-- Reading A7 (rule R24). -/
theorem State.getA_seven (s : State) : s.getA 7 = if s.sr.s then s.ssp else s.usp := rfl

/-- Writing A7 (rule R24). -/
theorem State.putA_seven (s : State) (v : Long) :
    s.putA 7 v = if s.sr.s then s.withSsp v else s.withUsp v := rfl

/-- In supervisor state no address register shows USP. -/
theorem State.getA_withUsp_of_supervisor {s : State} (h : s.sr.s = true) (v : Long) (r : Reg) :
    (s.withUsp v).getA r = s.getA r := by
  simp [State.getA, State.withUsp, h]

/-- In user state no address register shows SSP. -/
theorem State.getA_withSsp_of_user {s : State} (h : s.sr.s = false) (v : Long) (r : Reg) :
    (s.withSsp v).getA r = s.getA r := by
  simp [State.getA, State.withSsp, h]

/-- In supervisor state no write of an address register reaches USP. -/
theorem State.putA_usp_of_supervisor {s : State} (h : s.sr.s = true) (r : Reg) (v : Long) :
    (s.putA r v).usp = s.usp := by
  by_cases hr : r.val < 7 <;> simp [State.putA, hr, h]

/-- In user state no write of an address register reaches SSP. -/
theorem State.putA_ssp_of_user {s : State} (h : s.sr.s = false) (r : Reg) (v : Long) :
    (s.putA r v).ssp = s.ssp := by
  by_cases hr : r.val < 7 <;> simp [State.putA, hr, h]

/-- Settles O9: each clause is the rule of one access to A7, in the privilege state that the clause names. -/
theorem activeStackPointer : Obligations.ActiveStackPointer := by
  intro s v
  refine ⟨s.getA_seven, s.putA_seven v, fun h r => ?_, fun h r => ?_, fun q => ?_, fun mask => ?_⟩
  · exact ⟨State.getA_withUsp_of_supervisor h v r, State.putA_usp_of_supervisor h r v⟩
  · exact ⟨State.getA_withSsp_of_user h v r, State.putA_ssp_of_user h r v⟩
  · exact ⟨(s.withSr q).getA_seven, s.withSr_ssp q, s.withSr_usp q⟩
  · exact ⟨(s.supervised mask).getA_seven, s.supervised_ssp mask, s.supervised_usp mask⟩

end Sys2Proof.Machine
end

section
/-! PROOF. Alignment (rules R31, R67, R404, R440): which accesses are address errors, and the step that meets an odd PC. -/

namespace Sys2Proof.Machine

/-! Odd addresses. -/

/-- A word or long read at an odd address runs no cycle (rule R67). -/
theorem readMem_odd {s : State} {sz : Size} {sp : Space} {addr : Long} (hsz : sz ≠ .byte)
    (h : addr.getLsbD 0 = true) :
    (readMem sz sp addr).run s = .error (.access .address { addr := addr, write := false, space := sp }) s := by
  cases sz with
  | byte => exact absurd rfl hsz
  | word => exact bind_error (bind_error (needEven_odd h))
  | long => exact bind_error (needEven_odd h)

/-- A word or long write at an odd address runs no cycle (rule R67). -/
theorem writeMem_odd {s : State} {sz : Size} {pre : Bool} {sp : Space} {addr v : Long} (hsz : sz ≠ .byte)
    (h : addr.getLsbD 0 = true) :
    (writeMem sz pre sp addr v).run s = .error (.access .address { addr := addr, write := true, space := sp }) s := by
  cases sz with
  | byte => exact absurd rfl hsz
  | word => exact bind_error (needEven_odd h)
  | long => exact (bind_ok (ask_run _ _)).trans (bind_error (needEven_odd h))

/-! Computations that never end in an address error of an operand. -/

/-- No run of the computation ends in an address error of an operand. -/
def NoAddressError {α : Type} (m : M α) : Prop := ∀ s t a, m.run s ≠ .error (.access .address a) t

section
variable {α β : Type}

theorem noAddressError_of_ok {m : M α} (h : ∀ s, ∃ a t, m.run s = .ok a t) : NoAddressError m := by
  intro s t a hm
  obtain ⟨b, u, hb⟩ := h s
  cases hb.symm.trans hm

theorem noAddressError_pure (a : α) : NoAddressError (pure a : M α) :=
  noAddressError_of_ok fun s => ⟨a, s, rfl⟩

theorem noAddressError_ask (f : State → α) : NoAddressError (ask f) :=
  noAddressError_of_ok fun s => ⟨f s, s, rfl⟩

theorem noAddressError_upd (f : State → State) : NoAddressError (upd f) :=
  noAddressError_of_ok fun s => ⟨(), f s, rfl⟩

theorem noAddressError_raise {e : Abort} (h : ∀ a, e ≠ .access .address a) : NoAddressError (raise e : M α) := by
  intro s t a hm
  cases hm
  exact h a rfl

theorem noAddressError_bind {m : M α} {f : α → M β} (hm : NoAddressError m) (hf : ∀ a, NoAddressError (f a)) :
    NoAddressError (m >>= f) := by
  intro s t a h
  obtain h1 | ⟨b, u, -, h2⟩ := bind_error_cases h
  · exact hm s t a h1
  · exact hf b u t a h2

/-- An even address passes the alignment check (rule R67). -/
theorem noAddressError_needEven {sp : Space} {addr : Long} {write : Bool} (h : addr.getLsbD 0 = false) :
    NoAddressError (needEven sp addr write) :=
  noAddressError_of_ok fun s => ⟨(), s, needEven_ok h⟩

end

/-! A bus cycle ends in a bus error, a reset or not at all, but in no address error. -/

theorem noAddressError_startCycle : NoAddressError startCycle := by
  intro s t a h
  cases hc : s.cycles with
  | nil => cases (startCycle_quiet hc).symm.trans h
  | cons c cs =>
    cases hr : c.reset with
    | none => cases (startCycle_heard hc hr).symm.trans h
    | some ipl => cases (startCycle_reset hc hr).symm.trans h

theorem noAddressError_deviceWord (sp : Space) (addr : Long) : NoAddressError (deviceWord sp addr) :=
  noAddressError_of_ok fun s => ⟨_, s.drawn, rfl⟩

theorem noAddressError_endRead8 (r : ReadReply) (sp : Space) (addr : Long) : NoAddressError (endRead8 r sp addr) := by
  cases r with
  | memory => exact noAddressError_ask _
  | device => exact noAddressError_bind (noAddressError_deviceWord _ _) fun _ => noAddressError_pure _
  | busError | noReply => exact noAddressError_raise nofun

theorem noAddressError_endRead16 (r : ReadReply) (sp : Space) (addr : Long) :
    NoAddressError (endRead16 r sp addr) := by
  cases r with
  | memory => exact noAddressError_ask _
  | device => exact noAddressError_deviceWord _ _
  | busError | noReply => exact noAddressError_raise nofun

theorem noAddressError_endWrite8 (r : WriteReply) (sp : Space) (addr : Long) (b : Byte) :
    NoAddressError (endWrite8 r sp addr b) := by
  cases r with
  | memory => exact noAddressError_upd _
  | absorb => exact noAddressError_pure _
  | busError | noReply => exact noAddressError_raise nofun

theorem noAddressError_endWrite16 (r : WriteReply) (sp : Space) (addr : Long) (w : Word) :
    NoAddressError (endWrite16 r sp addr w) := by
  cases r with
  | memory => exact noAddressError_upd _
  | absorb => exact noAddressError_pure _
  | busError | noReply => exact noAddressError_raise nofun

/-- A bus cycle: its start, the platform's answer, and an end that meets no address error. -/
theorem noAddressError_cycle {α β : Type} {answer : State → β} {ending : Cycle → β → M α}
    (h : ∀ c p, NoAddressError (ending c p)) :
    NoAddressError (startCycle >>= fun c => ask answer >>= fun p => ending c p) :=
  noAddressError_bind noAddressError_startCycle fun c =>
    noAddressError_bind (noAddressError_ask answer) fun p => h c p

theorem noAddressError_busRead8 (sp : Space) (addr : Long) : NoAddressError (busRead8 sp addr) :=
  noAddressError_cycle fun _ _ => noAddressError_endRead8 _ _ _

theorem noAddressError_busRead16 (sp : Space) (addr : Long) : NoAddressError (busRead16 sp addr) :=
  noAddressError_cycle fun _ _ => noAddressError_endRead16 _ _ _

theorem noAddressError_busWrite8 (sp : Space) (addr : Long) (b : Byte) : NoAddressError (busWrite8 sp addr b) :=
  noAddressError_cycle fun _ _ => noAddressError_endWrite8 _ _ _ _

theorem noAddressError_busWrite16 (sp : Space) (addr : Long) (w : Word) : NoAddressError (busWrite16 sp addr w) :=
  noAddressError_cycle fun _ _ => noAddressError_endWrite16 _ _ _ _

/-- A read at an even address, or of a byte, is no address error (rule R67). -/
theorem noAddressError_readMem {sz : Size} {addr : Long} (sp : Space) (h : sz = .byte ∨ addr.getLsbD 0 = false) :
    NoAddressError (readMem sz sp addr) := by
  cases sz with
  | byte => exact noAddressError_bind (noAddressError_busRead8 _ _) fun _ => noAddressError_pure _
  | word =>
    have even : addr.getLsbD 0 = false := h.resolve_left nofun
    exact noAddressError_bind
      (noAddressError_bind (noAddressError_needEven even) fun _ => noAddressError_busRead16 _ _)
      fun _ => noAddressError_pure _
  | long =>
    have even : addr.getLsbD 0 = false := h.resolve_left nofun
    exact noAddressError_bind (noAddressError_needEven even) fun _ =>
      noAddressError_bind (noAddressError_busRead16 _ _) fun _ =>
        noAddressError_bind (noAddressError_busRead16 _ _) fun _ => noAddressError_pure _

/-- A long write at an even address is no address error, in either order of its halves (rules R67, R68). -/
theorem noAddressError_writeLong {addr : Long} (lowFirst : Bool) (sp : Space) (v : Long)
    (even : addr.getLsbD 0 = false) : NoAddressError (writeLong lowFirst sp addr v) := by
  refine noAddressError_bind (noAddressError_needEven even) fun _ => ?_
  cases lowFirst with
  | true | false =>
    exact noAddressError_bind (noAddressError_busWrite16 _ _ _) fun _ => noAddressError_busWrite16 _ _ _

/-- A write at an even address, or of a byte, is no address error (rule R67). -/
theorem noAddressError_writeMem {sz : Size} {addr : Long} (pre : Bool) (sp : Space) (v : Long)
    (h : sz = .byte ∨ addr.getLsbD 0 = false) : NoAddressError (writeMem sz pre sp addr v) := by
  cases sz with
  | byte => exact noAddressError_busWrite8 _ _ _
  | word =>
    have even : addr.getLsbD 0 = false := h.resolve_left nofun
    exact noAddressError_bind (noAddressError_needEven even) fun _ => noAddressError_busWrite16 _ _ _
  | long =>
    have even : addr.getLsbD 0 = false := h.resolve_left nofun
    exact noAddressError_bind (noAddressError_ask _) fun lowFirst => noAddressError_writeLong lowFirst sp v even

/-! The instruction fetch. -/

@[simp] theorem State.observe_run (s : State) : s.observe.run = s.run := rfl

@[simp] theorem State.observe_tracePending (s : State) : s.observe.tracePending = s.tracePending := rfl

/-- Another master's writes do not change which interrupt levels are accepted. -/
@[simp] theorem State.observe_accepts (s : State) (level : BitVec 3) : s.observe.accepts level = s.accepts level := rfl

/-- A boundary at which nothing else is to be done fetches and executes an instruction (rule R404). -/
theorem step_of_runsInstruction {s : State} (h : s.runsInstruction) :
    step s = fetchExecute exec (s.observe.sampled s.sample.ipl) := by
  obtain ⟨hreset, hrun, htrace, hipl⟩ := h
  simp [step, stepWith, boundary, hreset, hrun, htrace, hipl]

/-- The alignment check on PC fails at an odd PC (rules R31, R67). -/
theorem needEvenPc_odd {s : State} (h : s.pc.getLsbD 0 = true) :
    needEvenPc.run s = .error (.fetch .address { addr := s.pc, write := false, space := s.programSpace }) s := by
  simp only [EStateM.run, needEvenPc, h, if_true]

/-- An odd PC is an address error before any word is fetched (rule R31). -/
theorem openQueue_odd {s : State} (h : s.pc.getLsbD 0 = true) :
    openQueue.run s = .error (.fetch .address { addr := s.pc, write := false, space := s.programSpace }) s :=
  bind_error (needEvenPc_odd h)

/-- An instruction at an odd PC is the group 0 exception of its first fetch (rules R31, R442). -/
theorem fetchExecute_odd (ex : Instr → State → Outcome) {s : State} (h : s.pc.getLsbD 0 = true) :
    fetchExecute ex s = s.group0 .address { addr := s.pc, write := false, space := s.programSpace }
      (.operation s.inGroup1) := by
  rw [fetchExecute, openQueue_odd h]
  rfl

/-- Settles O11: the alignment check stands before every cycle of a word or long access, no cycle meets an address error by itself, and the same check on PC stands before the first fetch of a step. -/
theorem oddAddressesAreErrors : Obligations.OddAddressesAreErrors := by
  refine ⟨fun s sz sp addr v pre hsz odd => ?_, fun s t sz sp addr v pre a h => ?_, fun s h odd => ?_⟩
  · exact ⟨readMem_odd hsz odd, writeMem_odd hsz odd⟩
  · exact ⟨noAddressError_readMem sp h s t a, noAddressError_writeMem pre sp v h s t a⟩
  · exact (step_of_runsInstruction h).trans (fetchExecute_odd exec odd)

end Sys2Proof.Machine
end

section
/-! PROOF. Interrupts (rules R83, R421 to R426): what the acknowledge cycle answers and where it is run, the entry around it, and the step of the boundary that accepts a level. -/

namespace Sys2Proof.Machine

/-! The acknowledge cycle. -/

/-- The level is on A1 to A3 of an acknowledge cycle (rule R83). -/
theorem acknowledgeAddress_level : ∀ level : BitVec 3, (acknowledgeAddress level).extractLsb' 1 3 = level := by decide

/-- A4 to A23 are high in an acknowledge cycle (rule R83). -/
theorem acknowledgeAddress_high : ∀ level : BitVec 3, (acknowledgeAddress level).extractLsb' 4 20 = 0xFFFFF := by
  decide

/-- Where nothing else comes from outside, the acknowledge cycle answers the vector number of the sample, and draws only what a device's answer needs (rules R424 to R426). -/
theorem acknowledge_ok {s : State} {answer : IackResponse} {level : BitVec 3} {n : BitVec 8} {k : Nat}
    (hc : s.cycles = []) (h : s.acknowledged answer level = some (n, k)) :
    (acknowledge answer level).run s = .ok n (s.drew k) := by
  rw [acknowledge, bind_ok (startCycle_quiet hc)]
  cases answer with
  | vector data => cases h; rfl
  | device => cases h; rfl
  | autovector => cases h; rfl
  | busError => cases h; rfl
  | noReply => cases h

/-! The entry around a vector that draws free values. -/

/-- The state in which an entry runs the cycle of its vector: the low word of PC is stacked, and nothing else of the frame (rule R422). -/
def State.atVector (s : State) (mask : Option (BitVec 3)) (pc : Long) : State :=
  (s.supervised mask).putWord .supervisorData (s.ssp - 2) (pc.extractLsb' 0 16)

/-- The first write of an entry, where the stack takes it. -/
theorem writeWord_atVector {s : State} {mask : Option (BitVec 3)} {pc : Long}
    (hw : s.canWrite .word .supervisorData (s.ssp - 2)) :
    (writeWord .supervisorData (s.ssp - 2) (pc.extractLsb' 0 16)).run (s.supervised mask) =
      .ok () (s.atVector mask pc) :=
  writeWord_ok (State.canWrite_of_bus hw ⟨rfl, rfl⟩)

/-- Free values drawn by the vector's cycle may as well have been drawn before the entry: the entry is then that of a known vector. -/
theorem enter_of_vector {s : State} {mask : Option (BitVec 3)} {vec : M (BitVec 8)} {n : BitVec 8} {k : Nat} {pc : Long}
    (hw : s.canWrite .word .supervisorData (s.ssp - 2))
    (hv : vec.run (s.atVector mask pc) = .ok n ((s.atVector mask pc).drew k)) :
    (enter mask vec pc).run s = (enter mask (pure n) pc).run (s.drew k) := by
  have hw' : (s.drew k).canWrite .word .supervisorData ((s.drew k).ssp - 2) := State.canWrite_of_bus hw ⟨rfl, rfl⟩
  have drawn : (s.drew k).atVector mask pc = (s.atVector mask pc).drew k := rfl
  simp only [enter, bind_run, ask_run, upd_run, pure_run, State.supervised_ssp, writeWord_atVector hw,
    writeWord_atVector hw', drawn, hv]
  rfl

/-- An interrupt whose acknowledge ends, where the stack, the vector and the routine's first words answer (rule R422). -/
theorem State.interrupt_ok {s : State} {answer : IackResponse} {level : BitVec 3} {n : BitVec 8} {k : Nat}
    (hack : s.acknowledged answer level = some (n, k)) (h : (s.drew k).canTake (some level) n s.pc) :
    s.interrupt level answer = .next ((s.drew k).entered3 (some level) n s.pc).markGroup1 := by
  have hw : s.canWrite .word .supervisorData (s.ssp - 2) :=
    State.canWrite_of_bus (State.canEnter_write h.1).1 ⟨rfl, rfl⟩
  have ⟨_, hc, _⟩ := hw
  rw [State.interrupt, enter_of_vector hw (acknowledge_ok hc hack), enter_ok (vec := pure n) (fun _ => rfl) h]
  rfl

/-! The boundary. -/

/-- A boundary that accepts the sampled level takes the interrupt, stopped or not (rules R370, R404, R421). -/
theorem step_of_accepts {s : State} (hreset : s.sample.reset = false) (hrun : s.run ≠ .halted)
    (htrace : s.tracePending = false) (hipl : s.accepts s.sample.ipl = true) :
    step s = (s.observe.sampled s.sample.ipl).interrupt s.sample.ipl s.sample.iack := by
  simp [step, stepWith, boundary, hreset, hrun, htrace, hipl]

/-- Settles O43: the boundary turns to interrupt processing, whose one cycle of its own is the acknowledge; around it the entry is that of every three-word frame. -/
theorem interruptTaken : Obligations.InterruptTaken := by
  refine ⟨fun s n k hreset hrun htrace hipl hack => ?_, fun level => ?_⟩
  · intro u htake
    have hack' : (s.observe.sampled s.sample.ipl).acknowledged s.sample.iack s.sample.ipl = some (n, k) := hack
    exact (step_of_accepts hreset hrun htrace hipl).trans (State.interrupt_ok hack' htake)
  · exact ⟨acknowledgeAddress_level level, acknowledgeAddress_high level, rfl⟩

end Sys2Proof.Machine
end

section
/-! PROOF. The address register indirect modes (rules R112 to R114): the step of each size, and where the step enters the resolved address and the register. -/

namespace Sys2Proof.Machine

/-- A byte steps by one, and by two through A7 so that the stack pointer stays even (rules R113, R114). -/
theorem stepOf_byte (r : Reg) : stepOf .byte r = if r = 7 then 2 else 1 := by
  by_cases hr : r = 7 <;> simp [stepOf, Size.bytes, hr]

/-- A word steps by two through every register (rules R113, R114). -/
theorem stepOf_word (r : Reg) : stepOf .word r = 2 := by
  simp [stepOf, Size.bytes]

/-- A long word steps by four through every register (rules R113, R114). -/
theorem stepOf_long (r : Reg) : stepOf .long r = 4 := by
  simp [stepOf, Size.bytes]

/-- `(An)` names the address in the register and changes nothing (rule R112). -/
theorem State.resolve_ind (s : State) (sz : Size) (r : Reg) :
    s.resolve sz (.ind r) = (.mem s.dataSpace (s.getA r) false, s) := rfl

/-- `(An)+` names the address before the step (rule R113). -/
theorem State.resolve_postInc (s : State) {sz : Size} {r : Reg} {n : Long} (step : stepOf sz r = n) :
    s.resolve sz (.postInc r) = (.mem s.dataSpace (s.getA r) false, s.putA r (s.getA r + n)) := by
  subst step
  rfl

/-- `-(An)` names the address after the step (rule R114). -/
theorem State.resolve_preDec (s : State) {sz : Size} {r : Reg} {n : Long} (step : stepOf sz r = n) :
    s.resolve sz (.preDec r) = (.mem s.dataSpace (s.getA r - n) true, s.putA r (s.getA r - n)) := by
  subst step
  rfl

/-- Settles O10: the step of each size is the one the clauses name, and each mode resolves with that step. -/
theorem addressRegisterIndirect : Obligations.AddressRegisterIndirect := by
  intro s sz r n
  have step : stepOf sz r = n := by
    cases sz with
    | byte => exact stepOf_byte r
    | word => exact stepOf_word r
    | long => exact stepOf_long r
  exact ⟨rfl, ⟨false, s.resolve_ind sz r⟩, ⟨false, s.resolve_postInc step⟩, ⟨true, s.resolve_preDec step⟩⟩

end Sys2Proof.Machine
end

section
/-! PROOF. Privilege violations (rules R340, R404, R452, R496): which operation words are privileged instructions, whatever their extension words are, and the step that meets one in user state. -/

namespace Sys2Proof.Machine

/-! Decodings that give no privileged instruction. -/

/-- What is decoded, if anything is, is no privileged instruction. -/
def Unprivileged (d : Decoded Instr) : Prop := ∀ i rest, d = .ok (i, rest) → isPrivileged i = false

theorem unprivileged_error (e : DecodeError) : Unprivileged (.error e) := by
  intro i rest h
  cases h

theorem unprivileged_ok {i : Instr} (xs : List Word) (h : isPrivileged i = false) : Unprivileged (.ok (i, xs)) := by
  intro j rest e
  cases e
  exact h

theorem unprivileged_withEa {mk : Ea → Instr} (w : Nat) (sz : Size) (allowed : Ea → Bool) (xs : List Word)
    (h : ∀ ea, isPrivileged (mk ea) = false) : Unprivileged (withEa w sz allowed mk xs) := by
  unfold withEa
  split
  · split
    · exact unprivileged_ok _ (h _)
    · exact unprivileged_error _
  · exact unprivileged_error _

theorem unprivileged_withWord {mk : Word → Instr} (xs : List Word) (h : ∀ x, isPrivileged (mk x) = false) :
    Unprivileged (withWord mk xs) := by
  cases xs with
  | nil => exact unprivileged_error _
  | cons x rest => exact unprivileged_ok _ (h x)

theorem unprivileged_withWordEa {mk : Word → Ea → Instr} (w : Nat) (sz : Size) (allowed : Ea → Bool) (xs : List Word)
    (h : ∀ x ea, isPrivileged (mk x ea) = false) : Unprivileged (withWordEa w sz allowed mk xs) := by
  cases xs with
  | nil => exact unprivileged_error _
  | cons x rest => exact unprivileged_withEa _ _ _ _ (h x)

theorem unprivileged_withImmEa {mk : Long → Ea → Instr} (w : Nat) (sz : Size) (xs : List Word)
    (h : ∀ v ea, isPrivileged (mk v ea) = false) : Unprivileged (withImmEa w sz mk xs) := by
  unfold withImmEa
  split
  · exact unprivileged_withEa _ _ _ _ (h _)
  · exact unprivileged_error _

theorem unprivileged_withSize {k : Size → Decoded Instr} (field : Nat) (h : ∀ sz, Unprivileged (k sz)) :
    Unprivileged (withSize field k) := by
  unfold withSize
  split
  · exact h _
  · exact h _
  · exact h _
  · exact unprivileged_error _

theorem unprivileged_withDisp {mk : BrDisp → Instr} (w : Nat) (xs : List Word) (h : ∀ d, isPrivileged (mk d) = false) :
    Unprivileged (withDisp w mk xs) := by
  unfold withDisp
  split
  · exact unprivileged_withWord _ fun _ => h _
  · exact unprivileged_ok _ (h _)

theorem unprivileged_decodeMove {mk : Ea → Ea → Instr} (w : Nat) (sz : Size) (xs : List Word)
    (h : ∀ src dst, isPrivileged (mk src dst) = false) : Unprivileged (decodeMove w sz mk xs) := by
  unfold decodeMove
  split
  · exact unprivileged_error _
  split
  · split
    · exact unprivileged_error _
    split
    · exact unprivileged_ok _ (h _ _)
    · exact unprivileged_error _
  · exact unprivileged_error _

theorem unprivileged_decodeMoveOrMovea {mk : Ea → Ea → Instr} {mkA : Ea → Reg → Instr} (w : Nat) (sz : Size)
    (xs : List Word) (h : ∀ src dst, isPrivileged (mk src dst) = false) (hA : ∀ ea r, isPrivileged (mkA ea r) = false) :
    Unprivileged (decodeMoveOrMovea w sz mk mkA xs) := by
  unfold decodeMoveOrMovea
  split
  · exact unprivileged_withEa _ _ _ _ fun _ => hA _ _
  · exact unprivileged_decodeMove _ _ _ h

theorem unprivileged_decodeDir {toReg toMem : Size → Reg → Ea → Instr} (w : Nat) (srcOk : Size → Ea → Bool)
    (xs : List Word) (hr : ∀ sz r ea, isPrivileged (toReg sz r ea) = false)
    (hm : ∀ sz r ea, isPrivileged (toMem sz r ea) = false) : Unprivileged (decodeDir w srcOk toReg toMem xs) := by
  refine unprivileged_withSize _ fun sz => ?_
  split
  · exact unprivileged_withEa _ _ _ _ (hr sz _)
  · exact unprivileged_withEa _ _ _ _ (hm sz _)

/-! The lines of the opcode table that hold no privileged instruction. -/

theorem unprivileged_decodeLine5 (w : Nat) (xs : List Word) : Unprivileged (decodeLine5 w xs) := by
  unfold decodeLine5
  split
  · split
    · exact unprivileged_withWord _ fun _ => rfl
    · exact unprivileged_withEa _ _ _ _ fun _ => rfl
  · refine unprivileged_withSize _ fun sz => unprivileged_withEa _ _ _ _ fun ea => ?_
    split <;> rfl

theorem unprivileged_decodeLine6 (w : Nat) (xs : List Word) : Unprivileged (decodeLine6 w xs) := by
  unfold decodeLine6
  split <;> exact unprivileged_withDisp _ _ fun _ => rfl

theorem unprivileged_decodeLine8 (w : Nat) (xs : List Word) : Unprivileged (decodeLine8 w xs) := by
  unfold decodeLine8
  split
  · exact unprivileged_withEa _ _ _ _ fun _ => rfl
  split
  · exact unprivileged_withEa _ _ _ _ fun _ => rfl
  split
  · exact unprivileged_ok _ rfl
  · exact unprivileged_decodeDir _ _ _ (fun _ _ _ => rfl) fun _ _ _ => rfl

theorem unprivileged_decodeAddSub {toReg toMem : Size → Reg → Ea → Instr} {mkA : Bool → Reg → Ea → Instr}
    {mkX : Size → Bool → Reg → Reg → Instr} (w : Nat) (xs : List Word)
    (hr : ∀ sz r ea, isPrivileged (toReg sz r ea) = false) (hm : ∀ sz r ea, isPrivileged (toMem sz r ea) = false)
    (hA : ∀ l r ea, isPrivileged (mkA l r ea) = false) (hX : ∀ sz m x y, isPrivileged (mkX sz m x y) = false) :
    Unprivileged (decodeAddSub w toReg toMem mkA mkX xs) := by
  unfold decodeAddSub
  split
  · exact unprivileged_withEa _ _ _ _ (hA _ _)
  split
  · exact unprivileged_withSize _ fun sz => unprivileged_ok _ (hX _ _ _ _)
  · exact unprivileged_decodeDir _ _ _ hr hm

theorem unprivileged_decodeLineB (w : Nat) (xs : List Word) : Unprivileged (decodeLineB w xs) := by
  unfold decodeLineB
  split
  · exact unprivileged_withEa _ _ _ _ fun _ => rfl
  refine unprivileged_withSize _ fun sz => ?_
  split
  · exact unprivileged_withEa _ _ _ _ fun _ => rfl
  split
  · exact unprivileged_ok _ rfl
  · exact unprivileged_withEa _ _ _ _ fun _ => rfl

theorem unprivileged_decodeLineC (w : Nat) (xs : List Word) : Unprivileged (decodeLineC w xs) := by
  unfold decodeLineC
  split
  · exact unprivileged_withEa _ _ _ _ fun _ => rfl
  split
  · exact unprivileged_withEa _ _ _ _ fun _ => rfl
  iterate 4
    split
    · exact unprivileged_ok _ rfl
  exact unprivileged_decodeDir _ _ _ (fun _ _ _ => rfl) fun _ _ _ => rfl

theorem unprivileged_decodeLineE (w : Nat) (xs : List Word) : Unprivileged (decodeLineE w xs) := by
  unfold decodeLineE
  split
  · split
    case h_9 => exact unprivileged_error _
    all_goals exact unprivileged_withEa _ _ _ _ fun _ => rfl
  · refine unprivileged_withSize _ fun sz => ?_
    dsimp only
    split <;> exact unprivileged_ok _ rfl

/-- Line 0000 beside the operations on the status register. -/
theorem unprivileged_decodeLine0 {w : Nat} (xs : List Word) (hor : w ≠ 0x007C) (hand : w ≠ 0x027C) (heor : w ≠ 0x0A7C) :
    Unprivileged (decodeLine0 w xs) := by
  unfold decodeLine0
  simp only [hor, hand, heor, if_false]
  iterate 3
    split
    · exact unprivileged_withWord _ fun _ => rfl
  split
  · split
    · exact unprivileged_withWord _ fun _ => rfl
    · split <;> exact unprivileged_withEa _ _ _ _ fun _ => rfl
  split
  case h_5 => split <;> exact unprivileged_withWordEa _ _ _ _ fun _ _ => rfl
  case h_8 => exact unprivileged_error _
  all_goals exact unprivileged_withSize _ fun sz => unprivileged_withImmEa _ _ _ fun _ _ => rfl

/-- Line 0100 beside MOVE to SR and the fixed words. -/
theorem unprivileged_decodeLine4 {w : Nat} (xs : List Word)
    (hsr : ¬ (w / 256 % 2 ≠ 1 ∧ w / 512 % 8 = 3 ∧ w / 64 % 4 = 3))
    (hfix : ¬ (w / 256 % 2 ≠ 1 ∧ w / 512 % 8 = 7 ∧ w / 64 % 4 = 1)) : Unprivileged (decodeLine4 w xs) := by
  unfold decodeLine4
  split
  · split
    case h_3 => exact unprivileged_error _
    all_goals exact unprivileged_withEa _ _ _ _ fun _ => rfl
  rename_i h8
  split
  case h_1 | h_3 =>
    split
    · exact unprivileged_withEa _ _ _ _ fun _ => rfl
    · exact unprivileged_withSize _ fun sz => unprivileged_withEa _ _ _ _ fun _ => rfl
  case h_2 => exact unprivileged_withSize _ fun sz => unprivileged_withEa _ _ _ _ fun _ => rfl
  case h_4 h3 =>
    rw [if_neg fun h => hsr ⟨h8, h3, h⟩]
    exact unprivileged_withSize _ fun sz => unprivileged_withEa _ _ _ _ fun _ => rfl
  case h_5 =>
    split
    · exact unprivileged_withEa _ _ _ _ fun _ => rfl
    · split
      · exact unprivileged_ok _ rfl
      · exact unprivileged_withEa _ _ _ _ fun _ => rfl
    all_goals
      split
      · exact unprivileged_ok _ rfl
      · exact unprivileged_withWordEa _ _ _ _ fun _ _ => rfl
  case h_6 =>
    split
    · exact unprivileged_withEa _ _ _ _ fun _ => rfl
    · exact unprivileged_withSize _ fun sz => unprivileged_withEa _ _ _ _ fun _ => rfl
  case h_7 =>
    split
    case h_3 => exact unprivileged_error _
    all_goals exact unprivileged_withWordEa _ _ _ _ fun _ _ => rfl
  case h_8 =>
    split
    case h_1 h1 =>
      have h7 : w / 512 % 8 = 7 := by grind
      exact absurd ⟨h8, h7, h1⟩ hfix
    case h_4 => exact unprivileged_error _
    all_goals exact unprivileged_withEa _ _ _ _ fun _ => rfl

/-! Forms that are a privileged instruction whatever the words after the operation word are. -/

/-- From every list of enough words, something of the kind `P` is decoded, and as many words are taken, at most two. -/
def Reads {α : Type} (p : List Word → Decoded α) (P : α → Prop) : Prop :=
  ∃ m ≤ 2, ∀ xs, m ≤ xs.length → ∃ a rest, p xs = .ok (a, rest) ∧ P a ∧ rest.length + m = xs.length

section
variable {α : Type} {p : List Word → Decoded α} {P : α → Prop}

theorem reads_none (a : α) (form : ∀ xs, p xs = .ok (a, xs)) (h : P a) : Reads p P :=
  ⟨0, by decide, fun xs _ => ⟨a, xs, form xs, h, rfl⟩⟩

theorem reads_one (f : Word → α) (form : ∀ x xs, p (x :: xs) = .ok (f x, xs)) (h : ∀ x, P (f x)) : Reads p P :=
  ⟨1, by decide, fun | x :: xs, _ => ⟨f x, xs, form x xs, h x, rfl⟩⟩

theorem reads_two (f : Word → Word → α) (form : ∀ x y xs, p (x :: y :: xs) = .ok (f x y, xs)) (h : ∀ x y, P (f x y)) :
    Reads p P :=
  ⟨2, by decide, fun | x :: y :: xs, _ => ⟨f x y, xs, form x y xs, h x y, rfl⟩⟩

end

/-- A field that names a data operand before some words names one before all (rules R108, R109). -/
theorem decodeEa_reads {sz : Size} {field : Nat} {xs rest : List Word} {ea : Ea}
    (h : decodeEa sz field xs = .ok (ea, rest)) (hd : ea.isData = true) :
    Reads (decodeEa sz field) fun e => e.isData = true := by
  have ne1 : field / 8 % 8 ≠ 1 := fun hm => by
    simp only [decodeEa, hm] at h
    cases h
    cases hd
  obtain hm | hm | hm | hm | hm | hm | hm : field / 8 % 8 = 0 ∨ field / 8 % 8 = 2 ∨ field / 8 % 8 = 3 ∨
    field / 8 % 8 = 4 ∨ field / 8 % 8 = 5 ∨ field / 8 % 8 = 6 ∨ field / 8 % 8 = 7 := by omega
  · exact reads_none (.dn (regAt field 0)) (fun _ => by simp only [decodeEa, hm]) rfl
  · exact reads_none (.ind (regAt field 0)) (fun _ => by simp only [decodeEa, hm]) rfl
  · exact reads_none (.postInc (regAt field 0)) (fun _ => by simp only [decodeEa, hm]) rfl
  · exact reads_none (.preDec (regAt field 0)) (fun _ => by simp only [decodeEa, hm]) rfl
  · exact reads_one (.disp (regAt field 0)) (fun _ _ => by simp only [decodeEa, hm]) fun _ => rfl
  · exact reads_one (fun x => .index (regAt field 0) (decodeIndex x)) (fun _ _ => by simp only [decodeEa, hm]) fun _ => rfl
  have lt : field % 8 < 8 := Nat.mod_lt _ (by decide)
  have form : ∀ ys, decodeEa sz field ys = decodeEa sz (56 + field % 8) ys := fun ys => by
    have e : (56 + field % 8) / 8 % 8 = 7 ∧ (56 + field % 8) % 8 = field % 8 := by omega
    simp only [decodeEa, hm, e]
  rw [funext form] at h ⊢
  generalize field % 8 = k at lt h
  obtain rfl | rfl | rfl | rfl | rfl | rfl | rfl | rfl : k = 0 ∨ k = 1 ∨ k = 2 ∨ k = 3 ∨ k = 4 ∨ k = 5 ∨ k = 6 ∨
    k = 7 := by omega
  · exact reads_one .absW (fun _ _ => rfl) fun _ => rfl
  · exact reads_two (fun x y => .absL (x ++ y)) (fun _ _ _ => rfl) fun _ _ => rfl
  · exact reads_one .pcDisp (fun _ _ => rfl) fun _ => rfl
  · exact reads_one (fun x => .pcIndex (decodeIndex x)) (fun _ _ => rfl) fun _ => rfl
  · cases sz with
    | byte | word => exact reads_one (fun x => .imm _) (fun _ _ => rfl) fun _ => rfl
    | long => exact reads_two (fun x y => .imm (x ++ y)) (fun _ _ _ => rfl) fun _ _ => rfl
  all_goals
    cases xs <;> cases h

/-- What is decoded is a privileged instruction. -/
def ReadsPrivileged (p : List Word → Decoded Instr) : Prop := Reads p fun i => isPrivileged i = true

/-- MOVE to SR, in each addressing mode (rule R347). -/
theorem withEa_privileged {w : Nat} {sz : Size} {mk : Ea → Instr} {xs rest : List Word} {i : Instr}
    (hmk : ∀ ea, isPrivileged (mk ea) = true) (h : withEa w sz Ea.isData mk xs = .ok (i, rest)) :
    ReadsPrivileged (withEa w sz Ea.isData mk) := by
  unfold withEa at h
  split at h
  case h_2 => cases h
  case h_1 ea rest' hea =>
    split at h
    case isFalse => cases h
    case isTrue hdata =>
      obtain ⟨m, hm, reads⟩ := decodeEa_reads hea hdata
      refine ⟨m, hm, fun ys hys => ?_⟩
      obtain ⟨ea', rest'', hd, data, count⟩ := reads ys hys
      exact ⟨mk ea', rest'', by simp only [withEa, hd, data, if_true], hmk ea', count⟩

/-- The fixed words: MOVE USP, RESET, STOP and RTE are privileged (rules R362, R363, R366, R368, R370). -/
theorem decodeFixed_privileged {w : Nat} {xs rest : List Word} {i : Instr} (h : decodeFixed w xs = .ok (i, rest))
    (hi : isPrivileged i = true) : ReadsPrivileged (decodeFixed w) := by
  unfold decodeFixed at h
  split at h
  case h_5 hf | h_6 hf =>
    cases h
    exact reads_none _ (fun ys => by simp only [decodeFixed, hf]) hi
  case h_7 hf =>
    split at h
    case h_1 hg | h_4 hg =>
      cases h
      exact reads_none _ (fun ys => by simp only [decodeFixed, hf, hg]) hi
    case h_3 hg =>
      exact reads_one .stop (fun _ _ => by simp only [decodeFixed, hf, hg, withWord]) fun _ => rfl
    case h_8 => cases h
    all_goals
      cases h
      cases hi
  case h_3 => cases hi.symm.trans (unprivileged_withWord xs (fun _ => rfl) i rest h)
  case h_8 => cases h
  all_goals
    cases h
    cases hi

/-- Line 0000: ORI, ANDI and EORI to SR are privileged (rules R351, R353, R355). -/
theorem decodeLine0_privileged {w : Nat} {xs rest : List Word} {i : Instr} (h : decodeLine0 w xs = .ok (i, rest))
    (hi : isPrivileged i = true) : ReadsPrivileged (decodeLine0 w) := by
  by_cases hor : w = 0x007C
  · subst hor
    exact reads_one .oriToSr (fun _ _ => rfl) fun _ => rfl
  by_cases hand : w = 0x027C
  · subst hand
    exact reads_one .andiToSr (fun _ _ => rfl) fun _ => rfl
  by_cases heor : w = 0x0A7C
  · subst heor
    exact reads_one .eoriToSr (fun _ _ => rfl) fun _ => rfl
  · cases hi.symm.trans (unprivileged_decodeLine0 xs hor hand heor i rest h)

/-- Line 0100: MOVE to SR and four of the fixed words are privileged. -/
theorem decodeLine4_privileged {w : Nat} {xs rest : List Word} {i : Instr} (h : decodeLine4 w xs = .ok (i, rest))
    (hi : isPrivileged i = true) : ReadsPrivileged (decodeLine4 w) := by
  by_cases hsr : w / 256 % 2 ≠ 1 ∧ w / 512 % 8 = 3 ∧ w / 64 % 4 = 3
  · obtain ⟨h8, h3, h6⟩ := hsr
    have form : decodeLine4 w = withEa w .word Ea.isData .moveToSr := by
      funext ys
      simp only [decodeLine4, h8, h3, h6, if_true, if_false]
    rw [form] at h ⊢
    exact withEa_privileged (fun _ => rfl) h
  by_cases hfix : w / 256 % 2 ≠ 1 ∧ w / 512 % 8 = 7 ∧ w / 64 % 4 = 1
  · obtain ⟨h8, h7, h6⟩ := hfix
    have form : decodeLine4 w = decodeFixed w := by
      funext ys
      simp only [decodeLine4, h8, h7, h6, if_false]
    rw [form] at h ⊢
    exact decodeFixed_privileged h hi
  · cases hi.symm.trans (unprivileged_decodeLine4 xs hsr hfix i rest h)


/-- An operation word that is a privileged instruction before some words is one before all, and takes as many of them (rules R340, R452). -/
theorem decodeOp_privileged {w : Nat} {xs rest : List Word} {i : Instr} (h : decodeOp w xs = .ok (i, rest))
    (hi : isPrivileged i = true) : ReadsPrivileged (decodeOp w) := by
  have other : ¬ Unprivileged (decodeOp w xs) := fun hu => by cases hi.symm.trans (hu i rest h)
  by_cases h0 : w / 4096 % 16 = 0
  · have form : decodeOp w = decodeLine0 w := by
      funext ys
      simp only [decodeOp, h0]
    rw [form] at h ⊢
    exact decodeLine0_privileged h hi
  by_cases h4 : w / 4096 % 16 = 4
  · have form : decodeOp w = decodeLine4 w := by
      funext ys
      simp only [decodeOp, h4]
    rw [form] at h ⊢
    exact decodeLine4_privileged h hi
  · refine absurd ?_ other
    unfold decodeOp
    split
    case h_1 => contradiction
    case h_5 => contradiction
    case h_2 => exact unprivileged_decodeMove _ _ _ fun _ _ => rfl
    case h_3 | h_4 => exact unprivileged_decodeMoveOrMovea _ _ _ (fun _ _ => rfl) fun _ _ => rfl
    case h_6 => exact unprivileged_decodeLine5 _ _
    case h_7 => exact unprivileged_decodeLine6 _ _
    case h_8 =>
      split
      · exact unprivileged_ok _ rfl
      · exact unprivileged_error _
    case h_9 => exact unprivileged_decodeLine8 _ _
    case h_10 | h_14 =>
      exact unprivileged_decodeAddSub _ _ (fun _ _ _ => rfl) (fun _ _ _ => rfl) (fun _ _ _ => rfl) fun _ _ _ _ => rfl
    case h_11 | h_16 => exact unprivileged_ok _ rfl
    case h_12 => exact unprivileged_decodeLineB _ _
    case h_13 => exact unprivileged_decodeLineC _ _
    case h_15 => exact unprivileged_decodeLineE _ _

/-- The length of a privileged instruction is one more than the words that its operation word is read with (rule R101). -/
theorem shape_privileged {w : Word} {i : Instr} {n : Nat} (h : shape w = some (i, n)) (hi : isPrivileged i = true) :
    1 ≤ n ∧ ∀ xs, n ≤ xs.length + 1 → ∃ j rest, decode (w :: xs) = .ok (j, rest) ∧ isPrivileged j = true := by
  unfold shape at h
  split at h
  case h_2 => cases h
  case h_1 i' rest hd =>
    cases h
    obtain ⟨m, hm, reads⟩ := decodeOp_privileged hd hi
    obtain ⟨j, rest', hd', -, count⟩ := reads [0, 0, 0, 0] (by simp only [List.length]; omega)
    cases hd.symm.trans hd'
    have hn : 5 - rest.length = m + 1 := by
      simp only [List.length] at count
      omega
    rw [hn]
    refine ⟨by omega, fun xs hxs => ?_⟩
    obtain ⟨k, rest'', hk, priv, -⟩ := reads xs (by omega)
    exact ⟨k, rest'', hk, priv⟩

/-! The meaning in user state. -/

/-- A privileged instruction in user state is a privilege violation, at exec (rules R340, R452). -/
theorem exec_privileged_of_user {s : State} {i : Instr} (hi : isPrivileged i = true) (hs : s.sr.s = false) :
    exec i s = s.group1 8 s.pc := by
  have user : ∀ body, privileged s body = s.group1 8 s.pc := fun body => by
    rw [privileged, hs]
    rfl
  cases i with
  | oriToSr v => exact user _
  | andiToSr v => exact user _
  | eoriToSr v => exact user _
  | moveToSr ea => exact user _
  | moveToUsp r | moveFromUsp r => exact user _
  | reset | rte => exact user _
  | stop v => exact user _
  | _ => cases hi

/-! The fetches of a step. -/

/-- The operation word and the next word are at hand, or are fetched (rules R45, R88). -/
theorem openQueue_ok {s : State} {n : Nat} (hn : 1 ≤ n) (h : s.canFetch n) : openQueue.run s = .ok s.nextWords s := by
  obtain ⟨even, reads⟩ := h
  have even2 : (s.pc + 2).getLsbD 0 = false := even_add (n := 2) even rfl
  have pc0 : s.pc + BitVec.ofNat 32 (2 * 0) = s.pc := BitVec.add_zero _
  have read0 : s.canRead .word s.programSpace s.pc := ⟨even, pc0 ▸ reads 0 (Nat.zero_le n)⟩
  have read1 : s.canRead .word s.programSpace (s.pc + 2) := ⟨even2, reads 1 hn⟩
  have aligned : needEvenPc.run s = .ok () s := by
    simp only [EStateM.run, needEvenPc, even, Bool.false_eq_true, if_false]
  rw [openQueue, bind_ok aligned, bind_ok (ask_run _ _), State.nextWords]
  cases s.queue with
  | some q => rfl
  | none =>
    simp only [bind_run, ask_run, fetchWord_ok read0, fetchWord_ok read1, pure_run]

/-- Words of the instruction stream that memory answers (rule R102). -/
theorem fetchWords_ok {s : State} {n : Nat} {addr : Long}
    (h : ∀ k, k < n → s.canRead .word s.programSpace (addr + BitVec.ofNat 32 (2 * k))) :
    (fetchWords n addr).run s =
      .ok ((List.range n).map fun k => s.wordAt s.programSpace (addr + BitVec.ofNat 32 (2 * k))) s := by
  induction n generalizing addr with
  | zero => rfl
  | succ n ih =>
    have next : ∀ k, addr + 2 + BitVec.ofNat 32 (2 * k) = addr + BitVec.ofNat 32 (2 * (k + 1)) := fun k => by
      rw [Nat.mul_succ, Nat.add_comm, BitVec.ofNat_add, BitVec.add_assoc]
      rfl
    have addr0 : addr + BitVec.ofNat 32 (2 * 0) = addr := BitVec.add_zero _
    have read0 : s.canRead .word s.programSpace addr := addr0 ▸ h 0 (Nat.succ_pos n)
    have rest := ih (addr := addr + 2) fun k hk => next k ▸ h (k + 1) (Nat.succ_lt_succ hk)
    rw [fetchWords, bind_ok (fetchWord_ok read0), bind_ok rest, pure_run, List.range_succ_eq_map, List.map_cons,
      List.map_map, addr0]
    simp only [next]
    rfl

/-- The words of an instruction of `n` words after its first two, up to the one after the instruction (rules R102, R491). -/
def State.wordsAfter (s : State) (n : Nat) : List Word :=
  (List.range (n - 1)).map fun k => s.wordAt s.programSpace (s.pc + 4 + BitVec.ofNat 32 (2 * k))

@[simp] theorem State.wordsAfter_length (s : State) (n : Nat) : (s.wordsAfter n).length = n - 1 := by
  simp [State.wordsAfter]

/-- An address of the stream, counted from the words after the first two. -/
theorem pc_add_four (pc : Long) (k : Nat) : pc + 4 + BitVec.ofNat 32 (2 * k) = pc + BitVec.ofNat 32 (2 * (k + 2)) := by
  rw [Nat.mul_add, Nat.add_comm, BitVec.ofNat_add, BitVec.add_assoc]
  rfl

theorem fetchWords_wordsAfter {s : State} {n : Nat} (h : s.canFetch n) :
    (fetchWords (n - 1) (s.pc + 4)).run s = .ok (s.wordsAfter n) s := by
  obtain ⟨even, reads⟩ := h
  refine fetchWords_ok fun k hk => ?_
  rw [pc_add_four]
  exact ⟨even_add even (Nat.mul_mod_right _ _), reads (k + 2) (by omega)⟩

/-- The last word fetched for an instruction is the word after it. -/
theorem State.wordsAfter_last {s : State} {n : Nat} (hn : 1 ≤ n) :
    (s.nextWords.2 :: s.wordsAfter n).getLastD 0 = s.streamWord n := by
  obtain ⟨m, rfl⟩ : ∃ m, n = m + 1 := ⟨n - 1, by omega⟩
  cases m with
  | zero => rfl
  | succ m =>
    have last : s.wordsAfter (m + 1 + 1) =
        s.wordsAfter (m + 1) ++ [s.wordAt s.programSpace (s.pc + BitVec.ofNat 32 (2 * (m + 2)))] := by
      simp only [State.wordsAfter, Nat.add_sub_cancel, List.range_succ, List.map_append, List.map_cons, List.map_nil,
        pc_add_four]
    rw [last, ← List.cons_append, List.getLastD_concat]
    rfl

/-! The step in user state. -/

/-- The meaning of a privileged instruction fetches none of its words. -/
theorem lateFetches_privileged {i : Instr} (hi : isPrivileged i = true) : lateFetches i = 0 := by
  cases i with
  | moveB | moveW | moveL => cases hi
  | _ => rfl

/-- Whatever extension words are read, the operation word makes the instruction a privileged one. -/
theorem readInstr_privileged {w : Word} {xs : List Word} {i : Instr} {n : Nat} (s : State)
    (h : shape w = some (i, n)) (hi : isPrivileged i = true) (hxs : n ≤ xs.length + 1) :
    ∃ j rest, readInstr (w :: xs) n s = .ok (j, rest) ∧ isPrivileged j = true := by
  obtain ⟨-, reads⟩ := shape_privileged h hi
  have read : ∀ x, ∃ j rest, decode (w :: xs ++ [x]) = .ok (j, rest) ∧ isPrivileged j = true := fun x =>
    reads (xs ++ [x]) (by rw [List.length_append]; omega)
  obtain ⟨j, rest, hj, -⟩ := read 0
  simp only [readInstr, hj]
  exact read _

/-- Nothing follows a group 1 exception that an instruction ends in: no trace, and no fetch (rules R404, R432). -/
theorem finish_markGroup1 (old t : State) (n : Nat) : finish old n (.next t.markGroup1) = .next t.markGroup1 := by
  simp [finish]

/-- Executing a privileged instruction in user state: its words are fetched, and vector 8 is taken (rules R404, R452). -/
theorem execute_privileged {s : State} {q : Word × Word} {i : Instr} {n : Nat} (hq : s.nextWords = q)
    (hfetch : s.canFetch n) (hs : s.sr.s = false) (h : shape q.1 = some (i, n)) (hi : isPrivileged i = true)
    (htake : (s.withAhead (s.streamWord n)).canTake none 8 s.pc) :
    execute exec q s = .next ((s.withAhead (s.streamWord n)).entered3 none 8 s.pc).markGroup1 := by
  subst hq
  obtain ⟨hn, -⟩ := shape_privileged h hi
  obtain ⟨j, rest, hj, hpriv⟩ := readInstr_privileged (xs := s.nextWords.2 :: s.wordsAfter n)
    (s.withAhead (s.streamWord n)) h hi (by simp only [List.length_cons, State.wordsAfter_length]; omega)
  have meaning : exec j (s.withAhead (s.streamWord n)) =
      .next ((s.withAhead (s.streamWord n)).entered3 none 8 s.pc).markGroup1 :=
    (exec_privileged_of_user (s := s.withAhead (s.streamWord n)) hpriv hs).trans (State.group1_ok htake)
  simp only [execute, h, lateFetches_privileged hi, Nat.sub_zero, fetchWords_wordsAfter hfetch,
    State.wordsAfter_last hn, hj, meaning, finish_markGroup1]

/-- Settles O35: at exec every privileged instruction is the test of S before anything else; in a step the operation word alone tells that it is privileged and how long it is, so the words fetched for it do not matter. -/
theorem privilegeViolations : Obligations.PrivilegeViolations := by
  refine ⟨fun s i hi hs htake => ?_, fun s i n hruns hfetch hs hshape hi htake => ?_⟩
  · exact (exec_privileged_of_user hi hs).trans (State.group1_ok htake)
  · obtain ⟨hn, -⟩ := shape_privileged hshape hi
    have fetch : (s.observe.sampled s.sample.ipl).canFetch n := hfetch
    rw [step_of_runsInstruction hruns, fetchExecute, openQueue_ok hn fetch]
    exact execute_privileged (s := (s.observe.sampled s.sample.ipl).begin s.observe.nextWords) rfl fetch hs hshape hi htake

end Sys2Proof.Machine
end

section
/-! PROOF. The interrupt level of the previous boundary (rules R421, R423): the shared operations keep it, take no input where none is left, and are aborted by no reset. -/

namespace Sys2Proof.Machine

/-- The level sampled last is `l`, and no input of a bus cycle is left (rule R423; log 15). -/
def State.AtLevel (s : State) (l : BitVec 3) : Prop := s.prevIpl = l ∧ s.cycles = []

/-- From a state in which no input of a bus cycle is left, however the computation ends, the level sampled last stays, no input comes up, and no reset aborts it (rules R423, R465; log 15). `Keeps` says nothing about how a computation aborts, and a reset samples a level of its own. -/
def Calm {α : Type} (m : M α) : Prop :=
  ∀ l s, s.AtLevel l → match m.run s with
    | .ok _ t => t.AtLevel l
    | .error e t => t.AtLevel l ∧ ∀ ipl, e ≠ .reset ipl

/-! Sequencing. -/

section
variable {α β : Type}

theorem calm_pure (a : α) : Calm (pure a : M α) := fun _ _ hs => hs

theorem calm_ask (f : State → α) : Calm (ask f) := fun _ _ hs => hs

theorem calm_raise {e : Abort} (h : ∀ ipl, e ≠ .reset ipl) : Calm (raise e : M α) := fun _ _ hs => ⟨hs, h⟩

theorem State.AtLevel.of_eq {s t : State} {l : BitVec 3} (hs : s.AtLevel l)
    (h : t.prevIpl = s.prevIpl ∧ t.cycles = s.cycles) : t.AtLevel l :=
  ⟨h.1.trans hs.1, h.2.trans hs.2⟩

theorem calm_upd {f : State → State}
    (h : ∀ s, (f s).prevIpl = s.prevIpl ∧ (f s).cycles = s.cycles := by simp) : Calm (upd f) :=
  fun _ s hs => hs.of_eq (h s)

theorem calm_bind {m : M α} {f : α → M β} (hm : Calm m) (hf : ∀ a, Calm (f a)) : Calm (m >>= f) := by
  intro l s hs
  rw [bind_run]
  have h := hm l s hs
  cases h1 : m.run s with
  | ok a t =>
    rw [h1] at h
    exact hf a l t h
  | error e t =>
    rw [h1] at h
    exact h

theorem calm_ite {c : Prop} [Decidable c] {m m' : M α} (h : Calm m) (h' : Calm m') : Calm (if c then m else m') := by
  split
  · exact h
  · exact h'

end

theorem calm_updSr (f : Sr → Sr) : Calm (updSr f) := calm_upd

theorem calm_jump (v : Long) : Calm (jump v) := calm_upd

theorem calm_skipWord : Calm skipWord := calm_upd

theorem calm_skipImmediate (sz : Size) : Calm (skipImmediate sz) := calm_upd

theorem calm_setDataReg (sz : Size) (r : Reg) (v : Long) : Calm (setDataReg sz r v) := calm_upd

theorem calm_dataReg (sz : Size) (r : Reg) : Calm (dataReg sz r) := calm_ask _

theorem calm_anyLong : Calm anyLong := fun _ _ hs => hs

theorem calm_anyBool : Calm anyBool := calm_bind calm_anyLong fun _ => calm_pure _

theorem calm_anyBits (n : Nat) : Calm (anyBits n) := calm_bind calm_anyLong fun _ => calm_pure _

/-! Bus cycles. -/

theorem calm_startCycle : Calm startCycle := by
  intro l s hs
  rw [startCycle_quiet hs.2]
  exact hs

theorem calm_deviceWord (sp : Space) (addr : Long) : Calm (deviceWord sp addr) := fun _ _ hs => hs

theorem calm_needEven (sp : Space) (addr : Long) (w : Bool) : Calm (needEven sp addr w) := by
  intro l s hs
  cases h : addr.getLsbD 0 with
  | false =>
    rw [needEven_ok h]
    exact hs
  | true =>
    rw [needEven_odd h]
    exact ⟨hs, nofun⟩

theorem calm_endRead8 (r : ReadReply) (sp : Space) (addr : Long) : Calm (endRead8 r sp addr) := by
  cases r with
  | memory => exact calm_ask _
  | device => exact calm_bind (calm_deviceWord _ _) fun _ => calm_pure _
  | busError | noReply => exact calm_raise nofun

theorem calm_endRead16 (r : ReadReply) (sp : Space) (addr : Long) : Calm (endRead16 r sp addr) := by
  cases r with
  | memory => exact calm_ask _
  | device => exact calm_deviceWord _ _
  | busError | noReply => exact calm_raise nofun

theorem calm_endWrite8 (r : WriteReply) (sp : Space) (addr : Long) (b : Byte) : Calm (endWrite8 r sp addr b) := by
  cases r with
  | memory => exact calm_upd
  | absorb => exact calm_pure _
  | busError | noReply => exact calm_raise nofun

theorem calm_endWrite16 (r : WriteReply) (sp : Space) (addr : Long) (w : Word) : Calm (endWrite16 r sp addr w) := by
  cases r with
  | memory => exact calm_upd
  | absorb => exact calm_pure _
  | busError | noReply => exact calm_raise nofun

/-- A bus cycle: its start, the platform's answer, and its end. -/
theorem calm_cycle {α β : Type} {answer : State → β} {ending : Cycle → β → M α} (h : ∀ c p, Calm (ending c p)) :
    Calm (startCycle >>= fun c => ask answer >>= fun p => ending c p) :=
  calm_bind calm_startCycle fun c => calm_bind (calm_ask answer) fun p => h c p

theorem calm_busRead8 (sp : Space) (addr : Long) : Calm (busRead8 sp addr) :=
  calm_cycle fun _ _ => calm_endRead8 _ _ _

theorem calm_busRead16 (sp : Space) (addr : Long) : Calm (busRead16 sp addr) :=
  calm_cycle fun _ _ => calm_endRead16 _ _ _

theorem calm_busWrite8 (sp : Space) (addr : Long) (b : Byte) : Calm (busWrite8 sp addr b) :=
  calm_cycle fun _ _ => calm_endWrite8 _ _ _ _

theorem calm_busWrite16 (sp : Space) (addr : Long) (w : Word) : Calm (busWrite16 sp addr w) :=
  calm_cycle fun _ _ => calm_endWrite16 _ _ _ _

theorem calm_busModify8 (sp : Space) (addr : Long) {f : Byte → M Byte} (hf : ∀ b, Calm (f b)) :
    Calm (busModify8 sp addr f) :=
  calm_cycle fun _ _ => calm_bind (calm_endRead8 _ _ _) fun _ => calm_bind (hf _) fun _ =>
    calm_bind (calm_ask _) fun _ => calm_endWrite8 _ _ _ _

theorem calm_readWord (sp : Space) (addr : Long) : Calm (readWord sp addr) :=
  calm_bind (calm_needEven _ _ _) fun _ => calm_busRead16 _ _

theorem calm_readLong (sp : Space) (addr : Long) : Calm (readLong sp addr) :=
  calm_bind (calm_needEven _ _ _) fun _ => calm_bind (calm_busRead16 _ _) fun _ =>
    calm_bind (calm_busRead16 _ _) fun _ => calm_pure _

theorem calm_readMem (sz : Size) (sp : Space) (addr : Long) : Calm (readMem sz sp addr) := by
  cases sz with
  | byte => exact calm_bind (calm_busRead8 _ _) fun _ => calm_pure _
  | word => exact calm_bind (calm_readWord _ _) fun _ => calm_pure _
  | long => exact calm_readLong _ _

theorem calm_writeWord (sp : Space) (addr : Long) (w : Word) : Calm (writeWord sp addr w) :=
  calm_bind (calm_needEven _ _ _) fun _ => calm_busWrite16 _ _ _

theorem calm_writeLong (lowFirst : Bool) (sp : Space) (addr v : Long) : Calm (writeLong lowFirst sp addr v) :=
  calm_bind (calm_needEven _ _ _) fun _ => calm_ite (calm_bind (calm_busWrite16 _ _ _) fun _ => calm_busWrite16 _ _ _)
    (calm_bind (calm_busWrite16 _ _ _) fun _ => calm_busWrite16 _ _ _)

theorem calm_writeMem (sz : Size) (pre : Bool) (sp : Space) (addr v : Long) : Calm (writeMem sz pre sp addr v) := by
  cases sz with
  | byte => exact calm_busWrite8 _ _ _
  | word => exact calm_writeWord _ _ _
  | long => exact calm_bind (calm_ask _) fun _ => calm_writeLong _ _ _ _

/-! The stack and the instruction stream. -/

theorem calm_pushLong (v : Long) : Calm (pushLong v) :=
  calm_bind calm_upd fun _ => calm_bind (calm_ask _) fun _ => calm_bind (calm_ask _) fun _ => calm_writeMem _ _ _ _ _

theorem calm_popWord : Calm popWord :=
  calm_bind (calm_ask _) fun _ => calm_bind (calm_ask _) fun _ => calm_bind (calm_readWord _ _) fun _ =>
    calm_bind calm_upd fun _ => calm_pure _

theorem calm_popLong : Calm popLong :=
  calm_bind (calm_ask _) fun _ => calm_bind (calm_ask _) fun _ => calm_bind (calm_readLong _ _) fun _ =>
    calm_bind calm_upd fun _ => calm_pure _

theorem calm_fetchWord (addr : Long) : Calm (fetchWord addr) := by
  intro l s hs
  have h := calm_readWord s.programSpace addr l s hs
  simp only [EStateM.run, fetchWord] at h ⊢
  split at h <;> rename_i e <;> rw [e]
  · exact h
  · rename_i x t
    obtain ⟨ht, hx⟩ := h
    cases x with
    | access => exact ⟨ht, nofun⟩
    | _ => exact ⟨ht, hx⟩

theorem calm_fillQueue : Calm fillQueue :=
  calm_bind (calm_ask _) fun _ => calm_ite (calm_pure _)
    (calm_bind (calm_fetchWord _) fun _ => calm_bind (calm_fetchWord _) fun _ => calm_upd)

theorem calm_replaceWords (n : Nat) (addr : Long) : Calm (replaceWords n addr) := by
  induction n generalizing addr with
  | zero => exact calm_pure _
  | succ n ih => exact calm_bind (calm_fetchWord _) fun _ => calm_bind calm_upd fun _ => ih _

theorem calm_fetchWords (n : Nat) (addr : Long) : Calm (fetchWords n addr) := by
  induction n generalizing addr with
  | zero => exact calm_pure _
  | succ n ih => exact calm_bind (calm_fetchWord _) fun _ => calm_bind (ih _) fun _ => calm_pure _

/-! Operands. -/

@[simp] theorem State.resolve_prevIpl (s : State) (sz : Size) (ea : Ea) : (s.resolve sz ea).2.prevIpl = s.prevIpl := by
  cases ea <;> simp [State.resolve]

theorem calm_locate (sz : Size) (ea : Ea) : Calm (locate sz ea) := fun _ s hs =>
  hs.of_eq ⟨s.resolve_prevIpl sz ea, s.resolve_cycles sz ea⟩

theorem calm_readLoc (sz : Size) (loc : Loc) : Calm (readLoc sz loc) := by
  cases loc with
  | mem sp addr pre => exact calm_readMem _ _ _
  | dreg r | areg r => exact calm_ask _
  | imm v => exact calm_pure _

theorem calm_writeLoc (sz : Size) (loc : Loc) (v : Long) : Calm (writeLoc sz loc v) := by
  cases loc with
  | mem sp addr pre => exact calm_ite (calm_raise nofun) (calm_writeMem _ _ _ _ _)
  | dreg r | areg r => exact calm_upd
  | imm v => exact calm_raise nofun

theorem calm_operand (sz : Size) (ea : Ea) : Calm (operand sz ea) :=
  calm_bind (calm_locate _ _) fun _ => calm_readLoc _ _

theorem calm_effectiveAddress (ea : Ea) : Calm (effectiveAddress ea) := by
  refine calm_bind (calm_locate _ _) fun loc => ?_
  cases loc with
  | mem sp addr pre => exact calm_pure _
  | dreg r | areg r | imm v => exact calm_raise nofun

theorem calm_modifyEa (sz : Size) (ea : Ea) {f : Long → M Long} (hf : ∀ v, Calm (f v)) : Calm (modifyEa sz ea f) :=
  calm_bind (calm_locate _ _) fun _ => calm_bind (calm_readLoc _ _) fun _ => calm_bind (hf _) fun _ =>
    calm_writeLoc _ _ _

theorem calm_modifyIndivisible (ea : Ea) {f : Long → M Long} (hf : ∀ v, Calm (f v)) : Calm (modifyIndivisible ea f) := by
  refine calm_bind (calm_locate _ _) fun loc => ?_
  cases loc with
  | mem sp addr pre =>
    exact calm_ite (calm_raise nofun) (calm_busModify8 _ _ fun _ => calm_bind (hf _) fun _ => calm_pure _)
  | dreg r | areg r | imm v =>
    exact calm_bind (calm_readLoc _ _) fun _ => calm_bind (hf _) fun _ => calm_writeLoc _ _ _

theorem calm_overwriteEa (sz : Size) (ea : Ea) {v : M Long} (hv : Calm v) : Calm (overwriteEa sz ea v) := by
  refine calm_bind (calm_locate _ _) fun loc => ?_
  have write : Calm (v >>= fun r => writeLoc sz loc r) := calm_bind hv fun _ => calm_writeLoc _ _ _
  cases loc with
  | mem sp addr pre => exact calm_bind (calm_readLoc _ _) fun _ => write
  | dreg r | areg r | imm v => exact write

theorem calm_operandPair (sz : Size) (mem : Bool) (rx ry : Reg) : Calm (operandPair sz mem rx ry) :=
  calm_bind (calm_locate _ _) fun _ => calm_bind (calm_readLoc _ _) fun _ => calm_bind (calm_locate _ _) fun _ =>
    calm_bind (calm_readLoc _ _) fun _ => calm_pure _

end Sys2Proof.Machine
end

section
/-! PROOF. The interrupt level of the previous boundary, instruction by instruction: what an outcome leaves of it, the computations of the families, and every meaning. -/

namespace Sys2Proof.Machine

/-! Outcomes. -/

/-- Where the outcome is a next state, the level sampled last is `l` in it, and no input of a bus cycle is left. -/
def EndsAtLevel (o : Outcome) (l : BitVec 3) : Prop := ∀ t, o = .next t → t.AtLevel l

theorem atLevel_next {t : State} {l : BitVec 3} (h : t.AtLevel l) : EndsAtLevel (.next t) l := by
  intro u hu
  cases hu
  exact h

theorem atLevel_fault (f : Fault) (l : BitVec 3) : EndsAtLevel (.fault f) l := by
  intro t h
  cases h

theorem atLevel_refused (r : Refusal) (l : BitVec 3) : EndsAtLevel (.refused r) l := by
  intro t h
  cases h

/-! Exception processing. -/

theorem calm_enter (mask : Option (BitVec 3)) {vector : M (BitVec 8)} (h : Calm vector) (pc : Long) :
    Calm (enter mask vector pc) :=
  calm_bind (calm_ask _) fun _ => calm_bind calm_upd fun _ => calm_bind (calm_ask _) fun _ =>
    calm_bind (calm_writeWord _ _ _) fun _ => calm_bind h fun _ => calm_bind (calm_writeWord _ _ _) fun _ =>
    calm_bind (calm_writeWord _ _ _) fun _ => calm_bind calm_upd fun _ => calm_bind (calm_readLong _ _) fun _ =>
    calm_bind (calm_jump _) fun _ => calm_fillQueue

theorem calm_stackedPc (act : Activity) : Calm act.stackedPc := by
  cases act with
  | operand ipc => exact calm_bind calm_anyLong fun _ => calm_pure _
  | extension | operation after1 | group1 => exact calm_anyLong

theorem calm_stackedIr (act : Activity) : Calm act.stackedIr := by
  cases act with
  | operand | extension => exact calm_ask _
  | operation after1 | group1 => exact calm_anyBits _

theorem calm_enter0 (k : AccessFault) (a : Access) (act : Activity) : Calm (enter0 k a act) :=
  calm_bind (calm_ask _) fun _ => calm_bind calm_upd fun _ => calm_bind (calm_ask _) fun _ =>
    calm_bind (calm_stackedPc _) fun _ => calm_bind (calm_stackedIr _) fun _ => calm_bind (calm_anyBits _) fun _ =>
    calm_bind (calm_writeWord _ _ _) fun _ => calm_bind (calm_writeWord _ _ _) fun _ =>
    calm_bind (calm_writeWord _ _ _) fun _ => calm_bind (calm_writeWord _ _ _) fun _ =>
    calm_bind (calm_writeWord _ _ _) fun _ => calm_bind (calm_writeWord _ _ _) fun _ =>
    calm_bind (calm_writeWord _ _ _) fun _ => calm_bind calm_upd fun _ => calm_bind (calm_readLong _ _) fun _ =>
    calm_bind (calm_jump _) fun _ => calm_fillQueue

section
variable {s : State} {l : BitVec 3}

theorem group0_atLevel (hs : s.AtLevel l) (k : AccessFault) (a : Access) (act : Activity) :
    EndsAtLevel (s.group0 k a act) l := by
  unfold State.group0
  split
  · exact atLevel_next hs
  have h := calm_enter0 k a act l s.markGroup0 hs
  split <;> rename_i he <;> rw [he] at h
  · exact atLevel_next h
  · exact atLevel_fault _ _
  · exact absurd rfl (h.2 _)
  · exact atLevel_next h.1

/-- The end of group 1 or group 2 processing whose mark leaves the level alone. -/
theorem entered_atLevel {m : M Unit} (hm : Calm m) (hs : s.AtLevel l) (act : Activity) {mark : State → State}
    (hmark : ∀ t, (mark t).prevIpl = t.prevIpl ∧ (mark t).cycles = t.cycles := by simp) :
    EndsAtLevel (entered act mark (m.run s)) l := by
  have h := hm l s hs
  cases he : m.run s with
  | ok u t =>
    rw [he] at h
    exact atLevel_next (h.of_eq (hmark t))
  | error e t =>
    rw [he] at h
    obtain ⟨ht, hreset⟩ := h
    cases e with
    | access k a | fetch k a => exact group0_atLevel ht _ _ _
    | reset ipl => exact absurd rfl (hreset ipl)
    | trap n => exact atLevel_refused _ _
    | stop f => exact atLevel_fault _ _
    | refuse r => exact atLevel_refused _ _

theorem group1_atLevel (hs : s.AtLevel l) (n : BitVec 8) (pc : Long) : EndsAtLevel (s.group1 n pc) l :=
  entered_atLevel (calm_enter _ (calm_pure _) _) hs _

theorem group2_atLevel (hs : s.AtLevel l) (n : BitVec 8) (ipc : Long) : EndsAtLevel (s.group2 n ipc) l :=
  entered_atLevel (calm_enter _ (calm_pure _) _) hs _

theorem calm_acknowledge (answer : IackResponse) (level : BitVec 3) : Calm (acknowledge answer level) := by
  refine calm_bind calm_startCycle fun c => ?_
  cases c.reply with
  | platform =>
    cases answer with
    | vector data => exact calm_pure _
    | device => exact calm_bind (calm_deviceWord _ _) fun _ => calm_pure _
    | autovector | busError => exact calm_pure _
    | noReply => exact calm_raise nofun
  | busError => exact calm_pure _
  | noReply => exact calm_raise nofun

theorem interrupt_atLevel (hs : s.AtLevel l) (level : BitVec 3) (answer : IackResponse) :
    EndsAtLevel (s.interrupt level answer) l :=
  entered_atLevel (calm_enter _ (calm_acknowledge _ _) _) hs _

/-! The meaning of an instruction. -/

/-- An instruction whose body is calm (rules R404, R443). -/
theorem instr_atLevel (hs : s.AtLevel l) {body : M Unit} (hbody : Calm body) : EndsAtLevel (instr s body) l := by
  have h := hbody l s.opened hs
  unfold instr
  cases he : body.run s.opened with
  | ok u t =>
    rw [he] at h
    exact atLevel_next h
  | error e t =>
    rw [he] at h
    obtain ⟨ht, hreset⟩ := h
    cases e with
    | access k a | fetch k a => exact group0_atLevel (s := s.settle t) ht _ _ _
    | reset ipl => exact absurd rfl (hreset ipl)
    | trap n => exact group2_atLevel ht _ _
    | stop f => exact atLevel_fault _ _
    | refuse r => exact atLevel_refused _ _

/-- A privileged instruction whose body is calm (rule R340). -/
theorem privileged_atLevel (hs : s.AtLevel l) {body : M Unit} (hbody : Calm body) : EndsAtLevel (privileged s body) l := by
  unfold privileged
  split
  · exact instr_atLevel hs hbody
  · exact group1_atLevel hs _ _

end

/-! Families of instructions. -/

theorem calm_arithmeticTo (sz : Size) (ea : Ea) (f : Long → Sum) : Calm (arithmeticTo sz ea f) :=
  calm_modifyEa _ _ fun _ => calm_bind (calm_updSr _) fun _ => calm_pure _

theorem calm_extendedTo (sz : Size) (mem : Bool) (rx ry : Reg) (f : Long → Long → Bool → Sum) :
    Calm (extendedTo sz mem rx ry f) :=
  calm_bind (calm_operandPair _ _ _ _) fun ⟨_, _, _⟩ => calm_bind (calm_ask _) fun _ =>
    calm_bind (calm_updSr _) fun _ => calm_writeLoc _ _ _

theorem calm_compareWith (sz : Size) (v d : Long) : Calm (compareWith sz v d) := calm_updSr _

theorem calm_logicTo (sz : Size) (ea : Ea) (f : Long → Long) : Calm (logicTo sz ea f) :=
  calm_modifyEa _ _ fun _ => calm_bind (calm_updSr _) fun _ => calm_pure _

theorem calm_divideByZero : Calm divideByZero :=
  calm_bind calm_anyBool fun _ => calm_bind calm_anyBool fun _ => calm_bind calm_anyBool fun _ =>
    calm_bind (calm_updSr _) fun _ => calm_raise nofun

theorem calm_divideOverflow : Calm divideOverflow :=
  calm_bind calm_anyBool fun _ => calm_bind calm_anyBool fun _ => calm_updSr _

theorem calm_divideResult (dn : Reg) (q r : Word) : Calm (divideResult dn q r) :=
  calm_bind (calm_updSr _) fun _ => calm_upd

theorem calm_decimalResult (t : Int) (c : Bool) : Calm (decimalResult t c) :=
  calm_bind calm_anyBool fun _ => calm_bind calm_anyBool fun _ => calm_bind (calm_updSr _) fun _ => calm_pure _

theorem calm_decimalInvalid : Calm decimalInvalid :=
  calm_bind (calm_anyBits _) fun _ => calm_bind calm_anyBool fun _ => calm_bind calm_anyBool fun _ =>
    calm_bind calm_anyBool fun _ => calm_bind calm_anyBool fun _ => calm_bind (calm_updSr _) fun _ => calm_pure _

theorem calm_decimalAdd (s d : Byte) : Calm (decimalAdd s d) :=
  calm_bind (calm_ask _) fun _ => calm_ite (calm_decimalResult _ _) calm_decimalInvalid

theorem calm_decimalSub (s d : Byte) : Calm (decimalSub s d) :=
  calm_bind (calm_ask _) fun _ => calm_ite (calm_decimalResult _ _) calm_decimalInvalid

theorem calm_bitTest (b : Nat) (ea : Ea) : Calm (bitTest b ea) :=
  calm_bind (calm_operand _ _) fun _ => calm_updSr _

theorem calm_bitModify (b : Nat) (ea : Ea) (f : Long → Long → Long) : Calm (bitModify b ea f) :=
  calm_modifyEa _ _ fun _ => calm_bind (calm_updSr _) fun _ => calm_pure _

theorem calm_shiftCount (byReg : Bool) (count : Reg) : Calm (shiftCount byReg count) :=
  calm_ite (calm_ask _) (calm_pure _)

theorem calm_shiftRegister (sz : Size) (byReg : Bool) (count dn : Reg) (f : Nat → Sr → Long → Shift) :
    Calm (shiftRegister sz byReg count dn f) :=
  calm_bind (calm_shiftCount _ _) fun _ => calm_modifyEa _ _ fun _ => calm_bind (calm_ask _) fun _ =>
    calm_bind (calm_updSr _) fun _ => calm_pure _

theorem calm_shiftMemory (ea : Ea) (f : Nat → Sr → Long → Shift) : Calm (shiftMemory ea f) :=
  calm_modifyEa _ _ fun _ => calm_bind (calm_ask _) fun _ => calm_bind (calm_updSr _) fun _ => calm_pure _

theorem calm_branchTarget (d : BrDisp) : Calm (branchTarget d) := by
  refine calm_bind (calm_ask _) fun _ => ?_
  cases d with
  | short d => exact calm_pure _
  | word d => exact calm_bind calm_skipWord fun _ => calm_pure _

theorem calm_moveData (sz : Size) (src dst : Ea) : Calm (moveData sz src dst) :=
  calm_bind (calm_operand _ _) fun _ => calm_bind (calm_ask _) fun _ => calm_bind (calm_replaceWords _ _) fun _ =>
    calm_bind (calm_locate _ _) fun _ => calm_bind (calm_updSr _) fun _ => calm_writeLoc _ _ _

theorem calm_moveAddress (sz : Size) (src : Ea) (an : Reg) : Calm (moveAddress sz src an) :=
  calm_bind (calm_operand _ _) fun _ => calm_upd

@[simp] theorem State.putR_prevIpl (s : State) (k : Fin 16) (v : Long) : (s.putR k v).prevIpl = s.prevIpl := by
  unfold State.putR
  split <;> simp

@[simp] theorem State.putR_cycles (s : State) (k : Fin 16) (v : Long) : (s.putR k v).cycles = s.cycles := by
  unfold State.putR
  split <;> simp

theorem calm_storeUp (sz : Size) (sp : Space) (ks : List (Fin 16)) (addr : Long) : Calm (storeUp sz sp ks addr) := by
  induction ks generalizing addr with
  | nil => exact calm_pure _
  | cons k ks ih => exact calm_bind (calm_ask _) fun _ => calm_bind (calm_writeMem _ _ _ _ _) fun _ => ih _

theorem calm_storeDown (sz : Size) (sp : Space) (ks : List (Fin 16)) (addr : Long) :
    Calm (storeDown sz sp ks addr) := by
  induction ks generalizing addr with
  | nil => exact calm_pure _
  | cons k ks ih => exact calm_bind (calm_ask _) fun _ => calm_bind (calm_writeMem _ _ _ _ _) fun _ => ih _

theorem calm_loadUp (sz : Size) (sp : Space) (ks : List (Fin 16)) (addr : Long) : Calm (loadUp sz sp ks addr) := by
  induction ks generalizing addr with
  | nil => exact calm_pure _
  | cons k ks ih => exact calm_bind (calm_readMem _ _ _) fun _ => calm_bind calm_upd fun _ => ih _

theorem calm_returnFromException : Calm returnFromException :=
  calm_bind (calm_ask _) fun _ => calm_bind (calm_readWord _ _) fun _ => calm_bind (calm_readLong _ _) fun _ =>
    calm_bind calm_upd fun _ => calm_bind calm_upd fun _ => calm_jump _

/-! Meanings of several forms. -/

section
variable {s : State} {l : BitVec 3}

theorem execAddq_atLevel (hs : s.AtLevel l) (data : Reg) (sz : Size) (ea : Ea) : EndsAtLevel (execAddq data sz ea s) l := by
  refine instr_atLevel hs ?_
  cases ea with
  | an r => exact calm_upd
  | _ => exact calm_arithmeticTo _ _ _

theorem execSubq_atLevel (hs : s.AtLevel l) (data : Reg) (sz : Size) (ea : Ea) : EndsAtLevel (execSubq data sz ea s) l := by
  refine instr_atLevel hs ?_
  cases ea with
  | an r => exact calm_upd
  | _ => exact calm_arithmeticTo _ _ _

theorem execMovemToMem_atLevel (hs : s.AtLevel l) (long : Bool) (mask : Word) (ea : Ea) :
    EndsAtLevel (execMovemToMem long mask ea s) l := by
  refine instr_atLevel hs (calm_bind calm_skipWord fun _ => ?_)
  cases ea with
  | preDec r =>
    exact calm_bind (calm_ask _) fun _ => calm_bind (calm_ask _) fun _ => calm_bind (calm_storeDown _ _ _ _) fun _ =>
      calm_upd
  | _ =>
    exact calm_bind (calm_effectiveAddress _) fun _ => calm_bind (calm_ask _) fun _ => calm_storeUp _ _ _ _

theorem execMovemToRegs_atLevel (hs : s.AtLevel l) (long : Bool) (mask : Word) (ea : Ea) :
    EndsAtLevel (execMovemToRegs long mask ea s) l := by
  refine instr_atLevel hs (calm_bind calm_skipWord fun _ => calm_bind (calm_ask _) fun _ => ?_)
  cases ea with
  | postInc r =>
    exact calm_bind (calm_ask _) fun _ => calm_bind (calm_loadUp _ _ _ _) fun _ => calm_bind (calm_readWord _ _) fun _ =>
      calm_upd
  | _ =>
    exact calm_bind (calm_effectiveAddress _) fun _ => calm_bind (calm_loadUp _ _ _ _) fun _ =>
      calm_bind (calm_readWord _ _) fun _ => calm_pure _

theorem execMovep_atLevel (hs : s.AtLevel l) (toMem long : Bool) (dn an : Reg) (d : Word) :
    EndsAtLevel (execMovep toMem long dn an d s) l := by
  refine instr_atLevel hs (calm_bind calm_skipWord fun _ => calm_bind (calm_ask _) fun _ => calm_bind (calm_ask _) fun _ =>
    calm_bind (calm_ask _) fun _ => ?_)
  cases toMem with
  | true =>
    cases long with
    | true =>
      exact calm_bind (calm_busWrite8 _ _ _) fun _ => calm_bind (calm_busWrite8 _ _ _) fun _ =>
        calm_bind (calm_busWrite8 _ _ _) fun _ => calm_busWrite8 _ _ _
    | false => exact calm_bind (calm_busWrite8 _ _ _) fun _ => calm_busWrite8 _ _ _
  | false =>
    cases long with
    | true =>
      exact calm_bind (calm_busRead8 _ _) fun _ => calm_bind (calm_busRead8 _ _) fun _ =>
        calm_bind (calm_busRead8 _ _) fun _ => calm_bind (calm_busRead8 _ _) fun _ => calm_upd
    | false =>
      exact calm_bind (calm_busRead8 _ _) fun _ => calm_bind (calm_busRead8 _ _) fun _ => calm_setDataReg _ _ _

theorem execChk_atLevel (hs : s.AtLevel l) (dn : Reg) (ea : Ea) : EndsAtLevel (execChk dn ea s) l :=
  instr_atLevel hs <| calm_bind (calm_operand _ _) fun _ => calm_bind (calm_dataReg _ _) fun _ =>
    calm_bind calm_anyBool fun _ => calm_bind calm_anyBool fun _ => calm_bind calm_anyBool fun _ =>
    calm_bind (calm_updSr _) fun _ => calm_ite (calm_bind (calm_updSr _) fun _ => calm_raise nofun) <|
      calm_ite (calm_bind (calm_updSr _) fun _ => calm_raise nofun) <| calm_bind calm_anyBool fun _ => calm_updSr _

theorem execLink_atLevel (hs : s.AtLevel l) (an : Reg) (d : Word) : EndsAtLevel (execLink an d s) l :=
  instr_atLevel hs <| calm_bind calm_skipWord fun _ => calm_bind calm_upd fun _ => calm_bind (calm_ask _) fun _ =>
    calm_bind (calm_ask _) fun _ => calm_bind (calm_ask _) fun _ => calm_bind (calm_writeMem _ _ _ _ _) fun _ =>
    calm_bind calm_upd fun _ => calm_upd

theorem execDbcc_atLevel (hs : s.AtLevel l) (cond : Cond) (dn : Reg) (d : Word) : EndsAtLevel (execDbcc cond dn d s) l :=
  instr_atLevel hs <| calm_bind (calm_branchTarget _) fun _ => calm_bind (calm_ask _) fun _ =>
    calm_ite (calm_pure _) <| calm_bind (calm_dataReg _ _) fun _ => calm_bind (calm_setDataReg _ _ _) fun _ =>
      calm_ite (calm_pure _) (calm_jump _)

/-- The meaning of every instruction leaves the level sampled last alone (rule R423). -/
theorem exec_atLevel (hs : s.AtLevel l) (i : Instr) : EndsAtLevel (exec i s) l := by
  unfold exec
  cases i with
  | ori | andi | eori => exact instr_atLevel hs <| calm_bind (calm_skipImmediate _) fun _ => calm_logicTo _ _ _
  | subi | addi => exact instr_atLevel hs <| calm_bind (calm_skipImmediate _) fun _ => calm_arithmeticTo _ _ _
  | cmpi =>
    exact instr_atLevel hs <| calm_bind (calm_skipImmediate _) fun _ => calm_bind (calm_operand _ _) fun _ =>
      calm_compareWith _ _ _
  | oriToCcr | andiToCcr | eoriToCcr =>
    exact instr_atLevel hs <| calm_bind calm_skipWord fun _ => calm_updSr _
  | oriToSr | andiToSr | eoriToSr => exact privileged_atLevel hs <| calm_bind calm_skipWord fun _ => calm_updSr _
  | btstStatic => exact instr_atLevel hs <| calm_bind calm_skipWord fun _ => calm_bitTest _ _
  | btstDynamic => exact instr_atLevel hs <| calm_bind (calm_ask _) fun _ => calm_bitTest _ _
  | bchgStatic | bclrStatic | bsetStatic =>
    exact instr_atLevel hs <| calm_bind calm_skipWord fun _ => calm_bitModify _ _ _
  | bchgDynamic | bclrDynamic | bsetDynamic =>
    exact instr_atLevel hs <| calm_bind (calm_ask _) fun _ => calm_bitModify _ _ _
  | movep => exact execMovep_atLevel hs _ _ _ _ _
  | moveB | moveW | moveL => exact instr_atLevel hs (calm_moveData _ _ _)
  | moveaW | moveaL => exact instr_atLevel hs (calm_moveAddress _ _ _)
  | negx =>
    exact instr_atLevel hs <| calm_modifyEa _ _ fun _ => calm_bind (calm_ask _) fun _ => calm_bind (calm_updSr _) fun _ =>
      calm_pure _
  | clr => exact instr_atLevel hs <| calm_overwriteEa _ _ <| calm_bind (calm_updSr _) fun _ => calm_pure _
  | neg => exact instr_atLevel hs (calm_arithmeticTo _ _ _)
  | not => exact instr_atLevel hs (calm_logicTo _ _ _)
  | tst | moveToCcr => exact instr_atLevel hs <| calm_bind (calm_operand _ _) fun _ => calm_updSr _
  | moveFromSr | scc => exact instr_atLevel hs <| calm_overwriteEa _ _ <| calm_bind (calm_ask _) fun _ => calm_pure _
  | moveToSr => exact privileged_atLevel hs <| calm_bind (calm_operand _ _) fun _ => calm_updSr _
  | chk => exact execChk_atLevel hs _ _
  | lea => exact instr_atLevel hs <| calm_bind (calm_effectiveAddress _) fun _ => calm_upd
  | nbcd =>
    exact instr_atLevel hs <| calm_modifyEa _ _ fun _ => calm_bind (calm_decimalSub _ _) fun _ => calm_pure _
  | swap =>
    exact instr_atLevel hs <| calm_bind (calm_ask _) fun _ => calm_bind (calm_updSr _) fun _ => calm_upd
  | pea => exact instr_atLevel hs <| calm_bind (calm_effectiveAddress _) fun _ => calm_pushLong _
  | extW | extL =>
    exact instr_atLevel hs <| calm_bind (calm_dataReg _ _) fun _ => calm_bind (calm_updSr _) fun _ =>
      calm_setDataReg _ _ _
  | movemToMem => exact execMovemToMem_atLevel hs _ _ _
  | movemToRegs => exact execMovemToRegs_atLevel hs _ _ _
  | tas => exact instr_atLevel hs <| calm_modifyIndivisible _ fun _ => calm_bind (calm_updSr _) fun _ => calm_pure _
  | trap => exact instr_atLevel hs (calm_raise nofun)
  | link => exact execLink_atLevel hs _ _
  | unlk => exact instr_atLevel hs <| calm_bind calm_upd fun _ => calm_bind calm_popLong fun _ => calm_upd
  | moveToUsp | moveFromUsp | reset => exact privileged_atLevel hs calm_upd
  | nop => exact instr_atLevel hs (calm_pure _)
  | stop =>
    exact privileged_atLevel hs <| calm_bind calm_skipWord fun _ => calm_bind (calm_updSr _) fun _ => calm_upd
  | rte => exact privileged_atLevel hs calm_returnFromException
  | rts => exact instr_atLevel hs <| calm_bind calm_popLong fun _ => calm_jump _
  | trapv => exact instr_atLevel hs <| calm_bind (calm_ask _) fun _ => calm_ite (calm_raise nofun) (calm_pure _)
  | rtr =>
    exact instr_atLevel hs <| calm_bind calm_popWord fun _ => calm_bind (calm_updSr _) fun _ =>
      calm_bind calm_popLong fun _ => calm_jump _
  | jsr =>
    exact instr_atLevel hs <| calm_bind (calm_effectiveAddress _) fun _ => calm_bind (calm_ask _) fun _ =>
      calm_bind (calm_pushLong _) fun _ => calm_jump _
  | jmp => exact instr_atLevel hs <| calm_bind (calm_effectiveAddress _) fun _ => calm_jump _
  | addq => exact execAddq_atLevel hs _ _ _
  | subq => exact execSubq_atLevel hs _ _ _
  | dbcc => exact execDbcc_atLevel hs _ _ _
  | bra => exact instr_atLevel hs <| calm_bind (calm_branchTarget _) fun _ => calm_jump _
  | bsr =>
    exact instr_atLevel hs <| calm_bind (calm_branchTarget _) fun _ => calm_bind (calm_ask _) fun _ =>
      calm_bind (calm_pushLong _) fun _ => calm_jump _
  | bcc =>
    exact instr_atLevel hs <| calm_bind (calm_branchTarget _) fun _ => calm_bind (calm_ask _) fun _ =>
      calm_ite (calm_jump _) (calm_pure _)
  | moveq =>
    exact instr_atLevel hs <| calm_bind (calm_updSr _) fun _ => calm_upd
  | orToReg | andToReg => exact instr_atLevel hs <| calm_bind (calm_operand _ _) fun _ => calm_logicTo _ _ _
  | orToMem | andToMem | eor => exact instr_atLevel hs <| calm_bind (calm_dataReg _ _) fun _ => calm_logicTo _ _ _
  | divu | divs =>
    exact instr_atLevel hs <| calm_bind (calm_operand _ _) fun _ => calm_bind (calm_ask _) fun _ =>
      calm_ite calm_divideByZero <| calm_ite calm_divideOverflow (calm_divideResult _ _ _)
  | sbcd =>
    exact instr_atLevel hs <| calm_bind (calm_operandPair _ _ _ _) fun ⟨_, _, _⟩ =>
      calm_bind (calm_decimalSub _ _) fun _ => calm_writeLoc _ _ _
  | abcd =>
    exact instr_atLevel hs <| calm_bind (calm_operandPair _ _ _ _) fun ⟨_, _, _⟩ =>
      calm_bind (calm_decimalAdd _ _) fun _ => calm_writeLoc _ _ _
  | subToReg | addToReg => exact instr_atLevel hs <| calm_bind (calm_operand _ _) fun _ => calm_arithmeticTo _ _ _
  | subToMem | addToMem => exact instr_atLevel hs <| calm_bind (calm_dataReg _ _) fun _ => calm_arithmeticTo _ _ _
  | suba | adda => exact instr_atLevel hs <| calm_bind (calm_operand _ _) fun _ => calm_upd
  | subx | addx => exact instr_atLevel hs (calm_extendedTo _ _ _ _ _)
  | cmp =>
    exact instr_atLevel hs <| calm_bind (calm_operand _ _) fun _ => calm_bind (calm_dataReg _ _) fun _ =>
      calm_compareWith _ _ _
  | cmpa =>
    exact instr_atLevel hs <| calm_bind (calm_operand _ _) fun _ => calm_bind (calm_ask _) fun _ => calm_compareWith _ _ _
  | cmpm =>
    exact instr_atLevel hs <| calm_bind (calm_operand _ _) fun _ => calm_bind (calm_operand _ _) fun _ =>
      calm_compareWith _ _ _
  | mulu | muls =>
    exact instr_atLevel hs <| calm_bind (calm_operand _ _) fun _ => calm_bind (calm_dataReg _ _) fun _ =>
      calm_bind (calm_updSr _) fun _ => calm_upd
  | exgDD | exgAA | exgDA =>
    exact instr_atLevel hs <| calm_bind (calm_ask _) fun _ => calm_bind (calm_ask _) fun _ => calm_upd
  | asrReg | aslReg | lsrReg | lslReg | roxrReg | roxlReg | rorReg | rolReg =>
    exact instr_atLevel hs (calm_shiftRegister _ _ _ _ _)
  | asrMem | aslMem | lsrMem | lslMem | roxrMem | roxlMem | rorMem | rolMem =>
    exact instr_atLevel hs (calm_shiftMemory _ _)
  | line1010 | line1111 => exact group1_atLevel hs _ _

end

end Sys2Proof.Machine
end

section
/-! PROOF. Interrupt levels (rules R370, R421, R423): which levels a boundary accepts, that the level it samples is still the last one at the next boundary, and the stopped state. -/

namespace Sys2Proof.Machine

/-! Fetching. -/

theorem calm_needEvenPc : Calm needEvenPc := by
  intro l s hs
  cases h : s.pc.getLsbD 0 with
  | false =>
    simp only [EStateM.run, needEvenPc, h, Bool.false_eq_true, if_false]
    exact hs
  | true =>
    rw [needEvenPc_odd h]
    exact ⟨hs, nofun⟩

theorem calm_openQueue : Calm openQueue := by
  refine calm_bind calm_needEvenPc fun _ => calm_bind (calm_ask _) fun q => ?_
  cases q with
  | some q => exact calm_pure _
  | none =>
    exact calm_bind (calm_ask _) fun _ => calm_bind (calm_fetchWord _) fun _ => calm_bind (calm_fetchWord _) fun _ =>
      calm_pure _

theorem calm_eitherWord (old new : Word) : Calm (eitherWord old new) :=
  calm_ite (calm_pure _) (calm_bind calm_anyBool fun _ => calm_pure _)

theorem calm_prefetchWord (old : State) (addr : Long) : Calm (prefetchWord old addr) := by
  refine calm_bind (calm_ask _) fun sp => calm_bind (calm_fetchWord _) fun new => ?_
  cases old.platform.readReply sp addr true with
  | memory => exact calm_eitherWord _ _
  | device | busError | noReply => exact calm_pure _

theorem calm_heldWord (addr : Long) (held : Word) : Calm (heldWord addr held) := by
  refine calm_bind (calm_ask _) fun sp => calm_bind (calm_ask _) fun reply => ?_
  cases reply with
  | memory => exact calm_bind (calm_ask _) fun _ => calm_eitherWord _ _
  | device | busError | noReply => exact calm_pure _

theorem calm_prefetch (old : State) (n : Nat) (held : Word) : Calm (prefetch old n held) := by
  refine calm_bind (calm_ask _) fun pc => ?_
  have ahead : ∀ w : Word, Calm (prefetchWord old (pc + 2) >>= fun w1 => pure (w, w1)) := fun w =>
    calm_bind (calm_prefetchWord _ _) fun _ => calm_pure _
  exact calm_ite (calm_bind (calm_pure _) ahead) (calm_bind (calm_heldWord _ _) ahead)

theorem calm_wordsAhead (old : State) (n : Nat) : Calm (wordsAhead old n) := by
  refine calm_bind (calm_ask _) fun sr => calm_bind (calm_ask _) fun held => ?_
  have refetch : Calm (upd (fun s => s.dropQueue) >>= fun _ => fillQueue) := calm_bind calm_upd fun _ => calm_fillQueue
  cases held with
  | none => exact refetch
  | some q =>
    cases sr.s == old.sr.s with
    | true => exact calm_bind (calm_prefetch _ _ _) fun _ => calm_upd
    | false => exact refetch

/-! One instruction. -/

section
variable {s : State} {l : BitVec 3}

/-- A fetch that ends in no reset. -/
theorem abortFetch_atLevel (hs : s.AtLevel l) (act : Activity) {e : Abort} (he : ∀ ipl, e ≠ .reset ipl) :
    EndsAtLevel (abortFetch act e s) l := by
  cases e with
  | access k a | fetch k a => exact group0_atLevel hs _ _ _
  | reset ipl => exact absurd rfl (he ipl)
  | trap n => exact atLevel_refused _ _
  | stop f => exact atLevel_fault _ _
  | refuse r => exact atLevel_refused _ _

theorem refill_atLevel (hs : s.AtLevel l) (old : State) (n : Nat) : EndsAtLevel (refill old n s) l := by
  unfold refill
  split
  · exact atLevel_next hs
  have h := calm_wordsAhead old n l s hs
  split <;> rename_i he <;> rw [he] at h
  · exact atLevel_next h
  · exact abortFetch_atLevel (s := old.settle _) h.1 _ h.2

theorem finish_atLevel {o : Outcome} (ho : EndsAtLevel o l) (old : State) (n : Nat) : EndsAtLevel (finish old n o) l := by
  cases o with
  | next t =>
    have ht : t.AtLevel l := ho t rfl
    simp only [finish]
    split
    · exact atLevel_next ht
    split
    · exact atLevel_next ht
    · exact refill_atLevel (s := t.withTrace old.sr.t) ht _ _
  | fault f => exact atLevel_fault _ _
  | refused r => exact atLevel_refused _ _

theorem execute_atLevel (hs : s.AtLevel l) (q : Word × Word) : EndsAtLevel (execute exec q s) l := by
  unfold execute
  split
  case h_1 => exact group1_atLevel hs _ _
  case h_2 i n _ =>
    have h := calm_fetchWords (n - 1 - lateFetches i) (s.pc + 4) l s hs
    split <;> rename_i he <;> rw [he] at h
    · exact abortFetch_atLevel h.1 _ h.2
    case h_2 ws t =>
      have ht : (t.withAhead ((q.2 :: ws).getLastD 0)).AtLevel l := h
      dsimp only
      split
      · exact finish_atLevel (exec_atLevel ht _) _ _
      · exact group1_atLevel ht _ _

theorem fetchExecute_atLevel (hs : s.AtLevel l) : EndsAtLevel (fetchExecute exec s) l := by
  have h := calm_openQueue l s hs
  unfold fetchExecute
  split <;> rename_i he <;> rw [he] at h
  · exact abortFetch_atLevel h.1 _ h.2
  case h_2 q t =>
    have ht : (t.begin q).AtLevel l := h
    exact execute_atLevel ht q

/-! The boundary. -/

/-- A stopped processor that accepts no interrupt waits (rule R370). -/
theorem step_of_stopped (hreset : s.sample.reset = false) (hrun : s.run = .stopped)
    (htrace : s.tracePending = false) (hipl : s.accepts s.sample.ipl = false) :
    step s = .next (s.observe.sampled s.sample.ipl) := by
  simp [step, stepWith, boundary, hreset, hrun, htrace, hipl]

/-- A boundary that is neither reset nor halted nor traced samples a level, and nothing after it in the step changes it (rules R404, R423). -/
theorem step_atLevel (hc : s.cycles = []) (hreset : s.sample.reset = false) (hrun : s.run ≠ .halted)
    (htrace : s.tracePending = false) : EndsAtLevel (step s) s.sample.ipl := by
  have sampled : (s.observe.sampled s.sample.ipl).AtLevel s.sample.ipl := ⟨rfl, hc⟩
  cases hipl : s.accepts s.sample.ipl with
  | true =>
    rw [step_of_accepts hreset hrun htrace hipl]
    exact interrupt_atLevel sampled _ _
  | false =>
    cases hr : s.run with
    | normal =>
      rw [step_of_runsInstruction ⟨hreset, hr, htrace, hipl⟩]
      exact fetchExecute_atLevel sampled
    | stopped =>
      rw [step_of_stopped hreset hr htrace hipl]
      exact atLevel_next sampled
    | halted => exact absurd hr hrun

end

/-- A change to level seven is accepted whatever the mask (rule R423). -/
theorem State.accepts_seven_of_change {s : State} (h : s.prevIpl ≠ 7) : s.accepts 7 = true := by
  have change : (s.prevIpl != 7) = true := bne_iff_ne.mpr h
  rw [State.accepts, change]
  exact Bool.or_true _

/-- Level seven that stays asserted is accepted by comparison only (rules R421, R423). -/
theorem State.accepts_seven_of_held {s : State} (h : s.prevIpl = 7) : s.accepts 7 = decide (s.sr.i < 7) := by
  rw [State.accepts, h]
  exact Bool.or_false _

/-- A level below seven is accepted by comparison only (rule R421). -/
theorem State.accepts_of_ne_seven (s : State) {level : BitVec 3} (h : level ≠ 7) :
    s.accepts level = decide (s.sr.i < level) := by
  have below : (level == 7) = false := beq_eq_false_iff_ne.mpr h
  rw [State.accepts, below]
  exact Bool.or_false _

/-- Settles O44: what a boundary accepts is read off `accepts`; the level it samples survives the step because no computation of the step samples one, and no reset comes up in it. -/
theorem interruptLevels : Obligations.InterruptLevels := by
  refine ⟨fun s => ⟨State.accepts_seven_of_change, fun held mask => ?_, fun mask => ?_, fun level hne => ?_⟩,
    fun s t hc hreset hrun htrace hstep => ?_, fun s hreset hrun htrace hipl => ?_⟩
  · rw [State.accepts_seven_of_held held, mask]
    rfl
  · rw [State.accepts, decide_eq_true mask]
    rfl
  · rw [s.accepts_of_ne_seven hne, decide_eq_true_iff]
  · obtain ⟨level, -⟩ := step_atLevel hc hreset hrun htrace t hstep
    exact level
  · exact step_of_stopped hreset hrun htrace hipl

end Sys2Proof.Machine
end

section
/-! PROOF. Vector addresses (rule R403): an address is wide enough for four times an eight-bit vector number. -/

namespace Sys2Proof.Machine

/-- Four times a vector number lies in the first 1024 bytes, the vector table, so the address does not wrap (rule R403). -/
theorem four_mul_vector_lt (n : BitVec 8) : 4 * n.toNat < 1024 := by
  have number : n.toNat < 256 := n.isLt
  omega

/-- Settles O8: the product is below `2 ^ 32`, so the 32-bit address keeps it whole. -/
theorem vectorAddressIsFourTimes : Obligations.VectorAddressIsFourTimes := by
  intro n
  have fits : 4 * n.toNat < 2 ^ 32 := Nat.lt_trans (four_mul_vector_lt n) (by decide)
  rw [vectorAddress, BitVec.toNat_ofNat, Nat.mod_eq_of_lt fits]

end Sys2Proof.Machine
end

section
/-! PROOF. Decoding after encoding (rules R100 to R108, R121, R124, R130 to R132): the parts of an instruction word, the extension words, the routes of the opcode table, and each instruction by the format of its words. -/

namespace Sys2Proof

/-! Fields of an operation word. -/

theorem opWord_toNat {n : Nat} (h : n < 65536) : (opWord n).toNat = n := by
  rw [opWord, BitVec.toNat_ofNat, Nat.mod_eq_of_lt h]

/-- The words of an instruction, its operation word being below `2 ^ 16`. -/
theorem decode_opWord {n : Nat} (h : n < 65536) (xs : List Word) : decode (opWord n :: xs) = decodeOp n xs := by
  rw [decode, opWord_toNat h]

theorem regAt_eq {w k : Nat} {r : Reg} (h : w / 2 ^ k % 8 = r.val) : regAt w k = r := Fin.ext h

theorem Size.code_lt (sz : Size) : sz.code < 3 := by cases sz <;> decide

theorem bitCode_lt (b : Bool) : bitCode b < 2 := by cases b <;> decide

theorem decide_bitCode (b : Bool) : decide (bitCode b = 1) = b := by cases b <;> rfl

theorem Cond.code_lt (c : Cond) : c.code < 16 := by cases c <;> decide

theorem condOfCode_code (c : Cond) : condOfCode c.code = c := by cases c <;> rfl

theorem withSize_code (sz : Size) (k : Size → Decoded Instr) : withSize sz.code k = k sz := by cases sz <;> rfl

/-! Extension words. -/

/-- The index extension word (rule R124). -/
theorem decodeIndex_encodeIndex (x : Index) : decodeIndex (encodeIndex x) = x := by
  have hd : x.d8.toNat < 256 := x.d8.isLt
  have hl := bitCode_lt x.isLong
  have ha := bitCode_lt x.isAddr
  have number : (encodeIndex x).toNat =
      bitCode x.isAddr * 32768 + x.reg.val * 4096 + bitCode x.isLong * 2048 + x.d8.toNat := by
    rw [encodeIndex, BitVec.toNat_ofNat]
    exact Nat.mod_eq_of_lt (by omega)
  have bit : ∀ k b, (encodeIndex x).toNat / 2 ^ k % 2 = bitCode b → (encodeIndex x).getLsbD k = b := fun k b h => by
    rw [BitVec.getLsbD, Nat.testBit_eq_decide_div_mod_eq, h, decide_bitCode]
  have isAddr : (encodeIndex x).getLsbD 15 = x.isAddr := bit _ _ (by omega)
  have isLong : (encodeIndex x).getLsbD 11 = x.isLong := bit _ _ (by omega)
  have reg : regAt (encodeIndex x).toNat 12 = x.reg := regAt_eq (by omega)
  have d8 : (encodeIndex x).setWidth 8 = x.d8 := by
    apply BitVec.eq_of_toNat_eq
    rw [BitVec.toNat_setWidth]
    omega
  rw [decodeIndex, isAddr, isLong, reg, d8]

/-- The two words of a long word. -/
theorem append_extractLsb' (v : Long) : v.extractLsb' 16 16 ++ v.extractLsb' 0 16 = v := by
  rw [BitVec.extractLsb'_append_extractLsb'_eq_extractLsb' (by decide)]
  simp

/-- An immediate that fits its size (rule R121). -/
theorem decodeImm_encodeImm {sz : Size} {v : Long} (h : sz.fits v = true) (rest : List Word) :
    decodeImm sz (encodeImm sz v ++ rest) = .ok (v, rest) := by
  cases sz with
  | byte =>
    have hv : ((v.setWidth 8).setWidth 16 : Word).setWidth 8 = v.setWidth 8 := by simp
    have hb : (v.setWidth 8).setWidth 32 = v := by
      apply BitVec.eq_of_toNat_eq
      have : v.toNat < 2 ^ 8 := by simpa [Size.fits] using h
      simp only [BitVec.toNat_setWidth]
      omega
    simp only [encodeImm, List.cons_append, List.nil_append, decodeImm, hv, hb]
  | word =>
    have hb : (v.setWidth 16).setWidth 32 = v := by
      apply BitVec.eq_of_toNat_eq
      have : v.toNat < 2 ^ 16 := by simpa [Size.fits] using h
      simp only [BitVec.toNat_setWidth]
      omega
    simp only [encodeImm, List.cons_append, List.nil_append, decodeImm, hb]
  | long => simp only [encodeImm, wordsOfLong, List.cons_append, List.nil_append, decodeImm, append_extractLsb']

/-! Effective addresses. -/

theorem Ea.field_lt (ea : Ea) : ea.field < 64 := by
  cases ea <;> simp only [Ea.field, Ea.modeCode, Ea.regCode] <;> omega

/-- A field and the extension words name the effective address again (rule R108). -/
theorem decodeEa_ext {sz : Size} {ea : Ea} (h : ea.fits sz = true) (rest : List Word) :
    decodeEa sz ea.field (ea.ext sz ++ rest) = .ok (ea, rest) := by
  have reg : ∀ (k : Nat) (r : Reg), regAt (k * 8 + r.val) 0 = r := fun k r => regAt_eq (by omega)
  have mode : ∀ (k : Nat) (r : Reg), k < 8 → (k * 8 + r.val) / 8 % 8 = k := fun k r hk => by omega
  cases ea with
  | dn r | an r | ind r | postInc r | preDec r | disp r d =>
    simp (disch := decide) only [decodeEa, Ea.field, Ea.modeCode, Ea.regCode, mode, reg, Ea.ext, List.cons_append,
      List.nil_append]
  | index r x =>
    simp (disch := decide) only [decodeEa, Ea.field, Ea.modeCode, Ea.regCode, mode, reg, Ea.ext, List.cons_append,
      List.nil_append, decodeIndex_encodeIndex]
  | absW a | pcDisp a => simp [decodeEa, Ea.field, Ea.modeCode, Ea.regCode, Ea.ext]
  | absL a => simp [decodeEa, Ea.field, Ea.modeCode, Ea.regCode, Ea.ext, wordsOfLong, append_extractLsb']
  | pcIndex x => simp [decodeEa, Ea.field, Ea.modeCode, Ea.regCode, Ea.ext, decodeIndex_encodeIndex]
  | imm v => simp [decodeEa, Ea.field, Ea.modeCode, Ea.regCode, Ea.ext, decodeImm_encodeImm h]

theorem Ea.fits_of_isAlterable {ea : Ea} (h : ea.isAlterable = true) (sz : Size) : ea.fits sz = true := by
  cases ea <;> first | rfl | cases h

theorem Ea.fits_of_isDataAlterable {ea : Ea} (h : ea.isDataAlterable = true) (sz : Size) : ea.fits sz = true :=
  Ea.fits_of_isAlterable (Bool.and_eq_true_iff.mp h).2 sz

theorem Ea.fits_of_isMemoryAlterable {ea : Ea} (h : ea.isMemoryAlterable = true) (sz : Size) : ea.fits sz = true :=
  Ea.fits_of_isAlterable (Bool.and_eq_true_iff.mp h).2 sz

/-! What the category of an operand says of its field (rules R108, R109). -/

theorem Ea.field_of_isData {ea : Ea} (h : ea.isData = true) : ea.field < 64 ∧ ea.field / 8 ≠ 1 := by
  cases ea <;> simp only [Ea.isData, Bool.false_eq_true] at h <;> simp only [Ea.field, Ea.modeCode, Ea.regCode] <;> omega

theorem Ea.field_of_isDataAlterable {ea : Ea} (h : ea.isDataAlterable = true) : ea.field < 58 ∧ ea.field / 8 ≠ 1 := by
  cases ea <;> simp [Ea.isDataAlterable, Ea.isData, Ea.isAlterable] at h <;> simp only [Ea.field, Ea.modeCode, Ea.regCode] <;> omega

theorem Ea.field_of_isMemoryAlterable {ea : Ea} (h : ea.isMemoryAlterable = true) : 16 ≤ ea.field ∧ ea.field < 58 := by
  cases ea <;> simp [Ea.isMemoryAlterable, Ea.isMemory, Ea.isAlterable] at h <;> simp only [Ea.field, Ea.modeCode, Ea.regCode] <;> omega

theorem Ea.field_of_isControl {ea : Ea} (h : ea.isControl = true) : 16 ≤ ea.field ∧ ea.field < 64 := by
  cases ea <;> simp [Ea.isControl] at h <;> simp only [Ea.field, Ea.modeCode, Ea.regCode] <;> omega

theorem Ea.fits_of_isControl {ea : Ea} (h : ea.isControl = true) (sz : Size) : ea.fits sz = true := by
  cases ea <;> first | rfl | cases h

theorem Ea.field_of_isMovemDst {ea : Ea} (h : ea.isMovemDst = true) : 16 ≤ ea.field ∧ ea.field < 64 := by
  cases ea <;> simp [Ea.isMovemDst, Ea.isControlAlterable, Ea.isControl, Ea.isAlterable] at h <;> simp only [Ea.field, Ea.modeCode, Ea.regCode] <;> omega

/-! The formats (rule R131): where the decoder takes the route of an instruction, its words give it back. -/

section
variable {base sub : Nat} {sz : Size} {ea : Ea} {allowed : Ea → Bool} {rest : List Word}

/-- An effective address that fits its size and that the instruction allows. -/
theorem withEa_ext {w : Nat} {mk : Ea → Instr} (hw : w % 64 = ea.field) (fits : ea.fits sz = true)
    (ok : allowed ea = true) (rest : List Word) : withEa w sz allowed mk (ea.ext sz ++ rest) = .ok (mk ea, rest) := by
  simp only [withEa, hw, decodeEa_ext fits, ok, if_true]

theorem decode_encodeEa {mk : Ea → Instr} (hb : base % 64 = 0 ∧ base < 65536)
    (route : ∀ xs, decodeOp (base + ea.field) xs = withEa (base + ea.field) sz allowed mk xs)
    (fits : ea.fits sz = true) (ok : allowed ea = true) :
    decode (encodeEa base sz ea ++ rest) = .ok (mk ea, rest) := by
  have he := ea.field_lt
  rw [encodeEa, List.cons_append, decode_opWord (by omega), route]
  exact withEa_ext (by omega) fits ok rest

theorem decode_encodeWordEa {mk : Word → Ea → Instr} {x : Word} (hb : base % 64 = 0 ∧ base < 65536)
    (route : ∀ xs, decodeOp (base + ea.field) xs = withWordEa (base + ea.field) sz allowed mk xs)
    (fits : ea.fits sz = true) (ok : allowed ea = true) :
    decode (encodeWordEa base x sz ea ++ rest) = .ok (mk x ea, rest) := by
  have he := ea.field_lt
  rw [encodeWordEa, List.cons_append, decode_opWord (by omega), route]
  exact withEa_ext (by omega) fits ok rest

theorem decode_encodeImmEa {mk : Long → Ea → Instr} {v : Long} (hb : base % 256 = 0 ∧ base < 65536)
    (route : ∀ xs, decodeOp (base + sz.code * 64 + ea.field) xs = withImmEa (base + sz.code * 64 + ea.field) sz mk xs)
    (fits : sz.fits v = true) (ok : ea.isDataAlterable = true) :
    decode (encodeImmEa base sz v ea ++ rest) = .ok (mk v ea, rest) := by
  have he := ea.field_lt
  have hs := sz.code_lt
  rw [encodeImmEa, List.cons_append, decode_opWord (by omega), route, withImmEa, List.append_assoc,
    decodeImm_encodeImm fits]
  exact withEa_ext (by omega) (Ea.fits_of_isDataAlterable ok sz) ok rest

end

/-! Rows of the opcode table that differ in one number of their operation words only. -/

/-- The immediate instructions by bits 11:9. -/
def immediateRow (sz : Size) : Nat → Long → Ea → Instr
  | 0 => .ori sz
  | 1 => .andi sz
  | 2 => .subi sz
  | 3 => .addi sz
  | 5 => .eori sz
  | _ => .cmpi sz

/-- The bit instructions that change their operand by bits 7:6, dynamic form. -/
def bitDynamicRow (dn : Reg) : Nat → Ea → Instr
  | 1 => .bchgDynamic dn
  | 2 => .bclrDynamic dn
  | _ => .bsetDynamic dn

/-- The same, static form. -/
def bitStaticRow (b : Byte) : Nat → Ea → Instr
  | 1 => .bchgStatic b
  | 2 => .bclrStatic b
  | _ => .bsetStatic b

/-- The instructions of line 0100 with a standard size and a data alterable operand by bits 11:9. -/
def singleRow (sz : Size) : Nat → Ea → Instr
  | 0 => .negx sz
  | 1 => .clr sz
  | 2 => .neg sz
  | 3 => .not sz
  | _ => .tst sz

/-- EXG by bits 8:3. -/
def exgRow (rx ry : Reg) : Nat → Instr
  | 40 => .exgDD rx ry
  | 41 => .exgAA rx ry
  | _ => .exgDA rx ry

/-- Shifts and rotates of a word in memory by bits 10:8. -/
def shiftMemoryRow : Nat → Ea → Instr
  | 0 => .asrMem
  | 1 => .aslMem
  | 2 => .lsrMem
  | 3 => .lslMem
  | 4 => .roxrMem
  | 5 => .roxlMem
  | 6 => .rorMem
  | _ => .rolMem

/-- Shifts and rotates of a data register by bits 4:3 and bit 8. -/
def shiftRegisterRow : Nat → Bool → Size → Bool → Reg → Reg → Instr
  | 0, false => .asrReg
  | 0, true => .aslReg
  | 1, false => .lsrReg
  | 1, true => .lslReg
  | 2, false => .roxrReg
  | 2, true => .roxlReg
  | _, false => .rorReg
  | _, true => .rolReg

/-! Line 0000. -/

section
variable {w : Nat} {sz : Size} {dn : Reg}

/-- An immediate instruction: its number in bits 11:9, a size, and a field that is none of the status register's. -/
theorem decodeOp_immediate {k : Nat} (hw : w / 64 = k * 8 + sz.code) (hk : k < 7) (h4 : k ≠ 4) (he : w % 64 < 58)
    (xs : List Word) : decodeOp w xs = withImmEa w sz (immediateRow sz k) xs := by
  have hs := sz.code_lt
  have line : w / 4096 % 16 = 0 := by omega
  have plain : w ≠ 0x003C ∧ w ≠ 0x007C ∧ w ≠ 0x023C ∧ w ≠ 0x027C ∧ w ≠ 0x0A3C ∧ w ≠ 0x0A7C := by omega
  have fields : w / 256 % 2 = 0 ∧ w / 512 % 8 = k ∧ w / 64 % 4 = sz.code := by omega
  simp only [decodeOp, line, decodeLine0, plain, fields, if_false, Nat.zero_ne_one, withSize_code]
  obtain rfl | rfl | rfl | rfl | rfl | rfl : k = 0 ∨ k = 1 ∨ k = 2 ∨ k = 3 ∨ k = 5 ∨ k = 6 := by omega
  all_goals rfl

theorem decodeOp_btstDynamic (hw : w / 64 = dn.val * 8 + 4) (he : w % 64 / 8 ≠ 1) (xs : List Word) :
    decodeOp w xs = withEa w .byte Ea.isData (.btstDynamic dn) xs := by
  have hd := dn.isLt
  have line : w / 4096 % 16 = 0 := by omega
  have plain : w ≠ 0x003C ∧ w ≠ 0x007C ∧ w ≠ 0x023C ∧ w ≠ 0x027C ∧ w ≠ 0x0A3C ∧ w ≠ 0x0A7C := by omega
  have fields : w / 256 % 2 = 1 ∧ w / 8 % 8 ≠ 1 ∧ w / 64 % 4 = 0 := by omega
  have reg : regAt w 9 = dn := regAt_eq (by omega)
  simp only [decodeOp, line, decodeLine0, plain, fields, if_false, if_true, reg]

theorem decodeOp_bitDynamic {k : Nat} (hw : w / 64 = dn.val * 8 + 4 + k) (hk : k = 1 ∨ k = 2 ∨ k = 3)
    (he : w % 64 / 8 ≠ 1) (xs : List Word) :
    decodeOp w xs = withEa w .byte Ea.isDataAlterable (bitDynamicRow dn k) xs := by
  have hd := dn.isLt
  have line : w / 4096 % 16 = 0 := by omega
  have plain : w ≠ 0x003C ∧ w ≠ 0x007C ∧ w ≠ 0x023C ∧ w ≠ 0x027C ∧ w ≠ 0x0A3C ∧ w ≠ 0x0A7C := by omega
  have fields : w / 256 % 2 = 1 ∧ w / 8 % 8 ≠ 1 ∧ w / 64 % 4 = k := by omega
  have reg : regAt w 9 = dn := regAt_eq (by omega)
  simp only [decodeOp, line, decodeLine0, plain, fields, if_false, if_true, reg]
  obtain rfl | rfl | rfl := hk
  all_goals rfl

theorem decodeOp_btstStatic (hw : w / 64 = 32) (xs : List Word) :
    decodeOp w xs = withWordEa w .byte Ea.isDataNoImm (fun x => .btstStatic (x.setWidth 8)) xs := by
  have line : w / 4096 % 16 = 0 := by omega
  have plain : w ≠ 0x003C ∧ w ≠ 0x007C ∧ w ≠ 0x023C ∧ w ≠ 0x027C ∧ w ≠ 0x0A3C ∧ w ≠ 0x0A7C := by omega
  have fields : w / 256 % 2 = 0 ∧ w / 512 % 8 = 4 ∧ w / 64 % 4 = 0 := by omega
  simp only [decodeOp, line, decodeLine0, plain, fields, if_false, Nat.zero_ne_one]

theorem decodeOp_bitStatic {k : Nat} (hw : w / 64 = 32 + k) (hk : k = 1 ∨ k = 2 ∨ k = 3) (xs : List Word) :
    decodeOp w xs = withWordEa w .byte Ea.isDataAlterable (fun x => bitStaticRow (x.setWidth 8) k) xs := by
  have line : w / 4096 % 16 = 0 := by omega
  have plain : w ≠ 0x003C ∧ w ≠ 0x007C ∧ w ≠ 0x023C ∧ w ≠ 0x027C ∧ w ≠ 0x0A3C ∧ w ≠ 0x0A7C := by omega
  have fields : w / 256 % 2 = 0 ∧ w / 512 % 8 = 4 ∧ w / 64 % 4 = k := by omega
  simp only [decodeOp, line, decodeLine0, plain, fields, if_false, Nat.zero_ne_one]
  obtain rfl | rfl | rfl := hk
  all_goals rfl

theorem decodeOp_movep {toMem long : Bool} {an : Reg}
    (hw : w = 0x0108 + dn.val * 512 + bitCode toMem * 128 + bitCode long * 64 + an.val) (xs : List Word) :
    decodeOp w xs = withWord (.movep toMem long dn an) xs := by
  have hd := dn.isLt
  have ha := an.isLt
  have hm := bitCode_lt toMem
  have hl := bitCode_lt long
  have line : w / 4096 % 16 = 0 := by omega
  have plain : w ≠ 0x003C ∧ w ≠ 0x007C ∧ w ≠ 0x023C ∧ w ≠ 0x027C ∧ w ≠ 0x0A3C ∧ w ≠ 0x0A7C := by omega
  have fields : w / 256 % 2 = 1 ∧ w / 8 % 8 = 1 ∧ w / 128 % 2 = bitCode toMem ∧ w / 64 % 2 = bitCode long := by omega
  have reg : regAt w 9 = dn ∧ regAt w 0 = an := ⟨regAt_eq (by omega), regAt_eq (by omega)⟩
  simp only [decodeOp, line, decodeLine0, plain, fields, if_false, if_true, reg, decide_bitCode]

end

/-! Lines 0001 to 0011: MOVE and MOVEA. -/

theorem Ea.modeCode_lt (ea : Ea) : ea.modeCode < 8 := by
  cases ea <;> simp only [Ea.modeCode] <;> omega

theorem Ea.regCode_lt (ea : Ea) : ea.regCode < 8 := by
  cases ea <;> simp only [Ea.regCode] <;> omega

/-- MOVE: the source in bits 5:0, the register of the destination above its mode (rule R160). -/
theorem decode_encodeMove {base : Nat} {sz : Size} {src dst : Ea} {mk : Ea → Ea → Instr} {rest : List Word}
    (hb : base % 4096 = 0 ∧ base < 65536)
    (route : ∀ w xs, w / 4096 = base / 4096 → w / 64 % 8 ≠ 1 → decodeOp w xs = decodeMove w sz mk xs)
    (srcFits : src.fits sz = true) (srcOk : src.sizeOk sz = true) (dstOk : dst.isDataAlterable = true) :
    decode (encodeMove base sz src dst ++ rest) = .ok (mk src dst, rest) := by
  have hs := src.field_lt
  have hm := dst.modeCode_lt
  have hr := dst.regCode_lt
  have mode : dst.modeCode ≠ 1 := fun h => (Ea.field_of_isDataAlterable dstOk).2 (by rw [Ea.field, h]; omega)
  have source : (base + dst.regCode * 512 + dst.modeCode * 64 + src.field) % 64 = src.field := by omega
  have dest : (base + dst.regCode * 512 + dst.modeCode * 64 + src.field) / 64 % 8 * 8 +
      (base + dst.regCode * 512 + dst.modeCode * 64 + src.field) / 512 % 8 = dst.field := by
    have field : dst.field = dst.modeCode * 8 + dst.regCode := rfl
    omega
  rw [encodeMove, List.cons_append, decode_opWord (by omega), route _ _ (by omega) (by omega), List.append_assoc,
    decodeMove, source, decodeEa_ext srcFits]
  simp only [srcOk, if_true, dest, decodeEa_ext (Ea.fits_of_isDataAlterable dstOk sz), dstOk]

theorem decodeOp_moveB {w : Nat} (hw : w / 4096 = 1) (xs : List Word) :
    decodeOp w xs = decodeMove w .byte .moveB xs := by
  have line : w / 4096 % 16 = 1 := by omega
  simp only [decodeOp, line]

theorem decodeOp_moveL {w : Nat} (hw : w / 4096 = 2) (h : w / 64 % 8 ≠ 1) (xs : List Word) :
    decodeOp w xs = decodeMove w .long .moveL xs := by
  have line : w / 4096 % 16 = 2 := by omega
  simp only [decodeOp, line, decodeMoveOrMovea, h, if_false]

theorem decodeOp_moveW {w : Nat} (hw : w / 4096 = 3) (h : w / 64 % 8 ≠ 1) (xs : List Word) :
    decodeOp w xs = decodeMove w .word .moveW xs := by
  have line : w / 4096 % 16 = 3 := by omega
  simp only [decodeOp, line, decodeMoveOrMovea, h, if_false]

section
variable {w : Nat} {sz : Size} {dn an : Reg}

theorem decodeOp_moveaL (hw : w / 64 = 129 + an.val * 8) (xs : List Word) :
    decodeOp w xs = withEa w .long (fun _ => true) (fun ea => .moveaL ea an) xs := by
  have line : w / 4096 % 16 = 2 ∧ w / 64 % 8 = 1 := by omega
  have reg : regAt w 9 = an := regAt_eq (by omega)
  simp only [decodeOp, line, decodeMoveOrMovea, reg, if_true]

theorem decodeOp_moveaW (hw : w / 64 = 193 + an.val * 8) (xs : List Word) :
    decodeOp w xs = withEa w .word (fun _ => true) (fun ea => .moveaW ea an) xs := by
  have line : w / 4096 % 16 = 3 ∧ w / 64 % 8 = 1 := by omega
  have reg : regAt w 9 = an := regAt_eq (by omega)
  simp only [decodeOp, line, decodeMoveOrMovea, reg, if_true]

/-! Line 0100. -/

theorem decodeOp_single {k : Nat} (hw : w / 64 = 256 + k * 8 + sz.code) (hk : k = 0 ∨ k = 1 ∨ k = 2 ∨ k = 3 ∨ k = 5)
    (xs : List Word) : decodeOp w xs = withEa w sz Ea.isDataAlterable (singleRow sz k) xs := by
  have hs := sz.code_lt
  have line : w / 4096 % 16 = 4 := by omega
  have fields : w / 256 % 2 = 0 ∧ w / 512 % 8 = k ∧ w / 64 % 4 = sz.code := by omega
  have ne3 : sz.code ≠ 3 := by omega
  simp only [decodeOp, line, decodeLine4, fields, if_false, Nat.zero_ne_one, withSize_code, ne3]
  obtain rfl | rfl | rfl | rfl | rfl := hk
  all_goals rfl

/-- Line 0100 with bit 8 clear, by bits 11:9 and 7:6. -/
theorem decodeOp_line4 {k j : Nat} (hw : w / 64 = 256 + k * 8 + j) (hk : k < 8) (hj : j < 4) (xs : List Word) :
    decodeOp w xs = decodeLine4 w xs ∧ w / 256 % 2 = 0 ∧ w / 512 % 8 = k ∧ w / 64 % 4 = j := by
  have line : w / 4096 % 16 = 4 := by omega
  refine ⟨by simp only [decodeOp, line], ?_⟩
  omega

theorem decodeOp_moveFromSr (hw : w / 64 = 259) (xs : List Word) :
    decodeOp w xs = withEa w .word Ea.isDataAlterable .moveFromSr xs := by
  obtain ⟨op, fields⟩ := decodeOp_line4 (k := 0) (j := 3) hw (by decide) (by decide) xs
  simp only [op, decodeLine4, fields, if_true, if_false, Nat.zero_ne_one]

theorem decodeOp_moveToCcr (hw : w / 64 = 275) (xs : List Word) :
    decodeOp w xs = withEa w .word Ea.isData .moveToCcr xs := by
  obtain ⟨op, fields⟩ := decodeOp_line4 (k := 2) (j := 3) hw (by decide) (by decide) xs
  simp only [op, decodeLine4, fields, if_true, if_false, Nat.zero_ne_one]

theorem decodeOp_moveToSr (hw : w / 64 = 283) (xs : List Word) :
    decodeOp w xs = withEa w .word Ea.isData .moveToSr xs := by
  obtain ⟨op, fields⟩ := decodeOp_line4 (k := 3) (j := 3) hw (by decide) (by decide) xs
  simp only [op, decodeLine4, fields, if_true, if_false, Nat.zero_ne_one]

theorem decodeOp_nbcd (hw : w / 64 = 288) (xs : List Word) :
    decodeOp w xs = withEa w .byte Ea.isDataAlterable .nbcd xs := by
  obtain ⟨op, fields⟩ := decodeOp_line4 (k := 4) (j := 0) hw (by decide) (by decide) xs
  simp only [op, decodeLine4, fields, if_false, Nat.zero_ne_one]

theorem decodeOp_pea (hw : w / 64 = 289) (he : w / 8 % 8 ≠ 0) (xs : List Word) :
    decodeOp w xs = withEa w .long Ea.isControl .pea xs := by
  obtain ⟨op, fields⟩ := decodeOp_line4 (k := 4) (j := 1) hw (by decide) (by decide) xs
  simp only [op, decodeLine4, fields, he, if_false, Nat.zero_ne_one]

theorem decodeOp_swap (hw : w = 0x4840 + dn.val) (xs : List Word) : decodeOp w xs = .ok (.swap dn, xs) := by
  obtain ⟨op, fields⟩ := decodeOp_line4 (w := w) (k := 4) (j := 1) (by omega) (by decide) (by decide) xs
  have reg : w / 8 % 8 = 0 ∧ regAt w 0 = dn := ⟨by omega, regAt_eq (by omega)⟩
  simp only [op, decodeLine4, fields, reg, if_true, if_false, Nat.zero_ne_one]

theorem decodeOp_extW (hw : w = 0x4880 + dn.val) (xs : List Word) : decodeOp w xs = .ok (.extW dn, xs) := by
  obtain ⟨op, fields⟩ := decodeOp_line4 (w := w) (k := 4) (j := 2) (by omega) (by decide) (by decide) xs
  have reg : w / 8 % 8 = 0 ∧ regAt w 0 = dn := ⟨by omega, regAt_eq (by omega)⟩
  simp only [op, decodeLine4, fields, reg, if_true, if_false, Nat.zero_ne_one]

theorem decodeOp_extL (hw : w = 0x48C0 + dn.val) (xs : List Word) : decodeOp w xs = .ok (.extL dn, xs) := by
  obtain ⟨op, fields⟩ := decodeOp_line4 (w := w) (k := 4) (j := 3) (by omega) (by decide) (by decide) xs
  have reg : w / 8 % 8 = 0 ∧ regAt w 0 = dn := ⟨by omega, regAt_eq (by omega)⟩
  simp only [op, decodeLine4, fields, reg, if_true, if_false, Nat.zero_ne_one]

theorem decodeOp_movemToMem {long : Bool} (hw : w / 64 = 290 + bitCode long) (he : w / 8 % 8 ≠ 0) (xs : List Word) :
    decodeOp w xs = withWordEa w (sizeOfBit long) Ea.isMovemDst (.movemToMem long) xs := by
  cases long with
  | false =>
    obtain ⟨op, fields⟩ := decodeOp_line4 (k := 4) (j := 2) hw (by decide) (by decide) xs
    simp only [op, decodeLine4, fields, he, if_false, Nat.zero_ne_one]
    rfl
  | true =>
    obtain ⟨op, fields⟩ := decodeOp_line4 (k := 4) (j := 3) hw (by decide) (by decide) xs
    simp only [op, decodeLine4, fields, he, if_false, Nat.zero_ne_one]
    rfl

theorem decodeOp_movemToRegs {long : Bool} (hw : w / 64 = 306 + bitCode long) (xs : List Word) :
    decodeOp w xs = withWordEa w (sizeOfBit long) Ea.isMovemSrc (.movemToRegs long) xs := by
  cases long with
  | false =>
    obtain ⟨op, fields⟩ := decodeOp_line4 (k := 6) (j := 2) hw (by decide) (by decide) xs
    simp only [op, decodeLine4, fields, if_false, Nat.zero_ne_one]
    rfl
  | true =>
    obtain ⟨op, fields⟩ := decodeOp_line4 (k := 6) (j := 3) hw (by decide) (by decide) xs
    simp only [op, decodeLine4, fields, if_false, Nat.zero_ne_one]
    rfl

theorem decodeOp_tas (hw : w / 64 = 299) (xs : List Word) :
    decodeOp w xs = withEa w .byte Ea.isDataAlterable .tas xs := by
  obtain ⟨op, fields⟩ := decodeOp_line4 (k := 5) (j := 3) hw (by decide) (by decide) xs
  simp only [op, decodeLine4, fields, if_true, if_false, Nat.zero_ne_one]

theorem decodeOp_jsr (hw : w / 64 = 314) (xs : List Word) : decodeOp w xs = withEa w .long Ea.isControl .jsr xs := by
  obtain ⟨op, fields⟩ := decodeOp_line4 (k := 7) (j := 2) hw (by decide) (by decide) xs
  simp only [op, decodeLine4, fields, if_false, Nat.zero_ne_one]

theorem decodeOp_jmp (hw : w / 64 = 315) (xs : List Word) : decodeOp w xs = withEa w .long Ea.isControl .jmp xs := by
  obtain ⟨op, fields⟩ := decodeOp_line4 (k := 7) (j := 3) hw (by decide) (by decide) xs
  simp only [op, decodeLine4, fields, if_false, Nat.zero_ne_one]

theorem decodeOp_chk (hw : w / 64 = 262 + dn.val * 8) (xs : List Word) :
    decodeOp w xs = withEa w .word Ea.isData (.chk dn) xs := by
  have fields : w / 4096 % 16 = 4 ∧ w / 256 % 2 = 1 ∧ w / 64 % 4 = 2 := by omega
  have reg : regAt w 9 = dn := regAt_eq (by omega)
  simp only [decodeOp, decodeLine4, fields, reg, if_true]

theorem decodeOp_lea (hw : w / 64 = 263 + an.val * 8) (xs : List Word) :
    decodeOp w xs = withEa w .long Ea.isControl (.lea an) xs := by
  have fields : w / 4096 % 16 = 4 ∧ w / 256 % 2 = 1 ∧ w / 64 % 4 = 3 := by omega
  have reg : regAt w 9 = an := regAt_eq (by omega)
  simp only [decodeOp, decodeLine4, fields, reg, if_true]

/-- The words from 0x4E40 to 0x4E7F. -/
theorem decodeOp_fixed (hw : w / 64 = 313) (xs : List Word) : decodeOp w xs = decodeFixed w xs := by
  obtain ⟨op, fields⟩ := decodeOp_line4 (k := 7) (j := 1) hw (by decide) (by decide) xs
  simp only [op, decodeLine4, fields, if_false, Nat.zero_ne_one]

theorem decodeOp_trap {v : BitVec 4} (hw : w = 0x4E40 + v.toNat) (xs : List Word) :
    decodeOp w xs = .ok (.trap v, xs) := by
  have hv : v.toNat < 16 := v.isLt
  have vector : BitVec.ofNat 4 w = v := BitVec.eq_of_toNat_eq (by rw [BitVec.toNat_ofNat]; omega)
  rw [decodeOp_fixed (by omega), decodeFixed, vector]
  obtain h | h : w / 8 % 8 = 0 ∨ w / 8 % 8 = 1 := by omega
  · simp only [h]
  · simp only [h]

theorem decodeOp_link (hw : w = 0x4E50 + an.val) (xs : List Word) : decodeOp w xs = withWord (.link an) xs := by
  have fields : w / 8 % 8 = 2 ∧ regAt w 0 = an := ⟨by omega, regAt_eq (by omega)⟩
  rw [decodeOp_fixed (by omega)]
  simp only [decodeFixed, fields]

theorem decodeOp_unlk (hw : w = 0x4E58 + an.val) (xs : List Word) : decodeOp w xs = .ok (.unlk an, xs) := by
  have fields : w / 8 % 8 = 3 ∧ regAt w 0 = an := ⟨by omega, regAt_eq (by omega)⟩
  rw [decodeOp_fixed (by omega)]
  simp only [decodeFixed, fields]

theorem decodeOp_moveToUsp (hw : w = 0x4E60 + an.val) (xs : List Word) :
    decodeOp w xs = .ok (.moveToUsp an, xs) := by
  have fields : w / 8 % 8 = 4 ∧ regAt w 0 = an := ⟨by omega, regAt_eq (by omega)⟩
  rw [decodeOp_fixed (by omega)]
  simp only [decodeFixed, fields]

theorem decodeOp_moveFromUsp (hw : w = 0x4E68 + an.val) (xs : List Word) :
    decodeOp w xs = .ok (.moveFromUsp an, xs) := by
  have fields : w / 8 % 8 = 5 ∧ regAt w 0 = an := ⟨by omega, regAt_eq (by omega)⟩
  rw [decodeOp_fixed (by omega)]
  simp only [decodeFixed, fields]

end

section
variable {w : Nat} {sz : Size} {dn an rx ry : Reg}

/-! Lines 0101 to 0111. -/

theorem decodeOp_addq {q : Reg} (hw : w / 64 = 320 + q.val * 8 + sz.code) (xs : List Word) :
    decodeOp w xs = withEa w sz (fun ea => ea.isAlterable && ea.sizeOk sz) (.addq q sz) xs := by
  have hs := sz.code_lt
  have hq := q.isLt
  have fields : w / 4096 % 16 = 5 ∧ w / 64 % 4 = sz.code ∧ w / 256 % 2 = 0 ∧ sz.code ≠ 3 := by omega
  have reg : regAt w 9 = q := regAt_eq (by omega)
  simp only [decodeOp, decodeLine5, fields, reg, if_true, if_false, withSize_code]

theorem decodeOp_subq {q : Reg} (hw : w / 64 = 324 + q.val * 8 + sz.code) (xs : List Word) :
    decodeOp w xs = withEa w sz (fun ea => ea.isAlterable && ea.sizeOk sz) (.subq q sz) xs := by
  have hs := sz.code_lt
  have hq := q.isLt
  have fields : w / 4096 % 16 = 5 ∧ w / 64 % 4 = sz.code ∧ w / 256 % 2 = 1 ∧ sz.code ≠ 3 := by omega
  have reg : regAt w 9 = q := regAt_eq (by omega)
  simp only [decodeOp, decodeLine5, fields, reg, if_false, Nat.one_ne_zero, withSize_code]

theorem decodeOp_scc {c : Cond} (hw : w / 64 = 323 + c.code * 4) (he : w / 8 % 8 ≠ 1) (xs : List Word) :
    decodeOp w xs = withEa w .byte Ea.isDataAlterable (.scc c) xs := by
  have hc := c.code_lt
  have fields : w / 4096 % 16 = 5 ∧ w / 64 % 4 = 3 ∧ w / 256 % 16 = c.code := by omega
  simp only [decodeOp, decodeLine5, fields, he, if_true, if_false, condOfCode_code]

theorem decodeOp_dbcc {c : Cond} (hw : w = 0x50C8 + c.code * 256 + dn.val) (xs : List Word) :
    decodeOp w xs = withWord (.dbcc c dn) xs := by
  have hc := c.code_lt
  have hd := dn.isLt
  have fields : w / 4096 % 16 = 5 ∧ w / 64 % 4 = 3 ∧ w / 256 % 16 = c.code ∧ w / 8 % 8 = 1 := by omega
  have reg : regAt w 0 = dn := regAt_eq (by omega)
  simp only [decodeOp, decodeLine5, fields, reg, if_true, condOfCode_code]

theorem decodeLine6_bcc {c : Cond} (hw : w / 256 % 16 = c.code) (ht : c ≠ .t) (hf : c ≠ .f) (xs : List Word) :
    decodeLine6 w xs = withDisp w (.bcc c) xs := by
  cases c with
  | t => exact absurd rfl ht
  | f => exact absurd rfl hf
  | _ =>
    simp only [Cond.code] at hw
    simp only [decodeLine6, hw, condOfCode]

/-- BRA, BSR and Bcc (rule R106). -/
theorem decode_encodeBranch {code : Nat} {d : BrDisp} {mk : BrDisp → Instr} {rest : List Word} (hc : code < 16)
    (route : ∀ w xs, w / 256 % 16 = code → decodeLine6 w xs = withDisp w mk xs) (hd : d.wf = true) :
    decode (encodeBranch code d ++ rest) = .ok (mk d, rest) := by
  have line : ∀ w xs, w / 256 = 96 + code → decodeOp w xs = withDisp w mk xs := fun w xs hw => by
    have line : w / 4096 % 16 = 6 := by omega
    simp only [decodeOp, line, route w xs (by omega)]
  cases d with
  | short d =>
    have hlt : d.toNat < 256 := d.isLt
    have hne : d.toNat ≠ 0 := fun h => by
      have : d = 0 := BitVec.eq_of_toNat_eq h
      subst this
      cases hd
    have low : (0x6000 + code * 256 + d.toNat) % 256 ≠ 0 := by omega
    have disp : BitVec.ofNat 8 (0x6000 + code * 256 + d.toNat) = d :=
      BitVec.eq_of_toNat_eq (by rw [BitVec.toNat_ofNat]; omega)
    simp only [encodeBranch, List.cons_append, List.nil_append]
    rw [decode_opWord (by omega), line _ _ (by omega), withDisp, if_neg low, disp]
  | word d =>
    have low : (0x6000 + code * 256) % 256 = 0 := by omega
    simp only [encodeBranch, List.cons_append, List.nil_append]
    rw [decode_opWord (by omega), line _ _ (by omega), withDisp, if_pos low, withWord]

theorem decodeOp_moveq {d : Byte} (hw : w = 0x7000 + dn.val * 512 + d.toNat) (xs : List Word) :
    decodeOp w xs = .ok (.moveq dn d, xs) := by
  have hd := dn.isLt
  have hlt : d.toNat < 256 := d.isLt
  have fields : w / 4096 % 16 = 7 ∧ w / 256 % 2 = 0 := by omega
  have reg : regAt w 9 = dn := regAt_eq (by omega)
  have data : BitVec.ofNat 8 w = d := BitVec.eq_of_toNat_eq (by rw [BitVec.toNat_ofNat]; omega)
  simp only [decodeOp, fields, reg, data, if_true]

/-! Lines 1000 to 1101. -/

/-- A `<ea> op Dn` instruction. -/
theorem decodeDir_toReg {srcOk : Size → Ea → Bool} {toReg toMem : Size → Reg → Ea → Instr}
    (hw : w / 64 % 64 = dn.val * 8 + sz.code) (xs : List Word) :
    decodeDir w srcOk toReg toMem xs = withEa w sz (srcOk sz) (toReg sz dn) xs := by
  have hs := sz.code_lt
  have hd := dn.isLt
  have fields : w / 64 % 4 = sz.code ∧ w / 256 % 2 = 0 := by omega
  have reg : regAt w 9 = dn := regAt_eq (by omega)
  simp only [decodeDir, fields, reg, withSize_code, if_true]

/-- A `Dn op <ea>` instruction. -/
theorem decodeDir_toMem {srcOk : Size → Ea → Bool} {toReg toMem : Size → Reg → Ea → Instr}
    (hw : w / 64 % 64 = dn.val * 8 + 4 + sz.code) (xs : List Word) :
    decodeDir w srcOk toReg toMem xs = withEa w sz Ea.isMemoryAlterable (toMem sz dn) xs := by
  have hs := sz.code_lt
  have hd := dn.isLt
  have fields : w / 64 % 4 = sz.code ∧ w / 256 % 2 = 1 := by omega
  have reg : regAt w 9 = dn := regAt_eq (by omega)
  simp only [decodeDir, fields, reg, withSize_code, if_false, Nat.one_ne_zero]

theorem decodeLine8_dir (h : w / 64 % 4 ≠ 3) (he : w / 16 % 32 ≠ 16) (xs : List Word) :
    decodeLine8 w xs = decodeDir w (fun _ => Ea.isData) .orToReg .orToMem xs := by
  have fields : w / 64 % 8 ≠ 3 ∧ w / 64 % 8 ≠ 7 := by omega
  simp only [decodeLine8, fields, he, if_false]

theorem decodeLineC_dir (h : w / 64 % 4 ≠ 3) (he : w / 256 % 2 = 1 → 2 ≤ w / 8 % 8) (xs : List Word) :
    decodeLineC w xs = decodeDir w (fun _ => Ea.isData) .andToReg .andToMem xs := by
  have fields : w / 64 % 8 ≠ 3 ∧ w / 64 % 8 ≠ 7 ∧ w / 16 % 32 ≠ 16 ∧ w / 8 % 64 ≠ 40 ∧ w / 8 % 64 ≠ 41 ∧
    w / 8 % 64 ≠ 49 := by omega
  simp only [decodeLineC, fields, if_false]

theorem decodeLine8_divide {signed : Bool} (hw : w / 64 % 64 = 3 + dn.val * 8 + bitCode signed * 4) (xs : List Word) :
    decodeLine8 w xs = withEa w .word Ea.isData (if signed then .divs dn else .divu dn) xs := by
  have hd := dn.isLt
  have reg : regAt w 9 = dn := regAt_eq (by have := bitCode_lt signed; omega)
  cases signed with
  | false =>
    have fields : w / 64 % 8 = 3 := by have code : bitCode false = 0 ∧ bitCode true = 1 := ⟨rfl, rfl⟩; omega
    simp only [decodeLine8, fields, reg, if_true]
    rfl
  | true =>
    have fields : w / 64 % 8 = 7 := by have code : bitCode false = 0 ∧ bitCode true = 1 := ⟨rfl, rfl⟩; omega
    have ne : ¬ 7 = 3 := by decide
    simp only [decodeLine8, fields, reg, if_true, ne, if_false]

theorem decodeLineC_multiply {signed : Bool} (hw : w / 64 % 64 = 3 + dn.val * 8 + bitCode signed * 4) (xs : List Word) :
    decodeLineC w xs = withEa w .word Ea.isData (if signed then .muls dn else .mulu dn) xs := by
  have hd := dn.isLt
  have reg : regAt w 9 = dn := regAt_eq (by have := bitCode_lt signed; omega)
  cases signed with
  | false =>
    have fields : w / 64 % 8 = 3 := by have code : bitCode false = 0 ∧ bitCode true = 1 := ⟨rfl, rfl⟩; omega
    simp only [decodeLineC, fields, reg, if_true]
    rfl
  | true =>
    have fields : w / 64 % 8 = 7 := by have code : bitCode false = 0 ∧ bitCode true = 1 := ⟨rfl, rfl⟩; omega
    have ne : ¬ 7 = 3 := by decide
    simp only [decodeLineC, fields, reg, if_true, ne, if_false]

section
variable {toReg toMem : Size → Reg → Ea → Instr} {mkA : Bool → Reg → Ea → Instr} {mkX : Size → Bool → Reg → Reg → Instr}

/-- ADD and SUB with a data register (rule R131). -/
theorem decodeAddSub_dir (h : w / 64 % 4 ≠ 3) (he : w / 256 % 2 = 1 → 2 ≤ w / 8 % 8) (xs : List Word) :
    decodeAddSub w toReg toMem mkA mkX xs = decodeDir w Ea.sizeOk toReg toMem xs := by
  have fields : ¬ (w / 256 % 2 = 1 ∧ w / 16 % 4 = 0) := by omega
  simp only [decodeAddSub, h, fields, if_false]

/-- ADDA and SUBA. -/
theorem decodeAddSub_address {long : Bool} (hw : w / 64 % 64 = an.val * 8 + bitCode long * 4 + 3) (xs : List Word) :
    decodeAddSub w toReg toMem mkA mkX xs = withEa w (sizeOfBit long) (fun _ => true) (mkA long an) xs := by
  have ha := an.isLt
  have hl := bitCode_lt long
  have fields : w / 64 % 4 = 3 ∧ w / 256 % 2 = bitCode long := by omega
  have reg : regAt w 9 = an := regAt_eq (by omega)
  simp only [decodeAddSub, fields, reg, if_true, decide_bitCode]

/-- ADDX and SUBX. -/
theorem decodeAddSub_extended {mem : Bool} (hw : w % 4096 = rx.val * 512 + 256 + sz.code * 64 + bitCode mem * 8 + ry.val)
    (xs : List Word) : decodeAddSub w toReg toMem mkA mkX xs = .ok (mkX sz mem rx ry, xs) := by
  have hx := rx.isLt
  have hy := ry.isLt
  have hs := sz.code_lt
  have hm := bitCode_lt mem
  have fields : w / 64 % 4 = sz.code ∧ sz.code ≠ 3 ∧ w / 256 % 2 = 1 ∧ w / 16 % 4 = 0 ∧ w / 8 % 2 = bitCode mem := by omega
  have reg : regAt w 9 = rx ∧ regAt w 0 = ry := ⟨regAt_eq (by omega), regAt_eq (by omega)⟩
  simp only [decodeAddSub, fields, reg, if_false, if_true, and_self, withSize_code, decide_bitCode]

end

theorem decodeLineB_cmp (hw : w / 64 % 64 = dn.val * 8 + sz.code) (xs : List Word) :
    decodeLineB w xs = withEa w sz (Ea.sizeOk sz) (.cmp sz dn) xs := by
  have hs := sz.code_lt
  have hd := dn.isLt
  have fields : w / 64 % 4 = sz.code ∧ sz.code ≠ 3 ∧ w / 256 % 2 = 0 := by omega
  have reg : regAt w 9 = dn := regAt_eq (by omega)
  simp only [decodeLineB, fields, reg, if_false, if_true, withSize_code]

theorem decodeLineB_cmpa {long : Bool} (hw : w / 64 % 64 = an.val * 8 + bitCode long * 4 + 3) (xs : List Word) :
    decodeLineB w xs = withEa w (sizeOfBit long) (fun _ => true) (.cmpa long an) xs := by
  have ha := an.isLt
  have hl := bitCode_lt long
  have fields : w / 64 % 4 = 3 ∧ w / 256 % 2 = bitCode long := by omega
  have reg : regAt w 9 = an := regAt_eq (by omega)
  simp only [decodeLineB, fields, reg, if_true, decide_bitCode]

theorem decodeLineB_eor (hw : w / 64 % 64 = dn.val * 8 + 4 + sz.code) (he : w / 8 % 8 ≠ 1) (xs : List Word) :
    decodeLineB w xs = withEa w sz Ea.isDataAlterable (.eor sz dn) xs := by
  have hs := sz.code_lt
  have hd := dn.isLt
  have fields : w / 64 % 4 = sz.code ∧ sz.code ≠ 3 ∧ w / 256 % 2 = 1 := by omega
  have reg : regAt w 9 = dn := regAt_eq (by omega)
  simp only [decodeLineB, fields, reg, he, if_false, Nat.one_ne_zero, withSize_code]

theorem decodeLineB_cmpm (hw : w % 4096 = rx.val * 512 + 256 + sz.code * 64 + 8 + ry.val) (xs : List Word) :
    decodeLineB w xs = .ok (.cmpm sz rx ry, xs) := by
  have hx := rx.isLt
  have hy := ry.isLt
  have hs := sz.code_lt
  have fields : w / 64 % 4 = sz.code ∧ sz.code ≠ 3 ∧ w / 256 % 2 = 1 ∧ w / 8 % 8 = 1 := by omega
  have reg : regAt w 9 = rx ∧ regAt w 0 = ry := ⟨regAt_eq (by omega), regAt_eq (by omega)⟩
  simp only [decodeLineB, fields, reg, if_true, if_false, Nat.one_ne_zero, withSize_code]

/-- SBCD and ABCD. -/
theorem decodeLine8_sbcd {mem : Bool} (hw : w % 4096 = 0x100 + rx.val * 512 + bitCode mem * 8 + ry.val) (xs : List Word) :
    decodeLine8 w xs = .ok (.sbcd mem rx ry, xs) ∧ decodeLineC w xs = .ok (.abcd mem rx ry, xs) := by
  have hx := rx.isLt
  have hy := ry.isLt
  have hm := bitCode_lt mem
  have fields : w / 64 % 8 ≠ 3 ∧ w / 64 % 8 ≠ 7 ∧ w / 16 % 32 = 16 ∧ w / 8 % 2 = bitCode mem := by omega
  have reg : regAt w 9 = rx ∧ regAt w 0 = ry := ⟨regAt_eq (by omega), regAt_eq (by omega)⟩
  simp only [decodeLine8, decodeLineC, fields, reg, if_true, if_false, decide_bitCode, and_self]

/-- EXG, by bits 8:3. -/
theorem decodeLineC_exg {k : Nat} (hw : w % 4096 = rx.val * 512 + k * 8 + ry.val) (hk : k = 40 ∨ k = 41 ∨ k = 49)
    (xs : List Word) : decodeLineC w xs = .ok (exgRow rx ry k, xs) := by
  have hx := rx.isLt
  have hy := ry.isLt
  have fields : w / 64 % 8 ≠ 3 ∧ w / 64 % 8 ≠ 7 ∧ w / 16 % 32 ≠ 16 ∧ w / 8 % 64 = k := by omega
  have reg : regAt w 9 = rx ∧ regAt w 0 = ry := ⟨regAt_eq (by omega), regAt_eq (by omega)⟩
  simp only [decodeLineC, fields, reg, if_false]
  obtain rfl | rfl | rfl := hk
  all_goals rfl

/-! Line 1110. -/

theorem decodeOp_shiftMemory {k : Nat} (hw : w / 64 = 899 + k * 4) (hk : k < 8) (xs : List Word) :
    decodeOp w xs = withEa w .word Ea.isMemoryAlterable (shiftMemoryRow k) xs := by
  have fields : w / 4096 % 16 = 14 ∧ w / 64 % 4 = 3 ∧ w / 256 % 16 = k := by omega
  simp only [decodeOp, decodeLineE, fields, if_true]
  obtain rfl | rfl | rfl | rfl | rfl | rfl | rfl | rfl : k = 0 ∨ k = 1 ∨ k = 2 ∨ k = 3 ∨ k = 4 ∨ k = 5 ∨ k = 6 ∨
    k = 7 := by omega
  all_goals rfl

/-- The register form of a shift or rotate: its kind in bits 4:3, its direction in bit 8 (rule R270). -/
theorem decode_encodeShift {left byReg : Bool} {kind : Nat} {count : Reg} {rest : List Word} (hk : kind < 4) :
    decode (encodeShift left kind sz byReg count dn ++ rest) = .ok (shiftRegisterRow kind left sz byReg count dn, rest) := by
  have hs := sz.code_lt
  have hc := count.isLt
  have hd := dn.isLt
  have hl := bitCode_lt left
  have hr := bitCode_lt byReg
  rw [encodeShift, List.cons_append, List.nil_append, decode_opWord (by omega)]
  generalize hw : 0xE000 + count.val * 512 + bitCode left * 256 + sz.code * 64 + bitCode byReg * 32 + kind * 8 + dn.val = w
  have fields : w / 4096 % 16 = 14 ∧ w / 64 % 4 = sz.code ∧ sz.code ≠ 3 ∧ w / 32 % 2 = bitCode byReg ∧ w / 8 % 4 = kind ∧
    w / 256 % 2 = bitCode left := by omega
  have reg : regAt w 9 = count ∧ regAt w 0 = dn := ⟨regAt_eq (by omega), regAt_eq (by omega)⟩
  simp only [decodeOp, decodeLineE, fields, reg, if_false, withSize_code, decide_bitCode]
  obtain rfl | rfl | rfl | rfl : kind = 0 ∨ kind = 1 ∨ kind = 2 ∨ kind = 3 := by omega
  all_goals cases left <;> rfl

end

section
variable {w : Nat} {xs : List Word}

theorem decodeOp_line8 (hw : w / 4096 = 8) : decodeOp w xs = decodeLine8 w xs := by
  have line : w / 4096 % 16 = 8 := by omega
  simp only [decodeOp, line]

theorem decodeOp_line9 (hw : w / 4096 = 9) : decodeOp w xs = decodeAddSub w .subToReg .subToMem .suba .subx xs := by
  have line : w / 4096 % 16 = 9 := by omega
  simp only [decodeOp, line]

theorem decodeOp_lineB (hw : w / 4096 = 11) : decodeOp w xs = decodeLineB w xs := by
  have line : w / 4096 % 16 = 11 := by omega
  simp only [decodeOp, line]

theorem decodeOp_lineC (hw : w / 4096 = 12) : decodeOp w xs = decodeLineC w xs := by
  have line : w / 4096 % 16 = 12 := by omega
  simp only [decodeOp, line]

theorem decodeOp_lineD (hw : w / 4096 = 13) : decodeOp w xs = decodeAddSub w .addToReg .addToMem .adda .addx xs := by
  have line : w / 4096 % 16 = 13 := by omega
  simp only [decodeOp, line]

theorem decodeOp_line1010 {v : BitVec 12} (hw : w = 0xA000 + v.toNat) : decodeOp w xs = .ok (.line1010 v, xs) := by
  have hv : v.toNat < 4096 := v.isLt
  have line : w / 4096 % 16 = 10 := by omega
  have low : BitVec.ofNat 12 w = v := BitVec.eq_of_toNat_eq (by rw [BitVec.toNat_ofNat]; omega)
  simp only [decodeOp, line, low]

theorem decodeOp_line1111 {v : BitVec 12} (hw : w = 0xF000 + v.toNat) : decodeOp w xs = .ok (.line1111 v, xs) := by
  have hv : v.toNat < 4096 := v.isLt
  have line : w / 4096 % 16 = 15 := by omega
  have low : BitVec.ofNat 12 w = v := BitVec.eq_of_toNat_eq (by rw [BitVec.toNat_ofNat]; omega)
  simp only [decodeOp, line, low]

end

/-! The lines with a register field and an effective address. -/

section
variable {sz : Size} {dn an rx ry : Reg} {ea : Ea} {rest : List Word}

/-- The operation word of `encodeDir`, above the effective address. -/
theorem encodeDir_base {base : Nat} {toMem : Bool} (hb : base % 4096 = 0 ∧ base < 65536) :
    (base + dn.val * 512 + bitCode toMem * 256 + sz.code * 64) % 64 = 0 ∧
    base + dn.val * 512 + bitCode toMem * 256 + sz.code * 64 < 65536 := by
  have hs := sz.code_lt
  have hd := dn.isLt
  have hm := bitCode_lt toMem
  omega

/-- `<ea> op Dn` on the line of `base`. -/
theorem decode_encodeDir_toReg {base : Nat} {ok : Ea → Bool} {mk : Size → Reg → Ea → Instr}
    (hb : base % 4096 = 0 ∧ base < 65536)
    (route : ∀ w xs, w / 4096 = base / 4096 → w / 64 % 64 = dn.val * 8 + sz.code →
      decodeOp w xs = withEa w sz ok (mk sz dn) xs)
    (fits : ea.fits sz = true) (hok : ok ea = true) :
    decode (encodeDir base false sz dn ea ++ rest) = .ok (mk sz dn ea, rest) := by
  have hs := sz.code_lt
  have hd := dn.isLt
  have he := ea.field_lt
  have code : bitCode false = 0 := rfl
  exact decode_encodeEa (encodeDir_base hb) (fun xs => route _ xs (by omega) (by omega)) fits hok

/-- `Dn op <ea>` on the line of `base`. -/
theorem decode_encodeDir_toMem {base : Nat} {ok : Ea → Bool} {mk : Size → Reg → Ea → Instr}
    (hb : base % 4096 = 0 ∧ base < 65536)
    (route : ∀ w xs, w / 4096 = base / 4096 → w / 64 % 64 = dn.val * 8 + 4 + sz.code → w % 64 = ea.field →
      decodeOp w xs = withEa w sz ok (mk sz dn) xs)
    (fits : ea.fits sz = true) (hok : ok ea = true) :
    decode (encodeDir base true sz dn ea ++ rest) = .ok (mk sz dn ea, rest) := by
  have hs := sz.code_lt
  have hd := dn.isLt
  have he := ea.field_lt
  have code : bitCode true = 1 := rfl
  exact decode_encodeEa (encodeDir_base hb) (fun xs => route _ xs (by omega) (by omega) (by omega)) fits hok

/-- The address forms on the line of `base`. -/
theorem decode_encodeAddr {base : Nat} {long : Bool} {mk : Bool → Reg → Ea → Instr} (hb : base % 4096 = 0 ∧ base < 65536)
    (route : ∀ w xs, w / 4096 = base / 4096 → w / 64 % 64 = an.val * 8 + bitCode long * 4 + 3 →
      decodeOp w xs = withEa w (sizeOfBit long) (fun _ => true) (mk long an) xs)
    (fits : ea.fits (sizeOfBit long) = true) :
    decode (encodeAddr base long an ea ++ rest) = .ok (mk long an ea, rest) := by
  have ha := an.isLt
  have he := ea.field_lt
  have hl := bitCode_lt long
  exact decode_encodeEa (by omega) (fun xs => route _ xs (by omega) (by omega)) fits rfl

/-- An instruction that is its operation word. -/
theorem decode_one {i : Instr} {n : Nat} (hn : n < 65536) (op : ∀ xs, decodeOp n xs = .ok (i, xs)) (rest : List Word) :
    decode ([opWord n] ++ rest) = .ok (i, rest) := by
  rw [List.cons_append, List.nil_append, decode_opWord hn, op]

/-- An instruction of an operation word and one extension word. -/
theorem decode_two {mk : Word → Instr} {n : Nat} {x : Word} (hn : n < 65536)
    (op : ∀ xs, decodeOp n xs = withWord mk xs) (rest : List Word) :
    decode ([opWord n, x] ++ rest) = .ok (mk x, rest) := by
  rw [List.cons_append, List.cons_append, List.nil_append, decode_opWord hn, op, withWord]

end

theorem setWidth_setWidth_byte (b : Byte) : ((b.setWidth 16 : Word).setWidth 8) = b := by simp

/-! The families of one row for each number `k` of an instruction. -/

section
variable {sz : Size} {dn : Reg} {ea : Ea} {rest : List Word}

theorem decode_immediate {k : Nat} {v : Long} (hk : k < 7) (h4 : k ≠ 4) (h : (sz.fits v && ea.isDataAlterable) = true) :
    decode (encodeImmEa (k * 512) sz v ea ++ rest) = .ok (immediateRow sz k v ea, rest) := by
  obtain ⟨fits, ok⟩ := Bool.and_eq_true_iff.mp h
  have he := (Ea.field_of_isDataAlterable ok).1
  have hs := sz.code_lt
  exact decode_encodeImmEa (by omega) (fun xs => decodeOp_immediate (by omega) hk h4 (by omega) xs) fits ok

theorem decode_bitDynamic {k : Nat} (hk : k = 1 ∨ k = 2 ∨ k = 3) (h : ea.isDataAlterable = true) :
    decode (encodeEa (0x0100 + k * 64 + dn.val * 512) .byte ea ++ rest) = .ok (bitDynamicRow dn k ea, rest) := by
  obtain ⟨lt, ne⟩ := Ea.field_of_isDataAlterable h
  have hd := dn.isLt
  exact decode_encodeEa (by omega) (fun xs => decodeOp_bitDynamic (by omega) hk (by omega) xs)
    (Ea.fits_of_isDataAlterable h _) h

theorem decode_bitStatic {k : Nat} {b : Byte} (hk : k = 1 ∨ k = 2 ∨ k = 3) (h : ea.isDataAlterable = true) :
    decode (encodeWordEa (0x0800 + k * 64) (b.setWidth 16) .byte ea ++ rest) = .ok (bitStaticRow b k ea, rest) := by
  have he := ea.field_lt
  rw [decode_encodeWordEa (by omega) (fun xs => decodeOp_bitStatic (by omega) hk xs) (Ea.fits_of_isDataAlterable h _) h,
    setWidth_setWidth_byte]

theorem decode_single {k : Nat} (hk : k = 0 ∨ k = 1 ∨ k = 2 ∨ k = 3 ∨ k = 5) (h : ea.isDataAlterable = true) :
    decode (encodeEa (0x4000 + k * 512 + sz.code * 64) sz ea ++ rest) = .ok (singleRow sz k ea, rest) := by
  have he := ea.field_lt
  have hs := sz.code_lt
  exact decode_encodeEa (by omega) (fun xs => decodeOp_single (by omega) hk xs) (Ea.fits_of_isDataAlterable h _) h

theorem decode_shiftMemory {k : Nat} (hk : k < 8) (h : ea.isMemoryAlterable = true) :
    decode (encodeEa (0xE0C0 + k * 256) .word ea ++ rest) = .ok (shiftMemoryRow k ea, rest) := by
  have he := ea.field_lt
  exact decode_encodeEa (by omega) (fun xs => decodeOp_shiftMemory (by omega) hk xs)
    (Ea.fits_of_isMemoryAlterable h _) h

end

/-- Settles O1: each format's words take the decoder to the instruction's own row, where its fields and extension words are read back. -/
theorem decodeOfEncode : Obligations.DecodeOfEncode := by
  intro i rest h
  cases i with
  | ori sz v ea => exact decode_immediate (k := 0) (by decide) (by decide) h
  | andi sz v ea => exact decode_immediate (k := 1) (by decide) (by decide) h
  | subi sz v ea => exact decode_immediate (k := 2) (by decide) (by decide) h
  | addi sz v ea => exact decode_immediate (k := 3) (by decide) (by decide) h
  | eori sz v ea => exact decode_immediate (k := 5) (by decide) (by decide) h
  | cmpi sz v ea => exact decode_immediate (k := 6) (by decide) (by decide) h
  | oriToCcr b | andiToCcr b | eoriToCcr b =>
    refine (decode_two (by decide) (fun _ => rfl) rest).trans ?_
    rw [setWidth_setWidth_byte]
  | oriToSr x | andiToSr x | eoriToSr x => exact decode_two (by decide) (fun _ => rfl) rest
  | btstStatic b ea =>
    have he := ea.field_lt
    have fits : ea.fits .byte = true := by cases ea <;> first | rfl | cases h
    have ok : ea.isDataNoImm = true := h
    refine (decode_encodeWordEa (by decide) (decodeOp_btstStatic (by omega)) fits ok).trans ?_
    rw [setWidth_setWidth_byte]
  | bchgStatic b ea => exact decode_bitStatic (k := 1) (by decide) h
  | bclrStatic b ea => exact decode_bitStatic (k := 2) (by decide) h
  | bsetStatic b ea => exact decode_bitStatic (k := 3) (by decide) h
  | btstDynamic dn ea =>
    obtain ⟨ok, fits⟩ := Bool.and_eq_true_iff.mp h
    obtain ⟨lt, ne⟩ := Ea.field_of_isData ok
    exact decode_encodeEa (by omega) (decodeOp_btstDynamic (by omega) (by omega)) fits ok
  | bchgDynamic dn ea => exact decode_bitDynamic (k := 1) (by decide) h
  | bclrDynamic dn ea => exact decode_bitDynamic (k := 2) (by decide) h
  | bsetDynamic dn ea => exact decode_bitDynamic (k := 3) (by decide) h
  | movep toMem long dn an d =>
    have hm := bitCode_lt toMem
    have hl := bitCode_lt long
    exact decode_two (by omega) (decodeOp_movep rfl) rest
  | moveB src dst =>
    obtain ⟨hsrc, hdst⟩ := Bool.and_eq_true_iff.mp h
    obtain ⟨srcOk, fits⟩ := Bool.and_eq_true_iff.mp hsrc
    exact decode_encodeMove (by decide) (fun w xs hw _ => decodeOp_moveB hw xs) fits srcOk hdst
  | moveW src dst =>
    obtain ⟨fits, hdst⟩ := Bool.and_eq_true_iff.mp h
    have srcOk : src.sizeOk .word = true := by cases src <;> rfl
    exact decode_encodeMove (by decide) (fun w xs hw hm => decodeOp_moveW hw hm xs) fits srcOk hdst
  | moveL src dst =>
    have fits : src.fits .long = true := by cases src <;> rfl
    have srcOk : src.sizeOk .long = true := by cases src <;> rfl
    exact decode_encodeMove (by decide) (fun w xs hw hm => decodeOp_moveL hw hm xs) fits srcOk h
  | moveaW src an =>
    have he := src.field_lt
    exact decode_encodeEa (by omega) (decodeOp_moveaW (by omega)) h rfl
  | moveaL src an =>
    have he := src.field_lt
    have fits : src.fits .long = true := by cases src <;> rfl
    exact decode_encodeEa (by omega) (decodeOp_moveaL (by omega)) fits rfl
  | negx sz ea => exact decode_single (k := 0) (by decide) h
  | clr sz ea => exact decode_single (k := 1) (by decide) h
  | neg sz ea => exact decode_single (k := 2) (by decide) h
  | not sz ea => exact decode_single (k := 3) (by decide) h
  | tst sz ea => exact decode_single (k := 5) (by decide) h
  | moveFromSr ea =>
    have he := ea.field_lt
    exact decode_encodeEa (by decide) (decodeOp_moveFromSr (by omega)) (Ea.fits_of_isDataAlterable h _) h
  | moveToCcr ea =>
    obtain ⟨ok, fits⟩ := Bool.and_eq_true_iff.mp h
    have he := ea.field_lt
    exact decode_encodeEa (by decide) (decodeOp_moveToCcr (by omega)) fits ok
  | moveToSr ea =>
    obtain ⟨ok, fits⟩ := Bool.and_eq_true_iff.mp h
    have he := ea.field_lt
    exact decode_encodeEa (by decide) (decodeOp_moveToSr (by omega)) fits ok
  | chk dn ea =>
    obtain ⟨ok, fits⟩ := Bool.and_eq_true_iff.mp h
    have he := ea.field_lt
    exact decode_encodeEa (by omega) (decodeOp_chk (by omega)) fits ok
  | lea an ea =>
    have he := ea.field_lt
    exact decode_encodeEa (by omega) (decodeOp_lea (by omega)) (Ea.fits_of_isControl h _) h
  | nbcd ea =>
    have he := ea.field_lt
    exact decode_encodeEa (by decide) (decodeOp_nbcd (by omega)) (Ea.fits_of_isDataAlterable h _) h
  | swap dn => exact decode_one (by omega) (decodeOp_swap rfl) rest
  | pea ea =>
    obtain ⟨ge, lt⟩ := Ea.field_of_isControl h
    exact decode_encodeEa (by decide) (decodeOp_pea (by omega) (by omega)) (Ea.fits_of_isControl h _) h
  | extW dn => exact decode_one (by omega) (decodeOp_extW rfl) rest
  | extL dn => exact decode_one (by omega) (decodeOp_extL rfl) rest
  | movemToMem long mask ea =>
    have ok : ea.isMovemDst = true := h
    have fits : ea.fits (sizeOfBit long) = true := by cases ea <;> first | rfl | cases h
    obtain ⟨ge, lt⟩ := Ea.field_of_isMovemDst ok
    have hl := bitCode_lt long
    exact decode_encodeWordEa (by omega) (decodeOp_movemToMem (by omega) (by omega)) fits ok
  | movemToRegs long mask ea =>
    have ok : ea.isMovemSrc = true := h
    have fits : ea.fits (sizeOfBit long) = true := by cases ea <;> first | rfl | cases h
    have he := ea.field_lt
    have hl := bitCode_lt long
    exact decode_encodeWordEa (by omega) (decodeOp_movemToRegs (by omega)) fits ok
  | tas ea =>
    have he := ea.field_lt
    exact decode_encodeEa (by decide) (decodeOp_tas (by omega)) (Ea.fits_of_isDataAlterable h _) h
  | trap v =>
    have hv : v.toNat < 16 := v.isLt
    exact decode_one (by omega) (decodeOp_trap rfl) rest
  | link an d => exact decode_two (by omega) (decodeOp_link rfl) rest
  | unlk an => exact decode_one (by omega) (decodeOp_unlk rfl) rest
  | moveToUsp an => exact decode_one (by omega) (decodeOp_moveToUsp rfl) rest
  | moveFromUsp an => exact decode_one (by omega) (decodeOp_moveFromUsp rfl) rest
  | reset | nop | rte | rts | trapv | rtr => exact decode_one (by decide) (fun _ => rfl) rest
  | stop x => exact decode_two (by decide) (fun _ => rfl) rest
  | jsr ea =>
    have he := ea.field_lt
    exact decode_encodeEa (by decide) (decodeOp_jsr (by omega)) (Ea.fits_of_isControl h _) h
  | jmp ea =>
    have he := ea.field_lt
    exact decode_encodeEa (by decide) (decodeOp_jmp (by omega)) (Ea.fits_of_isControl h _) h
  | addq q sz ea =>
    have he := ea.field_lt
    have hs := sz.code_lt
    have fits := Ea.fits_of_isAlterable (Bool.and_eq_true_iff.mp h).1 sz
    exact decode_encodeEa (by omega) (decodeOp_addq (by omega)) fits h
  | subq q sz ea =>
    have he := ea.field_lt
    have hs := sz.code_lt
    have fits := Ea.fits_of_isAlterable (Bool.and_eq_true_iff.mp h).1 sz
    exact decode_encodeEa (by omega) (decodeOp_subq (by omega)) fits h
  | scc c ea =>
    obtain ⟨lt, ne⟩ := Ea.field_of_isDataAlterable h
    have hc := c.code_lt
    exact decode_encodeEa (by omega) (decodeOp_scc (by omega) (by omega)) (Ea.fits_of_isDataAlterable h _) h
  | dbcc c dn d =>
    have hc := c.code_lt
    exact decode_two (by omega) (decodeOp_dbcc rfl) rest
  | bra d =>
    exact decode_encodeBranch (by decide) (fun w xs hw => by simp only [decodeLine6, hw]) h
  | bsr d =>
    exact decode_encodeBranch (by decide) (fun w xs hw => by simp only [decodeLine6, hw]) h
  | bcc c d =>
    obtain ⟨hc, hd⟩ := Bool.and_eq_true_iff.mp h
    obtain ⟨ht, hf⟩ := Bool.and_eq_true_iff.mp hc
    exact decode_encodeBranch c.code_lt (fun w xs hw => decodeLine6_bcc hw (bne_iff_ne.mp ht) (bne_iff_ne.mp hf) xs) hd
  | moveq dn d =>
    have hd : d.toNat < 256 := d.isLt
    exact decode_one (by omega) (decodeOp_moveq rfl) rest
  | orToReg sz dn ea =>
    obtain ⟨ok, fits⟩ := Bool.and_eq_true_iff.mp h
    have hs := sz.code_lt
    refine decode_encodeDir_toReg (by decide) (fun w xs hl hw => ?_) fits ok
    rw [decodeOp_line8 hl, decodeLine8_dir (by omega) (by omega), decodeDir_toReg hw]
  | orToMem sz dn ea =>
    obtain ⟨ge, lt⟩ := Ea.field_of_isMemoryAlterable h
    have hs := sz.code_lt
    refine decode_encodeDir_toMem (ok := Ea.isMemoryAlterable) (by decide) (fun w xs hl hw he => ?_) (Ea.fits_of_isMemoryAlterable h sz) h
    rw [decodeOp_line8 hl, decodeLine8_dir (by omega) (by omega), decodeDir_toMem hw]
  | divu dn ea =>
    obtain ⟨ok, fits⟩ := Bool.and_eq_true_iff.mp h
    have he := ea.field_lt
    have code : bitCode false = 0 := rfl
    refine decode_encodeEa (by omega) (fun xs => ?_) fits ok
    rw [decodeOp_line8 (by omega), decodeLine8_divide (signed := false) (dn := dn) (by omega)]
    rfl
  | divs dn ea =>
    obtain ⟨ok, fits⟩ := Bool.and_eq_true_iff.mp h
    have he := ea.field_lt
    have code : bitCode true = 1 := rfl
    refine decode_encodeEa (by omega) (fun xs => ?_) fits ok
    rw [decodeOp_line8 (by omega), decodeLine8_divide (signed := true) (dn := dn) (by omega)]
    rfl
  | sbcd mem rx ry =>
    have hm := bitCode_lt mem
    refine decode_one (by omega) (fun xs => ?_) rest
    rw [decodeOp_line8 (by omega), (decodeLine8_sbcd (rx := rx) (ry := ry) (mem := mem) (by omega) xs).1]
  | subToReg sz dn ea =>
    obtain ⟨ok, fits⟩ := Bool.and_eq_true_iff.mp h
    have hs := sz.code_lt
    refine decode_encodeDir_toReg (by decide) (fun w xs hl hw => ?_) fits ok
    rw [decodeOp_line9 hl, decodeAddSub_dir (by omega) (by omega), decodeDir_toReg hw]
  | subToMem sz dn ea =>
    obtain ⟨ge, lt⟩ := Ea.field_of_isMemoryAlterable h
    have hs := sz.code_lt
    refine decode_encodeDir_toMem (ok := Ea.isMemoryAlterable) (by decide) (fun w xs hl hw he => ?_) (Ea.fits_of_isMemoryAlterable h sz) h
    rw [decodeOp_line9 hl, decodeAddSub_dir (by omega) (by omega), decodeDir_toMem hw]
  | suba long an ea =>
    refine decode_encodeAddr (by decide) (fun w xs hl hw => ?_) h
    rw [decodeOp_line9 hl, decodeAddSub_address hw]
  | subx sz mem rx ry =>
    have hm := bitCode_lt mem
    have hs := sz.code_lt
    refine decode_one (by omega) (fun xs => ?_) rest
    rw [decodeOp_line9 (by omega), decodeAddSub_extended (sz := sz) (mem := mem) (rx := rx) (ry := ry) (by omega)]
  | cmp sz dn ea =>
    obtain ⟨ok, fits⟩ := Bool.and_eq_true_iff.mp h
    refine decode_encodeDir_toReg (by decide) (fun w xs hl hw => ?_) fits ok
    rw [decodeOp_lineB hl, decodeLineB_cmp hw]
  | cmpa long an ea =>
    refine decode_encodeAddr (by decide) (fun w xs hl hw => ?_) h
    rw [decodeOp_lineB hl, decodeLineB_cmpa hw]
  | eor sz dn ea =>
    obtain ⟨lt, ne⟩ := Ea.field_of_isDataAlterable h
    refine decode_encodeDir_toMem (ok := Ea.isDataAlterable) (by decide) (fun w xs hl hw he => ?_) (Ea.fits_of_isDataAlterable h sz) h
    rw [decodeOp_lineB hl, decodeLineB_eor hw (by omega)]
  | cmpm sz ax ay =>
    have hs := sz.code_lt
    have code : bitCode true = 1 := rfl
    refine decode_one (by omega) (fun xs => ?_) rest
    rw [decodeOp_lineB (by omega), decodeLineB_cmpm (sz := sz) (rx := ax) (ry := ay) (by omega)]
  | andToReg sz dn ea =>
    obtain ⟨ok, fits⟩ := Bool.and_eq_true_iff.mp h
    have hs := sz.code_lt
    refine decode_encodeDir_toReg (by decide) (fun w xs hl hw => ?_) fits ok
    rw [decodeOp_lineC hl, decodeLineC_dir (by omega) (by omega), decodeDir_toReg hw]
  | andToMem sz dn ea =>
    obtain ⟨ge, lt⟩ := Ea.field_of_isMemoryAlterable h
    have hs := sz.code_lt
    refine decode_encodeDir_toMem (ok := Ea.isMemoryAlterable) (by decide) (fun w xs hl hw he => ?_) (Ea.fits_of_isMemoryAlterable h sz) h
    rw [decodeOp_lineC hl, decodeLineC_dir (by omega) (by omega), decodeDir_toMem hw]
  | mulu dn ea =>
    obtain ⟨ok, fits⟩ := Bool.and_eq_true_iff.mp h
    have he := ea.field_lt
    have code : bitCode false = 0 := rfl
    refine decode_encodeEa (by omega) (fun xs => ?_) fits ok
    rw [decodeOp_lineC (by omega), decodeLineC_multiply (signed := false) (dn := dn) (by omega)]
    rfl
  | muls dn ea =>
    obtain ⟨ok, fits⟩ := Bool.and_eq_true_iff.mp h
    have he := ea.field_lt
    have code : bitCode true = 1 := rfl
    refine decode_encodeEa (by omega) (fun xs => ?_) fits ok
    rw [decodeOp_lineC (by omega), decodeLineC_multiply (signed := true) (dn := dn) (by omega)]
    rfl
  | abcd mem rx ry =>
    have hm := bitCode_lt mem
    refine decode_one (by omega) (fun xs => ?_) rest
    rw [decodeOp_lineC (by omega), (decodeLine8_sbcd (rx := rx) (ry := ry) (mem := mem) (by omega) xs).2]
  | exgDD rx ry =>
    have code : bitCode false = 0 := rfl
    refine decode_one (by omega) (fun xs => ?_) rest
    exact (decodeOp_lineC (by omega)).trans (decodeLineC_exg (k := 40) (by omega) (by decide) xs)
  | exgAA rx ry =>
    have code : bitCode true = 1 := rfl
    refine decode_one (by omega) (fun xs => ?_) rest
    exact (decodeOp_lineC (by omega)).trans (decodeLineC_exg (k := 41) (by omega) (by decide) xs)
  | exgDA rx ry =>
    have code : bitCode true = 1 := rfl
    refine decode_one (by omega) (fun xs => ?_) rest
    exact (decodeOp_lineC (by omega)).trans (decodeLineC_exg (k := 49) (by omega) (by decide) xs)
  | addToReg sz dn ea =>
    obtain ⟨ok, fits⟩ := Bool.and_eq_true_iff.mp h
    have hs := sz.code_lt
    refine decode_encodeDir_toReg (by decide) (fun w xs hl hw => ?_) fits ok
    rw [decodeOp_lineD hl, decodeAddSub_dir (by omega) (by omega), decodeDir_toReg hw]
  | addToMem sz dn ea =>
    obtain ⟨ge, lt⟩ := Ea.field_of_isMemoryAlterable h
    have hs := sz.code_lt
    refine decode_encodeDir_toMem (ok := Ea.isMemoryAlterable) (by decide) (fun w xs hl hw he => ?_) (Ea.fits_of_isMemoryAlterable h sz) h
    rw [decodeOp_lineD hl, decodeAddSub_dir (by omega) (by omega), decodeDir_toMem hw]
  | adda long an ea =>
    refine decode_encodeAddr (by decide) (fun w xs hl hw => ?_) h
    rw [decodeOp_lineD hl, decodeAddSub_address hw]
  | addx sz mem rx ry =>
    have hm := bitCode_lt mem
    have hs := sz.code_lt
    refine decode_one (by omega) (fun xs => ?_) rest
    rw [decodeOp_lineD (by omega), decodeAddSub_extended (sz := sz) (mem := mem) (rx := rx) (ry := ry) (by omega)]
  | asrReg sz i c dn => exact decode_encodeShift (left := false) (kind := 0) (by decide)
  | aslReg sz i c dn => exact decode_encodeShift (left := true) (kind := 0) (by decide)
  | lsrReg sz i c dn => exact decode_encodeShift (left := false) (kind := 1) (by decide)
  | lslReg sz i c dn => exact decode_encodeShift (left := true) (kind := 1) (by decide)
  | roxrReg sz i c dn => exact decode_encodeShift (left := false) (kind := 2) (by decide)
  | roxlReg sz i c dn => exact decode_encodeShift (left := true) (kind := 2) (by decide)
  | rorReg sz i c dn => exact decode_encodeShift (left := false) (kind := 3) (by decide)
  | rolReg sz i c dn => exact decode_encodeShift (left := true) (kind := 3) (by decide)
  | asrMem ea => exact decode_shiftMemory (k := 0) (by decide) h
  | aslMem ea => exact decode_shiftMemory (k := 1) (by decide) h
  | lsrMem ea => exact decode_shiftMemory (k := 2) (by decide) h
  | lslMem ea => exact decode_shiftMemory (k := 3) (by decide) h
  | roxrMem ea => exact decode_shiftMemory (k := 4) (by decide) h
  | roxlMem ea => exact decode_shiftMemory (k := 5) (by decide) h
  | rorMem ea => exact decode_shiftMemory (k := 6) (by decide) h
  | rolMem ea => exact decode_shiftMemory (k := 7) (by decide) h
  | line1010 v =>
    have hv : v.toNat < 4096 := v.isLt
    exact decode_one (by omega) (fun _ => decodeOp_line1010 rfl) rest
  | line1111 v =>
    have hv : v.toNat < 4096 := v.isLt
    exact decode_one (by omega) (fun _ => decodeOp_line1111 rfl) rest

end Sys2Proof
end

section
/-! PROOF. What single instructions leave where their operands answer: arithmetic, comparison, logic, moves, shifts and bits. Each result is the shared operation's law under the instruction's own reading of its operands. -/

namespace Sys2Proof.Machine

/-! How an instruction begins. -/

/-- An instruction that first reads an operand. -/
theorem instr_operand {s t : State} {sz : Size} {ea : Ea} {k : Long → M Unit} (h : s.canSource 0 sz ea)
    (hk : (k (s.source 0 sz ea)).run (s.resolved 0 sz ea) = .ok () t) :
    instr s (operand sz ea >>= k) = .next t := by
  refine instr_ok ?_
  rw [← State.after_zero, bind_ok (operand_after h), hk]

/-- An instruction that first consumes its immediate. -/
theorem instr_immediate {s t : State} {sz : Size} {k : Unit → M Unit}
    (hk : (k ()).run (s.after (immWords sz)) = .ok () t) : instr s (skipImmediate sz >>= k) = .next t :=
  instr_ok hk

/-- An instruction that first consumes an extension word. -/
theorem instr_word {s t : State} {k : Unit → M Unit} (hk : (k ()).run (s.after 1) = .ok () t) :
    instr s (skipWord >>= k) = .next t :=
  instr_ok hk

/-- An instruction whose body starts right after the operation word. -/
theorem instr_opened {s t : State} {body : M Unit} (h : body.run (s.after 0) = .ok () t) :
    instr s body = .next t :=
  instr_ok (by rwa [State.after_zero] at h)

/-! Data registers as destination. -/

theorem source_toNat_word (s : State) (n : Nat) (ea : Ea) :
    (s.source n .word ea).toNat = ((s.source n .word ea).setWidth 16 : Word).toNat := by
  rw [← toNat_low_word, ← trunc_word, trunc_source]

theorem source_sext_word (s : State) (n : Nat) (ea : Ea) :
    (Size.word.sext (s.source n .word ea)).toInt = ((s.source n .word ea).setWidth 16 : Word).toInt :=
  toInt_low_word _

/-- Settles O12: the operand law, then the register form of the arithmetic or logical step. -/
theorem dataRegisterResults : Obligations.DataRegisterResults := by
  intro s sz dn ea h
  refine ⟨instr_operand h ?_, instr_operand h ?_, instr_operand h ?_, instr_operand h ?_, fun hw => ?_⟩
  · simp [arithmeticTo_dn]
  · simp [arithmeticTo_dn]
  · simp [logicTo_dn, trunc_and, trunc_trunc, trunc_source]
  · simp [logicTo_dn, trunc_or, trunc_trunc, trunc_source]
  · subst hw
    have hd : (Size.word.trunc (s.getD dn)).toNat = ((s.getD dn).setWidth 16 : Word).toNat := toNat_low_word _
    have hi : (Size.word.sext (Size.word.trunc (s.getD dn))).toInt = ((s.getD dn).setWidth 16 : Word).toInt := by
      rw [sext_trunc]
      exact toInt_low_word _
    refine ⟨instr_operand h ?_, instr_operand h ?_⟩ <;>
      simp only [bind_run, dataReg_run, updSr_run, upd_run, State.resolved_getD, State.resolved_sr]
    · rw [hd, source_toNat_word]
    · rw [hi, source_sext_word]

/-! Comparisons. -/

theorem compareWith_run (sz : Size) (v d : Long) (u : State) :
    (compareWith sz v d).run u = .ok () (u.withSr (u.sr.compared sz (subFlags sz v d false))) := rfl

/-- Settles O13: the operands are read by the operand law, CMPM's second one in the state that the first leaves. -/
theorem compareSetsFlags : Obligations.CompareSetsFlags := by
  intro s sz
  refine ⟨fun dn ea h => instr_operand h ?_, fun long an ea h => instr_operand h ?_,
    fun v ea h => instr_immediate ?_, fun ax ay h1 h2 => instr_operand h1 ?_, fun ea h => instr_operand h ?_⟩
  · simp [compareWith_run]
  · simp [compareWith_run]
  · rw [bind_ok (operand_after h), compareWith_run, State.resolved_sr]
  · have hr : ((s.resolved 0 sz (.postInc ay)).resolve sz (.postInc ax)).2.readable sz
        ((s.resolved 0 sz (.postInc ay)).resolve sz (.postInc ax)).1 := State.readable_of_bus h2 (by simp)
    have hv : (s.resolved 0 sz (.postInc ay)).valueAt sz ((s.resolved 0 sz (.postInc ay)).resolve sz (.postInc ax)).1 =
        s.valueAt sz ((s.resolved 0 sz (.postInc ay)).resolve sz (.postInc ax)).1 := by
      cases sz <;> simp [State.resolved, State.resolve, State.valueAt, State.operandAt, State.longAt, State.wordAt,
        State.byteAt, State.after]
    rw [bind_ok (operand_ok hr), compareWith_run, State.valueAt_resolve, hv]
    simp
  · simp

/-! Address registers as destination. -/

/-- Settles O14: the operand law, and for LEA the address of a control operand. -/
theorem addressRegisterResults : Obligations.AddressRegisterResults := by
  intro s an
  refine ⟨fun long ea h => ⟨instr_operand h rfl, instr_operand h rfl, ?_⟩, fun ea h => instr_opened ?_,
    fun sz data => ⟨?_, ?_⟩⟩
  · cases long
    · exact instr_operand h rfl
    · exact instr_operand h rfl
  · rw [bind_ok (effectiveAddress_after h)]
    rfl
  · exact instr_opened (s := s) (body := upd fun s => s.putA an (s.getA an + BitVec.ofNat 32 (quickValue data))) rfl
  · exact instr_opened (s := s) (body := upd fun s => s.putA an (s.getA an - BitVec.ofNat 32 (quickValue data))) rfl

/-! Operands replaced. -/

/-- Settles O15: the arithmetic and the logical replacement of an operand, after a data register or an immediate has been read. -/
theorem operandResults : Obligations.OperandResults := by
  intro s sz ea
  refine ⟨fun dn h => ?_, fun imm h => ?_⟩
  · have hd : ∀ k : Long → M Unit, (dataReg sz dn >>= k).run (s.after 0) = (k (sz.trunc (s.getD dn))).run (s.after 0) :=
      fun k => rfl
    refine ⟨instr_opened ?_, instr_opened ?_, instr_opened ?_, instr_opened ?_, instr_opened ?_⟩ <;> rw [hd]
    · exact arith_after h
    · exact arith_after h
    · simpa only [trunc_and, trunc_trunc, trunc_source] using logic_after (f := (· &&& sz.trunc (s.getD dn))) h
    · simpa only [trunc_or, trunc_trunc, trunc_source] using logic_after (f := (· ||| sz.trunc (s.getD dn))) h
    · simpa only [trunc_xor, trunc_trunc, trunc_source] using logic_after (f := (· ^^^ sz.trunc (s.getD dn))) h
  · refine ⟨instr_immediate ?_, instr_immediate ?_, instr_immediate ?_, instr_immediate ?_, instr_immediate ?_⟩
    · exact arith_after h
    · exact arith_after h
    · simpa only [trunc_and, trunc_source] using logic_after (f := (· &&& imm)) h
    · simpa only [trunc_or, trunc_source] using logic_after (f := (· ||| imm)) h
    · simpa only [trunc_xor, trunc_source] using logic_after (f := (· ^^^ imm)) h

/-! PROOF. What single instructions leave where their operands answer: one operand replaced, moves, extended and decimal arithmetic, shifts, bits and division. -/

/-! One operand replaced. -/

/-- Replacing a byte in one indivisible cycle, where memory answers both its halves. -/
theorem busModify8_ok {u t : State} {sp : Space} {a : Long} {f : Byte → M Byte} {r : Byte}
    (hr : u.readsMemory sp a false) (hw : u.writesMemory sp a false) (hf : (f (u.byteAt sp a)).run u = .ok r t)
    (hp : t.platform = u.platform) : (busModify8 sp a f).run u = .ok () (t.putByte sp a r) := by
  simp [busModify8, startCycle_quiet hr.1, hr.2, hw.2, hp, hf, Cycle.quiet, CycleReply.onRead,
    CycleReply.onWrite, endRead8, endWrite8]

/-- TAS on each kind of location. -/
theorem tas_after {s : State} {ea : Ea} (h : s.canModify 0 .byte ea) :
    (modifyIndivisible ea fun v => do
      updSr fun q => q.logic .byte v
      pure (v ||| 0x80)).run (s.after 0) = .ok ()
        (s.modified 0 .byte ea (s.sr.logic .byte (s.source 0 .byte ea)) (s.source 0 .byte ea ||| 0x80)) := by
  obtain ⟨hr, hw⟩ := h
  rw [modifyIndivisible, bind_ok (locate_run _ _ _)]
  simp only [State.modified, State.source, State.loc, State.resolved] at hr hw ⊢
  have hsr : ((s.after 0).resolve .byte ea).2.sr = s.sr := by simp [State.after]
  have hval := State.valueAt_resolve (s.after 0) .byte ea
  rw [State.valueAt_after] at hval
  cases hl : ((s.after 0).resolve .byte ea).1 with
  | mem sp a pre =>
    rw [hl] at hr hw hval
    obtain ⟨hp, hw⟩ := hw
    have hr' : ((s.after 0).resolve .byte ea).2.readsMemory sp a false := by
      simpa [State.readsMemory, State.readable, State.canRead, State.after] using hr
    have hw' : ((s.after 0).resolve .byte ea).2.writesMemory sp a false := by
      simpa [State.writesMemory, State.canWrite, State.after] using hw
    simp only [hp]
    rw [if_neg (by decide)]
    refine busModify8_ok (t := ((s.after 0).resolve .byte ea).2.withSr (s.sr.logic .byte (s.valueAt .byte (.mem sp a pre))))
      (r := ((s.valueAt .byte (.mem sp a pre)) ||| 0x80).setWidth 8) hr' hw' ?_ rfl
    rw [← hval, ← hsr]
    rfl
  | dreg r =>
    rw [hl] at hval
    simp only [readLoc, bind_run, ask_run, updSr_run, pure_run, hsr]
    rw [← hval]
    rfl
  | areg r =>
    rw [hl] at hval
    simp only [readLoc, bind_run, ask_run, updSr_run, pure_run, hsr]
    rw [← hval]
    rfl
  | imm v =>
    rw [hl] at hw
    exact hw.elim

/-- Settles O16: each instruction replaces or overwrites its operand by a function of the operand and the status register. -/
theorem singleOperandResults : Obligations.SingleOperandResults := by
  intro s sz ea h
  refine ⟨⟨instr_opened (arith_after h), instr_opened (modify_flags h fun u hu => ?_),
    instr_opened (logic_after h), instr_opened (overwrite_flags h fun u hu => ?_)⟩, fun hz => ?_, fun hz => ?_⟩
  · rw [← hu]
    rfl
  · rw [← hu]
    rfl
  · subst hz
    refine ⟨instr_opened (tas_after h), fun c => instr_opened (overwrite_flags h fun u hu => ?_)⟩
    rw [← hu]
    rfl
  · subst hz
    refine instr_opened (overwrite_flags h fun u hu => ?_)
    rw [← hu]
    rfl

/-! Quick forms. -/

/-- ADDQ of an operand that is no address register. -/
theorem exec_addq {s : State} {data : Reg} {sz : Size} {ea : Ea} (h : ∀ r, ea ≠ .an r) :
    exec (.addq data sz ea) s =
      instr s (arithmeticTo sz ea fun d => addFlags sz (BitVec.ofNat 32 (quickValue data)) d false) := by
  cases ea <;> first | rfl | exact absurd rfl (h _)

/-- SUBQ of an operand that is no address register. -/
theorem exec_subq {s : State} {data : Reg} {sz : Size} {ea : Ea} (h : ∀ r, ea ≠ .an r) :
    exec (.subq data sz ea) s =
      instr s (arithmeticTo sz ea fun d => subFlags sz (BitVec.ofNat 32 (quickValue data)) d false) := by
  cases ea <;> first | rfl | exact absurd rfl (h _)

/-- Settles O17: ADDQ and SUBQ are the arithmetic replacement of an operand. -/
theorem quickResults : Obligations.QuickResults := by
  refine ⟨fun s data sz ea h hne => ⟨?_, ?_⟩, fun s dn data => ?_⟩
  · rw [exec_addq hne]
    exact instr_opened (arith_after h)
  · rw [exec_subq hne]
    exact instr_opened (arith_after h)
  · unfold exec execMoveq
    exact instr_opened rfl

/-! Moves. -/

/-- MOVE of a size. -/
theorem moveData_after {s : State} {sz : Size} {src dst : Ea} (h : s.canSource 0 sz src)
    (hr : (s.resolved 0 sz src).canReplace (eaWords sz dst))
    (hw : s.writable sz (((s.resolved 0 sz src).replaced (eaWords sz dst)).resolve sz dst).1) :
    (moveData sz src dst).run (s.after 0) = .ok ()
      (((((s.resolved 0 sz src).replaced (eaWords sz dst)).resolve sz dst).2.withSr
        (s.sr.logic sz (s.source 0 sz src))).store sz
          (((s.resolved 0 sz src).replaced (eaWords sz dst)).resolve sz dst).1 (s.source 0 sz src)) := by
  rw [moveData, bind_ok (operand_after h), bind_ok (ask_run _ _), bind_ok (replaceWords_ok hr),
    bind_ok (locate_run _ _ _), bind_ok (updSr_run _ _)]
  have hsr : (((s.resolved 0 sz src).replaced (eaWords sz dst)).resolve sz dst).2.sr = s.sr := by simp
  rw [hsr]
  exact writeLoc_ok (State.writable_of_bus hw (by simp))

/-- Settles O18: the three sizes of MOVE run one computation. -/
theorem moveResult : Obligations.MoveResult := by
  intro s sz src dst u w v h hr hw
  cases sz <;> exact instr_opened (moveData_after h hr hw)

/-! Extended and decimal arithmetic. -/

/-- Settles O19: the operands are read by the law of pairs, and the result is stored where the second was. -/
theorem extendedResults : Obligations.ExtendedResults := by
  intro s sz mem rx ry w v d a b h1 h2 h3
  have hsr : w.2.sr = s.sr := by simp [w]
  have hw : ∀ q : Sr, (w.2.withSr q).writable sz w.1 := fun q => State.writable_of_bus h3 (by simp [w])
  have hb : ∀ f : Long → Long → Bool → Sum, (extendedTo sz mem rx ry f).run (s.after 0) = .ok ()
      ((w.2.withSr (s.sr.extended sz (f v d s.sr.x))).store sz w.1 (f v d s.sr.x).r) := by
    intro f
    rw [extendedTo, bind_ok (operandPair_after h1 h2)]
    simp only [bind_run, ask_run, updSr_run]
    rw [hsr]
    exact writeLoc_ok (hw _)
  exact ⟨instr_opened (hb _), instr_opened (hb _)⟩

/-- Settles O21: nothing but registers is read or written. -/
theorem registerOnlyResults : Obligations.RegisterOnlyResults := by
  intro s rx ry
  unfold exec execSwap execExtW execExtL execExgDD execExgAA execExgDA execNop
  refine ⟨instr_opened rfl, instr_opened ?_, instr_opened ?_, instr_opened rfl, instr_opened rfl, instr_opened rfl,
    instr_opened rfl⟩
  · have hb : Size.word.trunc (Size.byte.sext (Size.byte.trunc (s.getD rx))) =
        (((s.getD rx).setWidth 8).signExtend 16 : Word).setWidth 32 := by
      rw [sext_trunc]
      simp only [Size.trunc, Size.sext]
      congr 1
      ext i hi
      simp only [BitVec.getElem_setWidth, BitVec.getLsbD_signExtend, BitVec.getElem_signExtend]
      by_cases h8 : i < 8 <;> simp [show i < 32 by omega, h8]
    simp only [bind_run, dataReg_run, updSr_run, setDataReg_run]
    rw [show (s.after 0).getD rx = s.getD rx from rfl, hb]
    simp [Size.merge, State.getD]
  · simp only [bind_run, dataReg_run, updSr_run, setDataReg_run]
    rw [show (s.after 0).getD rx = s.getD rx from rfl, sext_trunc]
    rfl

/-! PROOF. What single instructions leave where their operands answer: decimal arithmetic, shifts, bits and division. -/

/-! Decimal arithmetic. -/

/-- What a decimal instruction of two registers runs after its operands. -/
theorem decimalPair_run {s : State} {mem : Bool} {rx ry : Reg} {f : Byte → Byte → M Byte} {r : Byte} {q : Sr} {n : Nat}
    (h1 : s.canSource 0 .byte (pairEa mem ry))
    (h2 : s.readable .byte ((s.resolved 0 .byte (pairEa mem ry)).resolve .byte (pairEa mem rx)).1)
    (h3 : s.writable .byte ((s.resolved 0 .byte (pairEa mem ry)).resolve .byte (pairEa mem rx)).1)
    (hf : (f ((s.source 0 .byte (pairEa mem ry)).setWidth 8)
        ((s.valueAt .byte ((s.resolved 0 .byte (pairEa mem ry)).resolve .byte (pairEa mem rx)).1).setWidth 8)).run
          ((s.resolved 0 .byte (pairEa mem ry)).resolve .byte (pairEa mem rx)).2 =
      .ok r ((((s.resolved 0 .byte (pairEa mem ry)).resolve .byte (pairEa mem rx)).2.drew n).withSr q)) :
    (do
      let (v, d, loc) ← operandPair .byte mem rx ry
      let r ← f (v.setWidth 8) (d.setWidth 8)
      writeLoc .byte loc (r.setWidth 32) : M Unit).run (s.after 0) = .ok ()
        (((((s.resolved 0 .byte (pairEa mem ry)).resolve .byte (pairEa mem rx)).2.drew n).withSr q).store .byte
          ((s.resolved 0 .byte (pairEa mem ry)).resolve .byte (pairEa mem rx)).1 (r.setWidth 32)) := by
  rw [bind_ok (operandPair_after h1 h2)]
  simp only
  rw [bind_ok hf]
  refine writeLoc_ok (State.writable_of_bus h3 ⟨?_, ?_⟩)
  · exact (State.resolve_platform _ _ _).trans (State.resolved_platform _ _ _ _)
  · exact (State.resolve_cycles _ _ _).trans (State.resolved_cycles _ _ _ _)

/-- Settles O20: the digits decide which of the two results the instruction runs, after its operands. -/
theorem decimalResults : Obligations.DecimalResults := by
  constructor
  · intro s mem rx ry w v d sum diff h1 h2 h3
    have hsr : w.2.sr = s.sr := by simp [w]
    by_cases hv : (bcdValid v && bcdValid d) = true
    · rw [if_pos hv]
      constructor
      · obtain ⟨n, o, hr⟩ := decimalResult_run sum (decide (99 < sum)) w.2
        rw [hsr] at hr
        refine ⟨n, o, instr_opened (decimalPair_run h1 h2 h3 (Eq.trans ?_ hr))⟩
        rw [decimalAdd_valid _ _ _ hv, hsr]
      · obtain ⟨n, o, hr⟩ := decimalResult_run diff (decide (diff < 0)) w.2
        rw [hsr] at hr
        refine ⟨n, o, instr_opened (decimalPair_run h1 h2 h3 (Eq.trans ?_ hr))⟩
        rw [decimalSub_valid _ _ _ hv, hsr]
    · rw [if_neg hv]
      obtain ⟨r, n, z, o, c, hr⟩ := decimalInvalid_run w.2
      rw [hsr] at hr
      refine ⟨⟨r, n, z, o, c, instr_opened (decimalPair_run h1 h2 h3 (Eq.trans ?_ hr))⟩,
        ⟨r, n, z, o, c, instr_opened (decimalPair_run h1 h2 h3 (Eq.trans ?_ hr))⟩⟩
      · exact decimalAdd_invalid _ _ _ hv
      · exact decimalSub_invalid _ _ _ hv
  · intro s ea h d diff
    have hsr : (s.resolved 0 .byte ea).sr = s.sr := by simp
    have run : ∀ {r : Byte} {q : Sr} {n : Nat},
        (decimalSub d 0).run (s.resolved 0 .byte ea) = .ok r (((s.resolved 0 .byte ea).drew n).withSr q) →
        exec (.nbcd ea) s = .next ((s.modified 0 .byte ea q (r.setWidth 32)).drew n) := by
      intro r q n hr
      have hm := modifyEa_after (t := ((s.resolved 0 .byte ea).drew n).withSr q) (r := r.setWidth 32)
        (f := fun d => decimalSub (d.setWidth 8) 0 >>= fun r => pure (r.setWidth 32)) h (bind_ok hr)
        ⟨State.resolved_platform s 0 _ _, State.resolved_cycles s 0 _ _⟩
      refine (instr_opened hm).trans ?_
      exact congrArg Host.Outcome.next (State.store_drew ((s.resolved 0 .byte ea).withSr q) _ _ _ n)
    by_cases hv : bcdValid d = true
    · rw [if_pos hv]
      have hv' : (bcdValid d && bcdValid 0) = true := by rw [hv]; rfl
      have hd : (bcdValue 0 : Int) - bcdValue d - bitCode s.sr.x = diff := rfl
      obtain ⟨n, o, hr⟩ := decimalResult_run diff (decide (diff < 0)) (s.resolved 0 .byte ea)
      rw [hsr] at hr
      refine ⟨n, o, run (Eq.trans ?_ hr)⟩
      rw [decimalSub_valid _ _ _ hv', hsr, hd]
    · rw [if_neg hv]
      obtain ⟨r, n, z, o, c, hr⟩ := decimalInvalid_run (s.resolved 0 .byte ea)
      rw [hsr] at hr
      refine ⟨r, n, z, o, c, run (Eq.trans ?_ hr)⟩
      exact decimalSub_invalid _ _ _ (by simp [hv])

/-! Shifts and rotates. -/

theorem shiftRegister_run (s : State) (sz : Size) (byReg : Bool) (count dn : Reg) (f : Nat → Sr → Long → Shift) :
    (shiftRegister sz byReg count dn f).run (s.after 0) = .ok ()
      (((s.after 0).withSr (s.sr.shift sz (f (if byReg then (s.getD count).toNat % 64 else quickValue count) s.sr
        (sz.trunc (s.getD dn))))).putD dn (sz.merge (s.getD dn) (f (if byReg then (s.getD count).toNat % 64 else
          quickValue count) s.sr (sz.trunc (s.getD dn))).r)) := by
  cases byReg <;> rfl

/-- Settles O22: the register forms run one computation, and so do the memory forms. -/
theorem shiftResults : Obligations.ShiftResults := by
  constructor
  · intro s sz byReg count dn
    have hr := fun f => instr_opened (shiftRegister_run s sz byReg count dn f)
    exact ⟨hr _, hr _, hr _, hr _, hr _, hr _, hr _, hr _⟩
  · intro s ea h
    have hm := fun f => instr_ok (shift_after (f := f) h)
    exact ⟨hm _, hm _, hm _, hm _, hm _, hm _, hm _, hm _⟩

/-! Bits. -/

/-- Settles O23: the laws of testing and of changing a bit, with the bit number of the immediate or the register. -/
theorem bitResults : Obligations.BitResults := by
  intro s ea sz
  constructor
  · intro bit k v q
    refine ⟨fun h => instr_word (bitTest_after bit.toNat h), fun h => ?_⟩
    rw [← oneBit_eq_twoPow]
    exact ⟨instr_word (bitModify_after bit.toNat changeBit h), instr_word (bitModify_after bit.toNat clearBit h), instr_word (bitModify_after bit.toNat setBit h)⟩
  · intro dn k v q
    refine ⟨fun h => instr_opened (bitTest_after (s.getD dn).toNat h), fun h => ?_⟩
    rw [← oneBit_eq_twoPow]
    exact ⟨instr_opened (bitModify_after (s.getD dn).toNat changeBit h), instr_opened (bitModify_after (s.getD dn).toNat clearBit h),
      instr_opened (bitModify_after (s.getD dn).toNat setBit h)⟩

/-! PROOF. What single instructions leave where their operands answer: division, MOVEP, branches and the stack. -/

/-! Division. -/

/-- A word operand is its low word, zero-extended. -/
theorem source_word (s : State) (n : Nat) (ea : Ea) :
    s.source n .word ea = ((s.source n .word ea).setWidth 16 : Word).setWidth 32 := by
  conv => lhs; rw [← trunc_source]
  rfl

/-- A word operand is zero exactly if its low word is. -/
theorem source_word_eq_zero (s : State) (n : Nat) (ea : Ea) :
    s.source n .word ea = 0 ↔ ((s.source n .word ea).setWidth 16 : Word) = 0 := by
  refine ⟨fun h => by rw [h]; rfl, fun h => ?_⟩
  rw [source_word, h]
  rfl

theorem ofInt_word_getLsbD {q : Int} (h : -32768 ≤ q ∧ q ≤ 32767) :
    (BitVec.ofInt 16 q).getLsbD 15 = decide (q < 0) := by
  have hm : (BitVec.ofInt 16 q).getLsbD 15 = (BitVec.ofInt 16 q).msb := by simp [BitVec.msb_eq_getLsbD_last]
  rw [hm, BitVec.msb_eq_toInt, BitVec.toInt_ofInt, Int.bmod_eq_of_le (by omega) (by omega)]

theorem ofInt_word_eq_zero {q : Int} (h : -32768 ≤ q ∧ q ≤ 32767) : (BitVec.ofInt 16 q == 0) = decide (q = 0) := by
  rw [Bool.beq_eq_decide_eq]
  refine decide_eq_decide.2 ⟨fun hz => ?_, fun hz => by rw [hz]; rfl⟩
  have := congrArg BitVec.toInt hz
  rwa [BitVec.toInt_ofInt, Int.bmod_eq_of_le (by omega) (by omega)] at this

theorem ofNat_word_eq_zero {q : Nat} (h : q ≤ 65535) : (BitVec.ofNat 16 q == 0) = decide (q = 0) := by
  rw [Bool.beq_eq_decide_eq]
  refine decide_eq_decide.2 ⟨fun hz => ?_, fun hz => by rw [hz]; rfl⟩
  have := congrArg BitVec.toNat hz
  rwa [BitVec.toNat_ofNat, Nat.mod_eq_of_lt (by omega)] at this

theorem ofNat_word_getLsbD (q : Nat) : (BitVec.ofNat 16 q).getLsbD 15 = q.testBit 15 := by
  rw [BitVec.getLsbD_ofNat]
  rfl

/-- An overflow of a division leaves N and Z free. -/
theorem divideOverflow_run (u : State) : ∃ n z, divideOverflow.run u =
    .ok () ((u.drew 2).withSr { u.sr with n := n, z := z, v := true, c := false }) :=
  ⟨_, _, rfl⟩

theorem divideResult_run (dn : Reg) (q r : Word) (u : State) : (divideResult dn q r).run u =
    .ok () ((u.withSr { u.sr with n := q.getLsbD 15, z := q == 0, v := false, c := false }).putD dn (r ++ q)) := rfl

/-- DIVS after its operand, with a divisor that is not zero. -/
theorem execDivs_of {s t : State} {dn : Reg} {ea : Ea} {q r : Int} (h : s.canSource 0 .word ea)
    (hv : ((s.source 0 .word ea).setWidth 16 : Word) ≠ 0)
    (hq : (s.getD dn).toInt.tdiv ((s.source 0 .word ea).setWidth 16 : Word).toInt = q)
    (hr : (s.getD dn).toInt.tmod ((s.source 0 .word ea).setWidth 16 : Word).toInt = r)
    (ht : (if q < -32768 ∨ 32767 < q then divideOverflow
      else divideResult dn (BitVec.ofInt 16 q) (BitVec.ofInt 16 r)).run (s.resolved 0 .word ea) = .ok () t) :
    exec (.divs dn ea) s = .next t := by
  refine instr_operand h ?_
  rw [bind_ok (ask_run _ _), State.resolved_getD, if_neg (mt (source_word_eq_zero s 0 ea).1 hv), source_sext_word]
  simp only [hq, hr]
  exact ht

/-- DIVU after its operand, with a divisor that is not zero. -/
theorem execDivu_of {s t : State} {dn : Reg} {ea : Ea} (h : s.canSource 0 .word ea)
    (hv : ((s.source 0 .word ea).setWidth 16 : Word) ≠ 0)
    (ht : (if 65535 < (s.getD dn).toNat / ((s.source 0 .word ea).setWidth 16 : Word).toNat then divideOverflow
      else divideResult dn (BitVec.ofNat 16 ((s.getD dn).toNat / ((s.source 0 .word ea).setWidth 16 : Word).toNat))
        (BitVec.ofNat 16 ((s.getD dn).toNat % ((s.source 0 .word ea).setWidth 16 : Word).toNat))).run
          (s.resolved 0 .word ea) = .ok () t) :
    exec (.divu dn ea) s = .next t := by
  refine instr_operand h ?_
  rw [bind_ok (ask_run _ _), State.resolved_getD, if_neg (mt (source_word_eq_zero s 0 ea).1 hv), source_toNat_word]
  exact ht

/-- Settles O24: quotient and remainder are unique, so they are those of truncating division. -/
theorem divideResults : Obligations.DivideResults := by
  intro s dn ea h u v hv
  have hsr : u.sr = s.sr := by simp [u]
  constructor
  · intro q r hd hlt hs
    obtain ⟨hq, hr⟩ := tdiv_unique _ _ _ _ hd hlt hs
    have go : ∀ {t : State}, (if q < -32768 ∨ 32767 < q then divideOverflow
        else divideResult dn (BitVec.ofInt 16 q) (BitVec.ofInt 16 r)).run u = .ok () t →
        exec (.divs dn ea) s = .next t := execDivs_of h hv hq hr
    by_cases hb : -32768 ≤ q ∧ q ≤ 32767
    · rw [if_pos hb]
      refine go ?_
      rw [if_neg (by omega), divideResult_run, hsr, ofInt_word_getLsbD hb, ofInt_word_eq_zero hb]
    · rw [if_neg hb]
      obtain ⟨n, z, ho⟩ := divideOverflow_run u
      rw [hsr] at ho
      refine ⟨n, z, go ?_⟩
      rw [if_pos (by omega), ho]
  · intro q r
    have go : ∀ {t : State}, (if 65535 < q then divideOverflow
        else divideResult dn (BitVec.ofNat 16 q) (BitVec.ofNat 16 r)).run u = .ok () t →
        exec (.divu dn ea) s = .next t := execDivu_of h hv
    by_cases hb : q ≤ 65535
    · rw [if_pos hb]
      refine go ?_
      rw [if_neg (by omega), divideResult_run, hsr, ofNat_word_getLsbD, ofNat_word_eq_zero hb]
    · rw [if_neg hb]
      obtain ⟨n, z, ho⟩ := divideOverflow_run u
      rw [hsr] at ho
      refine ⟨n, z, go ?_⟩
      rw [if_pos (by omega), ho]

/-! MOVEP. -/

/-- Settles O27: the byte cycles of MOVEP, one after the other. -/
theorem movepResults : Obligations.MovepResults := by
  intro s dn an d u sp a v
  have hw : ∀ {w : State} {b : Long} {x : Byte}, s.writesMemory sp b false →
      w.platform = s.platform ∧ w.cycles = s.cycles → (busWrite8 sp b x).run w = .ok () (w.putByte sp b x) :=
    fun h hp => busWrite8_ok (by simpa only [State.writesMemory, hp.1, hp.2] using h)
  have hr : ∀ {b : Long}, s.readsMemory sp b false → (busRead8 sp b).run u = .ok (s.byteAt sp b) u :=
    fun h => busRead8_ok h
  refine ⟨fun h0 h2 => ⟨instr_word ?_, fun h4 h6 => instr_word ?_⟩,
    fun h0 h2 => ⟨instr_word ?_, fun h4 h6 => instr_word ?_⟩⟩
  · rw [bind_ok (ask_run _ _), bind_ok (ask_run _ _), bind_ok (ask_run _ _)]
    show (busWrite8 sp a _ >>= fun _ => busWrite8 sp (a + 2) _).run u = _
    rw [bind_ok (hw (w := u) h0 ⟨rfl, rfl⟩), hw h2 (by simp [u, State.after])]
    rfl
  · rw [bind_ok (ask_run _ _), bind_ok (ask_run _ _), bind_ok (ask_run _ _)]
    show (busWrite8 sp a _ >>= fun _ => busWrite8 sp (a + 2) _ >>= fun _ => busWrite8 sp (a + 4) _ >>= fun _ =>
      busWrite8 sp (a + 6) _).run u = _
    rw [bind_ok (hw (w := u) h0 ⟨rfl, rfl⟩), bind_ok (hw h2 (by simp [u, State.after])),
      bind_ok (hw h4 (by simp [u, State.after])), hw h6 (by simp [u, State.after])]
    rfl
  · rw [bind_ok (ask_run _ _), bind_ok (ask_run _ _), bind_ok (ask_run _ _)]
    refine (bind_ok (hr h0)).trans ((bind_ok (hr h2)).trans ?_)
    simp [Size.merge, v, u, State.getD, State.after]
  · rw [bind_ok (ask_run _ _), bind_ok (ask_run _ _), bind_ok (ask_run _ _)]
    exact (bind_ok (hr h0)).trans ((bind_ok (hr h2)).trans ((bind_ok (hr h4)).trans (bind_ok (hr h6))))

/-! PROOF. What single instructions leave: branches, the stack, the status register, and the traps of group 2. -/

/-! Branches. -/

/-- An instruction that first computes a branch target. -/
theorem instr_branch {s t : State} {d : BrDisp} {k : Long → M Unit}
    (hk : (k (s.pc + 2 + d.offset)).run (s.after d.words) = .ok () t) : instr s (branchTarget d >>= k) = .next t :=
  instr_ok (by rw [bind_ok (branchTarget_opened s d), hk])

/-- An instruction that first computes a control address. -/
theorem instr_control {s t : State} {ea : Ea} {k : Long → M Unit} (h : ea.isControl = true)
    (hk : (k (s.addressOf 0 ea)).run (s.resolved 0 .long ea) = .ok () t) :
    instr s (effectiveAddress ea >>= k) = .next t :=
  instr_opened (by rw [bind_ok (effectiveAddress_after h), hk])

/-- The counter of DBcc, one less. -/
theorem counter_pred (v : Long) :
    Size.word.trunc (Size.word.trunc v - 1) = ((v.setWidth 16 - 1 : Word).setWidth 32 : Long) := by
  simp only [Size.trunc]
  congr 1
  apply BitVec.eq_of_toNat_eq
  simp only [BitVec.toNat_setWidth, BitVec.toNat_sub, show (1 : Long).toNat = 1 from rfl,
    show (1 : Word).toNat = 1 from rfl]
  have := v.isLt
  omega

/-- The counter of DBcc has run out. -/
theorem counter_eq (k : Word) : ((k.setWidth 32 : Long) = 0xFFFF) ↔ k = 0xFFFF := by
  refine ⟨fun h => ?_, fun h => by rw [h]; rfl⟩
  have := congrArg (BitVec.setWidth 16) h
  simpa using this

theorem merge_word (old : Long) (k : Word) : Size.word.merge old (k.setWidth 32) = old.extractLsb' 16 16 ++ k := by
  simp [Size.merge]

/-- Settles O28: the target is computed first, then the condition decides. -/
theorem branchResults : Obligations.BranchResults := by
  intro s
  refine ⟨fun c d => instr_branch ?_, fun d => instr_branch rfl, fun c dn d => ?_, fun ea h => ?_⟩
  · rw [bind_ok (ask_run _ _), show (s.after d.words).sr = s.sr from rfl]
    cases holds c s.sr <;> rfl
  · intro k u
    refine instr_branch (d := .word d) ?_
    rw [bind_ok (ask_run _ _), show (s.after (BrDisp.word d).words).sr = s.sr from rfl]
    cases holds c s.sr with
    | true => rfl
    | false =>
      have hg : (s.after 1).getD dn = s.getD dn := rfl
      simp only [Bool.false_eq_true, if_false]
      rw [bind_ok (dataReg_run _ _ _), bind_ok (setDataReg_run _ _ _ _)]
      simp only [BrDisp.words, hg, counter_pred, counter_eq, merge_word]
      by_cases hk : k = 0xFFFF
      · rw [if_pos hk, if_pos hk]
        rfl
      · rw [if_neg hk, if_neg hk]
        rfl
  · unfold exec execJmp
    exact instr_control h rfl

/-! The stack. -/

theorem dataSpace_putA (s : State) (r : Reg) (v : Long) : (s.putA r v).dataSpace = s.dataSpace := by
  simp [State.dataSpace]

/-- Which stack pointer A7 is depends on S alone. -/
theorem State.withSr_putA {s : State} {q : Sr} {r : Reg} {v : Long} (h : q.s = s.sr.s) :
    (s.putA r v).withSr q = (s.withSr q).putA r v := by
  simp only [State.putA, State.withSr, h]
  split
  · rfl
  · split <;> rfl

/-- Settles O29: the target or address first, then the push or pop. -/
theorem stackResults : Obligations.StackResults := by
  constructor
  · intro s hw
    refine ⟨fun d => instr_branch ?_, fun ea h => ?_, fun an d => ?_⟩
    · rw [bind_ok (ask_run _ _), bind_ok (pushLong_after (u := s.after d.words) _ hw ⟨rfl, rfl⟩ rfl rfl)]
      rfl
    · have ha := State.resolved_getA_of_control s ea h 0 7
      have hp : (s.resolved 0 .long ea).platform = s.platform ∧ (s.resolved 0 .long ea).cycles = s.cycles := by simp
      have hs : (s.resolved 0 .long ea).sr = s.sr := by simp
      refine ⟨instr_control h ?_, instr_control h ?_⟩
      · rw [bind_ok (ask_run _ _), bind_ok (pushLong_after _ hw hp hs ha)]
        rfl
      · exact pushLong_after _ hw hp hs ha
    · intro top v
      unfold exec execLink
      refine instr_word ?_
      have hg : ((s.after 1).putA 7 ((s.after 1).getA 7 - 4)).getA 7 = top := by simp; rfl
      have hv : ((s.after 1).putA 7 ((s.after 1).getA 7 - 4)).getA an = v := by
        simp only [State.getA_putA]
        rfl
      have hd : ((s.after 1).putA 7 ((s.after 1).getA 7 - 4)).dataSpace = s.dataSpace := dataSpace_putA _ _ _
      rw [bind_ok (upd_run _ _), bind_ok (ask_run _ _), bind_ok (ask_run _ _), bind_ok (ask_run _ _), hg, hv, hd]
      have hc : ((s.after 1).putA 7 ((s.after 1).getA 7 - 4)).canWrite .long s.dataSpace top :=
        State.canWrite_of_bus hw (by simp [State.after])
      rw [bind_ok (writeMem_ok hc), bind_ok (upd_run _ _), upd_run]
      have hpu : ((s.after 1).putA 7 ((s.after 1).getA 7 - 4)).putOperand .long true s.dataSpace top v =
          (s.after 1).pushed v := rfl
      rw [hpu]
      have ht : ((s.after 1).pushed v).getA 7 = top := by simp [State.pushed]; rfl
      rw [ht]
      simp only [State.getA_putA, ht]
      cases an
      simp
  · intro s sp a
    refine ⟨fun h => ?_, fun h1 h2 => ?_, fun an h => ?_⟩
    · unfold exec execRts
      refine instr_opened ?_
      rw [bind_ok (popLong_ok (s := s.after 0) h)]
      rfl
    · unfold exec execRtr
      refine instr_opened ?_
      have hq : (s.sr.withCcr (s.wordAt sp a)).s = (s.after 0).sr.s := rfl
      have hg : (((s.after 0).putA 7 (a + 2)).withSr (s.sr.withCcr (s.wordAt sp a))).getA 7 = a + 2 := by
        rw [State.withSr_putA hq]
        simp
      have hl : (((s.after 0).putA 7 (a + 2)).withSr (s.sr.withCcr (s.wordAt sp a))).longAt sp (a + 2) =
          s.longAt sp (a + 2) := State.longAt_putA (s.after 0) 7 (a + 2) sp (a + 2)
      have hd : (((s.after 0).putA 7 (a + 2)).withSr (s.sr.withCcr (s.wordAt sp a))).dataSpace = sp := rfl
      have hc : (((s.after 0).putA 7 (a + 2)).withSr (s.sr.withCcr (s.wordAt sp a))).canRead .long sp (a + 2) :=
        State.canRead_of_bus h2 (by simp [State.after])
      rw [bind_ok (popWord_ok (s := s.after 0) h1), bind_ok (updSr_run _ _)]
      have hsr : ((s.after 0).putA 7 ((s.after 0).getA 7 + 2)).sr = s.sr := by simp [State.after]
      rw [hsr, show (s.after 0).getA 7 = a from rfl, show (s.after 0).dataSpace = sp from rfl,
        show (s.after 0).wordAt sp a = s.wordAt sp a from rfl, bind_ok (popLong_ok (by rw [hg, hd]; exact hc)), hg, hd, hl]
      rw [State.withSr_putA hq, State.putA7_putA7, State.withSr_putA hq, show a + 2 + 4 = a + 6 by rw [BitVec.add_assoc]; rfl]
      rfl
    · unfold exec execUnlk
      refine instr_opened ?_
      have hg : ((s.after 0).putA 7 (s.getA an)).getA 7 = s.getA an := by simp
      have hd : ((s.after 0).putA 7 (s.getA an)).dataSpace = sp := dataSpace_putA (s.after 0) _ _
      have hc : ((s.after 0).putA 7 (s.getA an)).canRead .long sp (s.getA an) := State.canRead_of_bus h (by simp [State.after])
      rw [bind_ok (upd_run _ _), show (s.after 0).getA an = s.getA an from rfl,
        bind_ok (popLong_ok (by rw [hg, hd]; exact hc)), hg, hd, State.longAt_putA, State.putA7_putA7]
      rfl

/-! PROOF. The status register as a word and the instructions that write it, the privileged instructions, and the traps of groups 1 and 2. -/

/-! The status register as a word. -/

theorem bitCode_getLsbD {n : Nat} (w : BitVec n) (k : Nat) : bitCode (w.getLsbD k) = w.toNat / 2 ^ k % 2 := by
  rw [BitVec.getLsbD, Nat.testBit_eq_decide_div_mod_eq]
  rcases Nat.mod_two_eq_zero_or_one (w.toNat / 2 ^ k) with h | h <;> simp [h, bitCode]

theorem bitCode_le (b : Bool) : bitCode b ≤ 1 := by cases b <;> decide

theorem testBit_of_bitCode {n k : Nat} {b : Bool} (h : n / 2 ^ k % 2 = bitCode b) : n.testBit k = b := by
  rw [Nat.testBit_eq_decide_div_mod_eq, h]
  cases b <;> rfl

/-- Bit `k` of the status register (rule R35); the unimplemented bits are 0. -/
def Sr.bit (q : Sr) (k : Nat) : Bool :=
  match k with
  | 0 => q.c
  | 1 => q.v
  | 2 => q.z
  | 3 => q.n
  | 4 => q.x
  | 8 => q.i.getLsbD 0
  | 9 => q.i.getLsbD 1
  | 10 => q.i.getLsbD 2
  | 13 => q.s
  | 15 => q.t
  | _ => false

/-- The numbers of the bits of a word. -/
theorem bit_cases {k : Nat} (hk : k < 16) : k = 0 ∨ k = 1 ∨ k = 2 ∨ k = 3 ∨ k = 4 ∨ k = 5 ∨ k = 6 ∨ k = 7 ∨ k = 8 ∨
    k = 9 ∨ k = 10 ∨ k = 11 ∨ k = 12 ∨ k = 13 ∨ k = 14 ∨ k = 15 := by
  omega

/-- The word of the status register holds its bits where `Sr.bit` says. -/
theorem toWord_getLsbD (q : Sr) {k : Nat} (hk : k < 16) : q.toWord.getLsbD k = q.bit k := by
  rw [Sr.toWord, BitVec.getLsbD_ofNat, decide_eq_true hk, Bool.true_and]
  apply testBit_of_bitCode
  have ht := bitCode_le q.t
  have hs := bitCode_le q.s
  have hx := bitCode_le q.x
  have hn := bitCode_le q.n
  have hz := bitCode_le q.z
  have hv := bitCode_le q.v
  have hc := bitCode_le q.c
  have hi := q.i.isLt
  have h0 : bitCode false = 0 := rfl
  have i0 := bitCode_getLsbD q.i 0
  have i1 := bitCode_getLsbD q.i 1
  have i2 := bitCode_getLsbD q.i 2
  rcases bit_cases hk with rfl | rfl | rfl | rfl | rfl | rfl | rfl | rfl | rfl | rfl | rfl | rfl | rfl | rfl | rfl | rfl <;>
    simp only [Sr.bit, i0, i1, i2, h0] <;> omega

/-- A word is fixed by its sixteen bits. -/
theorem word_ext {v w : Word} (h : ∀ k, k < 16 → v.getLsbD k = w.getLsbD k) : v = w :=
  BitVec.eq_of_getLsbD_eq fun k hk => h k hk

theorem ofWord_bit (w : Word) {k : Nat} (hk : k < 16) :
    (Sr.ofWord w).bit k = (w.getLsbD k && (0xA71F : Word).getLsbD k) := by
  rcases bit_cases hk with rfl | rfl | rfl | rfl | rfl | rfl | rfl | rfl | rfl | rfl | rfl | rfl | rfl | rfl | rfl | rfl <;>
    simp [Sr.bit, Sr.ofWord]

theorem withCcr_bit (q : Sr) (w : Word) {k : Nat} (hk : k < 16) :
    (q.withCcr w).bit k = (q.bit k && (0xFF00 : Word).getLsbD k || w.getLsbD k && (0x001F : Word).getLsbD k) := by
  rcases bit_cases hk with rfl | rfl | rfl | rfl | rfl | rfl | rfl | rfl | rfl | rfl | rfl | rfl | rfl | rfl | rfl | rfl <;>
    simp [Sr.bit, Sr.withCcr]

/-- Settles O5: the sixteen bits of each word. -/
theorem statusRegisterWords : Obligations.StatusRegisterWords := by
  refine ⟨fun q => word_ext fun k hk => ?_, fun w => word_ext fun k hk => ?_, fun q => ?_,
    fun q w => word_ext fun k hk => ?_⟩
  · rw [BitVec.getLsbD_and, toWord_getLsbD q hk]
    rcases bit_cases hk with rfl | rfl | rfl | rfl | rfl | rfl | rfl | rfl | rfl | rfl | rfl | rfl | rfl | rfl | rfl | rfl <;>
      simp [Sr.bit]
  · rw [BitVec.getLsbD_and, toWord_getLsbD _ hk, ofWord_bit w hk]
  · have hi : q.toWord.extractLsb' 8 3 = q.i := by
      ext k hk
      rw [BitVec.getElem_extractLsb', toWord_getLsbD q (by omega), ← BitVec.getLsbD_eq_getElem]
      have index : k = 0 ∨ k = 1 ∨ k = 2 := by omega
      rcases index with rfl | rfl | rfl <;> rfl
    simp only [Sr.ofWord, hi, toWord_getLsbD q, Nat.reduceLT, Sr.bit]
  · rw [BitVec.getLsbD_or, BitVec.getLsbD_and, BitVec.getLsbD_and, toWord_getLsbD _ hk, toWord_getLsbD _ hk,
      withCcr_bit q w hk]

/-- Settles O4: the sixteen rows of the table. -/
theorem conditionTable : Obligations.ConditionTable := by
  intro q
  exact ⟨rfl, rfl, rfl, rfl, rfl, rfl, rfl, rfl, rfl, rfl, rfl, rfl, rfl, rfl, rfl, rfl⟩

/-- Settles O30: the word is consumed or the operand read, then the low five bits are written. -/
theorem conditionCodeWrites : Obligations.ConditionCodeWrites := by
  intro s
  unfold exec execAndiToCcr execEoriToCcr execOriToCcr execMoveToCcr
  refine ⟨fun b => ⟨instr_word rfl, instr_word rfl, instr_word rfl⟩, fun ea h => instr_operand h ?_⟩
  rw [updSr_run, State.resolved_sr]

/-! Privileged instructions. -/

/-- A privileged instruction in supervisor state that first reads an operand. -/
theorem privileged_operand {s t : State} {sz : Size} {ea : Ea} {k : Long → M Unit} (hs : s.sr.s = true)
    (h : s.canSource 0 sz ea) (hk : (k (s.source 0 sz ea)).run (s.resolved 0 sz ea) = .ok () t) :
    privileged s (operand sz ea >>= k) = .next t := by
  rw [privileged, if_pos hs]
  exact instr_operand h hk

/-- RTE where memory answers its frame. -/
theorem returnFromException_ok {s : State} (h1 : s.canRead .word .supervisorData s.ssp)
    (h2 : s.canRead .long .supervisorData (s.ssp + 2)) :
    returnFromException.run s = .ok () (((s.withSsp (s.ssp + 6)).withSr (Sr.ofWord (s.wordAt .supervisorData s.ssp))).jumped
      (s.longAt .supervisorData (s.ssp + 2))) := by
  rw [returnFromException, bind_ok (ask_run _ _), bind_ok (readWord_ok h1), bind_ok (readLong_ok h2)]
  rfl

/-- Settles O31: in supervisor state the body runs. -/
theorem supervisorResults : Obligations.SupervisorResults := by
  intro s hs
  unfold exec execAndiToSr execEoriToSr execOriToSr execStop execMoveToSr execMoveToUsp execMoveFromUsp execReset execRte
  refine ⟨fun w => ⟨privileged_ok hs rfl, privileged_ok hs rfl, privileged_ok hs rfl, privileged_ok hs rfl⟩,
    fun ea h => privileged_operand hs h rfl, fun an => ⟨privileged_ok hs ?_, privileged_ok hs ?_⟩, privileged_ok hs ?_,
    fun h1 h2 => privileged_ok hs ?_⟩
  · rw [← State.after_zero]
    rfl
  · rw [← State.after_zero]
    rfl
  · rw [← State.after_zero]
    rfl
  · rw [← State.after_zero]
    exact returnFromException_ok (s := s.after 0) h1 h2

/-! Traps. -/

/-- Settles O32: the body traps, or answers where V is clear. -/
theorem trapResults : Obligations.TrapResults := by
  intro s u
  have hu : u = s.opened := State.after_zero s
  clear_value u
  subst hu
  refine ⟨fun n h => ?_, fun hv h => ?_, fun hv => ?_⟩
  · exact (instr_trap (s := s) (t := s.opened) (n := 32 + n.setWidth 8) rfl).trans (State.group2_ok h)
  · refine (instr_trap (s := s) (t := s.opened) (n := 7) ?_).trans (State.group2_ok h)
    rw [bind_ok (ask_run _ _), show s.opened.sr = s.sr from rfl, if_pos hv]
    rfl
  · unfold exec execTrapv
    refine instr_ok (t := s.opened) ?_
    rw [bind_ok (ask_run _ _), show s.opened.sr = s.sr from rfl, hv]
    rfl

/-- What CHK does after its operand and its three first free values. -/
def chkDecide (bound v : Int) : M Unit :=
  if v < 0 then do
    updSr fun q => { q with n := true }
    raise (.trap 6)
  else if bound < v then do
    updSr fun q => { q with n := false }
    raise (.trap 6)
  else do
    let n ← anyBool
    updSr fun q => { q with n := n }

/-- CHK up to its decision. -/
theorem exec_chk {s : State} {dn : Reg} {ea : Ea} (h : s.canSource 0 .word ea) : ∃ z o c,
    exec (.chk dn ea) s = conclude s ((chkDecide ((s.source 0 .word ea).setWidth 16 : Word).toInt
      ((s.getD dn).setWidth 16 : Word).toInt).run
        (((s.resolved 0 .word ea).drew 3).withSr { s.sr with z := z, v := o, c := c })) := by
  have hi : (Size.word.sext (Size.word.trunc (s.getD dn))).toInt = ((s.getD dn).setWidth 16 : Word).toInt := by
    rw [sext_trunc]
    exact toInt_low_word _
  refine ⟨(Config.free s.draws).getLsbD 0, (Config.free (s.draws + 1)).getLsbD 0,
    (Config.free (s.draws + 2)).getLsbD 0, ?_⟩
  rw [show exec (.chk dn ea) s = execChk dn ea s from rfl, execChk, instr]
  rw [← State.after_zero, bind_ok (operand_after h), bind_ok (dataReg_run _ _ _), State.resolved_getD]
  simp only [source_sext_word, hi]
  rw [bind_ok (anyBool_run _), bind_ok (anyBool_run _), bind_ok (anyBool_run _), bind_ok (updSr_run _ _)]
  simp only [State.drawn_sr, State.drawn_draws, State.resolved_sr, State.resolved_draws]
  rfl

/-- A division by zero. -/
theorem divideByZero_run (u : State) : ∃ n z o, divideByZero.run u =
    .error (.trap 5) ((u.drew 3).withSr { u.sr with n := n, z := z, v := o, c := false }) :=
  ⟨_, _, _, rfl⟩

/-- An instruction that first reads an operand and then traps. -/
theorem instr_operand_trap {s t : State} {sz : Size} {ea : Ea} {k : Long → M Unit} {n : BitVec 8}
    (h : s.canSource 0 sz ea)
    (hk : (k (s.source 0 sz ea)).run (s.resolved 0 sz ea) = .error (.trap n) t) :
    instr s (operand sz ea >>= k) = t.group2 n s.pc := by
  refine instr_trap ?_
  rw [← State.after_zero, bind_ok (operand_after h), hk]

/-- Settles O33: the side of the bounds decides CHK; a zero divisor is met before the division. -/
theorem checkAndZeroDivideResults : Obligations.CheckAndZeroDivideResults := by
  intro s dn ea h u v bound
  refine ⟨fun hin => ?_, fun hout ht => ?_, fun hz ht => ?_⟩
  · obtain ⟨z, o, c, hx⟩ := exec_chk (dn := dn) h
    refine ⟨(Config.free (u.draws + 3)).getLsbD 0, z, o, c, hx.trans ?_⟩
    rw [chkDecide, if_neg (by omega), if_neg (by omega), bind_ok (anyBool_run _)]
    rfl
  · obtain ⟨z, o, c, hx⟩ := exec_chk (dn := dn) h
    refine ⟨z, o, c, hx.trans ?_⟩
    have hs : (u.drew 3).sr = s.sr := State.resolved_sr s 0 .word ea
    by_cases hv : v < 0
    · rw [chkDecide, if_pos hv, bind_ok (updSr_run _ _), decide_eq_true hv]
      exact State.group2_ok (ht _)
    · rw [chkDecide, if_neg hv, if_pos (by omega), bind_ok (updSr_run _ _), decide_eq_false hv]
      exact State.group2_ok (ht _)
  · obtain ⟨n, z, o, hx⟩ := divideByZero_run u
    have hs : u.sr = s.sr := State.resolved_sr s 0 .word ea
    rw [hs] at hx
    refine ⟨n, z, o, (instr_operand_trap h ?_).trans (State.group2_ok (ht _)),
      (instr_operand_trap h ?_).trans (State.group2_ok (ht _))⟩ <;>
    · rw [bind_ok (ask_run _ _), if_pos hz]
      exact hx

/-- Settles O36: a word that is no instruction, and the two unimplemented lines, take a group 1 exception. -/
theorem unimplementedWordsTrap : Obligations.UnimplementedWordsTrap := by
  refine ⟨fun s hr hf hs ht => ?_, fun s low => ⟨fun h => ?_, fun h => ?_⟩⟩
  · have hb : ((s.observe.sampled s.sample.ipl).begin s.observe.nextWords) = s.atInstruction 1 := rfl
    have hf' : (s.observe.sampled s.sample.ipl).canFetch 1 := hf
    rw [step_of_runsInstruction hr, fetchExecute, openQueue_ok (Nat.le_refl 1) hf']
    simp only [execute]
    have hn : (s.observe.sampled s.sample.ipl).nextWords = s.observe.nextWords := rfl
    rw [hn, hs, hb]
    exact State.group1_ok ht
  · exact State.group1_ok h
  · exact State.group1_ok h

/-- Settles O53: the state right after reset. -/
theorem resetMeetsInvariant : Obligations.ResetMeetsInvariant :=
  ⟨rfl, fun _ => ⟨fun _ => rfl, fun _ => rfl⟩, fun h => by cases h⟩

/-- Settles O2. -/
theorem decodeSampleWords : Obligations.DecodeSampleWords := by
  exact ⟨rfl, rfl, rfl, rfl, rfl, rfl, rfl, rfl, rfl, rfl, rfl, rfl, rfl⟩

end Sys2Proof.Machine
end

section
/-! PROOF. Carry and overflow of additions and subtractions against exact arithmetic (rules R200, R201), for every operand size. -/

namespace Sys2Proof.Machine

/-- The value of a result of an operand size. -/
theorem toNat_trunc (sz : Size) (v : Long) : (sz.trunc v).toNat = v.toNat % 2 ^ sz.bits := by
  have := v.isLt
  cases sz <;> simp only [Size.trunc, Size.bits, BitVec.toNat_setWidth] <;> omega

/-- The most significant bit of a value of an operand size. -/
theorem msb_iff {sz : Size} {v : Long} (h : v.toNat < 2 ^ sz.bits) : sz.msb v = true ↔ 2 ^ (sz.bits - 1) ≤ v.toNat := by
  rw [Size.msb, BitVec.getLsbD, Nat.testBit_eq_decide_div_mod_eq, decide_eq_true_iff]
  cases sz <;> simp only [Size.bits] at h ⊢ <;> omega

/-- The signed value of a value of an operand size. -/
theorem toInt_sext {sz : Size} {v : Long} (h : v.toNat < 2 ^ sz.bits) :
    (sz.sext v).toInt = if sz.msb v then (v.toNat : Int) - 2 ^ sz.bits else v.toNat := by
  have key : (sz.sext v).toInt = (v.toNat : Int).bmod (2 ^ sz.bits) := by
    cases sz with
    | byte => rw [Size.sext, BitVec.toInt_signExtend_of_le (by decide), BitVec.toInt_setWidth]; rfl
    | word => rw [Size.sext, BitVec.toInt_signExtend_of_le (by decide), BitVec.toInt_setWidth]; rfl
    | long => rw [Size.sext, BitVec.toInt_eq_toNat_bmod]; rfl
  rw [key, Int.bmod_def]
  by_cases hm : sz.msb v = true
  · have hl := (msb_iff h).1 hm
    rw [if_pos hm]
    cases sz <;> simp only [Size.bits, Nat.reducePow, Nat.reduceSub, Int.reducePow] at h hl ⊢ <;>
      omega
  · have hl := mt (msb_iff h).2 hm
    rw [if_neg hm]
    cases sz <;> simp only [Size.bits, Nat.reducePow, Nat.reduceSub] at h hl ⊢ <;>
      omega

/-- A value of an operand size is below its power of two. -/
theorem fits_lt {sz : Size} {v : Long} (h : sz.fits v = true) : v.toNat < 2 ^ sz.bits := by
  cases sz with
  | byte => exact of_decide_eq_true h
  | word => exact of_decide_eq_true h
  | long => exact v.isLt

theorem two_pow_bits (sz : Size) : 2 ^ sz.bits = 2 * 2 ^ (sz.bits - 1) := by cases sz <;> rfl

/-- The most significant bit and the signed value of a value `n` of `2 * half` values, in terms of `n`. -/
structure Signed (half n : Nat) (msb : Bool) (i : Int) : Prop where
  msb_iff : msb = true ↔ half ≤ n
  value : i = if msb then (n : Int) - 2 * half else n

theorem signed_of_lt {sz : Size} {v : Long} (h : v.toNat < 2 ^ sz.bits) :
    Signed (2 ^ (sz.bits - 1)) v.toNat (sz.msb v) (sz.sext v).toInt :=
  ⟨msb_iff h, by rw [toInt_sext h]; cases sz <;> rfl⟩

/-- Carry and overflow of a sum, from the most significant bits of its terms and of the result. -/
theorem sum_flags {half s d k r : Nat} {ms md mr : Bool} {is id ir : Int} (hs : Signed half s ms is)
    (hd : Signed half d md id) (hr : Signed half r mr ir) (sl : s < 2 * half) (dl : d < 2 * half) (kl : k ≤ 1)
    (e : r = (d + s + k) % (2 * half)) :
    decide (2 * half ≤ d + s + k) = ((ms && md) || (!mr && md) || (ms && !mr)) ∧
      (((ms && md && !mr) || (!ms && !md && mr)) = true ↔ id + is + k ≠ ir) := by
  have hc : r = d + s + k ∧ d + s + k < 2 * half ∨ r + 2 * half = d + s + k := by
    by_cases hlt : d + s + k < 2 * half
    · exact .inl ⟨by rw [e, Nat.mod_eq_of_lt hlt], hlt⟩
    · rw [Nat.mod_eq_sub_mod (by omega), Nat.mod_eq_of_lt (by omega)] at e
      omega
  obtain ⟨s1, rfl⟩ := hs
  obtain ⟨d1, rfl⟩ := hd
  obtain ⟨r1, rfl⟩ := hr
  cases ms <;> cases md <;> cases mr <;> simp at s1 d1 r1 ⊢ <;> omega

/-- Borrow and overflow of a difference, from the most significant bits of its terms and of the result. -/
theorem difference_flags {half s d k r : Nat} {ms md mr : Bool} {is id ir : Int} (hs : Signed half s ms is)
    (hd : Signed half d md id) (hr : Signed half r mr ir) (sl : s < 2 * half) (dl : d < 2 * half) (kl : k ≤ 1)
    (rl : r < 2 * half) (e : (r : Int) = ((d : Int) - s - k) % (2 * half : Nat)) :
    decide (d < s + k) = ((ms && !md) || (mr && !md) || (ms && mr)) ∧
      (((!ms && md && !mr) || (ms && !md && mr)) = true ↔ id - is - k ≠ ir) := by
  have hc : r + s + k = d ∨ r + s + k = d + 2 * half := by
    by_cases hb : d < s + k
    · rw [← Int.add_emod_right, Int.emod_eq_of_lt (by omega) (by omega)] at e
      omega
    · rw [Int.emod_eq_of_lt (by omega) (by omega)] at e
      omega
  obtain ⟨s1, rfl⟩ := hs
  obtain ⟨d1, rfl⟩ := hd
  obtain ⟨r1, rfl⟩ := hr
  cases ms <;> cases md <;> cases mr <;> simp at s1 d1 r1 ⊢ <;> omega

/-- The result of an addition is the sum modulo the operand size. -/
theorem addFlags_toNat (sz : Size) (s d : Long) (k : Bool) :
    (addFlags sz s d k).r.toNat = (d.toNat + s.toNat + bitCode k) % 2 ^ sz.bits := by
  rw [addFlags, toNat_trunc, BitVec.toNat_ofNat]
  cases sz <;> simp only [Size.bits] <;> omega

/-- The result of a subtraction is the difference modulo the operand size. -/
theorem subFlags_toNat (sz : Size) (s d : Long) (k : Bool) :
    ((subFlags sz s d k).r.toNat : Int) = ((d.toNat : Int) - s.toNat - bitCode k) % (2 ^ sz.bits : Nat) := by
  have := d.isLt
  have := s.isLt
  have hk := bitCode_le k
  rw [subFlags, toNat_trunc, BitVec.toNat_sub, BitVec.toNat_sub, BitVec.toNat_ofNat]
  cases sz <;> simp only [Size.bits, Nat.reducePow] <;> omega

/-- Settles O3. -/
theorem additionAndSubtractionFlags : Obligations.AdditionAndSubtractionFlags := by
  intro sz s d k hs hd
  have sl := fits_lt hs
  have dl := fits_lt hd
  have kl := bitCode_le k
  constructor
  · intro u t
    have hr : u.r.toNat = t % 2 ^ sz.bits := addFlags_toNat sz s d k
    have rl : u.r.toNat < 2 ^ sz.bits := hr ▸ Nat.mod_lt _ (Nat.two_pow_pos _)
    have key := sum_flags (signed_of_lt sl) (signed_of_lt dl) (signed_of_lt rl) (two_pow_bits sz ▸ sl)
      (two_pow_bits sz ▸ dl) kl (two_pow_bits sz ▸ hr)
    rw [← two_pow_bits] at key
    exact ⟨hr, decide_eq_true_iff, key.1, rfl, key.2, fun q => ⟨rfl, rfl⟩⟩
  · intro u r
    have hr : (u.r.toNat : Int) = ((d.toNat : Int) - s.toNat - bitCode k) % (2 ^ sz.bits : Nat) := subFlags_toNat sz s d k
    have rl : u.r.toNat < 2 ^ sz.bits := by
      have := Int.emod_lt_of_pos ((d.toNat : Int) - s.toNat - bitCode k) (b := (2 ^ sz.bits : Nat))
        (by exact_mod_cast Nat.two_pow_pos _)
      omega
    have key := difference_flags (signed_of_lt sl) (signed_of_lt dl) (signed_of_lt rl) (two_pow_bits sz ▸ sl)
      (two_pow_bits sz ▸ dl) kl (two_pow_bits sz ▸ rl) (two_pow_bits sz ▸ hr)
    exact ⟨hr, decide_eq_true_iff, key.1, rfl, key.2, fun q => ⟨rfl, rfl⟩⟩

/-! PROOF. Shifts step by step against their closed forms (rule R281): a step as arithmetic on the value, then induction on the count. -/

/-! Steps as arithmetic. -/

/-- Repeating a step once more at the end. -/
theorem iterate_succ {α : Type} (f : α → α) (n : Nat) (a : α) : iterate f (n + 1) a = f (iterate f n a) := by
  induction n generalizing a with
  | zero => rfl
  | succ n ih => exact ih (f a)

/-- What each step keeps holds after any number of steps. -/
theorem iterate_induction {α : Type} {f : α → α} {a : α} (P : Nat → α → Prop) (base : P 0 a)
    (step : ∀ n u, P n u → P (n + 1) (f u)) (n : Nat) : P n (iterate f n a) := by
  induction n with
  | zero => exact base
  | succ n ih =>
    rw [iterate_succ]
    exact step n _ ih

theorem shiftLeft_toNat {sz : Size} {r : Long} (b : Bool) (h : r.toNat < 2 ^ sz.bits) :
    (shiftLeft sz r b).toNat = 2 * r.toNat % 2 ^ sz.bits + bitCode b := by
  have ht : (sz.trunc (r <<< 1)).toNat = 2 * r.toNat % 2 ^ sz.bits := by
    rw [toNat_trunc, BitVec.toNat_shiftLeft, Nat.shiftLeft_eq]
    cases sz <;> simp only [Size.bits] at h ⊢ <;> omega
  cases b with
  | false =>
    have : (shiftLeft sz r false) = sz.trunc (r <<< 1) := BitVec.or_zero
    rw [this, ht]
    rfl
  | true =>
    have h1 : (BitVec.ofNat 32 (bitCode true)).toNat < 2 ^ 1 := by decide
    have he : (sz.trunc (r <<< 1)).toNat = (2 * r.toNat % 2 ^ sz.bits / 2) <<< 1 := by
      rw [ht, Nat.shiftLeft_eq]
      cases sz <;> simp only [Size.bits] at h ⊢ <;> omega
    rw [shiftLeft, BitVec.toNat_or, he, ← Nat.shiftLeft_add_eq_or_of_lt h1, ← he, ht]
    rfl

theorem shiftRight_toNat {sz : Size} {r : Long} (b : Bool) (h : r.toNat < 2 ^ sz.bits) :
    (shiftRight sz r b).toNat = r.toNat / 2 + bitCode b * 2 ^ (sz.bits - 1) := by
  have ht : (r >>> 1).toNat = r.toNat / 2 := by
    rw [BitVec.toNat_ushiftRight, Nat.shiftRight_eq_div_pow]
  have hl : (r >>> 1).toNat < 2 ^ (sz.bits - 1) := by
    rw [ht]
    cases sz <;> simp only [Size.bits] at h ⊢ <;> omega
  have hb : (BitVec.ofNat 32 (bitCode b * 2 ^ (sz.bits - 1)) : Long).toNat = bitCode b <<< (sz.bits - 1) := by
    rw [BitVec.toNat_ofNat, Nat.shiftLeft_eq]
    cases sz <;> cases b <;> rfl
  rw [shiftRight, BitVec.toNat_or, hb, Nat.or_comm, ← Nat.shiftLeft_add_eq_or_of_lt hl, Nat.shiftLeft_eq, ht, Nat.add_comm]

theorem shiftLeft_lt {sz : Size} {r : Long} (b : Bool) (h : r.toNat < 2 ^ sz.bits) :
    (shiftLeft sz r b).toNat < 2 ^ sz.bits := by
  have := bitCode_le b
  rw [shiftLeft_toNat b h]
  cases sz <;> simp only [Size.bits] at h ⊢ <;> omega

theorem shiftRight_lt {sz : Size} {r : Long} (b : Bool) (h : r.toNat < 2 ^ sz.bits) :
    (shiftRight sz r b).toNat < 2 ^ sz.bits := by
  have := bitCode_le b
  rw [shiftRight_toNat b h]
  cases sz <;> simp only [Size.bits] at h ⊢ <;> omega

theorem bitCode_msb {sz : Size} {r : Long} (h : r.toNat < 2 ^ sz.bits) :
    bitCode (sz.msb r) = r.toNat / 2 ^ (sz.bits - 1) := by
  rw [Size.msb, bitCode_getLsbD]
  cases sz <;> simp only [Size.bits] at h ⊢ <;> omega

theorem bitCode_low (r : Long) : bitCode (r.getLsbD 0) = r.toNat % 2 := by
  rw [bitCode_getLsbD, Nat.pow_zero, Nat.div_one]

theorem getLsbD_eq_testBit (v : Long) (k : Nat) : v.getLsbD k = v.toNat.testBit k := rfl

/-- The bits above an operand's size are zero. -/
theorem getLsbD_of_fits {sz : Size} {v : Long} (h : v.toNat < 2 ^ sz.bits) {k : Nat} (hk : sz.bits ≤ k) :
    v.getLsbD k = false :=
  Nat.testBit_lt_two_pow (Nat.lt_of_lt_of_le h (Nat.pow_le_pow_right (by decide) hk))

/-! Shifts to the left. -/

/-- The value after `n` steps to the left, and its most significant bit. -/
theorem left_msb {sz : Size} {v r : Long} {n : Nat} (h : v.toNat < 2 ^ sz.bits)
    (hr : r.toNat = v.toNat * 2 ^ n % 2 ^ sz.bits) : sz.msb r = (decide (n < sz.bits) && v.getLsbD (sz.bits - 1 - n)) := by
  have hb : 0 < sz.bits := by cases sz <;> decide
  rw [Size.msb, getLsbD_eq_testBit, hr, Nat.testBit_mod_two_pow, Nat.testBit_mul_two_pow, getLsbD_eq_testBit,
    decide_eq_true (show sz.bits - 1 < sz.bits by omega), Bool.true_and]
  congr 1
  exact decide_eq_decide.2 (by omega)

theorem left_step {sz : Size} {v r : Long} {n : Nat} (hr : r.toNat = v.toNat * 2 ^ n % 2 ^ sz.bits) :
    (shiftLeft sz r false).toNat = v.toNat * 2 ^ (n + 1) % 2 ^ sz.bits := by
  have hl : r.toNat < 2 ^ sz.bits := hr ▸ Nat.mod_lt _ (Nat.two_pow_pos _)
  rw [shiftLeft_toNat false hl, hr, Nat.mul_mod_mod, Nat.pow_succ]
  show 2 * (v.toNat * 2 ^ n) % 2 ^ sz.bits + 0 = _
  rw [Nat.add_zero, Nat.mul_comm 2, Nat.mul_assoc]

/-- LSL after `n` steps. -/
structure LeftShifted (sz : Size) (q : Sr) (v : Long) (n : Nat) (u : Shift) : Prop where
  value : u.r.toNat = v.toNat * 2 ^ n % 2 ^ sz.bits
  carry : u.c = (decide (1 ≤ n ∧ n ≤ sz.bits) && v.getLsbD (sz.bits - n))
  extend : u.x = if n = 0 then q.x else u.c

theorem leftShifted_zero {sz : Size} {q : Sr} {v : Long} (h : v.toNat < 2 ^ sz.bits) (o : Bool) :
    LeftShifted sz q v 0 { r := v, x := q.x, c := false, v := o } :=
  ⟨by rw [Nat.pow_zero, Nat.mul_one, Nat.mod_eq_of_lt h], by simp, rfl⟩

theorem leftShifted_step {sz : Size} {q : Sr} {v : Long} {n : Nat} {u : Shift} (h : v.toNat < 2 ^ sz.bits)
    (hu : LeftShifted sz q v n u) (o : Bool) :
    LeftShifted sz q v (n + 1) { r := shiftLeft sz u.r false, x := sz.msb u.r, c := sz.msb u.r, v := o } := by
  refine ⟨left_step hu.value, ?_, by simp⟩
  show sz.msb u.r = _
  rw [left_msb h hu.value, show sz.bits - 1 - n = sz.bits - (n + 1) by omega]
  congr 1
  exact decide_eq_decide.2 (by omega)

theorem lsl_leftShifted {sz : Size} {v : Long} (q : Sr) (h : v.toNat < 2 ^ sz.bits) (n : Nat) :
    LeftShifted sz q v n (shifted (stepLsl sz) n q v) ∧ (shifted (stepLsl sz) n q v).v = false :=
  iterate_induction (fun n u => LeftShifted sz q v n u ∧ u.v = false) ⟨leftShifted_zero h _, rfl⟩
    (fun _ _ hu => ⟨leftShifted_step h hu.1 _, hu.2⟩) n

/-- The bit that stands at the top after `j` steps to the left. -/
def topBit (sz : Size) (v : Long) (j : Nat) : Bool := decide (j < sz.bits) && v.getLsbD (sz.bits - 1 - j)

/-- ASL: the overflow tells whether the top bit changed in some step (rule R272). -/
theorem asl_leftShifted {sz : Size} {v : Long} (q : Sr) (h : v.toNat < 2 ^ sz.bits) (n : Nat) :
    LeftShifted sz q v n (shifted (stepAsl sz) n q v) ∧
      ((shifted (stepAsl sz) n q v).v = true ↔ ∃ j, j < n ∧ topBit sz v (j + 1) ≠ topBit sz v j) := by
  refine iterate_induction (fun n u => LeftShifted sz q v n u ∧
    (u.v = true ↔ ∃ j, j < n ∧ topBit sz v (j + 1) ≠ topBit sz v j)) ⟨leftShifted_zero h _, by simp⟩
    (fun m u hu => ⟨leftShifted_step h hu.1 _, ?_⟩) n
  show (u.v || (sz.msb (shiftLeft sz u.r false) != sz.msb u.r)) = true ↔ _
  rw [left_msb h hu.1.value, left_msb h (left_step hu.1.value), Bool.or_eq_true, hu.2, bne_iff_ne]
  constructor
  · rintro (⟨j, hj, hne⟩ | hne)
    · exact ⟨j, by omega, hne⟩
    · exact ⟨m, by omega, hne⟩
  · rintro ⟨j, hj, hne⟩
    by_cases hm : j = m
    · exact .inr (hm ▸ hne)
    · exact .inl ⟨j, by omega, hne⟩

/-- A sequence of bits changes somewhere exactly if two of its members differ. -/
theorem changes_iff {b : Nat → Bool} {n : Nat} :
    (∃ j, j < n ∧ b (j + 1) ≠ b j) ↔ ∃ j, j ≤ n ∧ b j ≠ b 0 := by
  constructor
  · rintro ⟨j, hj, hne⟩
    by_cases h0 : b j = b 0
    · exact ⟨j + 1, hj, h0 ▸ hne⟩
    · exact ⟨j, by omega, h0⟩
  · intro ⟨j, hj, hne⟩
    refine Classical.byContradiction fun hc => ?_
    have hall : ∀ k, k ≤ n → b k = b 0 := by
      intro k
      induction k with
      | zero => exact fun _ => rfl
      | succ k ih =>
        intro hk
        refine Classical.byContradiction fun hne' => ?_
        exact hc ⟨k, by omega, fun e => hne' (e.trans (ih (by omega)))⟩
    exact hne (hall j hj)

/-- The overflow of ASL in terms of the bits that the value had. -/
theorem topBit_changes {sz : Size} {v : Long} (h : v.toNat < 2 ^ sz.bits) (n : Nat) :
    (∃ j, j ≤ n ∧ topBit sz v j ≠ topBit sz v 0) ↔
      (1 ≤ n ∧ n < sz.bits ∧ ¬ ∀ j k, sz.bits - 1 - n ≤ j → j < sz.bits → sz.bits - 1 - n ≤ k → k < sz.bits →
        v.getLsbD j = v.getLsbD k) ∨ (sz.bits ≤ n ∧ v ≠ 0) := by
  have hb : 0 < sz.bits := by cases sz <;> decide
  have top : ∀ j, j < sz.bits → topBit sz v j = v.getLsbD (sz.bits - 1 - j) := fun j hj => by
    rw [topBit, decide_eq_true hj, Bool.true_and]
  have past : topBit sz v sz.bits = false := by simp [topBit]
  by_cases hn : n < sz.bits
  · constructor
    · rintro ⟨j, hj, hne⟩
      have hj0 : j ≠ 0 := fun h0 => hne (h0 ▸ rfl)
      refine .inl ⟨by omega, hn, fun hall => hne ?_⟩
      rw [top j (by omega), top 0 hb]
      exact hall _ _ (by omega) (by omega) (by omega) (by omega)
    · rintro (⟨-, -, hne⟩ | ⟨hle, -⟩)
      · refine Classical.byContradiction fun hc => ?_
        have heq : ∀ i, sz.bits - 1 - n ≤ i → i < sz.bits → v.getLsbD i = topBit sz v 0 := fun i hi hlt => by
          refine Classical.byContradiction fun hd => ?_
          refine hc ⟨sz.bits - 1 - i, by omega, ?_⟩
          rw [top _ (by omega), show sz.bits - 1 - (sz.bits - 1 - i) = i by omega]
          exact hd
        exact hne fun j k hj hj' hk hk' => (heq j hj hj').trans (heq k hk hk').symm
      · omega
  · constructor
    · rintro ⟨j, -, hne⟩
      refine .inr ⟨by omega, fun h0 => hne ?_⟩
      simp [topBit, h0]
    · rintro (⟨-, hlt, -⟩ | ⟨-, hv⟩)
      · omega
      · refine Classical.byContradiction fun hc => ?_
        have hall : ∀ j, j ≤ n → topBit sz v j = false := fun j hj => by
          have h0 : topBit sz v 0 = false := by
            refine Classical.byContradiction fun h1 => ?_
            exact hc ⟨sz.bits, by omega, by rw [past]; exact fun e => h1 e.symm⟩
          refine Classical.byContradiction fun hd => ?_
          exact hc ⟨j, hj, by rw [h0]; exact hd⟩
        refine hv (BitVec.eq_of_getLsbD_eq fun i hi => ?_)
        rw [show (0 : Long).getLsbD i = false from BitVec.getLsbD_zero]
        by_cases hlt : i < sz.bits
        · have := hall (sz.bits - 1 - i) (by omega)
          rwa [top _ (by omega), show sz.bits - 1 - (sz.bits - 1 - i) = i by omega] at this
        · exact getLsbD_of_fits h (by omega)

/-! Shifts to the right. -/

/-- LSR after `n` steps. -/
structure RightShifted (sz : Size) (q : Sr) (v : Long) (n : Nat) (u : Shift) : Prop where
  value : u.r.toNat = v.toNat / 2 ^ n
  carry : u.c = (decide (1 ≤ n ∧ n ≤ sz.bits) && v.getLsbD (n - 1))
  extend : u.x = if n = 0 then q.x else u.c
  overflow : u.v = false

theorem lsr_rightShifted {sz : Size} {v : Long} (q : Sr) (h : v.toNat < 2 ^ sz.bits) (n : Nat) :
    RightShifted sz q v n (shifted (stepLsr sz) n q v) := by
  refine iterate_induction (RightShifted sz q v) ⟨by simp, by simp, rfl, rfl⟩ (fun m u hu => ?_) n
  have hl : u.r.toNat < 2 ^ sz.bits := by
    rw [hu.value]
    exact Nat.lt_of_le_of_lt (Nat.div_le_self _ _) h
  refine ⟨?_, ?_, by simp [stepLsr], hu.overflow⟩
  · show (shiftRight sz u.r false).toNat = _
    rw [shiftRight_toNat false hl, hu.value, Nat.div_div_eq_div_mul, Nat.pow_succ]
    simp [bitCode]
  · show u.r.getLsbD 0 = _
    have hbit : u.r.getLsbD 0 = v.getLsbD m := by
      rw [getLsbD_eq_testBit, hu.value, Nat.testBit_div_two_pow, Nat.zero_add]
      rfl
    by_cases hm : m + 1 ≤ sz.bits
    · rw [hbit, decide_eq_true ⟨by omega, hm⟩, Bool.true_and, Nat.add_sub_cancel]
    · rw [hbit, getLsbD_of_fits h (by omega), decide_eq_false (by omega), Bool.false_and]

/-- Halving a signed value of `2 * half` values, in terms of its bits. -/
theorem signed_half {half r : Nat} {i : Int} {b : Bool} (hs : Signed half r b i) (hr : r < 2 * half) :
    Signed half (r / 2 + bitCode b * half) b (i / 2) := by
  obtain ⟨h1, rfl⟩ := hs
  cases b
  · have : ¬ half ≤ r := fun hle => by simpa using h1.2 hle
    refine ⟨⟨fun hf => (by cases hf), fun hle => ?_⟩, ?_⟩
    · simp only [bitCode] at hle
      simp at hle
      omega
    · simp [bitCode]
  · have : half ≤ r := h1.1 rfl
    refine ⟨⟨fun _ => ?_, fun _ => rfl⟩, ?_⟩
    · simp [bitCode]
    · simp [bitCode]
      omega

/-- The bits after a step to the right. -/
theorem shiftRight_getLsbD {sz : Size} {r : Long} (b : Bool) (h : r.toNat < 2 ^ sz.bits) {i : Nat} (hi : i < sz.bits) :
    (shiftRight sz r b).getLsbD i = if i = sz.bits - 1 then b else r.getLsbD (i + 1) := by
  have hw : sz.bits ≤ 32 := by cases sz <;> decide
  have hp : (BitVec.ofNat 32 (bitCode b * 2 ^ (sz.bits - 1)) : Long).getLsbD i = (b && decide (i = sz.bits - 1)) := by
    cases b with
    | false => simp [bitCode]
    | true =>
      rw [BitVec.getLsbD_ofNat, show bitCode true = 1 from rfl, Nat.one_mul, Nat.testBit_two_pow,
        decide_eq_true (show i < 32 by omega), Bool.true_and, Bool.true_and]
      exact decide_eq_decide.2 (by omega)
  rw [shiftRight, BitVec.getLsbD_or, BitVec.getLsbD_ushiftRight, hp, Nat.add_comm 1 i]
  by_cases ht : i = sz.bits - 1
  · rw [if_pos ht, decide_eq_true ht, getLsbD_of_fits h (by omega), Bool.false_or, Bool.and_true]
  · rw [if_neg ht, decide_eq_false ht, Bool.and_false, Bool.or_false]

/-- ASR after `n` steps. -/
structure ArithmeticShifted (sz : Size) (q : Sr) (v : Long) (n : Nat) (u : Shift) : Prop where
  fits : u.r.toNat < 2 ^ sz.bits
  bits : ∀ i, i < sz.bits → u.r.getLsbD i = v.getLsbD (min (i + n) (sz.bits - 1))
  value : (sz.sext u.r).toInt = (sz.sext v).toInt / (2 ^ n : Nat)
  carry : u.c = (decide (1 ≤ n) && v.getLsbD (min n sz.bits - 1))
  extend : u.x = if n = 0 then q.x else u.c
  overflow : u.v = false

theorem asr_arithmeticShifted {sz : Size} {v : Long} (q : Sr) (h : v.toNat < 2 ^ sz.bits) (n : Nat) :
    ArithmeticShifted sz q v n (shifted (stepAsr sz) n q v) := by
  have hb : 0 < sz.bits := by cases sz <;> decide
  refine iterate_induction (ArithmeticShifted sz q v) ⟨h, fun i hi => ?_, by simp, by simp, rfl, rfl⟩
    (fun m u hu => ?_) n
  · rw [Nat.add_zero, Nat.min_eq_left (by omega)]
  · have hlt : (shiftRight sz u.r (sz.msb u.r)).toNat < 2 ^ sz.bits := shiftRight_lt _ hu.fits
    have hbits : ∀ i, i < sz.bits →
        (shiftRight sz u.r (sz.msb u.r)).getLsbD i = v.getLsbD (min (i + (m + 1)) (sz.bits - 1)) := fun i hi => by
      rw [shiftRight_getLsbD _ hu.fits hi]
      split
      · rw [Size.msb, hu.bits _ (by omega)]
        congr 1
        omega
      · rw [hu.bits _ (by omega)]
        congr 1
        omega
    refine ⟨hlt, hbits, ?_, ?_, by simp [stepAsr], hu.overflow⟩
    · have hh := signed_half (signed_of_lt hu.fits) (two_pow_bits sz ▸ hu.fits)
      rw [← shiftRight_toNat _ hu.fits] at hh
      have hs := signed_of_lt hlt
      have hm : sz.msb (shiftRight sz u.r (sz.msb u.r)) = sz.msb u.r := by
        rw [Size.msb, shiftRight_getLsbD _ hu.fits (by omega), if_pos rfl]
      show (sz.sext (shiftRight sz u.r (sz.msb u.r))).toInt = _
      rw [hs.value, hm, ← hh.value, hu.value, Int.ediv_ediv_of_nonneg (Int.natCast_nonneg _), Nat.pow_succ]
      rfl
    · show u.r.getLsbD 0 = _
      rw [hu.bits 0 hb, decide_eq_true (by omega), Bool.true_and]
      congr 1
      omega

theorem signed_range {half n : Nat} {i : Int} {b : Bool} (hs : Signed half n b i) (h : n < 2 * half) :
    -(half : Int) ≤ i ∧ i < half := by
  obtain ⟨h1, rfl⟩ := hs
  cases b
  · have : ¬ half ≤ n := fun hle => by simpa using h1.2 hle
    simp
    omega
  · have : half ≤ n := h1.1 rfl
    simp
    omega

/-- Beyond the magnitude of a signed value further halving changes nothing. -/
theorem ediv_of_small {i p : Int} {half : Nat} (hp : half ≤ p) (lo : -(half : Int) ≤ i) (hi : i < half) :
    i / p = i / half := by
  by_cases hn : i < 0
  · rw [Int.ediv_eq_neg_one_of_neg_of_le hn (by omega), Int.ediv_eq_neg_one_of_neg_of_le hn (by omega)]
  · rw [Int.ediv_eq_zero_of_lt (by omega) (by omega), Int.ediv_eq_zero_of_lt (by omega) (by omega)]

/-- Settles O6: each shift is in its closed form after every number of steps. -/
theorem shiftClosedForms : Obligations.ShiftClosedForms := by
  intro sz n q v hv w lsl asl lsr asr
  have h := fits_lt hv
  obtain ⟨hl, hlv⟩ := lsl_leftShifted q h n
  obtain ⟨ha, hav⟩ := asl_leftShifted q h n
  have hr := lsr_rightShifted q h n
  have hs := asr_arithmeticShifted q h n
  refine ⟨⟨hl.value, hl.carry, hlv⟩, ⟨BitVec.eq_of_toNat_eq (ha.value.trans hl.value.symm), ha.carry.trans hl.carry.symm,
    hav.trans (changes_iff.trans (topBit_changes h n))⟩, ⟨hr.value, hr.carry, hr.overflow⟩,
    ⟨?_, hs.carry, hs.overflow⟩, fun u hu => ?_⟩
  · rw [hs.value]
    by_cases hn : n ≤ w - 1
    · rw [Nat.min_eq_left hn]
      rfl
    · rw [Nat.min_eq_right (by omega)]
      have hrange := signed_range (signed_of_lt h) (two_pow_bits sz ▸ h)
      exact ediv_of_small (by exact_mod_cast Nat.pow_le_pow_right (by decide) (by omega))
        hrange.1 hrange.2
  · simp only [List.mem_cons, List.not_mem_nil, or_false] at hu
    rcases hu with rfl | rfl | rfl | rfl
    · exact hl.extend
    · exact ha.extend
    · exact hr.extend
    · exact hs.extend

/-! PROOF. Rotates step by step against their closed forms (rule R281): a rotate is a permutation of the digits of one number, of the operand's bits or of those and X. -/

/-! Rotating the binary digits of a number below `2 ^ m`. -/

/-- One place to the left. -/
def rotl (m y : Nat) : Nat := 2 * y % 2 ^ m + y / 2 ^ (m - 1)

/-- One place to the right. -/
def rotr (m y : Nat) : Nat := y / 2 + y % 2 * 2 ^ (m - 1)

/-- `k` places to the right: the low `k` digits above the others. -/
def turned (m y k : Nat) : Nat := y / 2 ^ k + y % 2 ^ k * 2 ^ (m - k)

theorem turned_zero (m y : Nat) : turned m y 0 = y := by
  simp [turned, Nat.mod_one]

theorem turned_all {m y : Nat} (h : y < 2 ^ m) : turned m y m = y := by
  simp [turned, Nat.div_eq_of_lt h, Nat.mod_eq_of_lt h]

/-- A rotation in the form of the closed forms. -/
theorem turned_eq {m y k : Nat} (hk : k ≤ m) : turned m y k = y / 2 ^ k + y * 2 ^ (m - k) % 2 ^ m := by
  rw [turned]
  congr 1
  rw [show (2 : Nat) ^ m = 2 ^ k * 2 ^ (m - k) by rw [← Nat.pow_add]; congr 1; omega, Nat.mul_mod_mul_right]

/-- The next digit to rotate, and the parts below and above it. -/
theorem digits (y k : Nat) : ∃ c, c < 2 ∧ y / 2 ^ k = 2 * (y / 2 ^ (k + 1)) + c ∧
    y % 2 ^ (k + 1) = c * 2 ^ k + y % 2 ^ k := by
  refine ⟨y / 2 ^ k % 2, Nat.mod_lt _ (by decide), ?_, ?_⟩
  · rw [Nat.pow_succ, ← Nat.div_div_eq_div_mul]
    omega
  · rw [Nat.mod_pow_succ, Nat.mul_comm, Nat.add_comm]

/-- A rotation before and after one more place, in terms of the digit that moves. -/
theorem turned_parts {m y k : Nat} (hk : k < m) : ∃ c q d, c < 2 ∧
    turned m y k = 2 * (q + d) + c ∧ turned m y (k + 1) = q + d + c * 2 ^ (m - 1) ∧
    q = y / 2 ^ (k + 1) ∧ d = y % 2 ^ k * 2 ^ (m - (k + 1)) := by
  obtain ⟨c, hc, hd, hm⟩ := digits y k
  have e1 : 2 ^ (m - k) = 2 ^ (m - (k + 1)) * 2 := by rw [← Nat.pow_succ]; congr 1; omega
  have e2 : 2 ^ k * 2 ^ (m - (k + 1)) = 2 ^ (m - 1) := by rw [← Nat.pow_add]; congr 1; omega
  refine ⟨c, y / 2 ^ (k + 1), y % 2 ^ k * 2 ^ (m - (k + 1)), hc, ?_, ?_, rfl, rfl⟩
  · rw [turned, hd, e1, ← Nat.mul_assoc]
    omega
  · rw [turned, hm, Nat.add_mul, Nat.mul_assoc, e2]
    omega

theorem rotr_turned {m y k : Nat} (hk : k < m) : rotr m (turned m y k) = turned m y (k + 1) := by
  obtain ⟨c, q, d, hc, h0, h1, -, -⟩ := turned_parts (y := y) hk
  have hdiv : (2 * (q + d) + c) / 2 = q + d := by omega
  have hmod : (2 * (q + d) + c) % 2 = c := by omega
  rw [rotr, h0, h1, hdiv, hmod]

theorem rotl_turned {m y k : Nat} (hy : y < 2 ^ m) (hk : k < m) : rotl m (turned m y (k + 1)) = turned m y k := by
  obtain ⟨c, q, d, hc, h0, h1, hq, hd⟩ := turned_parts (y := y) hk
  have small : q + d < 2 ^ (m - 1) := by
    have ql : q < 2 ^ (m - (k + 1)) := by
      rw [hq, Nat.div_lt_iff_lt_mul (Nat.two_pow_pos _), ← Nat.pow_add]
      rwa [show m - (k + 1) + (k + 1) = m by omega]
    have e2 : 2 ^ k * 2 ^ (m - (k + 1)) = 2 ^ (m - 1) := by rw [← Nat.pow_add]; congr 1; omega
    have : (y % 2 ^ k + 1) * 2 ^ (m - (k + 1)) ≤ 2 ^ k * 2 ^ (m - (k + 1)) :=
      Nat.mul_le_mul_right _ (Nat.mod_lt _ (Nat.two_pow_pos _))
    rw [Nat.add_mul, ← hd] at this
    omega
  have hpow : 2 ^ m = 2 * 2 ^ (m - 1) := by rw [← Nat.pow_succ']; congr 1; omega
  have hdiv : (q + d + c * 2 ^ (m - 1)) / 2 ^ (m - 1) = c := by
    rw [Nat.add_mul_div_right _ _ (Nat.two_pow_pos _), Nat.div_eq_of_lt small, Nat.zero_add]
  have hmod : 2 * (q + d + c * 2 ^ (m - 1)) % 2 ^ m = 2 * (q + d) := by
    rw [hpow, Nat.mul_mod_mul_left, Nat.add_mul_mod_self_right, Nat.mod_eq_of_lt small]
  rw [rotl, h0, h1, hdiv, hmod]

/-- Counting on modulo `m`. -/
theorem succ_mod_cases {m : Nat} (hm : 0 < m) (n : Nat) :
    n % m + 1 = m ∧ (n + 1) % m = 0 ∨ n % m + 1 < m ∧ (n + 1) % m = n % m + 1 := by
  have e : (n + 1) % m = (n % m + 1) % m := (Nat.mod_add_mod n m 1).symm
  have hlt := Nat.mod_lt n hm
  by_cases hl : n % m + 1 = m
  · exact .inl ⟨hl, by rw [e, hl, Nat.mod_self]⟩
  · exact .inr ⟨by omega, by rw [e, Nat.mod_eq_of_lt (by omega)]⟩

/-- Any number of places to the right. -/
theorem iterate_rotr {m y : Nat} (hm : 0 < m) (hy : y < 2 ^ m) (n : Nat) : iterate (rotr m) n y = turned m y (n % m) := by
  refine iterate_induction (fun n z => z = turned m y (n % m)) (by rw [Nat.zero_mod, turned_zero]) (fun n z hz => ?_) n
  subst hz
  rw [rotr_turned (Nat.mod_lt _ hm)]
  rcases succ_mod_cases hm n with ⟨hl, h0⟩ | ⟨-, h1⟩
  · rw [hl, turned_all hy, h0, turned_zero]
  · rw [h1]

/-- Any number of places to the left. -/
theorem iterate_rotl {m y : Nat} (hm : 0 < m) (hy : y < 2 ^ m) (n : Nat) :
    iterate (rotl m) n y = turned m y (m - n % m) := by
  refine iterate_induction (fun n z => z = turned m y (m - n % m)) ?_ (fun n z hz => ?_) n
  · rw [Nat.zero_mod, Nat.sub_zero, turned_all hy]
  subst hz
  have hlt := Nat.mod_lt n hm
  obtain ⟨k, hk⟩ : ∃ k, m - n % m = k + 1 := ⟨m - n % m - 1, by omega⟩
  rw [hk, rotl_turned hy (by omega)]
  rcases succ_mod_cases hm n with ⟨hl, h0⟩ | ⟨-, h1⟩
  · rw [h0, Nat.sub_zero, turned_all hy, show k = 0 by omega, turned_zero]
  · rw [h1]
    congr 1
    omega

/-! The rotates. -/

theorem bitCode_inj {a b : Bool} (h : bitCode a = bitCode b) : a = b := by
  cases a <;> cases b <;> first | rfl | cases h

/-- ROL after `n` steps (rule R276). -/
structure RotatedLeft (sz : Size) (q : Sr) (v : Long) (n : Nat) (u : Shift) : Prop where
  fits : u.r.toNat < 2 ^ sz.bits
  value : u.r.toNat = iterate (rotl sz.bits) n v.toNat
  carry : u.c = (decide (0 < n) && u.r.getLsbD 0)
  extend : u.x = q.x
  overflow : u.v = false

theorem rol_rotatedLeft {sz : Size} {v : Long} (q : Sr) (h : v.toNat < 2 ^ sz.bits) (n : Nat) :
    RotatedLeft sz q v n (shifted (stepRol sz) n q v) := by
  refine iterate_induction (RotatedLeft sz q v) ⟨h, rfl, rfl, rfl, rfl⟩ (fun m u hu => ?_) n
  have hv := shiftLeft_toNat (sz.msb u.r) hu.fits
  refine ⟨shiftLeft_lt _ hu.fits, ?_, ?_, hu.extend, hu.overflow⟩
  · show (shiftLeft sz u.r (sz.msb u.r)).toNat = _
    rw [iterate_succ, ← hu.value, hv, bitCode_msb hu.fits, rotl]
  · show sz.msb u.r = (decide (0 < m + 1) && (shiftLeft sz u.r (sz.msb u.r)).getLsbD 0)
    have he : 2 * u.r.toNat % 2 ^ sz.bits % 2 = 0 := by cases sz <;> simp only [Size.bits] <;> omega
    have hb : bitCode ((shiftLeft sz u.r (sz.msb u.r)).getLsbD 0) = bitCode (sz.msb u.r) := by
      have := bitCode_le (sz.msb u.r)
      rw [bitCode_low, hv]
      omega
    rw [decide_eq_true (Nat.succ_pos m), Bool.true_and, bitCode_inj hb]

/-- ROR after `n` steps (rule R277). -/
structure RotatedRight (sz : Size) (q : Sr) (v : Long) (n : Nat) (u : Shift) : Prop where
  fits : u.r.toNat < 2 ^ sz.bits
  value : u.r.toNat = iterate (rotr sz.bits) n v.toNat
  carry : u.c = (decide (0 < n) && sz.msb u.r)
  extend : u.x = q.x
  overflow : u.v = false

theorem ror_rotatedRight {sz : Size} {v : Long} (q : Sr) (h : v.toNat < 2 ^ sz.bits) (n : Nat) :
    RotatedRight sz q v n (shifted (stepRor sz) n q v) := by
  have hb : 0 < sz.bits := by cases sz <;> decide
  refine iterate_induction (RotatedRight sz q v) ⟨h, rfl, rfl, rfl, rfl⟩ (fun m u hu => ?_) n
  refine ⟨shiftRight_lt _ hu.fits, ?_, ?_, hu.extend, hu.overflow⟩
  · show (shiftRight sz u.r (u.r.getLsbD 0)).toNat = _
    rw [iterate_succ, ← hu.value, shiftRight_toNat _ hu.fits, bitCode_low, rotr]
  · show u.r.getLsbD 0 = (decide (0 < m + 1) && sz.msb (shiftRight sz u.r (u.r.getLsbD 0)))
    rw [decide_eq_true (Nat.succ_pos m), Bool.true_and, Size.msb, shiftRight_getLsbD _ hu.fits (by omega), if_pos rfl]

/-- X above the bits of the operand. -/
def Shift.withX (sz : Size) (u : Shift) : Nat := bitCode u.x * 2 ^ sz.bits + u.r.toNat

/-- ROXL or ROXR after `n` steps, as the rotation `f` of the operand's bits and X (rules R278, R279). -/
structure RotatedX (sz : Size) (f : Nat → Nat) (q : Sr) (v : Long) (n : Nat) (u : Shift) : Prop where
  fits : u.r.toNat < 2 ^ sz.bits
  value : u.withX sz = iterate f n (bitCode q.x * 2 ^ sz.bits + v.toNat)
  carry : u.c = u.x
  overflow : u.v = false

theorem roxl_rotatedX {sz : Size} {v : Long} (q : Sr) (h : v.toNat < 2 ^ sz.bits) (n : Nat) :
    RotatedX sz (rotl (sz.bits + 1)) q v n (rotatedX (stepRoxl sz) n q v) := by
  refine iterate_induction (RotatedX sz (rotl (sz.bits + 1)) q v) ⟨h, rfl, rfl, rfl⟩ (fun m u hu => ?_) n
  refine ⟨shiftLeft_lt _ hu.fits, ?_, rfl, hu.overflow⟩
  have hx := bitCode_le u.x
  have hf := hu.fits
  rw [iterate_succ, ← hu.value]
  simp only [Shift.withX, stepRoxl, rotl]
  rw [shiftLeft_toNat _ hf, bitCode_msb hf]
  cases sz <;> simp only [Size.bits] at hf ⊢ <;> omega

theorem roxr_rotatedX {sz : Size} {v : Long} (q : Sr) (h : v.toNat < 2 ^ sz.bits) (n : Nat) :
    RotatedX sz (rotr (sz.bits + 1)) q v n (rotatedX (stepRoxr sz) n q v) := by
  refine iterate_induction (RotatedX sz (rotr (sz.bits + 1)) q v) ⟨h, rfl, rfl, rfl⟩ (fun m u hu => ?_) n
  refine ⟨shiftRight_lt _ hu.fits, ?_, rfl, hu.overflow⟩
  have hx := bitCode_le u.x
  have hf := hu.fits
  rw [iterate_succ, ← hu.value]
  simp only [Shift.withX, stepRoxr, rotr]
  rw [shiftRight_toNat _ hf, bitCode_low]
  cases sz <;> simp only [Size.bits] at hf ⊢ <;> omega

/-- The operand and X of a value that holds both. -/
theorem withX_parts {sz : Size} {u : Shift} (h : u.r.toNat < 2 ^ sz.bits) :
    u.r.toNat = u.withX sz % 2 ^ sz.bits ∧ u.x = decide (u.withX sz / 2 ^ sz.bits = 1) := by
  have hd : u.withX sz / 2 ^ sz.bits = bitCode u.x := by
    rw [Shift.withX, Nat.mul_comm, Nat.mul_add_div (Nat.two_pow_pos _), Nat.div_eq_of_lt h, Nat.add_zero]
  refine ⟨?_, ?_⟩
  · rw [Shift.withX, Nat.mul_comm, Nat.mul_add_mod, Nat.mod_eq_of_lt h]
  · rw [hd]
    cases u.x <;> rfl

/-- Settles O7: each rotate turns its digits by the count modulo their number. -/
theorem rotateClosedForms : Obligations.RotateClosedForms := by
  intro sz n q v hv w k rol ror k' y left right roxl roxr
  have h := fits_lt hv
  have hw : 0 < w := by cases sz <;> decide
  have hk : k < w := Nat.mod_lt _ hw
  have hk' : k' < w + 1 := Nat.mod_lt _ (Nat.succ_pos w)
  have hy : y < 2 ^ (w + 1) := by
    have := bitCode_le q.x
    have hle : bitCode q.x * 2 ^ w ≤ 1 * 2 ^ w := Nat.mul_le_mul_right _ this
    have hv' : v.toNat < 2 ^ w := h
    rw [Nat.pow_succ]
    show bitCode q.x * 2 ^ w + v.toNat < 2 ^ w * 2
    omega
  have hl := rol_rotatedLeft q h n
  have hr := ror_rotatedRight q h n
  have hxl := roxl_rotatedX q h n
  have hxr := roxr_rotatedX q h n
  have el : roxl.withX sz = left := by
    rw [hxl.value, iterate_rotl (Nat.succ_pos w) hy, turned_eq (Nat.sub_le _ _), Nat.add_comm,
      show w + 1 - (w + 1 - n % (w + 1)) = k' by omega]
  have er : roxr.withX sz = right := by
    rw [hxr.value, iterate_rotr (Nat.succ_pos w) hy, turned_eq (Nat.le_of_lt hk')]
  obtain ⟨vl, xl⟩ := withX_parts hxl.fits
  obtain ⟨vr, xr⟩ := withX_parts hxr.fits
  refine ⟨⟨?_, hl.carry⟩, ⟨?_, hr.carry⟩, ⟨el ▸ vl, el ▸ xl, hxl.carry⟩, ⟨er ▸ vr, er ▸ xr, hxr.carry⟩,
    hl.extend, hr.extend, hl.overflow, hr.overflow, hxl.overflow, hxr.overflow⟩
  · rw [hl.value, iterate_rotl hw h, turned_eq (Nat.sub_le _ _), Nat.add_comm, show w - (w - n % w) = k by omega]
  · rw [hr.value, iterate_rotr hw h, turned_eq (Nat.le_of_lt hk)]

end Sys2Proof.Machine
end

section
/-! PROOF. Exception frames in memory: words stored at even distances from the new stack pointer, read back, and the frames of groups 0, 1 and 2 as such words (rules R411, R442). -/

namespace Sys2Proof.Machine

/-! Bytes at distances from an address. -/

/-- Two distances from an address give two keys. -/
theorem Platform.key_add_ne (p : Platform) (sp : Space) (x : Long) {i j : Nat} (hi : i < 16777216) (hj : j < 16777216)
    (h : i ≠ j) : p.key sp (x + BitVec.ofNat 32 i) ≠ p.key sp (x + BitVec.ofNat 32 j) := by
  rw [Ne, Platform.key_eq]
  simp only [busAddress, BitVec.toNat_add, BitVec.toNat_ofNat]
  omega

theorem add_ofNat_succ (x : Long) (i : Nat) : x + BitVec.ofNat 32 i + 1 = x + BitVec.ofNat 32 (i + 1) := by
  rw [BitVec.ofNat_add, BitVec.add_assoc]
  rfl

/-- A word stored at one distance leaves a word at another. -/
theorem State.wordAt_putWord_other {s : State} {sp : Space} {x : Long} {i j : Nat} {w : Word} (hi : i + 1 < 16777216)
    (hj : j + 1 < 16777216) (h : i + 2 ≤ j ∨ j + 2 ≤ i) :
    (s.putWord sp (x + BitVec.ofNat 32 i) w).wordAt sp (x + BitVec.ofNat 32 j) = s.wordAt sp (x + BitVec.ofNat 32 j) := by
  have byte : ∀ k, (k = j ∨ k = j + 1) → (s.putWord sp (x + BitVec.ofNat 32 i) w).byteAt sp (x + BitVec.ofNat 32 k) =
      s.byteAt sp (x + BitVec.ofNat 32 k) := fun k hk => by
    rw [State.putWord, add_ofNat_succ, State.byteAt_putByte_other, State.byteAt_putByte_other]
    · exact Platform.key_add_ne _ _ _ (by omega) (by omega) (by omega)
    · exact Platform.key_add_ne _ _ _ (by omega) (by omega) (by omega)
  rw [State.wordAt, State.wordAt, byte j (.inl rfl), add_ofNat_succ, byte (j + 1) (.inr rfl)]

/-! Memory outside a range. -/

theorem SameMemoryOutside.refl (s : State) (sp : Space) (x : Long) (n : Nat) : SameMemoryOutside s s sp x n :=
  fun _ _ _ => rfl

theorem SameMemoryOutside.trans {s t u : State} {sp : Space} {x : Long} {n : Nat} (hp : t.platform = s.platform)
    (h1 : SameMemoryOutside s t sp x n) (h2 : SameMemoryOutside t u sp x n) : SameMemoryOutside s u sp x n := by
  intro sp' addr' h
  rw [h2 sp' addr' (by rw [hp]; exact h), h1 sp' addr' h]

/-- A byte stored inside the range. -/
theorem sameMemoryOutside_putByte (s : State) (sp : Space) (x : Long) {i n : Nat} (b : Byte) (h : i < n) :
    SameMemoryOutside s (s.putByte sp (x + BitVec.ofNat 32 i) b) sp x n :=
  fun _ _ hk => State.byteAt_putByte_other (hk i h)

/-- A word stored inside the range. -/
theorem sameMemoryOutside_putWord (s : State) (sp : Space) (x : Long) {i n : Nat} (w : Word) (h : i + 2 ≤ n) :
    SameMemoryOutside s (s.putWord sp (x + BitVec.ofNat 32 i) w) sp x n := by
  rw [State.putWord, add_ofNat_succ]
  have h0 : i < n := by omega
  have h1 : i + 1 < n := by omega
  exact SameMemoryOutside.trans (t := s.putByte sp (x + BitVec.ofNat 32 i) _) rfl (sameMemoryOutside_putByte _ _ _ _ h0)
    (sameMemoryOutside_putByte _ _ _ _ h1)

/-! Frames. -/

/-- Words stored at distances from an address, the first first. -/
def State.putFrame (s : State) (sp : Space) (x : Long) (l : List (Nat × Word)) : State :=
  l.foldl (fun s p => s.putWord sp (x + BitVec.ofNat 32 p.1) p.2) s

/-- The distances of a frame of fewer than 64 bytes: even, and each once. -/
def Frame (l : List (Nat × Word)) (n : Nat) : Prop :=
  (l.map Prod.fst).Nodup ∧ ∀ p ∈ l, p.1 % 2 = 0 ∧ p.1 + 2 ≤ n ∧ n ≤ 64

theorem Frame.tail {p : Nat × Word} {l : List (Nat × Word)} {n : Nat} (h : Frame (p :: l) n) : Frame l n :=
  ⟨(List.nodup_cons.1 h.1).2, fun q hq => h.2 q (List.mem_cons_of_mem _ hq)⟩

@[simp] theorem State.putFrame_nil (s : State) (sp : Space) (x : Long) : s.putFrame sp x [] = s := rfl

@[simp] theorem State.putFrame_cons (s : State) (sp : Space) (x : Long) (p : Nat × Word) (l : List (Nat × Word)) :
    s.putFrame sp x (p :: l) = (s.putWord sp (x + BitVec.ofNat 32 p.1) p.2).putFrame sp x l := rfl

/-- Storing a frame is storing memory. -/
theorem State.putFrame_eq (s : State) (sp : Space) (x : Long) (l : List (Nat × Word)) :
    s.putFrame sp x l = { s with mem := (s.putFrame sp x l).mem } := by
  induction l generalizing s with
  | nil => rfl
  | cons p l ih =>
    rw [State.putFrame_cons, ih]
    rfl

theorem State.wordAt_putFrame_other {s : State} {sp : Space} {x : Long} {l : List (Nat × Word)} {n j : Nat}
    (h : Frame l n) (hj : j % 2 = 0 ∧ j ≤ 64) (hne : j ∉ l.map Prod.fst) :
    (s.putFrame sp x l).wordAt sp (x + BitVec.ofNat 32 j) = s.wordAt sp (x + BitVec.ofNat 32 j) := by
  induction l generalizing s with
  | nil => rfl
  | cons p l ih =>
    obtain ⟨hp, hrest⟩ : j ≠ p.1 ∧ j ∉ l.map Prod.fst := by simpa only [List.map_cons, List.mem_cons, not_or] using hne
    have := h.2 p (List.mem_cons_self ..)
    rw [State.putFrame_cons, ih h.tail hrest, State.wordAt_putWord_other (by omega) (by omega) (by omega)]

/-- Every word of a frame is read back. -/
theorem State.wordAt_putFrame {s : State} {sp : Space} {x : Long} {l : List (Nat × Word)} {n : Nat} (h : Frame l n)
    (hm : Memory.wf s.mem = true) {p : Nat × Word} (hp : p ∈ l) :
    (s.putFrame sp x l).wordAt sp (x + BitVec.ofNat 32 p.1) = p.2 := by
  induction l generalizing s with
  | nil => cases hp
  | cons q l ih =>
    rw [State.putFrame_cons]
    rcases List.mem_cons.1 hp with rfl | hp
    · have := h.2 p (List.mem_cons_self ..)
      rw [State.wordAt_putFrame_other h.tail ⟨this.1, by omega⟩ (List.nodup_cons.1 h.1).1]
      exact State.wordAt_putWord_same hm
    · exact ih h.tail (State.wf_putWord hm) hp

theorem sameMemoryOutside_putFrame {s : State} {sp : Space} {x : Long} {l : List (Nat × Word)} {n : Nat}
    (h : Frame l n) : SameMemoryOutside s (s.putFrame sp x l) sp x n := by
  induction l generalizing s with
  | nil => exact SameMemoryOutside.refl _ _ _ _
  | cons p l ih =>
    have hp := (h.2 p (List.mem_cons_self ..)).2.1
    rw [State.putFrame_cons]
    exact SameMemoryOutside.trans (t := s.putWord sp (x + BitVec.ofNat 32 p.1) p.2) rfl
      (sameMemoryOutside_putWord _ _ _ _ hp) (ih h.tail)

/-- An address a distance below another. -/
theorem sub_add_ofNat (x : Long) {n i : Nat} (h : i ≤ n) :
    x - BitVec.ofNat 32 n + BitVec.ofNat 32 i = x - BitVec.ofNat 32 (n - i) := by
  have e : BitVec.ofNat 32 n = BitVec.ofNat 32 (n - i) + BitVec.ofNat 32 i := by
    rw [← BitVec.ofNat_add, Nat.sub_add_cancel h]
  rw [e, ← BitVec.sub_sub, BitVec.sub_add_cancel]

/-- The three-word frame by distances from the new stack pointer. -/
def words3 (old : Sr) (pc : Long) : List (Nat × Word) :=
  [(4, pc.extractLsb' 0 16), (0, old.toWord), (2, pc.extractLsb' 16 16)]

theorem frame_words3 (old : Sr) (pc : Long) : Frame (words3 old pc) 6 :=
  ⟨by simp [words3], by simp [words3]⟩

theorem State.stacked3_eq (s : State) (old : Sr) (pc : Long) :
    s.stacked3 old pc = (s.putFrame .supervisorData (s.ssp - 6) (words3 old pc)).withSsp (s.ssp - 6) := by
  have e4 : s.ssp - 6 + BitVec.ofNat 32 4 = s.ssp - 2 := sub_add_ofNat s.ssp (n := 6) (i := 4) (by decide)
  have e2 : s.ssp - 6 + BitVec.ofNat 32 2 = s.ssp - 4 := sub_add_ofNat s.ssp (n := 6) (i := 2) (by decide)
  have e0 : s.ssp - 6 + BitVec.ofNat 32 0 = s.ssp - 6 := sub_add_ofNat s.ssp (n := 6) (i := 0) (by decide)
  simp only [State.stacked3, words3, State.putFrame_cons, State.putFrame_nil, e4, e2, e0]

/-- A long word whose halves are known. -/
theorem extract_append (v : Long) : (v.extractLsb' 16 16 ++ v.extractLsb' 0 16 : Long) = v := by
  ext i hi
  simp only [BitVec.getElem_append, BitVec.getElem_extractLsb']
  split
  · simp [BitVec.getLsbD_eq_getElem hi]
  · have : 16 + (i - 16) = i := by omega
    simp [this, BitVec.getLsbD_eq_getElem hi]

/-- The queue after the first words of a handler have been fetched. -/
theorem State.filled_queue (s : State) : s.filled.queue =
    if s.pc.getLsbD 0 then s.queue else some (s.wordAt s.programSpace s.pc, s.wordAt s.programSpace (s.pc + 2)) := by
  unfold State.filled
  split <;> rfl

@[simp] theorem State.filled_wordAt (s : State) (sp : Space) (a : Long) : s.filled.wordAt sp a = s.wordAt sp a := by
  simp [State.wordAt, State.byteAt]

@[simp] theorem State.filled_longAt (s : State) (sp : Space) (a : Long) : s.filled.longAt sp a = s.longAt sp a := by
  simp [State.longAt]

theorem State.putFrame_platform (s : State) (sp : Space) (x : Long) (l : List (Nat × Word)) :
    (s.putFrame sp x l).platform = s.platform := by
  rw [State.putFrame_eq]

/-- The memory that a frame leaves depends on memory and platform only. -/
theorem State.putFrame_mem_congr {s t : State} {sp : Space} {x : Long} {l : List (Nat × Word)}
    (h : t.mem = s.mem ∧ t.platform = s.platform) : (t.putFrame sp x l).mem = (s.putFrame sp x l).mem := by
  induction l generalizing s t with
  | nil => exact h.1
  | cons p l ih => exact ih ⟨by simp only [State.putWord, State.putByte, h.1, h.2], h.2⟩

/-- What groups 1 and 2 exception processing leaves, field by field. -/
theorem State.entered3_eq (s : State) (mask : Option (BitVec 3)) (n : BitVec 8) (pc : Long) :
    ∃ target q, s.entered3 mask n pc = { s with
      sr := { s.sr with s := true, t := false, i := mask.getD s.sr.i }
      run := .normal
      mem := (s.putFrame .supervisorData (s.ssp - 6) (words3 s.sr pc)).mem
      ssp := s.ssp - 6
      pc := target
      queue := q } := by
  have hf : ∀ u : State, ∃ q, u.filled = { u with queue := q } := fun u => by
    unfold State.filled
    split
    · exact ⟨u.queue, rfl⟩
    · exact ⟨_, rfl⟩
  have hm : ((s.supervised mask).putFrame .supervisorData (s.ssp - 6) (words3 s.sr pc)).mem =
      (s.putFrame .supervisorData (s.ssp - 6) (words3 s.sr pc)).mem := State.putFrame_mem_congr ⟨rfl, rfl⟩
  obtain ⟨q, hq⟩ := hf (s.vectored mask n pc)
  refine ⟨(s.vectored mask n pc).pc, q, ?_⟩
  rw [State.entered3, hq, State.vectored, State.stacked3_eq, State.putFrame_eq, State.supervised_ssp, hm]
  rfl

theorem State.entered3_mem (s : State) (mask : Option (BitVec 3)) (n : BitVec 8) (pc : Long) :
    (s.entered3 mask n pc).mem = (s.putFrame .supervisorData (s.ssp - 6) (words3 s.sr pc)).mem := by
  obtain ⟨target, q, h⟩ := s.entered3_eq mask n pc
  rw [h]

/-- Exception processing keeps the platform and uses no cycle inputs of its own. -/
theorem State.entered3_bus (s : State) (mask : Option (BitVec 3)) (n : BitVec 8) (pc : Long) :
    (s.entered3 mask n pc).platform = s.platform ∧ (s.entered3 mask n pc).cycles = s.cycles := by
  obtain ⟨target, q, h⟩ := s.entered3_eq mask n pc
  rw [h]
  exact ⟨rfl, rfl⟩

theorem State.entered3_byteAt (s : State) (mask : Option (BitVec 3)) (n : BitVec 8) (pc : Long) (sp : Space) (a : Long) :
    (s.entered3 mask n pc).byteAt sp a = (s.putFrame .supervisorData (s.ssp - 6) (words3 s.sr pc)).byteAt sp a := by
  rw [State.byteAt, State.byteAt, State.entered3_mem, (s.entered3_bus mask n pc).1, State.putFrame_platform]

/-- The frame of groups 1 and 2 in memory. -/
theorem State.entered3_word {s : State} {mask : Option (BitVec 3)} {n : BitVec 8} {pc : Long} (h : Memory.wf s.mem = true)
    {p : Nat × Word} (hp : p ∈ words3 s.sr pc) :
    (s.entered3 mask n pc).wordAt .supervisorData (s.ssp - 6 + BitVec.ofNat 32 p.1) = p.2 := by
  rw [State.wordAt, State.entered3_byteAt, State.entered3_byteAt, ← State.wordAt]
  exact State.wordAt_putFrame (frame_words3 s.sr pc) h hp

theorem State.entered3_outside (s : State) (mask : Option (BitVec 3)) (n : BitVec 8) (pc : Long) :
    SameMemoryOutside s (s.entered3 mask n pc) .supervisorData (s.ssp - 6) 6 := by
  intro sp addr hk
  rw [State.entered3_byteAt]
  exact sameMemoryOutside_putFrame (frame_words3 s.sr pc) sp addr hk

/-- Exception processing moves SSP and writes no other register. -/
theorem State.entered3_registers (s : State) (mask : Option (BitVec 3)) (n : BitVec 8) (pc : Long) :
    (s.entered3 mask n pc).ssp = s.ssp - 6 ∧ (s.entered3 mask n pc).d = s.d ∧ (s.entered3 mask n pc).a = s.a ∧
      (s.entered3 mask n pc).usp = s.usp := by
  obtain ⟨target, q, h⟩ := s.entered3_eq mask n pc
  rw [h]
  exact ⟨rfl, rfl, rfl, rfl⟩

/-- The supervisor state of exception processing. -/
theorem State.entered3_sr (s : State) (mask : Option (BitVec 3)) (n : BitVec 8) (pc : Long) :
    (s.entered3 mask n pc).sr = { s.sr with s := true, t := false, i := mask.getD s.sr.i } ∧
      (s.entered3 mask n pc).run = .normal := by
  obtain ⟨target, q, h⟩ := s.entered3_eq mask n pc
  rw [h]
  exact ⟨rfl, rfl⟩

/-- The routine's address and its first two words. -/
theorem State.entered3_start (s : State) (mask : Option (BitVec 3)) (n : BitVec 8) (pc : Long) :
    (s.entered3 mask n pc).pc = (s.entered3 mask n pc).longAt .supervisorData (vectorAddress n) ∧
      (s.entered3 mask n pc).queue = if (s.entered3 mask n pc).pc.getLsbD 0 then none else
        some ((s.entered3 mask n pc).wordAt .supervisorProgram (s.entered3 mask n pc).pc,
          (s.entered3 mask n pc).wordAt .supervisorProgram ((s.entered3 mask n pc).pc + 2)) := by
  simp only [State.entered3, State.filled_queue, State.filled_pc, State.filled_wordAt, State.filled_longAt]
  exact ⟨rfl, rfl⟩

/-- Settles O37: the frame read back, and the fields that entry leaves. -/
theorem threeWordFrame : Obligations.ThreeWordFrame := by
  intro s mask n pc h
  have word : ∀ p ∈ words3 s.sr pc,
      (s.entered3 mask n pc).wordAt .supervisorData (s.ssp - 6 + BitVec.ofNat 32 p.1) = p.2 :=
    fun p hp => State.entered3_word h hp
  have w0 := word (0, s.sr.toWord) (by simp [words3])
  have w2 := word (2, pc.extractLsb' 16 16) (by simp [words3])
  have w4 := word (4, pc.extractLsb' 0 16) (by simp [words3])
  rw [show s.ssp - 6 + BitVec.ofNat 32 0 = s.ssp - 6 from BitVec.add_zero _] at w0
  obtain ⟨hpc, hq⟩ := s.entered3_start mask n pc
  obtain ⟨hs, hd, ha, hu⟩ := s.entered3_registers mask n pc
  obtain ⟨hsr, hrun⟩ := s.entered3_sr mask n pc
  have hout := s.entered3_outside mask n pc
  generalize s.entered3 mask n pc = t at *
  refine ⟨hs, hs ▸ w0, hs ▸ w2, hs ▸ w4, hpc, hsr, hrun, fun ho => ?_, fun he => ?_, hd, ha, hu, hout⟩
  · rw [hq, if_pos ho]
  · rw [hq, he]
    rfl

/-! The return. -/

theorem ofWord_toWord (q : Sr) : Sr.ofWord q.toWord = q := (statusRegisterWords.2.2.1 q)

/-- Settles O38: RTE reads the frame that entry wrote. -/
theorem returnUndoesEntry : Obligations.ReturnUndoesEntry := by
  intro s mask n pc h henter r2 r4 r6
  have even : s.ssp.getLsbD 0 = false := henter.1
  have bus := s.entered3_bus mask n pc
  have e2 : s.ssp - 6 + 2 = s.ssp - 4 := sub_add_ofNat s.ssp (n := 6) (i := 2) (by decide)
  have e22 : s.ssp - 6 + 2 + 2 = s.ssp - 2 := by
    rw [e2]
    exact sub_add_ofNat s.ssp (n := 4) (i := 2) (by decide)
  have c1 : (s.entered3 mask n pc).canRead .word .supervisorData (s.ssp - 6) :=
    State.canRead_of_bus ⟨even_sub (n := 6) even rfl, r6⟩ bus
  have c2 : (s.entered3 mask n pc).canRead .long .supervisorData (s.ssp - 6 + 2) :=
    State.canRead_of_bus ⟨e2 ▸ even_sub (n := 4) even rfl, e2 ▸ r4, e22 ▸ r2⟩ bus
  have word : ∀ p ∈ words3 s.sr pc,
      (s.entered3 mask n pc).wordAt .supervisorData (s.ssp - 6 + BitVec.ofNat 32 p.1) = p.2 :=
    fun p hp => State.entered3_word h hp
  have w0 := word (0, s.sr.toWord) (by simp [words3])
  have w2 := word (2, pc.extractLsb' 16 16) (by simp [words3])
  have w4 := word (4, pc.extractLsb' 0 16) (by simp [words3])
  rw [show s.ssp - 6 + BitVec.ofNat 32 0 = s.ssp - 6 from BitVec.add_zero _] at w0
  have hlong : (s.entered3 mask n pc).longAt .supervisorData (s.ssp - 6 + 2) = pc := by
    have w4' : (s.entered3 mask n pc).wordAt .supervisorData (s.ssp - 6 + 2 + 2) = pc.extractLsb' 0 16 := by
      rw [BitVec.add_assoc]
      exact w4
    rw [State.longAt, w4', show (s.entered3 mask n pc).wordAt .supervisorData (s.ssp - 6 + 2) = pc.extractLsb' 16 16 from w2]
    exact extract_append pc
  obtain ⟨hssp, hd, ha, hu⟩ := s.entered3_registers mask n pc
  have hsup : (s.entered3 mask n pc).sr.s = true := by rw [(s.entered3_sr mask n pc).1]
  have hout := s.entered3_outside mask n pc
  generalize s.entered3 mask n pc = e at *
  have run := returnFromException_ok (s := e.opened) (hssp ▸ c1) (hssp ▸ c2)
  refine ⟨_, privileged_ok hsup run, ?_, ?_, ?_, hd, ha, hu, hout⟩
  · show Sr.ofWord (e.wordAt .supervisorData e.ssp) = s.sr
    rw [hssp, w0]
    exact ofWord_toWord s.sr
  · show e.longAt .supervisorData (e.ssp + 2) = pc
    rw [hssp, hlong]
  · show e.ssp + 6 = s.ssp
    rw [hssp, BitVec.sub_add_cancel]

/-! PROOF. Group 0 exception processing, the double fault and external reset (rules R441 to R447, R480). -/

/-! The seven-word frame (rules R441, R442). -/

/-- The stacked PC of an activity: free, and near the instruction for an operand (rule R441). -/
theorem stackedPc_run (act : Activity) (u : State) : ∃ v, act.stackedPc.run u = .ok v (u.drew 1) ∧
    ∀ ipc, act = .operand ipc → ∃ j, j < 5 ∧ v = ipc + BitVec.ofNat 32 (2 + 2 * j) := by
  cases act with
  | operand ipc =>
    refine ⟨_, rfl, fun ipc' h => ?_⟩
    cases h
    exact ⟨(Config.free u.draws).toNat % 5, Nat.mod_lt _ (by decide), rfl⟩
  | extension | operation | group1 => exact ⟨_, rfl, fun _ h => by cases h⟩

/-- The stacked instruction register, where an instruction was being processed (rule R442). -/
theorem stackedIr_run (act : Activity) (u : State) : ∃ v n, act.stackedIr.run u = .ok v (u.drew n) ∧
    (act.notInstruction = false → (∀ b, act ≠ .operation b) → v = u.ir) := by
  cases act with
  | operand ipc => exact ⟨_, 0, rfl, fun _ _ => rfl⟩
  | extension => exact ⟨_, 0, rfl, fun _ _ => rfl⟩
  | operation b => exact ⟨_, 1, rfl, fun _ h => absurd rfl (h b)⟩
  | group1 => exact ⟨_, 1, rfl, fun h => by cases h⟩

/-- The seven-word frame by distances from the new stack pointer. -/
def words7 (old : Sr) (pc : Long) (ir : Word) (addr : Long) (status : Word) : List (Nat × Word) :=
  [(12, pc.extractLsb' 0 16), (8, old.toWord), (10, pc.extractLsb' 16 16), (6, ir), (4, addr.extractLsb' 0 16),
    (2, addr.extractLsb' 16 16), (0, status)]

theorem frame_words7 (old : Sr) (pc : Long) (ir : Word) (addr : Long) (status : Word) :
    Frame (words7 old pc ir addr status) 14 :=
  ⟨by simp [words7], by simp [words7]⟩

/-- The writes of a frame, one after the other. -/
def writeFrame (sp : Space) (x : Long) : List (Nat × Word) → M Unit → M Unit
  | [], k => k
  | p :: l, k => writeWord sp (x + BitVec.ofNat 32 p.1) p.2 >>= fun _ => writeFrame sp x l k

theorem writeFrame_run {u : State} {sp : Space} {x : Long} {l : List (Nat × Word)} {k : M Unit}
    (h : ∀ p ∈ l, u.canWrite .word sp (x + BitVec.ofNat 32 p.1)) :
    (writeFrame sp x l k).run u = k.run (u.putFrame sp x l) := by
  induction l generalizing u with
  | nil => rfl
  | cons p l ih =>
    rw [writeFrame, bind_ok (writeWord_ok (h p (List.mem_cons_self ..))), ih, State.putFrame_cons]
    exact fun q hq => State.canWrite_of_bus (h q (List.mem_cons_of_mem _ hq)) ⟨rfl, rfl⟩

theorem State.drew_drawn (u : State) (n : Nat) : ((u.drew 1).drew n).drawn = u.drew (1 + n + 1) := by
  simp only [State.drew, State.drawn, Nat.add_assoc]

/-- Group 0 processing after the free values of its frame. -/
theorem enter0_run (k : AccessFault) (a : Access) (act : Activity) (u : State) : ∃ pc ir open11 n,
    (enter0 k a act).run u = (writeFrame .supervisorData (u.ssp - 14)
      (words7 u.sr pc ir a.addr (statusWord open11 a act)) (do
        upd fun s => s.withSsp (u.ssp - 14)
        let target ← readLong .supervisorData (vectorAddress k.vector)
        jump target
        fillQueue)).run ((u.supervised none).drew n) ∧
    (act.notInstruction = false → (∀ b, act ≠ .operation b) → ir = u.ir) ∧
    ∀ ipc, act = .operand ipc → ∃ j, j < 5 ∧ pc = ipc + BitVec.ofNat 32 (2 + 2 * j) := by
  obtain ⟨pc, hpc, near⟩ := stackedPc_run act (u.supervised none)
  obtain ⟨ir, n, hir, same⟩ := stackedIr_run act ((u.supervised none).drew 1)
  have e : ∀ i, i ≤ 14 → u.ssp - 14 + BitVec.ofNat 32 i = u.ssp - BitVec.ofNat 32 (14 - i) :=
    fun i hi => sub_add_ofNat u.ssp (n := 14) hi
  have e0 : u.ssp - 14 + BitVec.ofNat 32 0 = u.ssp - 14 := e 0 (by decide)
  have e2 : u.ssp - 14 + BitVec.ofNat 32 2 = u.ssp - 12 := e 2 (by decide)
  have e4 : u.ssp - 14 + BitVec.ofNat 32 4 = u.ssp - 10 := e 4 (by decide)
  have e6 : u.ssp - 14 + BitVec.ofNat 32 6 = u.ssp - 8 := e 6 (by decide)
  have e8 : u.ssp - 14 + BitVec.ofNat 32 8 = u.ssp - 6 := e 8 (by decide)
  have e10 : u.ssp - 14 + BitVec.ofNat 32 10 = u.ssp - 4 := e 10 (by decide)
  have e12 : u.ssp - 14 + BitVec.ofNat 32 12 = u.ssp - 2 := e 12 (by decide)
  refine ⟨pc, ir, (Config.free (((u.supervised none).drew 1).drew n).draws).setWidth 11, 1 + n + 1, ?_, same, near⟩
  have hssp : (u.supervised none).ssp = u.ssp := rfl
  rw [enter0, bind_ok (ask_run _ _), bind_ok (upd_run _ _), bind_ok (ask_run _ _), bind_ok hpc, bind_ok hir,
    bind_ok (anyBits_run _ _), hssp]
  simp only [words7, writeFrame, e0, e2, e4, e6, e8, e10, e12]
  rw [← State.drew_drawn]

/-- Reading depends on memory and platform only. -/
theorem State.wordAt_congr {s t : State} (hm : t.mem = s.mem) (hp : t.platform = s.platform) (sp : Space) (a : Long) :
    t.wordAt sp a = s.wordAt sp a := by
  simp only [State.wordAt, State.byteAt, hm, hp]

/-- Group 0 processing where the stack, the vector and the handler answer, field by field. -/
theorem group0_ok {s : State} {k : AccessFault} {a : Access} {act : Activity} (hg : s.inGroup0 = false)
    (h : s.canEnter0 k) : ∃ pc ir open11 n q target,
    let m := s.putFrame .supervisorData (s.ssp - 14) (words7 s.sr pc ir a.addr (statusWord open11 a act))
    s.group0 k a act = .next { s with
      sr := { s.sr with s := true, t := false }
      run := .normal
      mem := m.mem
      ssp := s.ssp - 14
      pc := target
      queue := q
      inGroup0 := true
      tracePending := false
      draws := s.draws + n } ∧
    target = m.longAt .supervisorData (vectorAddress k.vector) ∧
    q = (if target.getLsbD 0 then none else
      some (m.wordAt .supervisorProgram target, m.wordAt .supervisorProgram (target + 2))) ∧
    (act.notInstruction = false → (∀ b, act ≠ .operation b) → ir = s.ir) ∧
    ∀ ipc, act = .operand ipc → ∃ j, j < 5 ∧ pc = ipc + BitVec.ofNat 32 (2 + 2 * j) := by
  obtain ⟨even, w2, w4, w6, w8, w10, w12, w14, rv, start⟩ := h
  obtain ⟨pc, ir, open11, n, hrun, same, near⟩ := enter0_run k a act s.markGroup0
  have hwrite : ∀ i, i ≤ 14 → i % 2 = 0 → s.writesMemory .supervisorData (s.ssp - BitVec.ofNat 32 (14 - i)) true →
      ((s.markGroup0.supervised none).drew n).canWrite .word .supervisorData (s.ssp - 14 + BitVec.ofNat 32 i) := by
    intro i hi he hw
    rw [show s.ssp - 14 + BitVec.ofNat 32 i = s.ssp - BitVec.ofNat 32 (14 - i) from sub_add_ofNat s.ssp (n := 14) hi]
    exact ⟨even_sub even (by omega), hw⟩
  rw [show s.markGroup0.ssp = s.ssp from rfl, show s.markGroup0.sr = s.sr from rfl] at hrun
  rw [writeFrame_run (by
    simp only [words7, List.mem_cons, List.not_mem_nil, or_false]
    rintro p (rfl | rfl | rfl | rfl | rfl | rfl | rfl)
    · exact hwrite 12 (by decide) rfl w2
    · exact hwrite 8 (by decide) rfl w6
    · exact hwrite 10 (by decide) rfl w4
    · exact hwrite 6 (by decide) rfl w8
    · exact hwrite 4 (by decide) rfl w10
    · exact hwrite 2 (by decide) rfl w12
    · exact hwrite 0 (by decide) rfl w14), bind_ok (upd_run _ _)] at hrun
  refine ⟨pc, ir, open11, n, ?_⟩
  have hframe := frame_words7 s.sr pc ir a.addr (statusWord open11 a act)
  generalize words7 s.sr pc ir a.addr (statusWord open11 a act) = l at hrun hframe ⊢
  have hmem : (((s.markGroup0.supervised none).drew n).putFrame .supervisorData (s.ssp - 14) l).mem =
      (s.putFrame .supervisorData (s.ssp - 14) l).mem := State.putFrame_mem_congr ⟨rfl, rfl⟩
  rw [State.putFrame_eq, hmem] at hrun
  have hplat := State.putFrame_platform s .supervisorData (s.ssp - 14) l
  have hstart := start (s.putFrame .supervisorData (s.ssp - 14) l) hplat (sameMemoryOutside_putFrame hframe)
  generalize s.putFrame .supervisorData (s.ssp - 14) l = m at hrun hplat hstart
  generalize hu : State.withSsp _ (s.ssp - 14) = u at hrun
  have hbus : u.platform = s.platform ∧ u.cycles = s.cycles := by subst hu; exact ⟨rfl, rfl⟩
  have hum : u.mem = m.mem := by subst hu; rfl
  have hsp : (u.jumped 0).programSpace = .supervisorProgram := by subst hu; rfl
  have hlong : u.longAt .supervisorData (vectorAddress k.vector) = m.longAt .supervisorData (vectorAddress k.vector) := by
    simp only [State.longAt, State.wordAt_congr hum (hbus.1.trans hplat.symm)]
  have hspace : (u.jumped (m.longAt .supervisorData (vectorAddress k.vector))).canStart
      (m.longAt .supervisorData (vectorAddress k.vector)) := by subst hu; exact hstart
  refine ⟨_, m.longAt .supervisorData (vectorAddress k.vector), ?_, rfl, rfl, same, near⟩
  generalize m.longAt .supervisorData (vectorAddress k.vector) = target at hlong hspace ⊢
  rw [bind_ok (readLong_ok (State.canRead_of_bus rv hbus)), bind_ok (jump_run _ _), hlong, fillQueue_ok hspace] at hrun
  rw [State.group0, hg, if_neg (by decide), hrun]
  have hword : ∀ x : Long, (u.jumped target).wordAt (u.jumped target).programSpace x = m.wordAt .supervisorProgram x :=
    fun x => by
      rw [show (u.jumped target).programSpace = .supervisorProgram from hsp]
      exact State.wordAt_congr hum (hbus.1.trans hplat.symm) _ _
  simp only [State.filled, State.jumped_pc, hword]
  subst hu
  cases target.getLsbD 0 <;> rfl

/-- The low bits of the first word of a group 0 frame. -/
theorem extract_status (o : BitVec 11) (x y : BitVec 1) (c : BitVec 3) :
    ((o ++ x ++ y ++ c : BitVec (11+1+1+3)).extractLsb' 0 (1+1+3)) = (x ++ y ++ c : BitVec (1+1+3)) := by
  apply BitVec.eq_of_getLsbD_eq
  intro i hi
  rw [BitVec.getLsbD_extractLsb', Nat.zero_add, decide_eq_true hi, Bool.true_and]
  simp only [BitVec.getLsbD_append]
  by_cases h3 : i < 3
  · simp [h3]
  · by_cases h4 : i - 3 < 1
    · simp [h3, h4]
    · have : i - 3 - 1 < 1 := by omega
      simp [h3, h4, this]

/-- Settles O39. -/
theorem sevenWordFrame : Obligations.SevenWordFrame := by
  intro s k a act hm hg h
  obtain ⟨pc, ir, open11, n, q, target, hgo, htarget, hq, same, near⟩ := group0_ok (a := a) (act := act) hg h
  have hframe := frame_words7 s.sr pc ir a.addr (statusWord open11 a act)
  have word : ∀ p ∈ words7 s.sr pc ir a.addr (statusWord open11 a act), (s.putFrame .supervisorData (s.ssp - 14)
      (words7 s.sr pc ir a.addr (statusWord open11 a act))).wordAt .supervisorData (s.ssp - 14 + BitVec.ofNat 32 p.1) =
        p.2 := fun p hp => State.wordAt_putFrame hframe hm hp
  have hout := sameMemoryOutside_putFrame (s := s) (sp := .supervisorData) (x := s.ssp - 14) hframe
  have hplat := State.putFrame_platform s .supervisorData (s.ssp - 14) (words7 s.sr pc ir a.addr (statusWord open11 a act))
  have w0 := word (0, statusWord open11 a act) (by simp [words7])
  have w2 := word (2, a.addr.extractLsb' 16 16) (by simp [words7])
  have w4 := word (4, a.addr.extractLsb' 0 16) (by simp [words7])
  have w6 := word (6, ir) (by simp [words7])
  have w8 := word (8, s.sr.toWord) (by simp [words7])
  have w10 := word (10, pc.extractLsb' 16 16) (by simp [words7])
  have w12 := word (12, pc.extractLsb' 0 16) (by simp [words7])
  rw [show s.ssp - 14 + BitVec.ofNat 32 0 = s.ssp - 14 from BitVec.add_zero _] at w0
  generalize s.putFrame .supervisorData (s.ssp - 14) (words7 s.sr pc ir a.addr (statusWord open11 a act)) = m at *
  have hword : ∀ (u : State) (sp : Space) (x : Long), u.mem = m.mem → u.platform = s.platform →
      u.wordAt sp x = m.wordAt sp x := fun u sp x hu hp => State.wordAt_congr hu (hp.trans hplat.symm) sp x
  have long : ∀ i v, m.wordAt .supervisorData (s.ssp - 14 + BitVec.ofNat 32 i) = v.extractLsb' 16 16 →
      m.wordAt .supervisorData (s.ssp - 14 + BitVec.ofNat 32 (i + 2)) = v.extractLsb' 0 16 →
      m.longAt .supervisorData (s.ssp - 14 + BitVec.ofNat 32 i) = v := fun i v h1 h2 => by
    rw [State.longAt, h1, BitVec.add_assoc, show BitVec.ofNat 32 i + 2 = BitVec.ofNat 32 (i + 2) from
      (BitVec.ofNat_add i 2).symm, h2, extract_append]
  have hstatus : (statusWord open11 a act).extractLsb' 0 5 =
      BitVec.ofBool (!a.write) ++ BitVec.ofBool act.notInstruction ++ a.space.fc := by
    exact extract_status open11 _ _ _
  obtain ⟨t, ht, hssp, hmem, hp, hpc, hqueue, hsr, h0, htr, hd, ha, hu⟩ : ∃ t, s.group0 k a act = .next t ∧
      t.ssp = s.ssp - 14 ∧ t.mem = m.mem ∧ t.platform = s.platform ∧ t.pc = target ∧ t.queue = q ∧
      t.sr = { s.sr with s := true, t := false } ∧ t.inGroup0 = true ∧ t.tracePending = false ∧ t.d = s.d ∧
      t.a = s.a ∧ t.usp = s.usp :=
    ⟨_, hgo, rfl, rfl, rfl, rfl, rfl, rfl, rfl, rfl, rfl, rfl, rfl⟩
  have hw : ∀ (sp : Space) (x : Long), t.wordAt sp x = m.wordAt sp x := fun sp x =>
    State.wordAt_congr hmem (hp.trans hplat.symm) sp x
  have hl : ∀ (sp : Space) (x : Long), t.longAt sp x = m.longAt sp x := fun sp x => by simp only [State.longAt, hw]
  refine ⟨t, ht, hssp, ?_, ?_, fun h1 h2 => ?_, ?_, fun ipc hi => ?_, ?_, hsr, h0, htr, fun ho => ?_, fun he => ?_, hd, ha,
    hu, fun sp addr hk => ?_⟩
  · rw [hw, hssp, w0, hstatus]
  · rw [hl, hssp]
    exact long 2 a.addr w2 w4
  · rw [hw, hssp, ← same h1 h2]
    exact w6
  · rw [hw, hssp]
    exact w8
  · obtain ⟨j, hj, e⟩ := near ipc hi
    refine ⟨j, hj, ?_⟩
    rw [hl, hssp, ← e]
    exact long 10 pc w10 w12
  · rw [hl, hpc]
    exact htarget
  · rw [hqueue, hq, if_pos (hpc ▸ ho)]
  · rw [hqueue, hq, hw, hw, hpc]
    exact if_neg (by rw [← hpc, he]; decide)
  · rw [State.byteAt, hmem, hp, ← hplat]
    exact hout sp addr hk

/-! Double faults. -/

/-- Settles O40: in the window nothing is run; outside it the first write of the frame is an address error. -/
theorem doubleFaultHalts : Obligations.DoubleFaultHalts := by
  refine ⟨fun s k a act => ⟨fun hg => ?_, fun hg ho => ?_⟩, fun s hh hr => ?_⟩
  · rw [State.group0, if_pos hg]
  · obtain ⟨pc, ir, open11, n, hrun, -, -⟩ := enter0_run k a act s.markGroup0
    have hodd : (s.ssp - 14 + BitVec.ofNat 32 12).getLsbD 0 = true := by
      rw [show s.ssp - 14 + BitVec.ofNat 32 12 = s.ssp - BitVec.ofNat 32 2 from sub_add_ofNat s.ssp (n := 14) (by decide)]
      refine Classical.byContradiction fun he => ?_
      have := even_add (n := 2) (Bool.eq_false_iff.2 he) rfl
      rw [BitVec.sub_add_cancel, ho] at this
      cases this
    have hw : ∀ w, (writeWord .supervisorData (s.ssp - 14 + BitVec.ofNat 32 12) w).run
        ((s.markGroup0.supervised none).drew n) = .error (.access .address
          { addr := s.ssp - 14 + BitVec.ofNat 32 12, write := true, space := .supervisorData })
          ((s.markGroup0.supervised none).drew n) := fun w => bind_error (needEven_odd hodd)
    refine ⟨((s.markGroup0.supervised none).drew n).halt, ?_, rfl, rfl⟩
    rw [show s.markGroup0.ssp = s.ssp from rfl, words7, writeFrame, bind_error (hw _)] at hrun
    rw [State.group0, hg, if_neg (by decide), hrun]
  · rw [step, stepWith, boundary, if_neg (by simp [hr]), State.observe_run, if_pos hh]

/-! External reset. -/

/-- The reset vector and the first fetch where each read is answered by memory. -/
theorem loadResetVector_ok {s : State} (h0 : s.canRead .long .supervisorProgram 0)
    (h4 : s.canRead .long .supervisorProgram 4) :
    loadResetVector.run s = (do
      needEvenPc
      fillQueue : M Unit).run ((s.withSsp (s.longAt .supervisorProgram 0)).jumped (s.longAt .supervisorProgram 4)) := by
  rw [loadResetVector, bind_ok (readLong_ok h0), bind_ok (upd_run _ _),
    bind_ok (readLong_ok (State.canRead_of_bus (t := s.withSsp (s.longAt .supervisorProgram 0)) h4 ⟨rfl, rfl⟩)),
    bind_ok (upd_run _ _)]
  rfl

/-- A word read that BERR ends, where nothing comes from outside (rule R78). -/
theorem busRead16_busError {s : State} {sp : Space} {addr : Long} (hc : s.cycles = [])
    (h : s.platform.readReply sp addr true = .busError) : (busRead16 sp addr).run s =
      .error (.access .bus { addr := addr, write := false, space := sp }) s := by
  simp [busRead16, startCycle_quiet hc, h, Cycle.quiet, CycleReply.onRead, endRead16]

/-- A long read that BERR ends in one of its cycles. -/
theorem readLong_busError {s : State} {sp : Space} {addr : Long} (he : addr.getLsbD 0 = false) (hc : s.cycles = [])
    (h : s.platform.readReply sp addr true = .busError ∨
      s.readsMemory sp addr true ∧ s.platform.readReply sp (addr + 2) true = .busError) :
    ∃ a, (readLong sp addr).run s = .error (.access .bus a) s := by
  rw [readLong, bind_ok (needEven_ok he)]
  rcases h with h | ⟨h1, h2⟩
  · exact ⟨_, bind_error (busRead16_busError hc h)⟩
  · exact ⟨_, (bind_ok (busRead16_ok h1)).trans (bind_error (busRead16_busError hc h2))⟩

/-- A fetch that BERR ends. -/
theorem fetchWord_busError {s : State} {addr : Long} (he : addr.getLsbD 0 = false) (hc : s.cycles = [])
    (h : s.platform.readReply s.programSpace addr true = .busError) :
    (fetchWord addr).run s = .error (.fetch .bus { addr := addr, write := false, space := s.programSpace }) s := by
  have hr : (readWord s.programSpace addr).run s =
      .error (.access .bus { addr := addr, write := false, space := s.programSpace }) s := by
    rw [readWord, bind_ok (needEven_ok he), busRead16_busError hc h]
  simp only [EStateM.run] at hr ⊢
  simp only [fetchWord, EStateM.run, hr]

/-- Filling the queue where BERR ends one of its fetches. -/
theorem fillQueue_busError {s : State} (he : s.pc.getLsbD 0 = false) (hc : s.cycles = [])
    (h : s.platform.readReply s.programSpace s.pc true = .busError ∨
      s.readsMemory s.programSpace s.pc true ∧ s.platform.readReply s.programSpace (s.pc + 2) true = .busError) :
    ∃ a, fillQueue.run s = .error (.fetch .bus a) s := by
  have even2 : (s.pc + 2).getLsbD 0 = false := even_add (n := 2) he rfl
  rw [fillQueue, bind_ok (ask_run _ _), if_neg (by rw [he]; decide)]
  rcases h with h | ⟨h1, h2⟩
  · exact ⟨_, bind_error (fetchWord_busError he hc h)⟩
  · exact ⟨_, (bind_ok (fetchWord_ok ⟨he, h1⟩)).trans (bind_error (fetchWord_busError even2 hc h2))⟩

theorem needEvenPc_even {s : State} (h : s.pc.getLsbD 0 = false) : needEvenPc.run s = .ok () s := by
  simp only [EStateM.run, needEvenPc, h, Bool.false_eq_true, if_false]

/-- A reset sequence that an access error ends halts. -/
theorem externalReset_error {s t : State} {ipl : BitVec 3} {e : Abort} {k : AccessFault} {a : Access}
    (he : e = .access k a ∨ e = .fetch k a) (h : loadResetVector.run (s.resetRegisters ipl) = .error e t) :
    s.externalReset ipl = .next t.halt := by
  have : ∀ again, afterReset again (.error e t) = .next t.halt := fun again => by
    rcases he with rfl | rfl <;> rfl
  rw [State.externalReset]
  cases s.cycles.length with
  | zero => rw [resetTimes, h, this]
  | succ n => rw [resetTimes, h, this]

theorem externalReset_ok {s t : State} {ipl : BitVec 3} (h : loadResetVector.run (s.resetRegisters ipl) = .ok () t) :
    s.externalReset ipl = .next t := by
  rw [State.externalReset]
  cases s.cycles.length with
  | zero => rw [resetTimes, h, afterReset]
  | succ n => rw [resetTimes, h, afterReset]

theorem step_of_reset {s : State} (h : s.sample.reset = true) : step s = s.observe.externalReset s.sample.ipl := by
  rw [step, stepWith, boundary, if_pos h]

/-- Settles O42. -/
theorem externalResetResult : Obligations.ExternalResetResult := by
  intro s hreset hc o sp berr ssp pc r
  rw [step_of_reset hreset]
  let u := o.resetRegisters s.sample.ipl
  let v := (u.withSsp ssp).jumped pc
  have load : s.canRead .long sp 0 → s.canRead .long sp 4 →
      loadResetVector.run u = (needEvenPc >>= fun _ => fillQueue).run v := fun h0 h4 =>
    loadResetVector_ok (s := u) h0 h4
  refine ⟨fun h0 h4 => ⟨fun he h1 h2 => externalReset_ok ?_, fun hbad => ?_⟩, fun h0 => ?_, fun h0 h4 => ?_⟩
  · rw [load h0 h4, bind_ok (needEvenPc_even he), fillQueue_ok (s := v) fun _ => ⟨h1.2, h2.2⟩, State.filled,
      show v.pc = pc from rfl, he]
    rfl
  · obtain ⟨k, a, h⟩ : ∃ k a, (needEvenPc >>= fun _ => fillQueue).run v = .error (.fetch k a) v := by
      cases he : pc.getLsbD 0 with
      | true => exact ⟨_, _, bind_error (needEvenPc_odd he)⟩
      | false =>
        rcases hbad with ho | hbad
        · rw [he] at ho
          cases ho
        · obtain ⟨a, h⟩ := fillQueue_busError (s := v) he hc hbad
          exact ⟨_, a, (bind_ok (needEvenPc_even he)).trans h⟩
    exact externalReset_error (.inr rfl) ((load h0 h4).trans h)
  · obtain ⟨a, h⟩ := readLong_busError (s := u) (sp := sp) (addr := 0) (by decide) hc h0
    exact externalReset_error (t := u) (.inl rfl) (bind_error h)
  · obtain ⟨a, h⟩ := readLong_busError (s := u.withSsp ssp) (sp := sp) (addr := 4) (by decide) hc h4
    refine externalReset_error (t := u.withSsp ssp) (e := .access .bus a) (k := .bus) (a := a) (.inl rfl) ?_
    exact (bind_ok (readLong_ok (s := u) h0)).trans ((bind_ok (upd_run _ _)).trans (bind_error h))

end Sys2Proof.Machine
end

section
/-! PROOF. Footprints: what a computation may change on its way, the basic steps of every computation (rules R4, R443; log 7), and what follows from them for the state it ends in. -/

namespace Sys2Proof.Machine

/-! What a computation may change. -/

/-- What an instruction that begins in privilege state `super` on `platform` may change, and which exceptions it may raise. -/
structure Footprint where
  super : Bool
  platform : Platform
  /-- The data registers it may write, and how much of each. -/
  data : Reg → Prop
  size : Size
  /-- The address registers it may write. -/
  addr : Reg → Prop
  /-- It may write T, S and the mask. -/
  system : Bool
  keepsX : Bool
  keepsNvc : Bool
  keepsZ : Bool
  /-- It may transfer control, which drops the words ahead. -/
  jumps : Bool
  /-- It may fetch words that replace its extension words. -/
  ahead : Bool
  /-- The keys of the bytes it may store. -/
  bytes : Nat → Prop
  /-- The vectors of the exceptions it may raise. -/
  traps : BitVec 8 → Prop

/-- The footprint of a computation that only reads. -/
def Footprint.reading (super : Bool) (platform : Platform) : Footprint :=
  { super := super, platform := platform, data := fun _ => False, size := .byte, addr := fun _ => False, system := false
    keepsX := true, keepsNvc := true, keepsZ := true, jumps := false, ahead := true, bytes := fun _ => False
    traps := fun _ => False }

/-- The condition codes that the footprint keeps are those of `q` in `q'`, and so is the system byte. -/
def Footprint.Flags (F : Footprint) (q q' : Sr) : Prop :=
  (q'.t = q.t ∧ q'.s = q.s ∧ q'.i = q.i) ∧ (F.keepsX = true → q'.x = q.x) ∧
    (F.keepsNvc = true → q'.n = q.n ∧ q'.v = q.v ∧ q'.c = q.c) ∧ (F.keepsZ = true → q'.z = q.z)

/-- A write of the low `sz` bits of a data register stays inside the footprint. -/
def Footprint.Fits (F : Footprint) (sz : Size) : Prop := F.size = sz ∨ F.size = .long

/-- An operand of a size at an address stays inside the bytes of the footprint. -/
def Footprint.Covers (F : Footprint) (sz : Size) (sp : Space) (addr : Long) : Prop :=
  ∀ k, k < sz.bytes → F.bytes (F.platform.key sp (addr + BitVec.ofNat 32 k))

/-- Writing a location stays inside the footprint. -/
def Footprint.Stores (F : Footprint) (sz : Size) (loc : Loc) : Prop :=
  match loc with
  | .dreg r => F.data r ∧ F.Fits sz
  | .areg r => F.addr r
  | .mem sp addr _ => F.Covers sz sp addr
  | .imm _ => True

/-- The aborts that the footprint allows: resets come from outside only. -/
def Footprint.MayRaise (F : Footprint) : Abort → Prop
  | .reset _ => False
  | .trap n => F.traps n
  | .access _ _ | .fetch _ _ | .stop _ | .refuse _ => True

/-- The states that the footprint speaks of. -/
def Footprint.Good (F : Footprint) (s : State) : Prop := s.sr.s = F.super ∧ s.platform = F.platform

/-- One update inside the footprint. -/
inductive Update (F : Footprint) (s : State) : State → Prop where
  | data (r : Reg) (v : Long) (hr : F.data r) (hv : F.size.merge v 0 = F.size.merge (s.getD r) 0) : Update F s (s.putD r v)
  | address (r : Reg) (v : Long) (hr : F.addr r) (hs : s.sr.s = F.super) : Update F s (s.putA r v)
  | flags (q : Sr) (hq : F.Flags s.sr q) : Update F s (s.withSr q)
  | system (q : Sr) (h : F.system = true) (hx : F.keepsX = false) (hn : F.keepsNvc = false) (hz : F.keepsZ = false) :
    Update F s (s.withSr q)
  | skip (n : Nat) : Update F s (s.skip n)
  | jumped (v : Long) (h : F.jumps = true) : Update F s (s.jumped v)
  | ahead (w : Word) (h : F.ahead = true) : Update F s (s.withAhead w)
  | drawn : Update F s s.drawn
  | byte (sp : Space) (addr : Long) (b : Byte) (h : F.bytes (s.platform.key sp addr)) : Update F s (s.putByte sp addr b)

/-- Updates inside the footprint, one after the other. -/
inductive Updates (F : Footprint) (s : State) : State → Prop where
  | refl : Updates F s s
  | tail {t u : State} (h : Updates F s t) (hu : Update F t u) : Updates F s u

theorem Updates.single {F : Footprint} {s t : State} (h : Update F s t) : Updates F s t := .tail .refl h

/-- `s` with other inputs of bus cycles to come. -/
def State.withCycles (s : State) (cs : List Cycle) : State := { s with cycles := cs }

/-- A computation from a state, as a tree of basic steps inside the footprint: answers and aborts in which no bus cycle is run, the starts of bus cycles, and sequences. -/
inductive Run (F : Footprint) : {α : Type} → M α → State → Prop where
  | answer {α : Type} {m : M α} {s t : State} {a : α} (h : ∀ cs, m.run (s.withCycles cs) = .ok a (t.withCycles cs))
      (ht : Updates F s t) : Run F m s
  | abort {α : Type} {m : M α} {s : State} {e : Abort} (h : ∀ cs, m.run (s.withCycles cs) = .error e (s.withCycles cs))
      (he : F.MayRaise e) : Run F m s
  | cycle {s : State} : Run F startCycle s
  | bind {α β : Type} {m : M α} {f : α → M β} {s : State} (hm : Run F m s)
      (hf : ∀ a t, m.run s = .ok a t → Run F (f a) t) : Run F (m >>= f) s
  | fetch {s : State} {addr : Long} (h : Run F (readWord s.programSpace addr) s) : Run F (fetchWord addr) s

/-! Fetching, where the read is known. -/

theorem fetchWord_of_ok {s t : State} {addr : Long} {w : Word} (h : (readWord s.programSpace addr).run s = .ok w t) :
    (fetchWord addr).run s = .ok w t := by
  simp only [EStateM.run] at h
  simp only [EStateM.run, fetchWord, h]

/-- An access error of the read is one of the fetch. -/
def Abort.ofFetch : Abort → Abort
  | .access k a => .fetch k a
  | e => e

theorem fetchWord_of_error {s t : State} {addr : Long} {e : Abort}
    (h : (readWord s.programSpace addr).run s = .error e t) : (fetchWord addr).run s = .error e.ofFetch t := by
  simp only [EStateM.run] at h
  simp only [EStateM.run, fetchWord, h]
  cases e <;> rfl

/-- A fetch ends as its read does. -/
theorem fetchWord_run (s : State) (addr : Long) : (fetchWord addr).run s =
    match (readWord s.programSpace addr).run s with
    | .ok w t => .ok w t
    | .error e t => .error e.ofFetch t := by
  cases h : (readWord s.programSpace addr).run s with
  | ok w t => exact fetchWord_of_ok h
  | error e t => exact fetchWord_of_error h

/-! How a computation ends. -/

/-- The states in which a computation from `s` can end are all related to `s`. -/
def Leads {α : Type} (m : M α) (s : State) (Q : State → Prop) : Prop :=
  (∀ a t, m.run s = .ok a t → Q t) ∧ ∀ e t, m.run s = .error e t → Q t

section
variable {F : Footprint} {α β : Type}

theorem State.withCycles_self (s : State) : s.withCycles s.cycles = s := rfl

/-- No update takes an input of a bus cycle. -/
theorem Update.cycles {s t : State} (h : Update F s t) : t.cycles = s.cycles := by
  cases h with
  | address r v => exact State.putA_cycles _ _ _
  | _ => rfl

theorem Updates.cycles {s t : State} (h : Updates F s t) : t.cycles = s.cycles := by
  induction h with
  | refl => rfl
  | tail _ h ih => exact h.cycles.trans ih

theorem run_of_answer {m : M α} {s t : State} {a : α} (h : ∀ cs, m.run (s.withCycles cs) = .ok a (t.withCycles cs))
    (ht : Updates F s t) : m.run s = .ok a t := by
  have h0 := h s.cycles
  rwa [State.withCycles_self, ← ht.cycles, State.withCycles_self] at h0

theorem run_of_abort {m : M α} {s : State} {e : Abort} (h : ∀ cs, m.run (s.withCycles cs) = .error e (s.withCycles cs)) :
    m.run s = .error e s :=
  h s.cycles

theorem leads_of_ok {m : M α} {s t : State} {a : α} {Q : State → Prop} (h : m.run s = .ok a t) (hQ : Q t) :
    Leads m s Q := by
  refine ⟨fun b u hu => ?_, fun e u hu => ?_⟩ <;> rw [h] at hu <;> cases hu
  exact hQ

theorem leads_of_error {m : M α} {s t : State} {e : Abort} {Q : State → Prop} (h : m.run s = .error e t) (hQ : Q t) :
    Leads m s Q := by
  refine ⟨fun b u hu => ?_, fun e u hu => ?_⟩ <;> rw [h] at hu <;> cases hu
  exact hQ

/-- A relation that every step of a computation keeps relates its end to its beginning. -/
theorem Run.leads {R : State → State → Prop} (refl : ∀ s, R s s) (trans : ∀ {s t u}, R s t → R t u → R s u)
    (update : ∀ {s t}, Update F s t → R s t) (heard : ∀ s c cs, s.cycles = c :: cs → R s (s.heard c)) {m : M α} {s : State} (h : Run F m s) :
    Leads m s (R s) := by
  induction h with
  | answer h ht =>
    refine leads_of_ok (run_of_answer h ht) ?_
    clear h
    induction ht with
    | refl => exact refl _
    | tail _ hu ih => exact trans ih (update hu)
  | abort h _ => exact leads_of_error (run_of_abort h) (refl _)
  | @cycle s =>
    cases h : s.cycles with
    | nil => exact leads_of_ok (startCycle_quiet h) (refl _)
    | cons c cs =>
      cases hr : c.reset with
      | none => exact leads_of_ok (startCycle_heard h hr) (heard _ _ _ h)
      | some ipl => exact leads_of_error (startCycle_reset h hr) (heard _ _ _ h)
  | bind _ _ ihm ihf =>
    refine ⟨fun b u hu => ?_, fun e u hu => ?_⟩
    · obtain ⟨a, t, h1, h2⟩ := bind_ok_cases hu
      exact trans (ihm.1 a t h1) ((ihf a t h1).1 b u h2)
    · rcases bind_error_cases hu with h1 | ⟨a, t, h1, h2⟩
      · exact ihm.2 e u h1
      · exact trans (ihm.1 a t h1) ((ihf a t h1).2 e u h2)
  | @fetch s addr _ ih =>
    cases h : (readWord s.programSpace addr).run s with
    | ok w t => exact leads_of_ok (fetchWord_of_ok h) (ih.1 _ _ h)
    | error e t => exact leads_of_error (fetchWord_of_error h) (ih.2 _ _ h)

/-- How a computation can abort: with what the footprint allows, or with a reset that comes up in the inputs. -/
theorem Run.raises {m : M α} {s t : State} {e : Abort} (h : Run F m s) (hrun : m.run s = .error e t) :
    F.MayRaise e ∨ ∃ c ∈ s.cycles, ∃ ipl, c.reset = some ipl ∧ e = .reset ipl := by
  induction h generalizing e t with
  | answer h ht =>
    rw [run_of_answer h ht] at hrun
    cases hrun
  | abort h he =>
    rw [run_of_abort h] at hrun
    cases hrun
    exact .inl he
  | @cycle s =>
    cases h : s.cycles with
    | nil =>
      rw [startCycle_quiet h] at hrun
      cases hrun
    | cons c cs =>
      cases hr : c.reset with
      | none =>
        rw [startCycle_heard h hr] at hrun
        cases hrun
      | some ipl =>
        rw [startCycle_reset h hr] at hrun
        cases hrun
        exact .inr ⟨c, List.mem_cons_self, ipl, hr, rfl⟩
  | bind hm _ ihm ihf =>
    rcases bind_error_cases hrun with h1 | ⟨a, u, h1, h2⟩
    · exact ihm h1
    · have hsub : u.cycles <:+ _ := (hm.leads (R := fun s t => t.cycles <:+ s.cycles) (fun _ => List.suffix_refl _)
        (fun h h' => h'.trans h) (fun h => h.cycles ▸ List.suffix_refl _) fun s _ _ _ => List.tail_suffix s.cycles).1 a u h1
      exact (ihf a u h1 h2).imp_right fun ⟨c, hc, hr⟩ => ⟨c, hsub.subset hc, hr⟩
  | @fetch s addr h ih =>
    cases h1 : (readWord s.programSpace addr).run s with
    | ok w u =>
      rw [fetchWord_of_ok h1] at hrun
      cases hrun
    | error e' u =>
      rw [fetchWord_of_error h1] at hrun
      cases hrun
      rcases ih h1 with hx | ⟨c, hc, ipl, hr, rfl⟩
      · left
        cases e' with
        | access => trivial
        | _ => exact hx
      · exact .inr ⟨c, hc, ipl, hr, rfl⟩

/-- An update keeps what the updates of every instruction keep. -/
theorem Update.keeps {P : State → Prop} {s t : State} (h : Update F s t) (hP : Stable P)
    (hsys : F.system = true → ∀ s q, P s → P (s.withSr q)) (hs : P s) : P t := by
  cases h with
  | data r v => exact hP.data _ _ _ hs
  | address r v => exact hP.address _ _ _ hs
  | flags q hq => exact hP.flags _ _ hq.1.1 hq.1.2.1 hq.1.2.2 hs
  | system q h => exact hsys h _ _ hs
  | skip n => exact hP.skip _ _ hs
  | jumped v => exact hP.jumped _ _ hs
  | ahead w => exact hP.ahead _ _ hs
  | drawn => exact hP.drawn _ hs
  | byte sp addr b => exact hP.byte _ _ _ _ hs

/-- However a computation ends, it keeps what the updates of every instruction keep. -/
theorem Run.keeps {P : State → Prop} {m : M α} {s : State} (h : Run F m s) (hP : Stable P)
    (hsys : F.system = true → ∀ s q, P s → P (s.withSr q)) (hs : P s) : Leads m s P := by
  have hl := h.leads (R := fun s t => P s → P t) (fun _ => id) (fun h h' hs => h' (h hs))
    (fun hu => hu.keeps hP hsys) fun s c _ _ => hP.heard s c
  exact ⟨fun a t ht => hl.1 a t ht hs, fun e t ht => hl.2 e t ht hs⟩

end

/-! What a computation leaves. -/

/-- `t` differs from `s` only in what the footprint allows; where no other master writes, in memory too. -/
structure Touch (F : Footprint) (s t : State) : Prop where
  hidden : SameHidden s (t.withCycles s.cycles)
  cycles : t.cycles <:+ s.cycles
  data : ∀ r, ¬ F.data r → t.getD r = s.getD r
  high : ∀ r, F.size.merge (t.getD r) 0 = F.size.merge (s.getD r) 0
  address : ∀ r : Reg, r.val < 7 → ¬ F.addr r → t.getA r = s.getA r
  usp : ¬ (F.addr 7 ∧ F.super = false) → t.usp = s.usp
  ssp : ¬ (F.addr 7 ∧ F.super = true) → t.ssp = s.ssp
  system : F.system = false → SameSystem s t
  extend : F.keepsX = true → t.sr.x = s.sr.x
  others : F.keepsNvc = true → t.sr.n = s.sr.n ∧ t.sr.v = s.sr.v ∧ t.sr.c = s.sr.c
  zero : F.keepsZ = true → t.sr.z = s.sr.z
  queue : F.ahead = false → t.queue = s.queue ∨ F.jumps = true ∧ t.queue = none
  canonical : Memory.wf s.mem = true → Memory.wf t.mem = true
  memory : (∀ c ∈ s.cycles, c = Cycle.quiet) → ∀ k, ¬ F.bytes k → Memory.read t.mem k = Memory.read s.mem k

section
variable {F : Footprint} {s t u : State}

theorem SameHidden.refl (s : State) : SameHidden s s := ⟨rfl, rfl, rfl, rfl, rfl, rfl, rfl, rfl, rfl, rfl, rfl, rfl⟩

theorem SameHidden.trans (h : SameHidden s t) (h' : SameHidden t u) : SameHidden s u := by
  obtain ⟨h1, h2, h3, h4, h5, h6, h7, h8, h9, h10, h11, h12⟩ := h
  obtain ⟨k1, k2, k3, k4, k5, k6, k7, k8, k9, k10, k11, k12⟩ := h'
  exact ⟨k1.trans h1, k2.trans h2, k3.trans h3, k4.trans h4, k5.trans h5, k6.trans h6, k7.trans h7, k8.trans h8,
    k9.trans h9, k10.trans h10, k11.trans h11, k12.trans h12⟩

theorem Touch.refl (F : Footprint) (s : State) : Touch F s s where
  hidden := .refl s
  cycles := List.suffix_refl _
  data _ _ := rfl
  high _ := rfl
  address _ _ _ := rfl
  usp _ := rfl
  ssp _ := rfl
  system _ := ⟨rfl, rfl, rfl⟩
  extend _ := rfl
  others _ := ⟨rfl, rfl, rfl⟩
  zero _ := rfl
  queue _ := .inl rfl
  canonical := id
  memory _ _ _ := rfl

theorem Touch.trans (h : Touch F s t) (h' : Touch F t u) : Touch F s u where
  hidden := SameHidden.trans (t := t.withCycles s.cycles) h.hidden (by
    obtain ⟨k1, k2, k3, k4, k5, k6, k7, k8, k9, k10, k11, k12⟩ := h'.hidden
    exact ⟨k1, k2, k3, k4, k5, k6, k7, k8, k9, k10, rfl, k12⟩)
  cycles := h'.cycles.trans h.cycles
  data r hr := (h'.data r hr).trans (h.data r hr)
  high r := (h'.high r).trans (h.high r)
  address r hr ha := (h'.address r hr ha).trans (h.address r hr ha)
  usp hx := (h'.usp hx).trans (h.usp hx)
  ssp hx := (h'.ssp hx).trans (h.ssp hx)
  system hx := by
    obtain ⟨a, b, c⟩ := h.system hx
    obtain ⟨a', b', c'⟩ := h'.system hx
    exact ⟨a'.trans a, b'.trans b, c'.trans c⟩
  extend hx := (h'.extend hx).trans (h.extend hx)
  others hx := by
    obtain ⟨a, b, c⟩ := h.others hx
    obtain ⟨a', b', c'⟩ := h'.others hx
    exact ⟨a'.trans a, b'.trans b, c'.trans c⟩
  zero hx := (h'.zero hx).trans (h.zero hx)
  queue hx := by
    rcases h'.queue hx with h2 | h2
    · rw [h2]
      exact h.queue hx
    · exact .inr h2
  canonical hm := h'.canonical (h.canonical hm)
  memory hc k hk := (h'.memory (fun c hc' => hc c (h.cycles.subset hc')) k hk).trans (h.memory hc k hk)

/-- Hearing the input of a cycle. -/
theorem Touch.heard (F : Footprint) {s : State} {c : Cycle} {cs : List Cycle} (h : s.cycles = c :: cs) :
    Touch F s (s.heard c) :=
  { Touch.refl F s with
    cycles := List.tail_suffix _
    canonical := fun hm => Memory.wf_writeAll _ hm
    memory := fun hq k _ => by
      have hc : c = Cycle.quiet := hq c (by rw [h]; exact List.mem_cons_self)
      rw [hc]
      rfl }

/-- A7 is the address register past the first seven. -/
theorem reg_seven {r : Reg} (h : ¬ r.val < 7) : r = 7 := by
  have := r.isLt
  exact Fin.ext (show r.val = 7 by omega)

/-- A write of an address register changes no other one, and no stack pointer unless it is A7. -/
theorem putA_touch {r : Reg} {v : Long} (hr : F.addr r) (hs : s.sr.s = F.super) : Touch F s (s.putA r v) where
  hidden := by simp [SameHidden, State.withCycles]
  cycles := by simp
  data q _ := State.getD_putA _ _ _ _
  high q := by rw [State.getD_putA]
  address q hq ha := by
    rw [State.getA_putA, if_neg]
    rintro rfl
    exact ha hr
  usp hx := by
    unfold State.putA
    split
    · rfl
    · split
      · rfl
      · exact absurd ⟨reg_seven (by assumption) ▸ hr, by simp_all⟩ hx
  ssp hx := by
    unfold State.putA
    split
    · rfl
    · split
      · exact absurd ⟨reg_seven (by assumption) ▸ hr, by simp_all⟩ hx
      · rfl
  system _ := by simp [SameSystem]
  extend _ := by simp
  others _ := by simp
  zero _ := by simp
  queue _ := by simp
  canonical hm := by simpa using hm
  memory _ k _ := by simp

theorem Update.touch (h : Update F s t) : Touch F s t := by
  cases h with
  | data r v hr hv =>
    exact { Touch.refl F s with
      data := fun q hq => by
        rw [State.getD_putD, if_neg]
        rintro rfl
        exact hq hr
      high := fun q => by
        rw [State.getD_putD]
        split
        · subst q
          exact hv
        · rfl }
  | address r v hr hs => exact putA_touch hr hs
  | flags q hq =>
    obtain ⟨hsys, hx, hn, hz⟩ := hq
    exact { Touch.refl F s with
      address := fun r hr _ => State.getA_withSr _ _ _ hsys.2.1
      system := fun _ => hsys
      extend := hx
      others := hn
      zero := hz }
  | system q h hx hn hz =>
    exact { Touch.refl F s with
      address := fun r hr _ => by simp [State.getA, hr]
      system := fun hF => by simp [hF] at h
      extend := fun hF => by simp [hF] at hx
      others := fun hF => by simp [hF] at hn
      zero := fun hF => by simp [hF] at hz }
  | skip n => exact { Touch.refl F s with }
  | jumped v h => exact { Touch.refl F s with queue := fun _ => .inr ⟨h, rfl⟩ }
  | ahead w h => exact { Touch.refl F s with queue := fun hF => by simp [hF] at h }
  | drawn => exact { Touch.refl F s with }
  | byte sp addr b h =>
    exact { Touch.refl F s with
      canonical := fun hm => State.wf_putByte hm
      memory := fun _ k hk => Memory.read_write_other _ fun e => hk (e ▸ h) }

/-- A computation leaves everything that its footprint does not allow to change. -/
theorem Run.touch {α : Type} {m : M α} {s : State} (h : Run F m s) : Leads m s (Touch F s) :=
  h.leads (Touch.refl F) Touch.trans Update.touch fun _ _ _ => Touch.heard F

end

/-! External reset at a bus cycle. -/

section
variable {F : Footprint} {α : Type}

/-- `n` quiet cycles. -/
abbrev quietCycles (n : Nat) : List Cycle := List.replicate n Cycle.quiet

/-- Where external reset comes at bus cycle `n`, and nothing comes from outside before it, a computation is aborted there or ends before it as without the reset. -/
theorem Run.reset_at {m : M α} {s : State} (h : Run F m s) {c : Cycle} {ipl : BitVec 3} (hr : c.reset = some ipl)
    (cs : List Cycle) {n : Nat} (hs : s.cycles = quietCycles (n + 1)) :
    (∃ w, Touch F s w ∧
      m.run (s.withCycles (quietCycles n ++ c :: cs)) = .error (.reset ipl) ((w.withCycles (c :: cs)).heard c)) ∨
    (∃ j a t, m.run s = .ok a t ∧ t.cycles = quietCycles (j + 1) ∧
      m.run (s.withCycles (quietCycles n ++ c :: cs)) = .ok a (t.withCycles (quietCycles j ++ c :: cs))) ∨
    ∃ e t, m.run s = .error e t ∧ ∃ u, m.run (s.withCycles (quietCycles n ++ c :: cs)) = .error e u := by
  induction h generalizing n with
  | @answer _ _ s t a h ht => exact .inr (.inl ⟨n, a, t, run_of_answer h ht, ht.cycles.trans hs, h _⟩)
  | @abort _ _ s e h he => exact .inr (.inr ⟨e, s, run_of_abort h, _, h _⟩)
  | @cycle s =>
    cases n with
    | zero =>
      exact .inl ⟨s, Touch.refl F s, startCycle_reset (s := s.withCycles (c :: cs)) rfl hr⟩
    | succ n =>
      exact .inr (.inl ⟨n, Cycle.quiet, s.heard Cycle.quiet, startCycle_heard hs rfl, congrArg List.tail hs,
        startCycle_heard (s := s.withCycles (Cycle.quiet :: (quietCycles n ++ c :: cs))) rfl rfl⟩)
  | @bind _ _ m f s hm _ ihm ihf =>
    rcases ihm hs with ⟨w, hw, h1⟩ | ⟨j, a, t, h0, ht, h1⟩ | ⟨e, t, h0, u, h1⟩
    · exact .inl ⟨w, hw, bind_error h1⟩
    · have touch := hm.touch.1 a t h0
      rw [bind_ok h0, bind_ok h1]
      exact (ihf a t h0 ht).imp_left fun ⟨w, hw, h2⟩ => ⟨w, touch.trans hw, h2⟩
    · exact .inr (.inr ⟨e, t, bind_error h0, u, bind_error h1⟩)
  | @fetch s addr _ ih =>
    rcases ih hs with ⟨w, hw, h1⟩ | ⟨j, a, t, h0, ht, h1⟩ | ⟨e, t, h0, u, h1⟩
    · exact .inl ⟨w, hw, fetchWord_of_error (s := s.withCycles _) h1⟩
    · exact .inr (.inl ⟨j, a, t, fetchWord_of_ok h0, ht, fetchWord_of_ok (s := s.withCycles _) h1⟩)
    · exact .inr (.inr ⟨_, t, fetchWord_of_error h0, u, fetchWord_of_error (s := s.withCycles _) h1⟩)

end

/-! PROOF. The shared operations run inside every footprint that allows what they write. -/

/-- From `s` the computation runs inside the footprint and answers in a state that the footprint speaks of. -/
def RunAt (F : Footprint) {α : Type} (m : M α) (s : State) : Prop :=
  Run F m s ∧ ∀ a t, m.run s = .ok a t → F.Good t

/-- From every state that the footprint speaks of, the computation runs inside it. -/
def Runs (F : Footprint) {α : Type} (m : M α) : Prop := ∀ s, F.Good s → RunAt F m s

section
variable {F : Footprint} {α β : Type} {s t : State}

/-! Sequencing. -/

theorem runAt_answer {m : M α} {a : α} (h : ∀ cs, m.run (s.withCycles cs) = .ok a (t.withCycles cs)) (ht : Updates F s t)
    (hg : F.Good t) : RunAt F m s := by
  refine ⟨.answer h ht, fun b u hu => ?_⟩
  rw [run_of_answer h ht] at hu
  cases hu
  exact hg

theorem runAt_abort {m : M α} {e : Abort} (h : ∀ cs, m.run (s.withCycles cs) = .error e (s.withCycles cs))
    (he : F.MayRaise e) : RunAt F m s := by
  refine ⟨.abort h he, fun b u hu => ?_⟩
  rw [run_of_abort h] at hu
  cases hu

theorem runAt_bind {m : M α} {f : α → M β} (hm : RunAt F m s)
    (hf : ∀ a t, m.run s = .ok a t → F.Good t → RunAt F (f a) t) : RunAt F (m >>= f) s := by
  refine ⟨.bind hm.1 fun a t h => (hf a t h (hm.2 a t h)).1, fun b u hu => ?_⟩
  obtain ⟨a, t, h1, h2⟩ := bind_ok_cases hu
  exact (hf a t h1 (hm.2 a t h1)).2 b u h2

/-- Going on from the state that the first part answers in. -/
theorem runAt_next {m : M α} {f : α → M β} {a : α} (hm : RunAt F m s) (h : m.run s = .ok a t) (hf : RunAt F (f a) t) :
    RunAt F (m >>= f) s := by
  refine runAt_bind hm fun b u hu _ => ?_
  rw [h] at hu
  cases hu
  exact hf

theorem runAt_then {m : M α} {f : α → M β} (hm : RunAt F m s) (hf : ∀ a, Runs F (f a)) : RunAt F (m >>= f) s :=
  runAt_bind hm fun a t _ hg => hf a t hg

theorem runs_bind {m : M α} {f : α → M β} (hm : Runs F m) (hf : ∀ a, Runs F (f a)) : Runs F (m >>= f) :=
  fun s hs => runAt_then (hm s hs) hf

theorem runs_pure (a : α) : Runs F (pure a : M α) := fun s hs => runAt_answer (t := s) (fun _ => rfl) .refl hs

theorem runs_ask (f : State → α) (h : ∀ s cs, f (s.withCycles cs) = f s := by intros; rfl) : Runs F (ask f) :=
  fun s hs => runAt_answer (t := s) (fun cs => by rw [ask_run, h]) .refl hs

/-- A value of the state, then the rest. -/
theorem runAt_ask {k : α → M β} (f : State → α) (hs : F.Good s) (hk : RunAt F (k (f s)) s)
    (h : ∀ s cs, f (s.withCycles cs) = f s := by intros; rfl) : RunAt F (ask f >>= k) s :=
  runAt_next (runs_ask f h s hs) (ask_run _ _) hk

theorem runs_raise {e : Abort} (he : F.MayRaise e) : Runs F (raise e : M α) :=
  fun _ _ => runAt_abort (fun _ => rfl) he

theorem runs_ite {c : Prop} [Decidable c] {m m' : M α} (h : Runs F m) (h' : Runs F m') : Runs F (if c then m else m') := by
  split
  · exact h
  · exact h'

/-- One update inside the footprint. -/
theorem runs_update {f : State → State} (h : ∀ s cs, f (s.withCycles cs) = (f s).withCycles cs)
    (hf : ∀ s, F.Good s → Update F s (f s)) (hg : ∀ s, F.Good s → F.Good (f s)) : Runs F (upd f) :=
  fun s hs => runAt_answer (t := f s) (fun cs => by rw [upd_run, h]) (.single (hf s hs)) (hg s hs)

/-! Updates of registers and flags. -/

theorem runs_putD (r : Reg) (g : State → Long) (hr : F.data r)
    (hv : ∀ s, F.size.merge (g s) 0 = F.size.merge (s.getD r) 0) (h : ∀ s cs, g (s.withCycles cs) = g s := by intros; rfl) :
    Runs F (upd fun s => s.putD r (g s)) :=
  runs_update (fun s cs => by rw [h]; rfl) (fun s _ => .data r _ hr (hv s)) fun _ => id

theorem State.putA_withCycles (s : State) (cs : List Cycle) (r : Reg) (v : Long) :
    (s.withCycles cs).putA r v = (s.putA r v).withCycles cs := by
  unfold State.putA
  split
  · rfl
  · change (if s.sr.s = true then _ else _) = _
    split <;> rfl

theorem Footprint.Good.putA (hs : F.Good s) (r : Reg) (v : Long) : F.Good (s.putA r v) := by
  simpa [Footprint.Good] using hs

theorem runs_putA (r : Reg) (g : State → Long) (hr : F.addr r) (h : ∀ s cs, g (s.withCycles cs) = g s := by intros; rfl) :
    Runs F (upd fun s => s.putA r (g s)) :=
  runs_update (fun s cs => by rw [h, State.putA_withCycles]) (fun s hs => .address r _ hr hs.1) fun s hs => hs.putA _ _

theorem runs_updSr {f : Sr → Sr} (h : ∀ q, F.Flags q (f q)) : Runs F (updSr f) :=
  runs_update (fun _ _ => rfl) (fun s _ => .flags _ (h s.sr)) fun s hs => ⟨(h s.sr).1.2.1.trans hs.1, hs.2⟩

theorem runs_skip (n : Nat) : Runs F (upd fun s => s.skip n) :=
  runs_update (fun _ _ => rfl) (fun _ _ => .skip n) fun _ => id

theorem runs_skipWord : Runs F skipWord := runs_skip 1

theorem runs_skipImmediate (sz : Size) : Runs F (skipImmediate sz) := runs_skip _

theorem runs_jump (h : F.jumps = true) (v : Long) : Runs F (jump v) :=
  runs_update (fun _ _ => rfl) (fun _ _ => .jumped v h) fun _ => id

theorem runs_dataReg (sz : Size) (r : Reg) : Runs F (dataReg sz r) := runs_ask _

/-- A write of the low bits of a data register leaves the bits above them. -/
theorem Footprint.Fits.merge {sz : Size} (h : F.Fits sz) (old v : Long) :
    F.size.merge (sz.merge old v) 0 = F.size.merge old 0 := by
  rcases h with h | h
  · rw [h]
    cases sz with
    | byte | word => exact congrArg (· ++ _) BitVec.extractLsb'_append_eq_left
    | long => rfl
  · rw [h]
    rfl

theorem runs_setDataReg {sz : Size} {r : Reg} (hr : F.data r) (hsz : F.Fits sz) (v : Long) : Runs F (setDataReg sz r v) :=
  runs_putD r (fun s => sz.merge (s.getD r) v) hr fun _ => hsz.merge _ _

/-! Free values. -/

theorem runs_anyLong : Runs F anyLong := fun s hs => runAt_answer (t := s.drawn) (a := Config.free s.draws) (fun _ => rfl) (.single .drawn) hs

theorem runs_anyBool : Runs F anyBool := runs_bind runs_anyLong fun _ => runs_pure _

theorem runs_anyBits (n : Nat) : Runs F (anyBits n) := runs_bind runs_anyLong fun _ => runs_pure _

/-! Bus cycles. -/

theorem runs_startCycle : Runs F startCycle := by
  refine fun s hs => ⟨.cycle, fun c t ht => ?_⟩
  cases h : s.cycles with
  | nil =>
    rw [startCycle_quiet h] at ht
    cases ht
    exact hs
  | cons c cs =>
    cases hr : c.reset with
    | none =>
      rw [startCycle_heard h hr] at ht
      cases ht
      exact hs
    | some ipl =>
      rw [startCycle_reset h hr] at ht
      cases ht

theorem runs_deviceWord (sp : Space) (addr : Long) : Runs F (deviceWord sp addr) :=
  fun s hs => runAt_answer (t := s.drawn) (a := Config.device s.draws sp.fc (busAddress addr)) (fun _ => rfl) (.single .drawn) hs

theorem runs_needEven (sp : Space) (addr : Long) (w : Bool) : Runs F (needEven sp addr w) := by
  intro s hs
  cases h : addr.getLsbD 0 with
  | false => exact runAt_answer (t := s) (fun _ => needEven_ok h) .refl hs
  | true => exact runAt_abort (fun _ => needEven_odd h) trivial

theorem runs_endRead8 (r : ReadReply) (sp : Space) (addr : Long) : Runs F (endRead8 r sp addr) := by
  cases r with
  | memory => exact runs_ask _
  | device => exact runs_bind (runs_deviceWord _ _) fun _ => runs_pure _
  | busError | noReply => exact runs_raise trivial

theorem runs_endRead16 (r : ReadReply) (sp : Space) (addr : Long) : Runs F (endRead16 r sp addr) := by
  cases r with
  | memory => exact runs_ask _
  | device => exact runs_deviceWord _ _
  | busError | noReply => exact runs_raise trivial

theorem runs_endWrite8 (r : WriteReply) {sp : Space} {addr : Long} (h : F.bytes (F.platform.key sp addr)) (b : Byte) :
    Runs F (endWrite8 r sp addr b) := by
  cases r with
  | memory => exact runs_update (fun _ _ => rfl) (fun s hs => .byte sp addr b (hs.2 ▸ h)) fun _ => id
  | absorb => exact runs_pure _
  | busError | noReply => exact runs_raise trivial

/-- A word is its byte and the byte after it. -/
theorem Footprint.Covers.word {sp : Space} {addr : Long} (h : F.Covers .word sp addr) :
    F.bytes (F.platform.key sp addr) ∧ F.bytes (F.platform.key sp (addr + 1)) := by
  have h0 := h 0 (by decide)
  rw [show addr + BitVec.ofNat 32 0 = addr from BitVec.add_zero _] at h0
  exact ⟨h0, h 1 (by decide)⟩

theorem Footprint.Covers.byte {sp : Space} {addr : Long} (h : F.Covers .byte sp addr) :
    F.bytes (F.platform.key sp addr) := by
  have h0 := h 0 (by decide)
  rwa [show addr + BitVec.ofNat 32 0 = addr from BitVec.add_zero _] at h0

/-- A long word is its word and the word after it. -/
theorem Footprint.Covers.long {sp : Space} {addr : Long} (h : F.Covers .long sp addr) :
    F.Covers .word sp addr ∧ F.Covers .word sp (addr + 2) := by
  refine ⟨fun k hk => h k (Nat.lt_of_lt_of_le hk (by decide)), fun k hk => ?_⟩
  have h2 := h (2 + k) (Nat.add_lt_add_left hk 2)
  rwa [BitVec.ofNat_add, ← BitVec.add_assoc] at h2

theorem runs_endWrite16 (r : WriteReply) {sp : Space} {addr : Long} (h : F.Covers .word sp addr) (w : Word) :
    Runs F (endWrite16 r sp addr w) := by
  cases r with
  | memory =>
    refine fun s hs => runAt_answer (t := s.putWord sp addr w) (fun _ => rfl) ?_ hs
    exact .tail (.single (.byte sp addr _ (hs.2 ▸ h.word.1))) (.byte sp (addr + 1) _ (hs.2 ▸ h.word.2))
  | absorb => exact runs_pure _
  | busError | noReply => exact runs_raise trivial

theorem runs_busRead8 (sp : Space) (addr : Long) : Runs F (busRead8 sp addr) :=
  runs_bind runs_startCycle fun _ => runs_bind (runs_ask _) fun _ => runs_endRead8 _ _ _

theorem runs_busRead16 (sp : Space) (addr : Long) : Runs F (busRead16 sp addr) :=
  runs_bind runs_startCycle fun _ => runs_bind (runs_ask _) fun _ => runs_endRead16 _ _ _

theorem runs_busWrite8 {sp : Space} {addr : Long} (h : F.bytes (F.platform.key sp addr)) (b : Byte) :
    Runs F (busWrite8 sp addr b) :=
  runs_bind runs_startCycle fun _ => runs_bind (runs_ask _) fun _ => runs_endWrite8 _ h _

theorem runs_busWrite16 {sp : Space} {addr : Long} (h : F.Covers .word sp addr) (w : Word) :
    Runs F (busWrite16 sp addr w) :=
  runs_bind runs_startCycle fun _ => runs_bind (runs_ask _) fun _ => runs_endWrite16 _ h _

theorem runs_busModify8 {sp : Space} {addr : Long} (h : F.bytes (F.platform.key sp addr)) {f : Byte → M Byte}
    (hf : ∀ b, Runs F (f b)) : Runs F (busModify8 sp addr f) :=
  runs_bind runs_startCycle fun _ => runs_bind (runs_ask _) fun _ => runs_bind (runs_endRead8 _ _ _) fun _ =>
    runs_bind (hf _) fun _ => runs_bind (runs_ask _) fun _ => runs_endWrite8 _ h _

theorem runs_readWord (sp : Space) (addr : Long) : Runs F (readWord sp addr) :=
  runs_bind (runs_needEven _ _ _) fun _ => runs_busRead16 _ _

theorem runs_readLong (sp : Space) (addr : Long) : Runs F (readLong sp addr) :=
  runs_bind (runs_needEven _ _ _) fun _ => runs_bind (runs_busRead16 _ _) fun _ =>
    runs_bind (runs_busRead16 _ _) fun _ => runs_pure _

theorem runs_readMem (sz : Size) (sp : Space) (addr : Long) : Runs F (readMem sz sp addr) := by
  cases sz with
  | byte => exact runs_bind (runs_busRead8 _ _) fun _ => runs_pure _
  | word => exact runs_bind (runs_readWord _ _) fun _ => runs_pure _
  | long => exact runs_readLong _ _

theorem runs_writeMem {sz : Size} {sp : Space} {addr : Long} (h : F.Covers sz sp addr) (pre : Bool) (v : Long) :
    Runs F (writeMem sz pre sp addr v) := by
  cases sz with
  | byte => exact runs_busWrite8 h.byte _
  | word => exact runs_bind (runs_needEven _ _ _) fun _ => runs_busWrite16 h _
  | long =>
    exact runs_bind (runs_ask _) fun _ => runs_bind (runs_needEven _ _ _) fun _ =>
      runs_ite (runs_bind (runs_busWrite16 h.long.2 _) fun _ => runs_busWrite16 h.long.1 _)
        (runs_bind (runs_busWrite16 h.long.1 _) fun _ => runs_busWrite16 h.long.2 _)

/-! The stack and the instruction stream. -/

theorem runs_popWord (h : F.addr 7) : Runs F popWord :=
  runs_bind (runs_ask _) fun _ => runs_bind (runs_ask _) fun _ => runs_bind (runs_readWord _ _) fun _ =>
    runs_bind (runs_putA _ _ h) fun _ => runs_pure _

theorem runs_popLong (h : F.addr 7) : Runs F popLong :=
  runs_bind (runs_ask _) fun _ => runs_bind (runs_ask _) fun _ => runs_bind (runs_readLong _ _) fun _ =>
    runs_bind (runs_putA _ _ h) fun _ => runs_pure _

/-- The push of a long word, from a state whose stack slot the footprint covers. -/
theorem runAt_pushLong (hs : F.Good s) (h : F.addr 7) (hc : F.Covers .long s.dataSpace (s.getA 7 - 4)) (v : Long) :
    RunAt F (pushLong v) s := by
  have down : Runs F (upd fun s => s.putA 7 (s.getA 7 - 4)) := runs_putA 7 _ h
  have hs' := hs.putA 7 (s.getA 7 - 4)
  refine runAt_next (down s hs) (upd_run _ _) (runAt_ask (fun s => s.getA 7) hs' (runAt_ask State.dataSpace hs' ?_))
  refine runs_writeMem ?_ _ _ _ hs'
  simpa [State.dataSpace] using hc

theorem runs_fetchWord (addr : Long) : Runs F (fetchWord addr) := by
  refine fun s hs => ⟨.fetch (runs_readWord _ _ s hs).1, fun w t ht => ?_⟩
  rw [fetchWord_run] at ht
  split at ht <;> cases ht
  rename_i h
  exact (runs_readWord _ _ s hs).2 _ _ h

theorem runs_replaceWords (n : Nat) (h : n ≠ 0 → F.ahead = true) (addr : Long) : Runs F (replaceWords n addr) := by
  induction n generalizing addr with
  | zero => exact runs_pure _
  | succ n ih =>
    have ha : F.ahead = true := h (Nat.succ_ne_zero n)
    exact runs_bind (runs_fetchWord _) fun w =>
      runs_bind (runs_update (fun _ _ => rfl) (fun _ _ => .ahead w ha) fun _ => id) fun _ => ih (fun _ => ha) _

/-! Operands. -/

theorem State.resolve_withCycles (s : State) (cs : List Cycle) (sz : Size) (ea : Ea) :
    (s.withCycles cs).resolve sz ea = ((s.resolve sz ea).1, (s.resolve sz ea).2.withCycles cs) := by
  cases ea with
  | postInc r | preDec r => exact Prod.ext rfl (State.putA_withCycles _ _ _ _)
  | _ => rfl

theorem runs_locate {sz : Size} {ea : Ea} (h : ∀ r ∈ sideRegs ea, F.addr r) : Runs F (locate sz ea) := by
  refine fun s hs => runAt_answer (t := (s.resolve sz ea).2) (a := (s.resolve sz ea).1) (fun cs => ?_) ?_ ?_
  · rw [locate_run, State.resolve_withCycles]
  · cases ea with
    | postInc r | preDec r => exact .single (.address r _ (h r List.mem_cons_self) hs.1)
    | dn r | an r | ind r => exact .refl
    | _ => exact .single (.skip _)
  · simpa [Footprint.Good] using hs

theorem runs_readLoc (sz : Size) (loc : Loc) : Runs F (readLoc sz loc) := by
  cases loc with
  | mem sp addr pre => exact runs_readMem _ _ _
  | dreg r | areg r => exact runs_ask _
  | imm v => exact runs_pure _

theorem runs_writeLoc {sz : Size} {loc : Loc} (h : F.Stores sz loc) (v : Long) : Runs F (writeLoc sz loc v) := by
  cases loc with
  | mem sp addr pre => exact runs_ite (runs_raise trivial) (runs_writeMem h _ _)
  | dreg r => exact runs_setDataReg h.1 h.2 v
  | areg r => exact runs_putA r _ h
  | imm v => exact runs_raise trivial

theorem runs_operand {sz : Size} {ea : Ea} (h : ∀ r ∈ sideRegs ea, F.addr r) : Runs F (operand sz ea) :=
  runs_bind (runs_locate h) fun _ => runs_readLoc _ _

theorem runs_effectiveAddress {ea : Ea} (h : ∀ r ∈ sideRegs ea, F.addr r) : Runs F (effectiveAddress ea) := by
  refine runs_bind (runs_locate h) fun loc => ?_
  cases loc with
  | mem sp addr pre => exact runs_pure _
  | dreg r | areg r | imm v => exact runs_raise trivial

/-- Replacing an operand, from a state whose location of it the footprint allows to be written. -/
theorem runAt_modifyEa (hs : F.Good s) {sz : Size} {ea : Ea} (h : ∀ r ∈ sideRegs ea, F.addr r)
    (hl : F.Stores sz (s.resolve sz ea).1) {f : Long → M Long} (hf : ∀ v, Runs F (f v)) : RunAt F (modifyEa sz ea f) s :=
  runAt_next (runs_locate h s hs) (locate_run _ _ _) <| runAt_then (runs_readLoc _ _ _ (by simpa [Footprint.Good] using hs))
    fun _ => runs_bind (hf _) fun _ => runs_writeLoc hl _

theorem runAt_modifyIndivisible (hs : F.Good s) {ea : Ea} (h : ∀ r ∈ sideRegs ea, F.addr r)
    (hl : F.Stores .byte (s.resolve .byte ea).1) {f : Long → M Long} (hf : ∀ v, Runs F (f v)) :
    RunAt F (modifyIndivisible ea f) s := by
  refine runAt_next (runs_locate h s hs) (locate_run _ _ _) ?_
  have hs' : F.Good (s.resolve .byte ea).2 := by simpa [Footprint.Good] using hs
  revert hl
  cases (s.resolve .byte ea).1 with
  | mem sp addr pre =>
    exact fun hl => runs_ite (runs_raise (e := .refuse .illFormed) trivial)
      (runs_busModify8 hl.byte fun _ => runs_bind (hf _) fun _ => runs_pure _) _ hs'
  | dreg r | areg r | imm v =>
    exact fun hl => (runs_bind (runs_readLoc _ _) fun _ => runs_bind (hf _) fun _ => runs_writeLoc hl _) _ hs'

theorem runAt_overwriteEa (hs : F.Good s) {sz : Size} {ea : Ea} (h : ∀ r ∈ sideRegs ea, F.addr r)
    (hl : F.Stores sz (s.resolve sz ea).1) {v : M Long} (hv : Runs F v) : RunAt F (overwriteEa sz ea v) s := by
  refine runAt_next (runs_locate h s hs) (locate_run _ _ _) ?_
  have hs' : F.Good (s.resolve sz ea).2 := by simpa [Footprint.Good] using hs
  have write : Runs F (v >>= fun r => writeLoc sz (s.resolve sz ea).1 r) := runs_bind hv fun _ => runs_writeLoc hl _
  revert write
  cases (s.resolve sz ea).1 with
  | mem sp addr pre => exact fun write => runs_bind (runs_readLoc _ _) (fun _ => write) _ hs'
  | dreg r | areg r | imm v => exact fun write => write _ hs'

end

/-! PROOF. The computations of the instruction families run inside every footprint that allows what they write. -/

section
variable {F : Footprint} {s t : State}

/-! Condition codes. -/

/-- The footprint keeps no condition code but X. -/
def Footprint.FreeButX (F : Footprint) : Prop := F.keepsNvc = false ∧ F.keepsZ = false

/-- The footprint keeps no condition code. -/
def Footprint.Free (F : Footprint) : Prop := F.keepsX = false ∧ F.FreeButX

theorem Footprint.Free.flags (h : F.Free) {q q' : Sr} (hq : q'.t = q.t ∧ q'.s = q.s ∧ q'.i = q.i := by exact ⟨rfl, rfl, rfl⟩) :
    F.Flags q q' :=
  ⟨hq, by simp [h.1], by simp [h.2.1], by simp [h.2.2]⟩

theorem Footprint.FreeButX.flags (h : F.FreeButX) {q q' : Sr} (hx : q'.x = q.x := by rfl)
    (hq : q'.t = q.t ∧ q'.s = q.s ∧ q'.i = q.i := by exact ⟨rfl, rfl, rfl⟩) : F.Flags q q' :=
  ⟨hq, fun _ => hx, by simp [h.1], by simp [h.2]⟩

/-- A new Z only. -/
theorem flags_zero (h : F.keepsZ = false) (q : Sr) (z : Bool) : F.Flags q { q with z := z } :=
  ⟨⟨rfl, rfl, rfl⟩, fun _ => rfl, fun _ => ⟨rfl, rfl, rfl⟩, by simp [h]⟩

theorem runAt_updSr (hs : F.Good s) {f : Sr → Sr} (h : F.Flags s.sr (f s.sr)) : RunAt F (updSr f) s :=
  runAt_answer (t := s.withSr (f s.sr)) (a := ()) (fun _ => rfl) (.single (.flags _ h)) ⟨h.1.2.1.trans hs.1, hs.2⟩

/-! Results with their flags. -/

/-- The flags of a result, then the result. -/
theorem runs_flagged {f : Sr → Sr} (h : ∀ q, F.Flags q (f q)) (r : Long) :
    Runs F (updSr f >>= fun _ => pure r) :=
  runs_bind (runs_updSr h) fun _ => runs_pure _

/-- Replacing a data register. -/
theorem runs_modifyDn {sz : Size} {r : Reg} (h : F.data r ∧ F.Fits sz) {f : Long → M Long} (hf : ∀ v, Runs F (f v)) :
    Runs F (modifyEa sz (.dn r) f) :=
  fun _ hs => runAt_modifyEa (sz := sz) (ea := .dn r) hs (fun _ hr => by cases hr) h hf

theorem runs_decimalResult (h : F.Free) (t : Int) (c : Bool) : Runs F (decimalResult t c) :=
  runs_bind runs_anyBool fun _ => runs_bind runs_anyBool fun _ => runs_bind (runs_updSr fun _ => h.flags) fun _ => runs_pure _

theorem runs_decimalInvalid (h : F.Free) : Runs F decimalInvalid :=
  runs_bind (runs_anyBits _) fun _ => runs_bind runs_anyBool fun _ => runs_bind runs_anyBool fun _ =>
    runs_bind runs_anyBool fun _ => runs_bind runs_anyBool fun _ => runs_bind (runs_updSr fun _ => h.flags) fun _ =>
      runs_pure _

theorem runs_decimalAdd (h : F.Free) (s d : Byte) : Runs F (decimalAdd s d) :=
  runs_bind (runs_ask _) fun _ => runs_ite (runs_decimalResult h _ _) (runs_decimalInvalid h)

theorem runs_decimalSub (h : F.Free) (s d : Byte) : Runs F (decimalSub s d) :=
  runs_bind (runs_ask _) fun _ => runs_ite (runs_decimalResult h _ _) (runs_decimalInvalid h)

/-- A shifted value with its flags; a shift that leaves X alone may be held to it. -/
theorem runs_shiftBody {f : Sr → Shift} (h : F.FreeButX) (hx : F.keepsX = true → ∀ q, (f q).x = q.x) (sz : Size) :
    Runs F (ask State.sr >>= fun q => updSr (fun q' => q'.shift sz (f q)) >>= fun _ => pure (f q).r) :=
  fun s hs => runAt_ask State.sr hs <| runAt_then (runAt_updSr hs ⟨⟨rfl, rfl, rfl⟩, fun hk => hx hk _, by simp [h.1], by simp [h.2]⟩) fun _ => runs_pure _

/-- Steps that leave X alone, one after the other. -/
theorem iterate_x {step : Shift → Shift} (h : ∀ u, (step u).x = u.x) (n : Nat) (u : Shift) : (iterate step n u).x = u.x := by
  induction n generalizing u with
  | zero => rfl
  | succ n ih => exact (ih _).trans (h u)

theorem runs_shiftCount (byReg : Bool) (count : Reg) : Runs F (shiftCount byReg count) :=
  runs_ite (runs_ask _) (runs_pure _)

theorem runs_shiftRegister {sz : Size} {dn : Reg} (hd : F.data dn ∧ F.Fits sz) (h : F.FreeButX) (byReg : Bool) (count : Reg)
    {f : Nat → Sr → Long → Shift} (hx : F.keepsX = true → ∀ n q v, (f n q v).x = q.x) :
    Runs F (shiftRegister sz byReg count dn f) :=
  runs_bind (runs_shiftCount _ _) fun n => runs_modifyDn hd fun v => runs_shiftBody h (fun hk q => hx hk n q v) _

/-! Division and bounds. -/

theorem runs_divideByZero (h : F.FreeButX) (ht : F.traps 5) : Runs F divideByZero :=
  runs_bind runs_anyBool fun _ => runs_bind runs_anyBool fun _ => runs_bind runs_anyBool fun _ =>
    runs_bind (runs_updSr fun _ => h.flags) fun _ => runs_raise ht

theorem runs_divideOverflow (h : F.FreeButX) : Runs F divideOverflow :=
  runs_bind runs_anyBool fun _ => runs_bind runs_anyBool fun _ => runs_updSr fun _ => h.flags

/-- A data register replaced whole. -/
theorem runs_putD_long {r : Reg} (hr : F.data r) (hsz : F.size = .long) (v : Long) :
    Runs F (upd fun s => s.putD r v) :=
  runs_putD r (fun _ => v) hr fun _ => by rw [hsz]; rfl

theorem runs_divideResult (h : F.FreeButX) {dn : Reg} (hr : F.data dn) (hsz : F.size = .long) (q r : Word) :
    Runs F (divideResult dn q r) :=
  runs_bind (runs_updSr fun _ => h.flags) fun _ => runs_putD_long hr hsz _

/-! Pairs of operands. -/

/-- Nothing that a computation reads of registers has changed. -/
def SameRegisters (s t : State) : Prop :=
  (∀ r, t.getD r = s.getD r) ∧ (∀ r, t.getA r = s.getA r) ∧ t.sr.s = s.sr.s

/-- A computation inside the reading footprint changes no register. -/
theorem Run.sameRegisters {α : Type} {m : M α} {b : Bool} {p : Platform} (h : Run (Footprint.reading b p) m s) :
    Leads m s (SameRegisters s) := by
  have same : ∀ t, Touch (Footprint.reading b p) s t → SameRegisters s t := fun t ht => by
    obtain ⟨-, hsr, -⟩ := ht.system rfl
    refine ⟨fun r => ht.data r id, fun r => ?_, hsr⟩
    by_cases hr : r.val < 7
    · exact ht.address r hr id
    · simp [State.getA, hr, hsr, ht.usp fun h => h.1, ht.ssp fun h => h.1]
  exact ⟨fun a t h1 => same t (h.touch.1 a t h1), fun e t h1 => same t (h.touch.2 e t h1)⟩

/-- The location of an alterable operand depends on registers only. -/
theorem SameRegisters.resolve (h : SameRegisters s t) (sz : Size) {ea : Ea} (hea : ea.isAlterable = true) :
    (t.resolve sz ea).1 = (s.resolve sz ea).1 := by
  obtain ⟨hd, ha, hs⟩ := h
  have space : t.dataSpace = s.dataSpace := by rw [State.dataSpace, hs]; rfl
  cases ea with
  | pcDisp d | pcIndex x | imm v => cases hea
  | index r x => simp only [State.resolve, State.indexValue, ha, hd, space]
  | _ => simp only [State.resolve, ha, space]

/-- A read changes no register. -/
theorem readLoc_sameRegisters {sz : Size} {loc : Loc} {v : Long} (h : (readLoc sz loc).run s = .ok v t) :
    SameRegisters s t :=
  (runs_readLoc (F := Footprint.reading s.sr.s s.platform) sz loc s ⟨rfl, rfl⟩).1.sameRegisters.1 v t h

theorem pairEa_alterable (mem : Bool) (r : Reg) : (pairEa mem r).isAlterable = true := by
  cases mem <;> rfl

/-- The two operands of a pair, where their side effects are allowed; the result goes to the second. -/
theorem runAt_operandPair (hs : F.Good s) {sz : Size} {mem : Bool} {rx ry : Reg}
    (hx : ∀ r ∈ sideRegs (pairEa mem rx), F.addr r) (hy : ∀ r ∈ sideRegs (pairEa mem ry), F.addr r) :
    RunAt F (operandPair sz mem rx ry) s ∧ ∀ a t, (operandPair sz mem rx ry).run s = .ok a t →
      a.2.2 = ((s.resolve sz (pairEa mem ry)).2.resolve sz (pairEa mem rx)).1 := by
  refine ⟨(runs_bind (runs_locate hy) fun _ => runs_bind (runs_readLoc _ _) fun _ => runs_bind (runs_locate hx) fun _ =>
    runs_bind (runs_readLoc _ _) fun _ => runs_pure _) s hs, fun a t ha => ?_⟩
  obtain ⟨l, u, hl, ha⟩ := bind_ok_cases ha
  cases hl
  obtain ⟨v, u', hv, ha⟩ := bind_ok_cases ha
  obtain ⟨l', w, hl', ha⟩ := bind_ok_cases ha
  cases hl'
  obtain ⟨d, w', -, ha⟩ := bind_ok_cases ha
  cases ha
  exact (readLoc_sameRegisters hv).resolve sz (pairEa_alterable mem rx)

/-- Two operands, then something with the place of the second. -/
theorem runAt_withPair (hs : F.Good s) {sz : Size} {mem : Bool} {rx ry : Reg}
    (hx : ∀ r ∈ sideRegs (pairEa mem rx), F.addr r) (hy : ∀ r ∈ sideRegs (pairEa mem ry), F.addr r)
    {k : Long × Long × Loc → M Unit}
    (hk : ∀ v d, Runs F (k (v, d, ((s.resolve sz (pairEa mem ry)).2.resolve sz (pairEa mem rx)).1))) :
    RunAt F (operandPair sz mem rx ry >>= k) s := by
  obtain ⟨hp, hl⟩ := runAt_operandPair hs hx hy
  refine runAt_bind hp fun a t ha hg => ?_
  have := hl a t ha
  obtain ⟨v, d, l⟩ := a
  cases this
  exact hk v d t hg

/-! Registers to and from memory. -/

/-- An address `k` operands on. -/
theorem add_operands (addr : Long) (n k : Nat) : addr + BitVec.ofNat 32 n + BitVec.ofNat 32 (k * n) =
    addr + BitVec.ofNat 32 ((k + 1) * n) := by
  rw [BitVec.add_assoc, ← BitVec.ofNat_add, Nat.add_comm n, Nat.succ_mul]

theorem runs_storeUp {sz : Size} {sp : Space} {ks : List (Fin 16)} {addr : Long}
    (h : ∀ k, k < ks.length → F.Covers sz sp (addr + BitVec.ofNat 32 (k * sz.bytes))) : Runs F (storeUp sz sp ks addr) := by
  induction ks generalizing addr with
  | nil => exact runs_pure _
  | cons r ks ih =>
    have h0 := h 0 (Nat.succ_pos _)
    rw [Nat.zero_mul, show addr + BitVec.ofNat 32 0 = addr from BitVec.add_zero _] at h0
    refine runs_bind (runs_ask _) fun _ => runs_bind (runs_writeMem h0 _ _) fun _ => ih fun k hk => ?_
    rw [add_operands]
    exact h (k + 1) (Nat.succ_lt_succ hk)

theorem sub_operands (addr : Long) (n k : Nat) : addr - BitVec.ofNat 32 n - BitVec.ofNat 32 (k * n) =
    addr - BitVec.ofNat 32 ((k + 1) * n) := by
  rw [BitVec.sub_sub, ← BitVec.ofNat_add, Nat.add_comm n, Nat.succ_mul]

theorem runs_storeDown {sz : Size} {sp : Space} {ks : List (Fin 16)} {addr : Long}
    (h : ∀ k, k < ks.length → F.Covers sz sp (addr - BitVec.ofNat 32 ((k + 1) * sz.bytes))) :
    Runs F (storeDown sz sp ks addr) := by
  induction ks generalizing addr with
  | nil => exact runs_pure _
  | cons r ks ih =>
    have h0 := h 0 (Nat.succ_pos _)
    rw [Nat.zero_add, Nat.one_mul] at h0
    refine runs_bind (runs_ask _) fun _ => runs_bind (runs_writeMem h0 _ _) fun _ => ih fun k hk => ?_
    rw [sub_operands]
    exact h (k + 1) (Nat.succ_lt_succ hk)

/-- The footprint allows register `R[k]` to be written whole. -/
def Footprint.Register (F : Footprint) (k : Fin 16) : Prop :=
  if k.val < 8 then F.data (Fin.ofNat 8 k.val) ∧ F.size = .long else F.addr (Fin.ofNat 8 k.val)

theorem runs_putR {k : Fin 16} (h : F.Register k) (v : Long) : Runs F (upd fun s => s.putR k v) := by
  unfold Footprint.Register at h
  unfold State.putR
  split at h
  · next hk =>
    simp only [hk, if_true]
    exact runs_putD_long h.1 h.2 v
  · next hk =>
    simp only [hk, if_false]
    exact runs_putA _ (fun _ => v) h

theorem runs_loadUp {sz : Size} {ks : List (Fin 16)} (h : ∀ k ∈ ks, F.Register k) (sp : Space) (addr : Long) :
    Runs F (loadUp sz sp ks addr) := by
  induction ks generalizing addr with
  | nil => exact runs_pure _
  | cons k ks ih =>
    exact runs_bind (runs_readMem _ _ _) fun _ => runs_bind (runs_putR (h k List.mem_cons_self) _) fun _ =>
      ih (fun k hk => h k (List.mem_cons_of_mem _ hk)) _

/-! Branches. -/

theorem runs_branchTarget (d : BrDisp) : Runs F (branchTarget d) := by
  refine runs_bind (runs_ask _) fun _ => ?_
  cases d with
  | short d => exact runs_pure _
  | word d => exact runs_bind runs_skipWord fun _ => runs_pure _

end

/-! PROOF. How a computation comes to its references to operands: where the ones before it are answered by memory, a reference that aborts aborts the computation (rules R67, R438). -/

/-! One reference. -/

/-- Nothing that bus cycles depend on has changed. -/
def SameBus (s t : State) : Prop :=
  t.platform = s.platform ∧ t.longSplit = s.longSplit ∧ t.cycles = s.cycles ∧ t.mem = s.mem

/-- A reference as a computation; `v` is what it writes, if it writes. -/
def Reference.access (r : Reference) (v : Long) : M Unit :=
  if r.write then writeMem r.sz r.pre r.sp r.addr v else readMem r.sz r.sp r.addr >>= fun _ => pure ()

/-- The computation comes to the reference: it aborts as the reference does. -/
def Arrives {α : Type} (m : M α) (s : State) (r : Reference) : Prop :=
  ∃ t v, SameBus s t ∧ ∀ e w, (r.access v).run t = .error e w → m.run s = .error e w

/-- The computation comes to each of the references, where memory answers those before it. -/
def Reaches {α : Type} (m : M α) (s : State) : List Reference → Prop
  | [] => True
  | r :: l => Arrives m s r ∧ (s.canRead r.sz r.sp r.addr → Reaches m s l)

/-- A computation that answers and leaves what bus cycles depend on. -/
def Quiet {α : Type} (m : M α) : Prop := ∀ s, ∃ a t, m.run s = .ok a t ∧ SameBus s t

section
variable {α β : Type} {s t u : State} {m : M α} {f : α → M β} {sz : Size} {sp : Space} {addr : Long} {l : List Reference}
  {r : Reference}

theorem SameBus.refl (s : State) : SameBus s s := ⟨rfl, rfl, rfl, rfl⟩

theorem SameBus.trans (h : SameBus s t) (h' : SameBus t u) : SameBus s u := by
  obtain ⟨platform, split, cycles, mem⟩ := h
  obtain ⟨platform', split', cycles', mem'⟩ := h'
  exact ⟨platform'.trans platform, split'.trans split, cycles'.trans cycles, mem'.trans mem⟩

theorem SameBus.answers (h : SameBus s t) : t.platform = s.platform ∧ t.cycles = s.cycles := ⟨h.1, h.2.2.1⟩

theorem sameBus_resolve (s : State) (sz : Size) (ea : Ea) : SameBus s (s.resolve sz ea).2 := by
  simp [SameBus]

theorem sameBus_putA (s : State) (r : Reg) (v : Long) : SameBus s (s.putA r v) := by
  simp [SameBus]

/-! Sequences. -/

theorem Arrives.bind (h : Arrives m s r) : Arrives (m >>= f) s r := by
  obtain ⟨t, v, bus, ha⟩ := h
  exact ⟨t, v, bus, fun e w he => bind_error (ha e w he)⟩

theorem Arrives.after {a : α} (hr : m.run s = .ok a t) (hb : SameBus s t) (h : Arrives (f a) t r) :
    Arrives (m >>= f) s r := by
  obtain ⟨u, v, bus, ha⟩ := h
  exact ⟨u, v, hb.trans bus, fun e w he => (bind_ok hr).trans (ha e w he)⟩

theorem Reaches.bind (h : Reaches m s l) : Reaches (m >>= f) s l := by
  induction l with
  | nil => trivial
  | cons r l ih => exact ⟨h.1.bind, fun hr => ih (h.2 hr)⟩

theorem Reaches.after {a : α} (hr : m.run s = .ok a t) (hb : SameBus s t) (h : Reaches (f a) t l) :
    Reaches (m >>= f) s l := by
  induction l with
  | nil => trivial
  | cons r l ih => exact ⟨h.1.after hr hb, fun hc => ih (h.2 (State.canRead_of_bus hc hb.answers))⟩

/-- After an update of registers. -/
theorem Reaches.afterUpd {g : State → State} {k : Unit → M β} (hb : SameBus s (g s)) (h : Reaches (k ()) (g s) l) :
    Reaches (upd g >>= k) s l :=
  .after (upd_run g s) hb h

/-- After a value of the state. -/
theorem Reaches.afterAsk {get : State → α} {k : α → M β} (h : Reaches (k (get s)) s l) : Reaches (ask get >>= k) s l :=
  .after (ask_run get s) (.refl s) h

theorem Reaches.afterQuiet (hq : Quiet m) (h : ∀ a t, SameBus s t → Reaches (f a) t l) : Reaches (m >>= f) s l := by
  obtain ⟨a, t, hr, hb⟩ := hq s
  exact .after hr hb (h a t hb)

/-! Computations without references. -/

theorem quiet_pure (a : α) : Quiet (pure a : M α) := fun s => ⟨a, s, rfl, .refl s⟩

theorem quiet_ask (get : State → α) : Quiet (ask get) := fun s => ⟨get s, s, ask_run get s, .refl s⟩

theorem quiet_bind (h : Quiet m) (h' : ∀ a, Quiet (f a)) : Quiet (m >>= f) := fun s => by
  obtain ⟨a, t, hr, hb⟩ := h s
  obtain ⟨b, u, hr', hb'⟩ := h' a t
  exact ⟨b, u, (bind_ok hr).trans hr', hb.trans hb'⟩

theorem quiet_ite {c : Prop} [Decidable c] {m m' : M α} (h : Quiet m) (h' : Quiet m') : Quiet (if c then m else m') := by
  split
  · exact h
  · exact h'

theorem quiet_updSr (g : Sr → Sr) : Quiet (updSr g) := fun s => ⟨(), s.withSr (g s.sr), rfl, .refl s⟩

theorem quiet_anyLong : Quiet anyLong := fun s => ⟨Config.free s.draws, s.drawn, rfl, .refl s⟩

theorem quiet_anyBool : Quiet anyBool := quiet_bind quiet_anyLong fun _ => quiet_pure _

theorem quiet_anyBits (n : Nat) : Quiet (anyBits n) := quiet_bind quiet_anyLong fun _ => quiet_pure _

/-- The flags of a result, then the result. -/
theorem quiet_flagged (g : Sr → Sr) (v : Long) : Quiet (updSr g >>= fun _ => pure v) :=
  quiet_bind (quiet_updSr g) fun _ => quiet_pure v

theorem quiet_decimalResult (t : Int) (c : Bool) : Quiet (decimalResult t c) :=
  quiet_bind quiet_anyBool fun _ => quiet_bind quiet_anyBool fun _ => quiet_bind (quiet_updSr _) fun _ => quiet_pure _

theorem quiet_decimalInvalid : Quiet decimalInvalid :=
  quiet_bind (quiet_anyBits _) fun _ => quiet_bind quiet_anyBool fun _ => quiet_bind quiet_anyBool fun _ =>
    quiet_bind quiet_anyBool fun _ => quiet_bind quiet_anyBool fun _ => quiet_bind (quiet_updSr _) fun _ => quiet_pure _

theorem quiet_decimalAdd (v d : Byte) : Quiet (decimalAdd v d) :=
  quiet_bind (quiet_ask _) fun _ => quiet_ite (quiet_decimalResult _ _) quiet_decimalInvalid

theorem quiet_decimalSub (v d : Byte) : Quiet (decimalSub v d) :=
  quiet_bind (quiet_ask _) fun _ => quiet_ite (quiet_decimalResult _ _) quiet_decimalInvalid

/-! References. -/

theorem arrives_readMem (s : State) (sz : Size) (pre : Bool) (sp : Space) (addr : Long) :
    Arrives (readMem sz sp addr) s { sz := sz, write := false, pre := pre, sp := sp, addr := addr } :=
  ⟨s, 0, .refl s, fun _ _ he => (bind_error_cases he).elim id fun ⟨_, _, _, h⟩ => by cases h⟩

theorem arrives_writeMem (s : State) (sz : Size) (pre : Bool) (sp : Space) (addr v : Long) :
    Arrives (writeMem sz pre sp addr v) s { sz := sz, write := true, pre := pre, sp := sp, addr := addr } :=
  ⟨s, v, .refl s, fun _ _ he => he⟩

/-- A computation of which a read is another form comes to its reference. -/
theorem Arrives.of_bind {g : α → M β} (h : Arrives (m >>= g) s r) (hg : ∀ a, Quiet (g a)) : Arrives m s r := by
  obtain ⟨t, v, bus, ha⟩ := h
  refine ⟨t, v, bus, fun e w he => ?_⟩
  rcases bind_error_cases (ha e w he) with h | ⟨a, u, -, h⟩
  · exact h
  · obtain ⟨b, u', h', -⟩ := hg a u
    rw [h'] at h
    cases h

theorem arrives_readWord (s : State) (pre : Bool) (sp : Space) (addr : Long) :
    Arrives (readWord sp addr) s { sz := .word, write := false, pre := pre, sp := sp, addr := addr } :=
  (arrives_readMem s .word pre sp addr).of_bind fun _ => quiet_pure _

theorem arrives_busRead8 (s : State) (pre : Bool) (sp : Space) (addr : Long) :
    Arrives (busRead8 sp addr) s { sz := .byte, write := false, pre := pre, sp := sp, addr := addr } :=
  (arrives_readMem s .byte pre sp addr).of_bind fun _ => quiet_pure _

theorem arrives_busWrite8 (s : State) (pre : Bool) (sp : Space) (addr : Long) (b : Byte) :
    Arrives (busWrite8 sp addr b) s { sz := .byte, write := true, pre := pre, sp := sp, addr := addr } := by
  have h := arrives_writeMem s .byte pre sp addr (b.setWidth 32)
  rwa [writeMem, show (b.setWidth 32 : Long).setWidth 8 = b by simp] at h

/-- One reference. -/
theorem Arrives.reaches (h : Arrives m s r) : Reaches m s [r] := ⟨h, fun _ => trivial⟩

/-- References that there are only where a condition fails. -/
theorem reaches_unless {c : Prop} [Decidable c] (h : ¬ c → Reaches m s l) : Reaches m s (if c then [] else l) := by
  split
  · trivial
  · exact h (by assumption)

/-! Operands. -/

/-- A location of data, or none in memory. -/
def Loc.isData (loc : Loc) : Prop := ∀ sp addr pre, loc = .mem sp addr pre → sp.isProgram = false

theorem isData_resolve {ea : Ea} (h : ea.isAlterable = true) (s : State) (sz : Size) : (s.resolve sz ea).1.isData := by
  have data : s.dataSpace.isProgram = false := by
    rw [State.dataSpace]
    split <;> rfl
  intro sp addr pre he
  cases ea with
  | pcDisp | pcIndex | imm => cases h
  | dn | an => cases he
  | _ =>
    cases he
    exact data

theorem reaches_readLoc {loc : Loc} {k : Long → M β} (h : ∀ v, Reaches (k v) s l) :
    Reaches (readLoc sz loc >>= k) s (loc.refer sz false ++ l) := by
  have rest : s.readable sz loc → Reaches (readLoc sz loc >>= k) s l := fun hr => .after (readLoc_ok hr) (.refl s) (h _)
  cases loc with
  | mem sp addr pre => exact ⟨(arrives_readMem s sz pre sp addr).bind, rest⟩
  | dreg r | areg r | imm v => exact rest trivial

theorem reaches_writeLoc {loc : Loc} (h : loc.isData) (v : Long) : Reaches (writeLoc sz loc v) s (loc.refer sz true) := by
  cases loc with
  | mem sp addr pre =>
    rw [writeLoc, h sp addr pre rfl]
    exact (arrives_writeMem s sz pre sp addr v).reaches
  | dreg r | areg r | imm v => trivial

theorem reaches_locate {ea : Ea} {k : Loc → M β} (h : Reaches (k (s.resolve sz ea).1) (s.resolve sz ea).2 l) :
    Reaches (locate sz ea >>= k) s l :=
  .after (locate_run sz ea s) (sameBus_resolve s sz ea) h

/-- An operand, then the rest. -/
theorem reaches_operand {ea : Ea} {k : Long → M β} (h : ∀ v, Reaches (k v) (s.resolve sz ea).2 l) :
    Reaches (operand sz ea >>= k) s ((s.resolve sz ea).1.refer sz false ++ l) := by
  rw [operand, bind_assoc]
  exact reaches_locate (reaches_readLoc h)

/-- An operand replaced. -/
theorem reaches_modifyEa {ea : Ea} {g : Long → M Long} (h : ea.isAlterable = true) (hg : ∀ v, Quiet (g v)) :
    Reaches (modifyEa sz ea g) s ((s.resolve sz ea).1.refer sz false ++ (s.resolve sz ea).1.refer sz true) :=
  reaches_locate <| reaches_readLoc fun v => .afterQuiet (hg v) fun _ _ _ => reaches_writeLoc (isData_resolve h s sz) _

/-- An operand overwritten, memory read first. -/
theorem reaches_overwriteEa {ea : Ea} {g : M Long} (h : ea.isAlterable = true) (hg : Quiet g) :
    Reaches (overwriteEa sz ea g) s ((s.resolve sz ea).1.refer sz false ++ (s.resolve sz ea).1.refer sz true) := by
  have data := isData_resolve h s sz
  refine reaches_locate ?_
  cases hl : (s.resolve sz ea).1 with
  | mem sp addr pre =>
    exact reaches_readLoc fun _ => .afterQuiet hg fun _ _ _ => reaches_writeLoc (hl ▸ data) _
  | dreg r | areg r | imm v => trivial

/-- An indivisible cycle aborts as its read does. -/
theorem busModify8_read_error {g : Byte → M Byte} {e : Abort} {w : State} (h : (busRead8 sp addr).run s = .error e w) :
    (busModify8 sp addr g).run s = .error e w := by
  rcases bind_error_cases h with h | ⟨c, t, hc, h⟩
  · exact bind_error h
  · rcases bind_error_cases h with h | ⟨p, u, hp, h⟩
    · cases h
    · exact (bind_ok hc).trans ((bind_ok hp).trans (bind_error h))

/-- After its read an indivisible cycle goes on as a write does. -/
theorem busModify8_write {g : Byte → M Byte} {b : Byte} (hr : s.readsMemory sp addr false)
    (hg : (g (s.byteAt sp addr)).run s = .ok b t) (hb : SameBus s t) :
    (busModify8 sp addr g).run s = (busWrite8 sp addr b).run t := by
  have quiet : t.cycles = [] := hb.answers.2.trans hr.1
  have read : (endRead8 (Cycle.quiet.reply.onRead (s.platform.readReply sp addr false)) sp addr).run s =
      .ok (s.byteAt sp addr) s := by
    rw [hr.2]
    rfl
  rw [busModify8, bind_ok (startCycle_quiet hr.1), bind_ok (ask_run _ _), bind_ok read, bind_ok hg, busWrite8,
    bind_ok (startCycle_quiet quiet)]
  rfl

/-- A byte replaced in one indivisible cycle. -/
theorem reaches_modifyIndivisible {ea : Ea} {g : Long → M Long} (h : ea.isAlterable = true) (hg : ∀ v, Quiet (g v)) :
    Reaches (modifyIndivisible ea g) s ((s.resolve .byte ea).1.refer .byte false ++ (s.resolve .byte ea).1.refer .byte true) := by
  have data := isData_resolve h s .byte
  refine reaches_locate ?_
  cases hl : (s.resolve .byte ea).1 with
  | mem sp addr pre =>
    simp only [data sp addr pre hl, Bool.false_eq_true, if_false]
    obtain ⟨v, t, hv, hb⟩ := quiet_bind (hg (((s.resolve .byte ea).2.byteAt sp addr).setWidth 32)) (fun r => quiet_pure (r.setWidth 8 : Byte))
      (s.resolve .byte ea).2
    obtain ⟨t1, v1, bus1, h1⟩ := arrives_busRead8 (s.resolve .byte ea).2 pre sp addr
    refine ⟨⟨t1, v1, bus1, fun e w he => busModify8_read_error (h1 e w he)⟩, fun hr => ?_⟩
    obtain ⟨t2, v2, bus2, h2⟩ := arrives_busWrite8 t pre sp addr v
    exact Arrives.reaches ⟨t2, v2, hb.trans bus2, fun e w he => (busModify8_write hr hv hb).trans (h2 e w he)⟩
  | dreg r | areg r | imm v => trivial

/-! The stack, and pairs of operands. -/

/-- The push of a long word. -/
theorem reaches_pushLong (s : State) (v : Long) :
    Reaches (pushLong v) s ((Loc.mem s.dataSpace (s.getA 7 - 4) true).refer .long true) := by
  have h := arrives_writeMem (s.putA 7 (s.getA 7 - 4)) .long true s.dataSpace (s.getA 7 - 4) v
  have space : (s.putA 7 (s.getA 7 - 4)).dataSpace = s.dataSpace := by
    simp [State.dataSpace]
  refine .afterUpd (sameBus_putA s 7 _) (.afterAsk (.afterAsk ?_))
  rw [space, State.getA_putA, if_pos rfl]
  exact h.reaches

/-- A long word popped, then the rest. -/
theorem reaches_popLong {k : Long → M β} : Reaches (popLong >>= k) s ((Loc.mem s.dataSpace (s.getA 7) false).refer .long false) := by
  have h : Arrives (readLong s.dataSpace (s.getA 7)) s _ := arrives_readMem s .long false s.dataSpace (s.getA 7)
  exact .bind (.afterAsk (.afterAsk h.bind.reaches))

theorem reaches_popWord {k : Word → M β} : Reaches (popWord >>= k) s ((Loc.mem s.dataSpace (s.getA 7) false).refer .word false) :=
  .bind (.afterAsk (.afterAsk (arrives_readWord s false _ _).bind.reaches))

/-- The two operands of a pair, then a write of the second. -/
theorem reaches_operandPair {mem : Bool} {rx ry : Reg} {k : Long × Long × Loc → M Unit}
    (hk : ∀ v d t, SameBus s t → (loc : Loc) → loc.isData → Reaches (k (v, d, loc)) t (loc.refer sz true)) :
    Reaches (operandPair sz mem rx ry >>= k) s ((s.resolve sz (pairEa mem ry)).1.refer sz false ++
      ((s.resolve sz (pairEa mem ry)).2.resolve sz (pairEa mem rx)).1.refer sz false ++
        ((s.resolve sz (pairEa mem ry)).2.resolve sz (pairEa mem rx)).1.refer sz true) := by
  simp only [operandPair, bind_assoc, List.append_assoc]
  exact reaches_locate <| reaches_readLoc fun v => reaches_locate <| reaches_readLoc fun d =>
    hk v d _ ((sameBus_resolve s sz _).trans (sameBus_resolve _ sz _)) _ (isData_resolve (pairEa_alterable mem rx) _ sz)

/-! Moves, and several registers. -/

theorem sameBus_replaced (s : State) (n : Nat) : SameBus s (s.replaced n) ∧ SameRegisters s (s.replaced n) := by
  unfold State.replaced
  split <;> exact ⟨⟨rfl, rfl, rfl, rfl⟩, fun _ => rfl, fun _ => rfl, rfl⟩

/-- MOVE: the source, then the destination. -/
theorem reaches_moveData {src dst : Ea} (hc : (s.resolve sz src).2.canReplace (eaWords sz dst)) (hd : dst.isAlterable = true) :
    Reaches (moveData sz src dst) s
      ((s.resolve sz src).1.refer sz false ++ ((s.resolve sz src).2.resolve sz dst).1.refer sz true) := by
  obtain ⟨bus, same⟩ := sameBus_replaced (s.resolve sz src).2 (eaWords sz dst)
  refine reaches_operand fun v => .afterAsk (.after (replaceWords_ok hc) bus (reaches_locate ?_))
  rw [same.resolve sz hd]
  exact .afterQuiet (quiet_updSr _) fun _ _ _ => reaches_writeLoc (isData_resolve hd _ sz) v

/-- The first of the registers stored upwards. -/
theorem reaches_storeUp {ks : List (Fin 16)} (h : ks ≠ []) :
    Reaches (storeUp sz sp ks addr) s ((Loc.mem sp addr false).refer sz true) := by
  cases ks with
  | nil => exact absurd rfl h
  | cons r ks => exact .afterAsk (arrives_writeMem s sz false sp addr (s.getR r)).bind.reaches

/-- The first of the registers stored downwards. -/
theorem reaches_storeDown {ks : List (Fin 16)} (h : ks ≠ []) {k : Long → M β} :
    Reaches (storeDown sz sp ks addr >>= k) s ((Loc.mem sp (addr - BitVec.ofNat 32 sz.bytes) true).refer sz true) := by
  cases ks with
  | nil => exact absurd rfl h
  | cons r ks => exact .bind (.afterAsk (arrives_writeMem s sz true sp _ (s.getR r)).bind.reaches)

/-- The first of the registers loaded, or the word read after none (log 24). -/
theorem reaches_loadUp {ks : List (Fin 16)} {k : Long → Word → M β} :
    Reaches (loadUp sz sp ks addr >>= fun last => readWord sp last >>= k last) s
      ((Loc.mem sp addr false).refer (if ks = [] then .word else sz) false) := by
  cases ks with
  | nil => exact .after (a := addr) rfl (.refl s) (arrives_readWord s false sp addr).bind.reaches
  | cons r ks => exact .bind (arrives_readMem s sz false sp addr).bind.reaches

end

/-! PROOF. The footprint of each instruction, and its meaning as a computation that runs inside it. -/

/-! The footprint of an instruction. -/

/-- The instructions of which every term, well-formed or not, writes what its rule says only. -/
def plainForm : Instr → Bool
  | .moveB _ _ | .moveW _ _ | .moveL _ _ | .jsr _ | .pea _ | .jmp _ => false
  | i => (operandDest i).isNone

/-- What is written is known. -/
def precise (i : Instr) : Bool := i.wf || plainForm i

/-- The instructions that may transfer control. -/
def transfers : Instr → Bool
  | .bcc _ _ | .bra _ | .bsr _ | .dbcc _ _ _ | .jmp _ | .jsr _ | .rts | .rtr | .rte => true
  | _ => false

/-- The vectors of the group 2 exceptions that an instruction may raise. -/
def mayTrap : Instr → BitVec 8 → Prop
  | .chk _ _, n => n = 6
  | .divu _ _, n | .divs _ _, n => n = 5
  | .trapv, n => n = 7
  | .trap v, n => n = 32 + v.setWidth 8
  | _, _ => False

/-- The instructions that neither take an exception by their rule nor write anything outside the registers of a program and memory. -/
def completes : Instr → Bool
  | .chk _ _ | .divu _ _ | .divs _ _ | .trapv | .trap _ | .line1010 _ | .line1111 _ | .reset | .stop _ | .moveToUsp _ => false
  | _ => true

/-- What the instruction `i` that begins in `s` may change: the registers, flags and bytes that its rule writes (rules R42, R443). -/
def State.footprint (s : State) (i : Instr) : Footprint :=
  { super := s.sr.s
    platform := s.platform
    data := fun r => precise i = true → dataIndex r ∈ writtenRegs i
    size := dataSize i
    addr := fun r => precise i = true → addressIndex r ∈ writtenRegs i
    system := writesSystem i
    keepsX := leavesX i
    keepsNvc := keepsAllButZ i || keepsFlags i
    keepsZ := keepsFlags i
    jumps := transfers i
    ahead := lateFetches i != 0
    bytes := fun k => precise i = true →
      ∃ w ∈ s.stores i, ∃ j, j < w.2.2 ∧ k = s.platform.key w.1 (w.2.1 + BitVec.ofNat 32 j)
    traps := mayTrap i }

/-- A well-formed instruction comes to its references in their order. -/
def Reaching (i : Instr) (body : M Unit) : Prop :=
  ∀ s : State, i.wf = true → s.canFetchLate i → Reaches body s.opened (s.references i)

/-- The meaning of an instruction: a computation inside its footprint that comes to its references, guarded by the privilege check or not; a word of line 1010 or 1111; or an update in supervisor state that no bus cycle precedes. -/
inductive Means (i : Instr) : Prop where
  | plain (body : M Unit) (he : ∀ s, exec i s = instr s body) (hr : ∀ s : State, Run (s.footprint i) body s.opened)
      (hx : Reaching i body)
  | guarded (body : M Unit) (hp : isPrivileged i = true) (he : ∀ s, exec i s = privileged s body)
      (hr : ∀ s : State, s.sr.s = true → Run (s.footprint i) body s.opened) (hx : Reaching i body)
  | line (n : BitVec 8) (hn : n = 10 ∨ n = 11) (hi : completes i = false) (he : ∀ s, exec i s = s.group1 n s.pc)
      (hx : ∀ s : State, s.references i = [])
  | silent (h : i = .reset ∨ (∃ w, i = .stop w) ∨ ∃ an, i = .moveToUsp an)

theorem State.footprint_good (s : State) (i : Instr) : (s.footprint i).Good s.opened := ⟨rfl, rfl⟩

section
variable {i : Instr} {body : M Unit}

theorem means_at (he : ∀ s, exec i s = instr s body)
    (h : ∀ s : State, (s.footprint i).Good s.opened → RunAt (s.footprint i) body s.opened)
    (hx : Reaching i body := by exact fun _ _ _ => trivial) : Means i :=
  .plain body he (fun s => (h s (s.footprint_good i)).1) hx

theorem means_of_runs (he : ∀ s, exec i s = instr s body) (h : ∀ s : State, Runs (s.footprint i) body)
    (hx : Reaching i body := by exact fun _ _ _ => trivial) : Means i :=
  means_at he (fun s hs => h s _ hs) hx

theorem means_guarded (hp : isPrivileged i = true) (he : ∀ s, exec i s = privileged s body)
    (h : ∀ s : State, s.sr.s = true → Run (s.footprint i) body s.opened)
    (hx : Reaching i body := by exact fun _ _ _ => trivial) : Means i :=
  .guarded body hp he h hx

end

/-! What the classes of instructions write. -/

section
variable {i : Instr} {dn an : Reg} {ea : Ea} {n : Nat} {sz : Size} {l : List Reg}

theorem writtenRegs_of_dataDest (h : dataDest i = some (dn, ea)) :
    writtenRegs i = dataIndex dn :: (sideRegs ea).map addressIndex := by
  cases i with
  | _ => cases h <;> rfl

theorem writtenRegs_of_addressDest (h : addressDest i = some (an, ea)) :
    writtenRegs i = addressIndex an :: (sideRegs ea).map addressIndex := by
  cases i with
  | addq d sz ea | subq d sz ea => cases ea <;> cases h <;> rfl
  | _ => cases h <;> rfl

theorem writtenRegs_of_compareOnly (h : compareOnly i = some l) : writtenRegs i = l.map addressIndex := by
  cases i with
  | _ => cases h <;> rfl

/-- An instruction that replaces its operand: what it writes, how much of a register, and its references. -/
theorem operandDest_facts (h : operandDest i = some (n, sz, ea)) :
    writtenRegs i = (destRegs ea).map dataIndex ++ (sideRegs ea).map addressIndex ∧ dataSize i = sz ∧
      (∀ s : State, s.references i = (s.loc n sz ea).refer sz false ++ (s.loc n sz ea).refer sz true) ∧
      ∀ s : State, s.stores i = ((s.references i).filter (·.write)).map fun r => (r.sp, r.addr, r.sz.bytes) := by
  cases i with
  | addq d sz ea | subq d sz ea => cases ea <;> cases h <;> exact ⟨rfl, rfl, fun _ => rfl, fun _ => rfl⟩
  | _ => cases h <;> exact ⟨rfl, rfl, fun _ => rfl, fun _ => rfl⟩

theorem plainForm_of_operandDest (h : operandDest i = some (n, sz, ea)) : plainForm i = false := by
  cases i with
  | addq d sz ea | subq d sz ea => cases ea <;> cases h <;> rfl
  | _ => cases h <;> rfl

/-- An operand that is replaced is no address register (rule R132). -/
theorem operandDest_ne_an (h : operandDest i = some (n, sz, ea)) (hwf : i.wf = true) (r : Reg) : ea ≠ .an r := by
  rintro rfl
  have alterable : (Ea.an r).isDataAlterable = false ∧ (Ea.an r).isMemoryAlterable = false := ⟨rfl, rfl⟩
  cases i with
  | addq d sz ea | subq d sz ea => cases ea <;> cases h
  | _ => cases h <;> simp [Instr.wf, alterable] at hwf

/-- An operand that is replaced is alterable (rules R62, R132). -/
theorem operandDest_alterable (h : operandDest i = some (n, sz, ea)) (hwf : i.wf = true) : ea.isAlterable = true := by
  have data : ea.isDataAlterable = true → ea.isAlterable = true := fun h => (Bool.and_eq_true_iff.1 h).2
  have memory : ea.isMemoryAlterable = true → ea.isAlterable = true := fun h => (Bool.and_eq_true_iff.1 h).2
  cases i with
  | addq d sz ea | subq d sz ea => cases ea <;> cases h <;> simp_all [Instr.wf]
  | _ => cases h <;> simp_all [Instr.wf]

theorem destRegs_of_loc {s : State} {r : Reg} (h : (s.resolve sz ea).1 = .dreg r) : destRegs ea = [r] := by
  cases ea with
  | dn q =>
    cases h
    rfl
  | _ => cases h

theorem an_of_loc {s : State} {r : Reg} (h : (s.resolve sz ea).1 = .areg r) : ea = .an r := by
  cases ea with
  | an q =>
    cases h
    rfl
  | _ => cases h

theorem sides_of_dataDest (h : dataDest i = some (dn, ea)) (s : State) :
    (s.footprint i).data dn ∧ ∀ r ∈ sideRegs ea, (s.footprint i).addr r := by
  refine ⟨fun _ => ?_, fun r hr _ => ?_⟩ <;> rw [writtenRegs_of_dataDest h]
  · exact List.mem_cons_self
  · exact List.mem_cons_of_mem _ (List.mem_map_of_mem hr)

theorem sides_of_addressDest (h : addressDest i = some (an, ea)) (s : State) :
    (s.footprint i).addr an ∧ ∀ r ∈ sideRegs ea, (s.footprint i).addr r := by
  refine ⟨fun _ => ?_, fun r hr _ => ?_⟩ <;> rw [writtenRegs_of_addressDest h]
  · exact List.mem_cons_self
  · exact List.mem_cons_of_mem _ (List.mem_map_of_mem hr)

theorem sides_of_compareOnly (h : compareOnly i = some l) (s : State) : ∀ r ∈ l, (s.footprint i).addr r := by
  intro r hr _
  rw [writtenRegs_of_compareOnly h]
  exact List.mem_map_of_mem hr

theorem sides_of_operandDest (h : operandDest i = some (n, sz, ea)) (s : State) :
    ∀ r ∈ sideRegs ea, (s.footprint i).addr r := by
  intro r hr _
  rw [(operandDest_facts h).1]
  exact List.mem_append_right _ (List.mem_map_of_mem hr)

/-- The bytes that an instruction stores are those of its footprint. -/
theorem covers_of_stores {s : State} {sp : Space} {addr : Long}
    (h : precise i = true → (sp, addr, sz.bytes) ∈ s.stores i) : (s.footprint i).Covers sz sp addr :=
  fun k hk hp => ⟨_, h hp, k, hk, rfl⟩

/-- The location of the operand that an instruction replaces is inside its footprint. -/
theorem stores_of_operandDest (h : operandDest i = some (n, sz, ea)) (s : State) :
    (s.footprint i).Stores sz (s.loc n sz ea) := by
  obtain ⟨hw, hsz, href, hst⟩ := operandDest_facts h
  cases hl : s.loc n sz ea with
  | dreg r =>
    refine ⟨fun _ => ?_, .inl hsz⟩
    rw [hw, destRegs_of_loc hl]
    exact List.mem_cons_self
  | areg r =>
    intro hp
    rw [precise, plainForm_of_operandDest h, Bool.or_false] at hp
    exact absurd (an_of_loc hl) (operandDest_ne_an h hp r)
  | mem sp addr pre =>
    refine covers_of_stores fun _ => ?_
    rw [hst, href, hl]
    exact List.mem_cons_self
  | imm v => trivial

end

/-! The references of the families. -/

section
variable {i : Instr} {ea : Ea} {n : Nat} {sz : Size} {body : Long → M Unit}

theorem reaching_none {body : M Unit} (h : ∀ s : State, s.references i = []) : Reaching i body := fun s _ _ => by
  rw [h]
  trivial

/-- An operand that is read only, after `n` extension words of the instruction. -/
theorem reaching_read (h : ∀ s : State, s.references i = (s.loc n sz ea).refer sz false ++ []) :
    Reaching i ((upd fun s => s.skip n) >>= fun _ => operand sz ea >>= body) := fun s _ _ => by
  rw [h]
  exact .afterUpd (.refl s) (reaches_operand fun _ => trivial)

theorem reaching_operand (h : ∀ s : State, s.references i = (s.loc 0 sz ea).refer sz false ++ []) :
    Reaching i (operand sz ea >>= body) := fun s _ _ => by
  rw [h, State.loc, s.after_zero]
  exact reaches_operand fun _ => trivial

/-- The operand that an instruction replaces. -/
theorem reaches_replace (h : operandDest i = some (n, sz, ea)) (s : State) (hwf : i.wf = true) {f : Long → M Long}
    (hf : ∀ v, Quiet (f v)) : Reaches (modifyEa sz ea f) (s.after n) (s.references i) := by
  obtain ⟨-, -, href, -⟩ := operandDest_facts h
  rw [href]
  exact reaches_modifyEa (operandDest_alterable h hwf) hf

end

/-! Families of instructions. -/

section
variable {i : Instr} {dn an : Reg} {ea : Ea} {n : Nat} {sz : Size}

/-- An operand, then a data register replaced. -/
theorem means_toReg {g : Long → Long → M Long}
    (he : ∀ s, exec i s = instr s (operand sz ea >>= fun v => modifyEa sz (.dn dn) (g v)))
    (h : dataDest i = some (dn, ea)) (hsz : dataSize i = sz) (hg : ∀ (s : State) v d, Runs (s.footprint i) (g v d))
    (hrefs : ∀ s : State, s.references i = (s.loc 0 sz ea).refer sz false ++ [] := by exact fun _ => rfl) : Means i :=
  means_of_runs he (fun s => runs_bind (runs_operand (sides_of_dataDest h s).2) fun v =>
    runs_modifyDn ⟨(sides_of_dataDest h s).1, .inl hsz⟩ (hg s v)) (reaching_operand hrefs)

/-- After something that consumes `n` extension words and answers, the operand replaced. -/
theorem runAt_replace (h : operandDest i = some (n, sz, ea)) {s : State} {f : Long → M Long}
    (hf : ∀ v, Runs (s.footprint i) (f v)) : RunAt (s.footprint i) (modifyEa sz ea f) (s.after n) :=
  runAt_modifyEa ⟨rfl, rfl⟩ (sides_of_operandDest h s) (stores_of_operandDest h s) hf

theorem means_replace {f : Long → M Long} (he : ∀ s, exec i s = instr s (modifyEa sz ea f))
    (h : operandDest i = some (0, sz, ea)) (hf : ∀ (s : State) v, Runs (s.footprint i) (f v))
    (hq : ∀ v, Quiet (f v) := by exact fun _ => quiet_flagged _ _) : Means i :=
  means_at he (fun s _ => s.after_zero ▸ runAt_replace h (hf s)) fun s hwf _ => s.after_zero ▸ reaches_replace h s hwf hq

/-- A value of registers, then an operand replaced. -/
theorem means_fromReg {α : Type} {get : State → α} {f : α → Long → M Long}
    (he : ∀ s, exec i s = instr s (ask get >>= fun v => modifyEa sz ea (f v))) (h : operandDest i = some (0, sz, ea))
    (hget : ∀ s cs, get (s.withCycles cs) = get s) (hf : ∀ (s : State) v d, Runs (s.footprint i) (f v d))
    (hq : ∀ v d, Quiet (f v d) := by exact fun _ _ => quiet_flagged _ _) : Means i :=
  means_at he (fun s hs => runAt_next (runs_ask get hget _ hs) (ask_run _ _) (s.after_zero ▸ runAt_replace h (hf s _)))
    fun s hwf _ => .afterAsk (s.after_zero ▸ reaches_replace h s hwf (hq _))

/-- Extension words of the instruction itself, then an operand replaced. -/
theorem means_immediate {f : Long → M Long}
    (he : ∀ s, exec i s = instr s ((upd fun s => s.skip n) >>= fun _ => modifyEa sz ea f))
    (h : operandDest i = some (n, sz, ea)) (hf : ∀ (s : State) v, Runs (s.footprint i) (f v))
    (hq : ∀ v, Quiet (f v) := by exact fun _ => quiet_flagged _ _) : Means i :=
  means_at he (fun s hs => runAt_next (runs_skip n _ hs) (upd_run _ _) (runAt_replace h (hf s)))
    fun s hwf _ => .afterUpd (.refl s) (reaches_replace h s hwf hq)

/-- An operand overwritten. -/
theorem means_overwrite {v : M Long} (he : ∀ s, exec i s = instr s (overwriteEa sz ea v))
    (h : operandDest i = some (0, sz, ea)) (hv : ∀ s : State, Runs (s.footprint i) v) (hq : Quiet v) : Means i := by
  obtain ⟨-, -, href, -⟩ := operandDest_facts h
  refine means_at he (fun s hs => runAt_overwriteEa hs (sides_of_operandDest h s)
    (s.after_zero ▸ stores_of_operandDest h s) (hv s)) fun s hwf _ => ?_
  rw [href, State.loc, s.after_zero]
  exact reaches_overwriteEa (operandDest_alterable h hwf) hq

/-- A data register shifted. -/
theorem means_shiftRegister {byReg : Bool} {count : Reg} {f : Nat → Sr → Long → Shift}
    (he : ∀ s, exec i s = instr s (shiftRegister sz byReg count dn f)) (h : dataDest i = some (dn, .dn dn))
    (hsz : dataSize i = sz) (hn : (keepsAllButZ i || keepsFlags i) = false) (hz : keepsFlags i = false)
    (hx : leavesX i = true → ∀ n q v, (f n q v).x = q.x)
    (hrefs : ∀ s : State, s.references i = [] := by exact fun _ => rfl) : Means i :=
  means_of_runs he (fun s => runs_shiftRegister ⟨(sides_of_dataDest h s).1, .inl hsz⟩ ⟨hn, hz⟩ byReg count hx)
    (reaching_none hrefs)

/-- A word in memory shifted by one. -/
theorem means_shiftMemory {f : Nat → Sr → Long → Shift} (he : ∀ s, exec i s = instr s (shiftMemory ea f))
    (h : operandDest i = some (0, .word, ea)) (hn : (keepsAllButZ i || keepsFlags i) = false) (hz : keepsFlags i = false)
    (hx : leavesX i = true → ∀ n q v, (f n q v).x = q.x) : Means i :=
  means_replace he h (fun _ v => runs_shiftBody (f := fun q => f 1 q v) ⟨hn, hz⟩ (fun hk q => hx hk 1 q v) _)
    fun _ => quiet_bind (quiet_ask _) fun _ => quiet_flagged _ _

end

/-! PROOF. The meaning of every instruction as a computation inside its footprint. -/

section
variable {i : Instr} {sz : Size} {s : State}

/-! Moves. -/

/-- The words that replace extension words change no register. -/
theorem replaceWords_sameRegisters {t : State} {n : Nat} {addr : Long} (h : (replaceWords n addr).run s = .ok () t) :
    SameRegisters s t :=
  (runs_replaceWords (F := Footprint.reading s.sr.s s.platform) n (fun _ => rfl) addr s ⟨rfl, rfl⟩).1.sameRegisters.1 _ t h

theorem SameRegisters.trans {t u : State} (h : SameRegisters s t) (h' : SameRegisters t u) : SameRegisters s u :=
  ⟨fun r => (h'.1 r).trans (h.1 r), fun r => (h'.2.1 r).trans (h.2.1 r), h'.2.2.trans h.2.2⟩

/-- MOVE: after the source and the fetches, the destination is where it was after the source. -/
theorem runAt_moveData {F : Footprint} (hs : F.Good s) {src dst : Ea} (hsrc : ∀ r ∈ sideRegs src, F.addr r)
    (hdst : ∀ r ∈ sideRegs dst, F.addr r) (hn : eaWords sz dst ≠ 0 → F.ahead = true) (hq : F.FreeButX)
    (hl : dst.isAlterable = true → F.Stores sz ((s.resolve sz src).2.resolve sz dst).1)
    (ha : dst.isAlterable = false → ∀ loc, F.Stores sz loc) : RunAt F (moveData sz src dst) s := by
  refine runAt_bind (runs_operand hsrc s hs) fun v t hv hg => runAt_ask _ hg <|
    runAt_bind (runs_replaceWords _ hn _ t hg) fun _ u hu hg' => ?_
  refine runAt_next (runs_locate hdst u hg') (locate_run _ _ _) ?_
  have hg2 : F.Good (u.resolve sz dst).2 := by simpa [Footprint.Good] using hg'
  refine runAt_then (runs_updSr (fun _ => hq.flags) _ hg2) fun _ => runs_writeLoc ?_ v
  obtain ⟨l, w, hlw, hrd⟩ := bind_ok_cases hv
  cases hlw
  cases hd : dst.isAlterable with
  | true =>
    rw [((readLoc_sameRegisters hrd).trans (replaceWords_sameRegisters hu)).resolve sz hd]
    exact hl hd
  | false => exact ha hd _

/-- The parts of the rule of MOVE that its footprint is made of. -/
theorem means_move {src dst : Ea} (he : ∀ s, exec i s = instr s (moveData sz src dst))
    (hw : writtenRegs i = (destRegs dst).map dataIndex ++ (sideRegs src ++ sideRegs dst).map addressIndex)
    (hsz : dataSize i = sz) (hlate : lateFetches i = eaWords sz dst) (hp : plainForm i = false)
    (hdst : i.wf = true → dst.isDataAlterable = true)
    (hst : ∀ s : State, s.stores i = ((s.referMove sz src dst).filter (·.write)).map fun r => (r.sp, r.addr, r.sz.bytes))
    (hn : (keepsAllButZ i || keepsFlags i) = false) (hz : keepsFlags i = false)
    (hrefs : ∀ s : State, s.references i = s.referMove sz src dst := by exact fun _ => rfl)
    (hfetch : ∀ s : State, s.canFetchLate i → (s.resolved 0 sz src).canReplace (eaWords sz dst) := by exact fun _ h => h) :
    Means i := by
  have reaching : Reaching i (moveData sz src dst) := fun s hwf hc => by
    have hc := hfetch s hc
    rw [State.resolved, s.after_zero] at hc
    rw [hrefs, State.referMove, State.loc, State.resolved, s.after_zero]
    exact reaches_moveData hc (Bool.and_eq_true_iff.1 (hdst hwf)).2
  refine means_at he (fun s hs => runAt_moveData hs ?_ ?_ ?_ ⟨hn, hz⟩ ?_ ?_) reaching
  · intro r hr _
    rw [hw, List.map_append]
    exact List.mem_append_right _ (List.mem_append_left _ (List.mem_map_of_mem hr))
  · intro r hr _
    rw [hw, List.map_append]
    exact List.mem_append_right _ (List.mem_append_right _ (List.mem_map_of_mem hr))
  · intro h
    exact bne_iff_ne.2 (hlate ▸ h)
  · intro hd
    have hr : ((s.opened.resolve sz src).2.resolve sz dst).1 = ((s.resolved 0 sz src).resolve sz dst).1 := by
      rw [State.resolved, s.after_zero]
    rw [hr]
    cases hl : ((s.resolved 0 sz src).resolve sz dst).1 with
    | dreg r =>
      refine ⟨fun _ => ?_, .inl hsz⟩
      rw [hw, destRegs_of_loc hl]
      exact List.mem_append_left _ List.mem_cons_self
    | areg r =>
      intro hp'
      rw [precise, hp, Bool.or_false] at hp'
      have := hdst hp'
      rw [an_of_loc hl] at this
      cases this
    | mem sp addr pre =>
      refine covers_of_stores fun _ => ?_
      rw [hst, State.referMove, hl, List.filter_append, List.map_append]
      exact List.mem_append_right _ List.mem_cons_self
    | imm v => trivial
  · intro hd loc
    have no : ¬ precise i = true := fun hp' => by
      rw [precise, hp, Bool.or_false] at hp'
      have := hdst hp'
      rw [Ea.isDataAlterable, hd, Bool.and_false] at this
      cases this
    cases loc with
    | dreg r => exact ⟨fun hp' => absurd hp' no, .inl hsz⟩
    | areg r => exact fun hp' => absurd hp' no
    | mem sp addr pre => exact fun k hk hp' => absurd hp' no
    | imm v => trivial

/-! Operands that are pairs. -/

theorem mem_sideRegs_pairEa {mem : Bool} {r q : Reg} (h : q ∈ sideRegs (pairEa mem r)) : mem = true ∧ q = r := by
  cases mem with
  | false => cases h
  | true => exact ⟨rfl, List.mem_singleton.1 h⟩

/-- The two-register forms of arithmetic: the result goes to the second operand. -/
theorem means_pair {mem : Bool} {rx ry : Reg} {k : Long × Long × Loc → M Unit}
    (he : ∀ s, exec i s = instr s (operandPair sz mem rx ry >>= k))
    (hw : writtenRegs i = if mem then [addressIndex rx, addressIndex ry] else [dataIndex rx]) (hsz : dataSize i = sz)
    (hst : ∀ s : State, s.stores i =
      ((s.referPair sz (pairEa mem ry) (pairEa mem rx) true).filter (·.write)).map fun r => (r.sp, r.addr, r.sz.bytes))
    (hk : ∀ (s : State) v d loc, (s.footprint i).Stores sz loc → Runs (s.footprint i) (k (v, d, loc)))
    (hx : ∀ v d (t : State) (loc : Loc), loc.isData → Reaches (k (v, d, loc)) t (loc.refer sz true))
    (hrefs : ∀ s : State, s.references i = s.referPair sz (pairEa mem ry) (pairEa mem rx) true := by exact fun _ => rfl) :
    Means i := by
  have reaching : Reaching i (operandPair sz mem rx ry >>= k) := fun s _ _ => by
    rw [hrefs, State.referPair, State.loc, State.resolved, s.after_zero]
    exact reaches_operandPair fun v d t _ loc hl => hx v d t loc hl
  refine means_at he (fun s hs => runAt_withPair hs ?_ ?_ fun v d => hk s v d _ ?_) reaching
  · intro r hr _
    obtain ⟨rfl, rfl⟩ := mem_sideRegs_pairEa hr
    exact hw ▸ List.mem_cons_self
  · intro r hr _
    obtain ⟨rfl, rfl⟩ := mem_sideRegs_pairEa hr
    exact hw ▸ List.mem_cons_of_mem _ List.mem_cons_self
  · have hr : ((s.opened.resolve sz (pairEa mem ry)).2.resolve sz (pairEa mem rx)).1 =
        ((s.resolved 0 sz (pairEa mem ry)).resolve sz (pairEa mem rx)).1 := by
      rw [State.resolved, s.after_zero]
    rw [hr]
    cases mem with
    | false => exact ⟨fun _ => hw ▸ List.mem_cons_self, .inl hsz⟩
    | true =>
      refine covers_of_stores fun _ => ?_
      rw [hst, State.referPair, List.filter_append, List.map_append]
      exact List.mem_append_right _ List.mem_cons_self

theorem means_extended {mem : Bool} {rx ry : Reg} {f : Long → Long → Bool → Sum}
    (he : ∀ s, exec i s = instr s (extendedTo sz mem rx ry f))
    (hw : writtenRegs i = if mem then [addressIndex rx, addressIndex ry] else [dataIndex rx]) (hsz : dataSize i = sz)
    (hst : ∀ s : State, s.stores i =
      ((s.referPair sz (pairEa mem ry) (pairEa mem rx) true).filter (·.write)).map fun r => (r.sp, r.addr, r.sz.bytes))
    (hfree : ∀ s : State, (s.footprint i).Free)
    (hrefs : ∀ s : State, s.references i = s.referPair sz (pairEa mem ry) (pairEa mem rx) true := by exact fun _ => rfl) :
    Means i :=
  means_pair he hw hsz hst (fun s v d loc hl => runs_bind (runs_ask _) fun _ =>
      runs_bind (runs_updSr fun _ => (hfree s).flags) fun _ => runs_writeLoc hl _)
    (fun _ _ _ _ hl => .afterAsk (.afterQuiet (quiet_updSr _) fun _ _ _ => reaches_writeLoc hl _)) hrefs

end

/-! Control transfers and the stack. -/

section
variable {i : Instr} {s : State}

/-- The address of a control operand is consumed without a side effect (rule R109). -/
theorem resolve_control {t : State} {sz : Size} {ea : Ea} (h : ea.isControl = true) :
    ∃ n, (t.resolve sz ea).2 = t.skip n := by
  cases ea with
  | dn r | an r | postInc r | preDec r | imm v => cases h
  | ind r => exact ⟨0, by simp [State.resolve, State.skip]⟩
  | absL a => exact ⟨2, rfl⟩
  | _ => exact ⟨1, rfl⟩

theorem sideRegs_control {ea : Ea} (h : ea.isControl = true) : sideRegs ea = [] := by
  cases ea with
  | dn r | an r | postInc r | preDec r | imm v => cases h
  | _ => rfl

/-- What the address of an operand is, where it is one. -/
theorem effectiveAddress_cases {t : State} {n : Nat} {ea : Ea} {a : Long}
    (h : (effectiveAddress ea).run (s.after n) = .ok a t) : a = s.addressOf n ea ∧ t = s.resolved n .long ea := by
  obtain ⟨l, u, hl, h⟩ := bind_ok_cases h
  cases hl
  rw [State.addressOf, State.loc]
  cases hloc : ((s.after n).resolve .long ea).1 with
  | mem sp addr pre =>
    rw [hloc] at h
    cases h
    exact ⟨rfl, rfl⟩
  | dreg r | areg r | imm v =>
    rw [hloc] at h
    cases h

/-- The push of an instruction that begins in `s`, where nothing has changed A7. -/
theorem runAt_push (h7 : precise i = true → (15 : Fin 16) ∈ writtenRegs i)
    (hst : precise i = true → (s.dataSpace, s.getA 7 - 4, 4) ∈ s.stores i) {t : State} (ht : (s.footprint i).Good t)
    (ha : precise i = true → t.getA 7 = s.getA 7) (v : Long) : RunAt (s.footprint i) (pushLong v) t := by
  have hsp : t.dataSpace = s.dataSpace := by
    rw [State.dataSpace, ht.1]
    rfl
  refine runAt_pushLong ht h7 (fun k hk hp => ?_) v
  rw [hsp, ha hp]
  exact ⟨_, hst hp, k, hk, rfl⟩

theorem branchTarget_cases {d : BrDisp} {a : Long} {t : State} (h : (branchTarget d).run s = .ok a t) :
    ∃ n, t = s.skip n := by
  cases d with
  | short d =>
    cases h
    exact ⟨0, by simp [State.skip]⟩
  | word d =>
    cases h
    exact ⟨1, rfl⟩

theorem means_bsr (d : BrDisp) : Means (.bsr d) := by
  refine means_at (fun _ => rfl) (fun s hs => runAt_bind (runs_branchTarget d _ hs) fun target t ht hg => ?_)
    fun s _ _ => .after (branchTarget_opened s d) (.refl s) (.afterAsk (reaches_pushLong (s.after d.words) _).bind)
  obtain ⟨n, rfl⟩ := branchTarget_cases ht
  exact runAt_ask State.pc hg <| runAt_then (runAt_push (fun _ => List.mem_cons_self) (fun _ => List.mem_cons_self) hg
    (fun _ => rfl) _) fun _ => runs_jump rfl _

/-- The address of an operand that is no register, from the state after the operation word. -/
theorem runAt_address {ea : Ea} (h : (s.footprint i).Good s.opened)
    (hwf : precise i = true → ea.isControl = true) {k : Long → M Unit}
    (hk : ∀ a t, (s.footprint i).Good t → (precise i = true → t.getA 7 = s.getA 7) → RunAt (s.footprint i) (k a) t) :
    RunAt (s.footprint i) (effectiveAddress ea >>= k) s.opened := by
  refine runAt_bind (runs_effectiveAddress (fun r hr hp => ?_) _ h) fun a t ha hg => hk a t hg fun hp => ?_
  · rw [sideRegs_control (hwf hp)] at hr
    cases hr
  · rw [← s.after_zero] at ha
    obtain ⟨-, rfl⟩ := effectiveAddress_cases ha
    obtain ⟨n, hn⟩ := resolve_control (t := s.after 0) (sz := .long) (hwf hp)
    rw [State.resolved, hn]
    rfl

/-- After the address of an operand in memory, a push is that of the beginning. -/
theorem reaches_addressPush {ea : Ea} (h : ea.isControl = true) {k : Long → M Unit}
    (hk : ∀ a (t : State), Reaches (k a) t t.referPush) : Reaches (effectiveAddress ea >>= k) s.opened s.referPush := by
  obtain ⟨n, hn⟩ := resolve_control (t := s.after 0) (sz := .long) h
  have same : (s.resolved 0 .long ea).referPush = s.referPush := by
    rw [State.resolved, hn]
    rfl
  have run := effectiveAddress_after (s := s) (n := 0) h
  have bus := sameBus_resolve (s.after 0) .long ea
  rw [s.after_zero] at run bus
  rw [← same]
  exact .after run (by rw [State.resolved, s.after_zero]; exact bus) (hk _ _)

theorem means_jsr (ea : Ea) : Means (.jsr ea) :=
  means_at (fun _ => rfl) (fun s hs => runAt_address hs (fun hp => (Bool.or_false _).symm.trans hp) fun target t hg h7 =>
    runAt_ask State.pc hg <| runAt_then (runAt_push (fun _ => List.mem_cons_self) (fun _ => List.mem_cons_self) hg h7 _) fun _ => runs_jump rfl _)
    fun _ hwf _ => reaches_addressPush hwf fun _ t => .afterAsk (reaches_pushLong t _).bind

theorem means_pea (ea : Ea) : Means (.pea ea) :=
  means_at (fun _ => rfl) (fun _ hs => runAt_address hs (fun hp => (Bool.or_false _).symm.trans hp) fun _ _ hg h7 =>
    runAt_push (fun _ => List.mem_cons_self) (fun _ => List.mem_cons_self) hg h7 _)
    fun _ hwf _ => reaches_addressPush hwf fun _ t => reaches_pushLong t _

theorem means_jmp (ea : Ea) : Means (.jmp ea) :=
  means_at (fun _ => rfl) fun _ hs => runAt_address hs (fun hp => (Bool.or_false _).symm.trans hp) fun _ t hg _ =>
    runs_jump rfl _ t hg

theorem reaching_link (an : Reg) (d : Word) {k : Unit → M Unit} :
    Reaching (.link an d) (skipWord >>= fun _ => upd (fun s => s.putA 7 (s.getA 7 - 4)) >>= fun _ => ask (fun s => s.getA an) >>= fun v =>
      ask (fun s => s.getA 7) >>= fun addr => ask State.dataSpace >>= fun sp => writeMem .long true sp addr v >>= k) := fun s _ _ => by
  refine .after (skipWord_run _) (.refl s) (.afterUpd (sameBus_putA (s.after 1) 7 _) (.afterAsk (.afterAsk (.afterAsk ?_))))
  rw [dataSpace_putA, State.getA_putA, if_pos rfl]
  exact (arrives_writeMem _ .long true s.dataSpace (s.getA 7 - 4) _).bind.reaches

theorem means_link (an : Reg) (d : Word) : Means (.link an d) := by
  refine means_at (fun _ => rfl) (fun s hs => runAt_next (runs_skipWord _ hs) (skipWord_run _) ?_) (reaching_link an d)
  have h7 : (s.footprint (.link an d)).addr 7 := fun _ => List.mem_cons_self
  have hn : (s.footprint (.link an d)).addr an := fun _ => List.mem_cons_of_mem _ List.mem_cons_self
  have down : Runs (s.footprint (.link an d)) (upd fun s => s.putA 7 (s.getA 7 - 4)) := runs_putA 7 _ h7
  have hg : (s.footprint (.link an d)).Good (s.opened.skip 1) := hs
  have hg' := hg.putA 7 ((s.opened.skip 1).getA 7 - 4)
  refine runAt_next (down _ hg) (upd_run _ _) <| runAt_ask (fun s => s.getA an) hg' <|
    runAt_ask (fun s => s.getA 7) hg' <| runAt_ask State.dataSpace hg' <| runAt_then (runs_writeMem ?_ _ _ _ hg')
      fun _ => runs_bind (runs_putA an _ hn) fun _ => runs_putA 7 _ h7
  rw [dataSpace_putA, State.getA_putA, if_pos rfl]
  exact fun k hk _ => ⟨_, List.mem_cons_self, k, hk, rfl⟩

theorem reaching_unlk (an : Reg) {k : Long → M Unit} :
    Reaching (.unlk an) (upd (fun s => s.putA 7 (s.getA an)) >>= fun _ => popLong >>= k) := fun s _ _ => by
  have h := reaches_popLong (s := s.opened.putA 7 (s.opened.getA an)) (k := k)
  rw [dataSpace_putA, State.getA_putA, if_pos rfl] at h
  exact .afterUpd (sameBus_putA s.opened 7 _) h

theorem means_unlk (an : Reg) : Means (.unlk an) := by
  refine means_of_runs (fun _ => rfl) (fun s => ?_) (reaching_unlk an)
  have h7 : (s.footprint (.unlk an)).addr 7 := fun _ => List.mem_cons_self
  have hn : (s.footprint (.unlk an)).addr an := fun _ => List.mem_cons_of_mem _ List.mem_cons_self
  exact runs_bind (runs_putA 7 (fun s => s.getA an) h7) fun _ => runs_bind (runs_popLong h7) fun v =>
    runs_putA an (fun _ => v) hn

theorem means_rts : Means .rts :=
  means_of_runs (fun _ => rfl) (fun _ => runs_bind (runs_popLong fun _ => List.mem_cons_self) fun _ => runs_jump rfl _)
    fun s _ _ => reaches_popLong (s := s.opened)

theorem means_rtr : Means .rtr :=
  means_of_runs (fun _ => rfl) (fun _ => runs_bind (runs_popWord fun _ => List.mem_cons_self) fun _ =>
    runs_bind (runs_updSr fun _ => Footprint.Free.flags ⟨rfl, rfl, rfl⟩) fun _ =>
      runs_bind (runs_popLong fun _ => List.mem_cons_self) fun _ => runs_jump rfl _)
    fun s _ _ => reaches_popWord (s := s.opened)

theorem means_dbcc (cond : Cond) (dn : Reg) (d : Word) : Means (.dbcc cond dn d) :=
  means_of_runs (fun _ => rfl) fun _ => runs_bind (runs_branchTarget _) fun _ => runs_bind (runs_ask _) fun _ =>
    runs_ite (runs_pure _) <| runs_bind (runs_dataReg _ _) fun _ =>
      runs_bind (runs_setDataReg (fun _ => List.mem_cons_self) (.inl rfl) _) fun _ =>
        runs_ite (runs_pure _) (runs_jump rfl _)

/-! Several registers. -/

/-- The footprint of MOVEM to registers allows every listed register. -/
theorem register_of_written {k : Fin 16} (h : k ∈ writtenRegs i) (hsz : dataSize i = .long) :
    (s.footprint i).Register k := by
  unfold Footprint.Register
  split
  · next hk =>
    refine ⟨fun _ => ?_, hsz⟩
    rwa [show dataIndex (Fin.ofNat 8 k.val) = k from Fin.ext (by simp [dataIndex]; omega)]
  · next hk =>
    intro _
    rwa [show addressIndex (Fin.ofNat 8 k.val) = k from Fin.ext (by simp [addressIndex]; omega)]

theorem maskRegs_eq_nil {mask : Word} : maskRegs mask = [] ↔ mask = 0 := by
  have all : ∀ k : Fin 16, k ∈ allRegs := by decide
  constructor
  · intro h
    refine BitVec.eq_of_getLsbD_eq fun k hk => ?_
    have off := List.filter_eq_nil_iff.1 h ⟨k, hk⟩ (all _)
    simpa using off
  · rintro rfl
    rfl

theorem resolved_bus {ea : Ea} (s : State) (n : Nat) : SameBus s (s.resolved n .long ea) := by
  simp [SameBus, State.resolved, State.after]

/-- MOVEM from memory in a control mode. -/
theorem reaches_loadControl {sz : Size} {mask : Word} {ea : Ea} (h : ea.isControl = true) {k : Long → Word → M Unit} (sp : Space) :
    Reaches (effectiveAddress ea >>= fun start => loadUp sz sp (maskRegs mask) start >>= fun last => readWord sp last >>= k last)
      (s.after 1) ((Loc.mem sp (s.addressOf 1 ea) false).refer (if mask = 0 then .word else sz) false) := by
  have loads := reaches_loadUp (s := s.resolved 1 .long ea) (sz := sz) (sp := sp) (addr := s.addressOf 1 ea)
    (ks := maskRegs mask) (k := k)
  simp only [maskRegs_eq_nil] at loads
  exact .after (effectiveAddress_after h) (resolved_bus s 1) loads

theorem means_movemToRegs (long : Bool) (mask : Word) (ea : Ea) : Means (.movemToRegs long mask ea) := by
  have load : ∀ (s : State) sp start, Runs (s.footprint (.movemToRegs long mask ea))
      (loadUp (sizeOfBit long) sp (maskRegs mask) start) := fun s sp start =>
    runs_loadUp (fun k hk => register_of_written (List.mem_append_left _ hk) rfl) sp start
  have side : ∀ (s : State), ∀ r ∈ sideRegs ea, (s.footprint (.movemToRegs long mask ea)).addr r := fun s r hr _ =>
    List.mem_append_right _ (List.mem_map_of_mem hr)
  refine means_of_runs (fun _ => rfl) (fun s => runs_bind runs_skipWord fun _ => runs_bind (runs_ask _ ?_) fun sp => ?_)
    fun s hwf _ => .after (skipWord_run _) (.refl s) (.afterAsk ?_)
  · cases ea <;> exact fun _ _ => rfl
  · have control : Runs (s.footprint (.movemToRegs long mask ea)) (effectiveAddress ea >>= fun start =>
        loadUp (sizeOfBit long) sp (maskRegs mask) start >>= fun last => readWord sp last >>= fun _ => pure ()) :=
      runs_bind (runs_effectiveAddress (side s)) fun _ => runs_bind (load s _ _) fun _ =>
        runs_bind (runs_readWord _ _) fun _ => runs_pure _
    cases ea with
    | postInc r =>
      exact runs_bind (runs_ask _) fun _ => runs_bind (load s _ _) fun last => runs_bind (runs_readWord _ _) fun _ =>
        runs_putA r (fun _ => last) (side s r List.mem_cons_self)
    | _ => exact control
  · have loads := fun start (t : State) (k : Long → Word → M Unit) => reaches_loadUp (s := t) (sz := sizeOfBit long) (sp := sourceSpace ea s)
      (addr := start) (ks := maskRegs mask) (k := k)
    simp only [maskRegs_eq_nil] at loads
    cases ea with
    | postInc r => exact .afterAsk (loads (s.getA r) _ _)
    | dn | an | preDec | imm => cases hwf
    | _ => exact reaches_loadControl rfl _

/-- The operand `k` of `n` is inside their bytes. -/
theorem covers_operand {sz : Size} {sp : Space} {start : Long} {n : Nat}
    (h : precise i = true → (sp, start, n * sz.bytes) ∈ s.stores i) {k : Nat} (hk : k < n) :
    (s.footprint i).Covers sz sp (start + BitVec.ofNat 32 (k * sz.bytes)) := by
  intro j hj hp
  refine ⟨_, h hp, k * sz.bytes + j, ?_, ?_⟩
  · have := Nat.mul_le_mul_right sz.bytes (Nat.succ_le_of_lt hk)
    rw [Nat.succ_mul] at this
    exact Nat.lt_of_lt_of_le (Nat.add_lt_add_left hj _) this
  · rw [BitVec.ofNat_add, ← BitVec.add_assoc]
    rfl

theorem maskRegsDown_length (mask : Word) : (maskRegsDown mask).length = (maskRegs mask).length :=
  List.length_map _

/-- Counting down from the end is counting up from the start. -/
theorem sub_eq_add_operands (top : Long) {n k b : Nat} (hk : k < n) :
    top - BitVec.ofNat 32 ((k + 1) * b) = top - BitVec.ofNat 32 (n * b) + BitVec.ofNat 32 ((n - 1 - k) * b) := by
  have : n * b = (k + 1) * b + (n - 1 - k) * b := by
    rw [← Nat.add_mul]
    congr 1
    omega
  rw [this, BitVec.ofNat_add, ← BitVec.sub_sub, BitVec.sub_add_cancel]

/-- MOVEM to memory in a control mode. -/
theorem reaches_storeControl {sz : Size} {mask : Word} {ea : Ea} (h : ea.isControl = true) (hm : mask ≠ 0) :
    Reaches (effectiveAddress ea >>= fun start => ask State.dataSpace >>= fun sp => storeUp sz sp (maskRegs mask) start)
      (s.after 1) ((Loc.mem s.dataSpace (s.addressOf 1 ea) false).refer sz true) := by
  have space : (s.resolved 1 .long ea).dataSpace = s.dataSpace := by
    rw [State.dataSpace, State.resolved_sr]
    rfl
  refine .after (effectiveAddress_after h) (resolved_bus s 1) (.afterAsk ?_)
  rw [space]
  exact reaches_storeUp (mt maskRegs_eq_nil.1 hm)

theorem means_movemToMem (long : Bool) (mask : Word) (ea : Ea) : Means (.movemToMem long mask ea) := by
  have side : ∀ s : State, ∀ r ∈ sideRegs ea, (s.footprint (.movemToMem long mask ea)).addr r := fun _ r hr _ =>
    List.mem_map_of_mem hr
  refine means_at (fun _ => rfl) (fun s hs => runAt_next (runs_skipWord _ hs) (skipWord_run _) ?_)
    fun s hwf _ => .after (skipWord_run _) (.refl s) ?_
  case refine_2 =>
    have listed : mask ≠ 0 → maskRegsDown mask ≠ [] := fun hm h => hm (maskRegs_eq_nil.1 (List.map_eq_nil_iff.1 h))
    cases ea with
    | preDec r => exact reaches_unless fun hm => .afterAsk (.afterAsk (reaches_storeDown (listed hm)))
    | dn | an | postInc | imm => cases hwf
    | _ => exact reaches_unless fun hm => reaches_storeControl rfl hm
  have control (hst : s.stores (.movemToMem long mask ea) =
      [(s.dataSpace, s.addressOf 1 ea, (maskRegs mask).length * (sizeOfBit long).bytes)]) :
      RunAt (s.footprint (.movemToMem long mask ea)) (effectiveAddress ea >>= fun start => ask State.dataSpace >>= fun sp =>
        storeUp (sizeOfBit long) sp (maskRegs mask) start) (s.opened.skip 1) := by
    refine runAt_bind (runs_effectiveAddress (side s) _ hs) fun start t ht hg => runAt_ask State.dataSpace hg ?_
    obtain ⟨rfl, rfl⟩ := effectiveAddress_cases ht
    refine runs_storeUp (fun k hk => covers_operand (fun _ => ?_) hk) _ hg
    rw [hst, State.dataSpace, State.dataSpace, State.resolved_sr]
    exact List.mem_cons_self
  cases ea with
  | preDec r =>
    refine runAt_ask (fun s => s.getA r) hs <| runAt_ask State.dataSpace hs <| runAt_then
      (runs_storeDown (fun k hk => ?_) _ hs) fun last => runs_putA r (fun _ => last) (side s r List.mem_cons_self)
    rw [maskRegsDown_length] at hk
    rw [sub_eq_add_operands _ hk]
    exact covers_operand (fun _ => List.mem_cons_self) (n := (maskRegs mask).length) (by omega)
  | _ => exact control rfl

/-- A byte of MOVEP is one of those that it stores. -/
theorem bytes_movep {long : Bool} {dn an : Reg} {d : Word} {k : Nat} (hk : k < (sizeOfBit long).bytes) {addr : Long}
    (ha : addr = s.getA an + d.signExtend 32 + BitVec.ofNat 32 (2 * k)) :
    (s.footprint (.movep true long dn an d)).bytes (s.platform.key s.dataSpace addr) := by
  intro _
  refine ⟨_, List.mem_map.2 ⟨k, List.mem_range.2 hk, rfl⟩, 0, Nat.one_pos, ?_⟩
  rw [ha, show ∀ x : Long, x + BitVec.ofNat 32 0 = x from BitVec.add_zero]

theorem means_movep (toMem long : Bool) (dn an : Reg) (d : Word) : Means (.movep toMem long dn an d) := by
  refine means_at (fun _ => rfl) (fun s hs => runAt_next (runs_skipWord _ hs) (skipWord_run _) <|
    runAt_ask (fun s => s.getA an + d.signExtend 32) hs <| runAt_ask State.dataSpace hs <|
      runAt_ask (fun s => s.getD dn) hs ?_) fun s _ _ =>
        .after (skipWord_run _) (.refl s) (.afterAsk (.afterAsk (.afterAsk ?_)))
  case refine_2 =>
    cases toMem with
    | true => cases long <;> exact (arrives_busWrite8 _ false _ _ _).bind.reaches
    | false => cases long <;> exact (arrives_busRead8 _ false _ _).bind.reaches
  have first : ∀ x : Long, x = x + BitVec.ofNat 32 (2 * 0) := fun x => (BitVec.add_zero x).symm
  cases toMem with
  | true =>
    cases long with
    | true =>
      exact (runs_bind (runs_busWrite8 (bytes_movep (k := 0) (by decide) (first _)) _) fun _ =>
        runs_bind (runs_busWrite8 (bytes_movep (k := 1) (by decide) rfl) _) fun _ =>
        runs_bind (runs_busWrite8 (bytes_movep (k := 2) (by decide) rfl) _) fun _ =>
        runs_busWrite8 (bytes_movep (k := 3) (by decide) rfl) _) _ hs
    | false =>
      exact (runs_bind (runs_busWrite8 (bytes_movep (k := 0) (by decide) (first _)) _) fun _ =>
        runs_busWrite8 (bytes_movep (k := 1) (by decide) rfl) _) _ hs
  | false =>
    have hd : (s.footprint (.movep false long dn an d)).data dn := fun _ => List.mem_cons_self
    cases long with
    | true =>
      exact (runs_bind (runs_busRead8 _ _) fun _ => runs_bind (runs_busRead8 _ _) fun _ => runs_bind (runs_busRead8 _ _)
        fun _ => runs_bind (runs_busRead8 _ _) fun _ => runs_putD_long hd rfl _) _ hs
    | false =>
      exact (runs_bind (runs_busRead8 _ _) fun _ => runs_bind (runs_busRead8 _ _) fun _ =>
        runs_setDataReg hd (.inl rfl) _) _ hs

/-! Exchanges. -/

theorem means_exgDD (rx ry : Reg) : Means (.exgDD rx ry) := by
  refine means_of_runs (body := ask (fun s => s.getD rx) >>= fun x => ask (fun s => s.getD ry) >>= fun y =>
    upd fun s => (s.putD rx y).putD ry x) (fun _ => rfl) fun s => ?_
  refine runs_bind (runs_ask _) fun x => runs_bind (runs_ask _) fun y => ?_
  have hx : (s.footprint (.exgDD rx ry)).data rx := fun _ => List.mem_cons_self
  have hy : (s.footprint (.exgDD rx ry)).data ry := fun _ => List.mem_cons_of_mem _ List.mem_cons_self
  exact fun t ht => runAt_answer (t := (t.putD rx y).putD ry x) (a := ()) (fun _ => rfl)
    (.tail (.single (.data rx y hx rfl)) (.data ry x hy rfl)) ht

theorem means_exgAA (rx ry : Reg) : Means (.exgAA rx ry) := by
  refine means_of_runs (body := ask (fun s => s.getA rx) >>= fun x => ask (fun s => s.getA ry) >>= fun y =>
    upd fun s => (s.putA rx y).putA ry x) (fun _ => rfl) fun s => ?_
  refine runs_bind (runs_ask _) fun x => runs_bind (runs_ask _) fun y => ?_
  have hx : (s.footprint (.exgAA rx ry)).addr rx := fun _ => List.mem_cons_self
  have hy : (s.footprint (.exgAA rx ry)).addr ry := fun _ => List.mem_cons_of_mem _ List.mem_cons_self
  refine fun t ht => runAt_answer (t := (t.putA rx y).putA ry x) (a := ()) (fun cs => ?_)
    (.tail (.single (.address rx y hx ht.1)) (.address ry x hy (ht.putA rx y).1)) ((ht.putA rx y).putA ry x)
  rw [upd_run, State.putA_withCycles, State.putA_withCycles]

theorem means_exgDA (rx ry : Reg) : Means (.exgDA rx ry) := by
  refine means_of_runs (body := ask (fun s => s.getD rx) >>= fun x => ask (fun s => s.getA ry) >>= fun y =>
    upd fun s => (s.putD rx y).putA ry x) (fun _ => rfl) fun s => ?_
  refine runs_bind (runs_ask _) fun x => runs_bind (runs_ask _) fun y => ?_
  have hx : (s.footprint (.exgDA rx ry)).data rx := fun _ => List.mem_cons_self
  have hy : (s.footprint (.exgDA rx ry)).addr ry := fun _ => List.mem_cons_of_mem _ List.mem_cons_self
  refine fun t ht => runAt_answer (t := (t.putD rx y).putA ry x) (a := ()) (fun cs => ?_)
    (.tail (.single (.data rx y hx rfl)) (.address ry x hy ht.1)) (Footprint.Good.putA (s := t.putD rx y) ht ry x)
  exact congrArg _ (State.putA_withCycles (t.putD rx y) cs ry x)

/-! Bounds and system control. -/

theorem means_chk (dn : Reg) (ea : Ea) : Means (.chk dn ea) := by
  refine means_of_runs (fun _ => rfl) (fun s => runs_bind (runs_operand fun r hr _ => List.mem_map_of_mem hr) fun _ =>
    runs_bind (runs_dataReg _ _) fun _ => runs_bind runs_anyBool fun _ => runs_bind runs_anyBool fun _ =>
    runs_bind runs_anyBool fun _ => ?_) (reaching_operand fun _ => rfl)
  have free : (s.footprint (.chk dn ea)).FreeButX := ⟨rfl, rfl⟩
  have trap : ∀ n : Bool, Runs (s.footprint (.chk dn ea))
      (updSr (fun q => { q with n := n }) >>= fun _ => (raise (.trap 6) : M Unit)) := fun n =>
    runs_bind (runs_updSr fun _ => free.flags) fun _ => runs_raise rfl
  exact runs_bind (runs_updSr fun _ => free.flags) fun _ => runs_ite (trap _) <| runs_ite (trap _) <|
    runs_bind runs_anyBool fun _ => runs_updSr fun _ => free.flags

/-- An update of the whole status register ends an instruction in supervisor state (rules R347, R351, R353, R355). -/
theorem run_system {m : M α} {f : α → Sr → Sr} {F : Footprint} (hs : F.Good s) (hm : Runs F m)
    (h : F.system = true ∧ F.Free) : Run F (m >>= fun a => updSr (f a)) s :=
  .bind (hm s hs).1 fun a t _ => .answer (t := t.withSr (f a t.sr)) (a := ()) (fun _ => rfl)
    (.single (.system _ h.1 h.2.1 h.2.2.1 h.2.2.2))

theorem means_rte : Means .rte := by
  have reaching : Reaching .rte returnFromException := fun s _ _ => by
    change Reaches _ _ (if s.sr.s then _ else _)
    split
    · exact .afterAsk (arrives_readWord s.opened false .supervisorData s.ssp).bind.reaches
    · trivial
  refine means_guarded rfl (fun _ => rfl) (fun s hsup => ?_) reaching
  have hs : (s.footprint .rte).Good s.opened := s.footprint_good .rte
  refine .bind (runs_ask State.ssp (by intros; rfl) _ hs).1 fun ssp t ht => ?_
  cases ht
  refine .bind (runs_readWord _ _ _ hs).1 fun w t ht => ?_
  have hg := (runs_readWord (F := s.footprint .rte) _ _ _ hs).2 _ _ ht
  refine .bind (runs_readLong _ _ _ hg).1 fun target u hu => ?_
  have hg' := (runs_readLong (F := s.footprint .rte) _ _ _ hg).2 _ _ hu
  have h7 : (s.footprint .rte).addr 7 := fun _ => List.mem_cons_self
  have hssp : u.putA 7 (s.ssp + 6) = u.withSsp (s.ssp + 6) := by
    rw [State.putA, dif_neg (by decide), if_pos (hg'.1.trans hsup)]
    rfl
  have pop : Update (s.footprint .rte) u (u.withSsp (s.ssp + 6)) := hssp ▸ .address 7 (s.ssp + 6) h7 hg'.1
  exact .answer (t := ((u.withSsp (s.ssp + 6)).withSr (Sr.ofWord w)).jumped target) (a := ()) (fun _ => rfl)
    (.tail (.tail (.single pop) (.system _ rfl rfl rfl rfl)) (.jumped target rfl))

theorem means_moveFromUsp (an : Reg) : Means (.moveFromUsp an) :=
  means_guarded rfl (fun _ => rfl) fun s _ => by
    have h : (s.footprint (.moveFromUsp an)).addr an := fun _ => List.mem_cons_self
    have put : Runs (s.footprint (.moveFromUsp an)) (upd fun s => s.putA an s.usp) := runs_putA an _ h
    exact (put _ (s.footprint_good _)).1

end

/-! Every instruction. -/

section
variable {i : Instr} {dn an : Reg} {ea : Ea} {sz : Size}

/-- A quotient and a remainder, or an overflow, or a division by zero. -/
theorem means_divide {c : Long → Prop} {c' : Long → Long → Prop} [∀ v, Decidable (c v)] [∀ v d, Decidable (c' v d)]
    {q r : Long → Long → Word} (he : ∀ s, exec i s = instr s (operand .word ea >>= fun v => ask (fun s => s.getD dn) >>= fun d =>
      if c v then divideByZero else if c' v d then divideOverflow else divideResult dn (q v d) (r v d)))
    (hw : writtenRegs i = dataIndex dn :: (sideRegs ea).map addressIndex) (hsz : dataSize i = .long) (ht : mayTrap i 5)
    (hn : (keepsAllButZ i || keepsFlags i) = false) (hz : keepsFlags i = false)
    (hrefs : ∀ s : State, s.references i = (s.loc 0 .word ea).refer .word false ++ [] := by exact fun _ => rfl) : Means i := by
  refine means_of_runs he (fun s => runs_bind (runs_operand fun r hr _ => ?_) fun v => runs_bind (runs_ask _) fun d =>
    runs_ite (runs_divideByZero ⟨hn, hz⟩ ht) <| runs_ite (runs_divideOverflow ⟨hn, hz⟩)
      (runs_divideResult ⟨hn, hz⟩ (fun _ => ?_) hsz _ _)) (reaching_operand hrefs)
  · exact hw ▸ List.mem_cons_of_mem _ (List.mem_map_of_mem hr)
  · exact hw ▸ List.mem_cons_self

/-- An operand, then an address register written whole. -/
theorem means_toAddress {g : Long → State → Long}
    (he : ∀ s, exec i s = instr s (operand sz ea >>= fun v => upd fun s => s.putA an (g v s)))
    (h : addressDest i = some (an, ea)) (hg : ∀ v s cs, g v (s.withCycles cs) = g v s)
    (hrefs : ∀ s : State, s.references i = (s.loc 0 sz ea).refer sz false ++ [] := by exact fun _ => rfl) : Means i :=
  means_of_runs he (fun s => runs_bind (runs_operand (sides_of_addressDest h s).2) fun v =>
    runs_putA an (g v) (sides_of_addressDest h s).1 (hg v)) (reaching_operand hrefs)

/-- The bodies of one kind: a result of registers with its flags, then a data register. -/
theorem runs_logic {F : Footprint} (h : F.FreeButX) (sz : Size) (r : Long) : Runs F (updSr fun q => q.logic sz r) :=
  runs_updSr fun _ => h.flags

theorem means_addq (data : Reg) (sz : Size) (ea : Ea) : Means (.addq data sz ea) := by
  have replace (h : operandDest (.addq data sz ea) = some (0, sz, ea)) (hne : ∀ r, ea ≠ .an r)
      (hf : ∀ s : State, (s.footprint (.addq data sz ea)).Free) : Means (.addq data sz ea) :=
    means_replace (fun _ => exec_addq hne) h fun s _ => runs_flagged (fun _ => (hf s).flags) _
  cases ea with
  | an r =>
    exact means_of_runs (fun _ => rfl) fun s =>
      runs_putA r (fun s => s.getA r + BitVec.ofNat 32 (quickValue data)) (fun _ => List.mem_cons_self)
  | _ => exact replace rfl nofun fun _ => ⟨rfl, rfl, rfl⟩

theorem means_subq (data : Reg) (sz : Size) (ea : Ea) : Means (.subq data sz ea) := by
  have replace (h : operandDest (.subq data sz ea) = some (0, sz, ea)) (hne : ∀ r, ea ≠ .an r)
      (hf : ∀ s : State, (s.footprint (.subq data sz ea)).Free) : Means (.subq data sz ea) :=
    means_replace (fun _ => exec_subq hne) h fun s _ => runs_flagged (fun _ => (hf s).flags) _
  cases ea with
  | an r =>
    exact means_of_runs (fun _ => rfl) fun s =>
      runs_putA r (fun s => s.getA r - BitVec.ofNat 32 (quickValue data)) (fun _ => List.mem_cons_self)
  | _ => exact replace rfl nofun fun _ => ⟨rfl, rfl, rfl⟩

/-- The condition codes are no part of the system byte. -/
theorem Sr.withCcr_system (q : Sr) (w : Word) : (q.withCcr w).t = q.t ∧ (q.withCcr w).s = q.s ∧ (q.withCcr w).i = q.i :=
  ⟨rfl, rfl, rfl⟩

/-- A word of the instruction itself changes the condition codes. -/
theorem means_toCcr {f : Sr → Sr} (he : ∀ s, exec i s = instr s (skipWord >>= fun _ => updSr f))
    (hf : ∀ q, (f q).t = q.t ∧ (f q).s = q.s ∧ (f q).i = q.i) (h : ∀ s : State, (s.footprint i).Free)
    (hrefs : ∀ s : State, s.references i = [] := by exact fun _ => rfl) : Means i :=
  means_of_runs he (fun s => runs_bind runs_skipWord fun _ => runs_updSr fun q => (h s).flags (hf q)) (reaching_none hrefs)

/-- A result of registers with its flags fills a data register. -/
theorem means_result {get : State → Long} {r : Long → Long}
    (he : ∀ s, exec i s = instr s (ask get >>= fun v => updSr (fun q => q.logic sz (r v)) >>= fun _ =>
      upd fun s => s.putD dn (r v)))
    (h : dataDest i = some (dn, ea)) (hget : ∀ s cs, get (s.withCycles cs) = get s) (hsz : dataSize i = .long)
    (hq : ∀ s : State, (s.footprint i).FreeButX) (hrefs : ∀ s : State, s.references i = [] := by exact fun _ => rfl) :
    Means i :=
  means_of_runs he (fun s => runs_bind (runs_ask get hget) fun _ => runs_bind (runs_logic (hq s) _ _) fun _ =>
    runs_putD_long (sides_of_dataDest h s).1 hsz _) (reaching_none hrefs)

/-- An extended part of a data register with its flags. -/
theorem means_extend {sz' : Size} {r : Long → Long}
    (he : ∀ s, exec i s = instr s (dataReg sz' dn >>= fun v => updSr (fun q => q.logic sz (r v)) >>= fun _ =>
      setDataReg sz dn (r v)))
    (h : dataDest i = some (dn, ea)) (hsz : dataSize i = sz) (hq : ∀ s : State, (s.footprint i).FreeButX)
    (hrefs : ∀ s : State, s.references i = [] := by exact fun _ => rfl) : Means i :=
  means_of_runs he (fun s => runs_bind (runs_dataReg _ _) fun _ => runs_bind (runs_logic (hq s) _ _) fun _ =>
    runs_setDataReg (sides_of_dataDest h s).1 (.inl hsz) _) (reaching_none hrefs)

/-- ROR and ROL leave X alone (rules R276, R277). -/
theorem rotated_x (sz : Size) (n : Nat) (q : Sr) (v : Long) :
    (shifted (stepRor sz) n q v).x = q.x ∧ (shifted (stepRol sz) n q v).x = q.x :=
  ⟨iterate_x (step := stepRor sz) (fun _ => rfl) n _, iterate_x (step := stepRol sz) (fun _ => rfl) n _⟩

/-- Every instruction means a computation inside its footprint. -/
theorem means (i : Instr) : Means i := by
  cases i with
  | ori sz v ea | andi sz v ea | eori sz v ea =>
    exact means_immediate (n := immWords sz) (fun _ => rfl) rfl fun _ _ =>
      runs_flagged (fun _ => Footprint.FreeButX.flags ⟨rfl, rfl⟩) _
  | subi sz v ea | addi sz v ea =>
    exact means_immediate (n := immWords sz) (fun _ => rfl) rfl fun _ _ =>
      runs_flagged (fun _ => Footprint.Free.flags ⟨rfl, rfl, rfl⟩) _
  | cmpi sz v ea =>
    exact means_of_runs (fun _ => rfl) (fun s => runs_bind (runs_skipImmediate _) fun _ =>
      runs_bind (runs_operand (sides_of_compareOnly rfl s)) fun _ => runs_updSr fun _ => Footprint.FreeButX.flags ⟨rfl, rfl⟩)
      (reaching_read (n := immWords sz) fun _ => rfl)
  | oriToCcr v =>
    exact means_toCcr (f := fun q => q.withCcr (q.toWord ||| v.setWidth 16))
      (fun _ => rfl) (fun q => q.withCcr_system _) fun _ => ⟨rfl, rfl, rfl⟩
  | andiToCcr v =>
    exact means_toCcr (f := fun q => q.withCcr (q.toWord &&& v.setWidth 16))
      (fun _ => rfl) (fun q => q.withCcr_system _) fun _ => ⟨rfl, rfl, rfl⟩
  | eoriToCcr v =>
    exact means_toCcr (f := fun q => q.withCcr (q.toWord ^^^ v.setWidth 16))
      (fun _ => rfl) (fun q => q.withCcr_system _) fun _ => ⟨rfl, rfl, rfl⟩
  | oriToSr | andiToSr | eoriToSr =>
    exact means_guarded rfl (fun _ => rfl) fun s _ => run_system (s.footprint_good _) runs_skipWord ⟨rfl, rfl, rfl, rfl⟩
  | btstStatic bit ea =>
    exact means_of_runs (fun _ => rfl) (fun s => runs_bind runs_skipWord fun _ =>
      runs_bind (runs_operand (sides_of_compareOnly rfl s)) fun _ => runs_updSr fun _ => flags_zero rfl _ _)
      (reaching_read (n := 1) fun _ => rfl)
  | btstDynamic dn ea =>
    exact means_of_runs (fun _ => rfl) (fun s => runs_bind (runs_ask fun s => s.getD dn) fun _ =>
      runs_bind (runs_operand (sides_of_compareOnly rfl s)) fun _ => runs_updSr fun _ => flags_zero rfl _ _)
      fun s hwf hc => .afterAsk (reaching_operand (fun _ => rfl) s hwf hc)
  | bchgStatic bit ea | bclrStatic bit ea | bsetStatic bit ea =>
    exact means_immediate (n := 1) (fun _ => rfl) rfl fun _ _ => runs_flagged (fun _ => flags_zero rfl _ _) _
  | bchgDynamic dn ea | bclrDynamic dn ea | bsetDynamic dn ea =>
    exact means_fromReg (get := fun s => s.getD dn) (fun _ => rfl) rfl (fun _ _ => rfl) fun _ _ _ =>
      runs_flagged (fun _ => flags_zero rfl _ _) _
  | movep => exact means_movep _ _ _ _ _
  | moveB src dst | moveW src dst =>
    exact means_move (fun _ => rfl) rfl rfl rfl rfl (fun h => (Bool.and_eq_true_iff.1 h).2) (fun _ => rfl) rfl rfl
  | moveL src dst => exact means_move (fun _ => rfl) rfl rfl rfl rfl id (fun _ => rfl) rfl rfl
  | moveaW src an => exact means_toAddress (g := fun v _ => Size.word.sext v) (fun _ => rfl) rfl fun _ _ _ => rfl
  | moveaL src an => exact means_toAddress (g := fun v _ => Size.long.sext v) (fun _ => rfl) rfl fun _ _ _ => rfl
  | adda long an ea =>
    exact means_toAddress (g := fun v s => s.getA an + (sizeOfBit long).sext v) (fun _ => rfl) rfl fun _ _ _ => rfl
  | suba long an ea =>
    exact means_toAddress (g := fun v s => s.getA an - (sizeOfBit long).sext v) (fun _ => rfl) rfl fun _ _ _ => rfl
  | negx sz ea =>
    exact means_replace (fun _ => rfl) rfl (fun _ _ => runs_bind (runs_ask _) fun _ =>
      runs_flagged (fun _ => Footprint.Free.flags ⟨rfl, rfl, rfl⟩) _) fun _ => quiet_bind (quiet_ask _) fun _ => quiet_flagged _ _
  | clr sz ea =>
    exact means_overwrite (fun _ => rfl) rfl (fun _ => runs_flagged (fun _ => Footprint.FreeButX.flags ⟨rfl, rfl⟩) _)
      (quiet_flagged _ _)
  | neg sz ea =>
    exact means_replace (fun _ => rfl) rfl fun _ _ => runs_flagged (fun _ => Footprint.Free.flags ⟨rfl, rfl, rfl⟩) _
  | not sz ea =>
    exact means_replace (fun _ => rfl) rfl fun _ _ => runs_flagged (fun _ => Footprint.FreeButX.flags ⟨rfl, rfl⟩) _
  | tst sz ea =>
    exact means_of_runs (fun _ => rfl) (fun s => runs_bind (runs_operand (sides_of_compareOnly rfl s)) fun _ =>
      runs_updSr fun _ => Footprint.FreeButX.flags ⟨rfl, rfl⟩) (reaching_operand fun _ => rfl)
  | moveFromSr ea | scc cond ea =>
    exact means_overwrite (fun _ => rfl) rfl (fun _ => runs_bind (runs_ask _) fun _ => runs_pure _)
      (quiet_bind (quiet_ask _) fun _ => quiet_pure _)
  | moveToCcr ea =>
    exact means_of_runs (fun _ => rfl) (fun _ => runs_bind (runs_operand fun r hr _ => List.mem_map_of_mem hr) fun _ =>
      runs_updSr fun _ => Footprint.Free.flags ⟨rfl, rfl, rfl⟩) (reaching_operand fun _ => rfl)
  | moveToSr ea =>
    refine means_guarded rfl (fun _ => rfl) (fun s _ =>
      run_system (s.footprint_good _) (runs_operand fun r hr _ => List.mem_map_of_mem hr) ⟨rfl, rfl, rfl, rfl⟩) fun s _ _ => ?_
    change Reaches _ _ (if s.sr.s then _ else _)
    split
    · rw [State.loc, s.after_zero, ← List.append_nil (Loc.refer _ _ _)]
      exact reaches_operand fun _ => trivial
    · trivial
  | chk => exact means_chk _ _
  | lea an ea =>
    exact means_of_runs (fun _ => rfl) fun s => runs_bind (runs_effectiveAddress (sides_of_addressDest rfl s).2) fun v =>
      runs_putA an (fun _ => v) (sides_of_addressDest rfl s).1
  | nbcd ea =>
    exact means_replace (fun _ => rfl) rfl (fun _ _ => runs_bind (runs_decimalSub ⟨rfl, rfl, rfl⟩ _ _) fun _ => runs_pure _)
      fun _ => quiet_bind (quiet_decimalSub _ _) fun _ => quiet_pure _
  | swap dn =>
    exact means_result (get := fun s => s.getD dn) (r := fun v => v.extractLsb' 0 16 ++ v.extractLsb' 16 16)
      (sz := .long) (fun _ => rfl) rfl (fun _ _ => rfl) rfl (fun _ => ⟨rfl, rfl⟩)
  | pea => exact means_pea _
  | extW dn =>
    exact means_extend (sz := .word) (r := fun b => Size.word.trunc (Size.byte.sext b)) (fun _ => rfl) rfl rfl
      fun _ => ⟨rfl, rfl⟩
  | extL dn =>
    exact means_extend (sz := .long) (r := fun w => Size.word.sext w) (fun _ => rfl) rfl rfl fun _ => ⟨rfl, rfl⟩
  | movemToMem => exact means_movemToMem _ _ _
  | movemToRegs => exact means_movemToRegs _ _ _
  | tas ea =>
    refine means_at (fun _ => rfl) (fun s hs => runAt_modifyIndivisible hs (sides_of_operandDest rfl s)
      (s.after_zero ▸ stores_of_operandDest (n := 0) rfl s) fun _ =>
        runs_flagged (fun _ => Footprint.FreeButX.flags ⟨rfl, rfl⟩) _) fun s hwf _ => ?_
    obtain ⟨-, -, href, -⟩ := operandDest_facts (i := .tas ea) rfl
    rw [href, State.loc, s.after_zero]
    exact reaches_modifyIndivisible (operandDest_alterable (i := .tas ea) rfl hwf) fun _ => quiet_flagged _ _
  | trap v => exact means_of_runs (body := raise (.trap (32 + v.setWidth 8))) (fun _ => rfl) fun _ => runs_raise rfl
  | link => exact means_link _ _
  | unlk => exact means_unlk _
  | moveToUsp an => exact .silent (.inr (.inr ⟨an, rfl⟩))
  | moveFromUsp => exact means_moveFromUsp _
  | reset => exact .silent (.inl rfl)
  | nop => exact means_of_runs (body := pure ()) (fun _ => rfl) fun _ => runs_pure ()
  | stop w => exact .silent (.inr (.inl ⟨w, rfl⟩))
  | rte => exact means_rte
  | rts => exact means_rts
  | trapv => exact means_of_runs (fun _ => rfl) fun _ => runs_bind (runs_ask _) fun _ => runs_ite (runs_raise rfl) (runs_pure _)
  | rtr => exact means_rtr
  | jsr => exact means_jsr _
  | jmp => exact means_jmp _
  | addq => exact means_addq _ _ _
  | subq => exact means_subq _ _ _
  | dbcc => exact means_dbcc _ _ _
  | bra d => exact means_of_runs (fun _ => rfl) fun _ => runs_bind (runs_branchTarget _) fun _ => runs_jump rfl _
  | bsr => exact means_bsr _
  | bcc cond d =>
    exact means_of_runs (fun _ => rfl) fun _ => runs_bind (runs_branchTarget _) fun _ => runs_bind (runs_ask _) fun _ =>
      runs_ite (runs_jump rfl _) (runs_pure _)
  | moveq dn data =>
    exact means_of_runs (fun _ => rfl) fun s => runs_bind (runs_logic ⟨rfl, rfl⟩ _ _) fun _ =>
      runs_putD_long (sides_of_dataDest rfl s).1 rfl _
  | orToReg sz dn ea | andToReg sz dn ea =>
    exact means_toReg (fun _ => rfl) rfl rfl fun _ _ _ => runs_flagged (fun _ => Footprint.FreeButX.flags ⟨rfl, rfl⟩) _
  | orToMem sz dn ea | andToMem sz dn ea | eor sz dn ea =>
    exact means_fromReg (get := fun s => sz.trunc (s.getD dn)) (fun _ => rfl) rfl (fun _ _ => rfl) fun _ _ _ =>
      runs_flagged (fun _ => Footprint.FreeButX.flags ⟨rfl, rfl⟩) _
  | subToReg sz dn ea | addToReg sz dn ea =>
    exact means_toReg (fun _ => rfl) rfl rfl fun _ _ _ => runs_flagged (fun _ => Footprint.Free.flags ⟨rfl, rfl, rfl⟩) _
  | subToMem sz dn ea | addToMem sz dn ea =>
    exact means_fromReg (get := fun s => sz.trunc (s.getD dn)) (fun _ => rfl) rfl (fun _ _ => rfl) fun _ _ _ =>
      runs_flagged (fun _ => Footprint.Free.flags ⟨rfl, rfl, rfl⟩) _
  | divu dn ea =>
    exact means_divide (c := fun v => v = 0) (c' := fun v d => 65535 < d.toNat / v.toNat)
      (q := fun v d => BitVec.ofNat 16 (d.toNat / v.toNat)) (r := fun v d => BitVec.ofNat 16 (d.toNat % v.toNat))
      (fun _ => rfl) rfl rfl rfl rfl rfl
  | divs dn ea =>
    exact means_divide (c := fun v => v = 0)
      (c' := fun v d => d.toInt.tdiv (Size.word.sext v).toInt < -32768 ∨ 32767 < d.toInt.tdiv (Size.word.sext v).toInt)
      (q := fun v d => BitVec.ofInt 16 (d.toInt.tdiv (Size.word.sext v).toInt))
      (r := fun v d => BitVec.ofInt 16 (d.toInt.tmod (Size.word.sext v).toInt)) (fun _ => rfl) rfl rfl rfl rfl rfl
  | sbcd mem rx ry =>
    exact means_pair (fun _ => rfl) rfl rfl (fun _ => rfl)
      (fun _ _ _ _ hl => runs_bind (runs_decimalSub ⟨rfl, rfl, rfl⟩ _ _) fun _ => runs_writeLoc hl _)
      fun _ _ _ _ hl => .afterQuiet (quiet_decimalSub _ _) fun _ _ _ => reaches_writeLoc hl _
  | abcd mem rx ry =>
    exact means_pair (fun _ => rfl) rfl rfl (fun _ => rfl)
      (fun _ _ _ _ hl => runs_bind (runs_decimalAdd ⟨rfl, rfl, rfl⟩ _ _) fun _ => runs_writeLoc hl _)
      fun _ _ _ _ hl => .afterQuiet (quiet_decimalAdd _ _) fun _ _ _ => reaches_writeLoc hl _
  | subx sz mem rx ry | addx sz mem rx ry =>
    exact means_extended (fun _ => rfl) rfl rfl (fun _ => rfl) fun _ => ⟨rfl, rfl, rfl⟩
  | cmp sz dn ea =>
    exact means_of_runs (fun _ => rfl) (fun s => runs_bind (runs_operand (sides_of_compareOnly rfl s)) fun _ =>
      runs_bind (runs_dataReg _ _) fun _ => runs_updSr fun _ => Footprint.FreeButX.flags ⟨rfl, rfl⟩)
      (reaching_operand fun _ => rfl)
  | cmpa long an ea =>
    exact means_of_runs (fun _ => rfl) (fun s => runs_bind (runs_operand (sides_of_compareOnly rfl s)) fun _ =>
      runs_bind (runs_ask fun s => s.getA an) fun _ => runs_updSr fun _ => Footprint.FreeButX.flags ⟨rfl, rfl⟩)
      (reaching_operand fun _ => rfl)
  | cmpm sz ax ay =>
    have side : ∀ (s : State), ∀ r ∈ [ax, ay], (s.footprint (.cmpm sz ax ay)).addr r := fun s => sides_of_compareOnly rfl s
    refine means_of_runs (fun _ => rfl) (fun s =>
      runs_bind (runs_operand fun r hr => side s r (List.mem_cons_of_mem _ hr)) fun _ =>
      runs_bind (runs_operand fun r hr => side s r (List.mem_singleton.1 hr ▸ List.mem_cons_self)) fun _ =>
        runs_updSr fun _ => Footprint.FreeButX.flags ⟨rfl, rfl⟩) fun s _ _ => ?_
    change Reaches _ _ (s.referPair _ _ _ _)
    rw [State.referPair, State.loc, State.resolved, s.after_zero, List.append_assoc]
    exact reaches_operand fun _ => reaches_operand fun _ => trivial
  | mulu dn ea | muls dn ea =>
    exact means_of_runs (fun _ => rfl) (fun s => runs_bind (runs_operand (sides_of_dataDest rfl s).2) fun _ =>
      runs_bind (runs_dataReg _ _) fun _ => runs_bind (runs_logic ⟨rfl, rfl⟩ _ _) fun _ =>
        runs_putD_long (sides_of_dataDest rfl s).1 rfl _) (reaching_operand fun _ => rfl)
  | exgDD => exact means_exgDD _ _
  | exgAA => exact means_exgAA _ _
  | exgDA => exact means_exgDA _ _
  | asrReg | aslReg | lsrReg | lslReg | roxrReg | roxlReg =>
    exact means_shiftRegister (fun _ => rfl) rfl rfl rfl rfl nofun
  | rorReg sz byReg count dn => exact means_shiftRegister (fun _ => rfl) rfl rfl rfl rfl fun _ n _ _ => (rotated_x sz n _ _).1
  | rolReg sz byReg count dn =>
    exact means_shiftRegister (fun _ => rfl) rfl rfl rfl rfl fun _ n _ _ => (rotated_x sz n _ _).2
  | asrMem | aslMem | lsrMem | lslMem | roxrMem | roxlMem => exact means_shiftMemory (fun _ => rfl) rfl rfl rfl nofun
  | rorMem => exact means_shiftMemory (fun _ => rfl) rfl rfl rfl fun _ n _ _ => (rotated_x .word n _ _).1
  | rolMem => exact means_shiftMemory (fun _ => rfl) rfl rfl rfl fun _ n _ _ => (rotated_x .word n _ _).2
  | line1010 low => exact .line 10 (.inl rfl) rfl (fun _ => rfl) fun _ => rfl
  | line1111 low => exact .line 11 (.inr rfl) rfl (fun _ => rfl) fun _ => rfl

end

/-! PROOF. Properties that exception processing, external reset and a whole step keep. -/

/-- Where the outcome is a next state, it has the property. -/
def Ends (o : Outcome) (P : State → Prop) : Prop := ∀ t, o = .next t → P t

section
variable {P Q : State → Prop} {s t : State}

theorem ends_next (h : P t) : Ends (.next t) P := by
  intro u hu
  cases hu
  exact h

theorem ends_fault (f : Fault) : Ends (.fault f) P := by
  intro t h
  cases h

theorem ends_refused (r : Refusal) : Ends (.refused r) P := by
  intro t h
  cases h

theorem keeps_needEvenPc : Keeps P needEvenPc := by
  intro s hs
  cases h : s.pc.getLsbD 0 with
  | false => rw [needEvenPc_even h]; exact hs
  | true => rw [needEvenPc_odd h]; exact hs

/-! Properties that fetching keeps. -/

/-- The updates of a read cycle: its inputs are taken, and a device answers. -/
structure Idle (P : State → Prop) : Prop where
  drawn : ∀ s, P s → P s.drawn
  heard : ∀ s c, P s → P (s.heard c)

theorem Stable.idle (hP : Stable P) : Idle P := ⟨hP.drawn, hP.heard⟩

section
variable (hP : Idle P)
include hP

theorem idle_startCycle : Keeps P startCycle := by
  intro s hs
  cases h : s.cycles with
  | nil => rw [startCycle_quiet h]; exact hs
  | cons c cs =>
    have hc := hP.heard s c hs
    cases hr : c.reset with
    | none => rw [startCycle_heard h hr]; exact hc
    | some ipl => rw [startCycle_reset h hr]; exact hc

theorem idle_endRead16 (r : ReadReply) (sp : Space) (addr : Long) : Keeps P (endRead16 r sp addr) := by
  cases r with
  | memory => exact keeps_ask _
  | device => exact fun s hs => hP.drawn s hs
  | busError | noReply => exact keeps_raise _

theorem idle_readWord (sp : Space) (addr : Long) : Keeps P (readWord sp addr) :=
  keeps_bind (keeps_needEven _ _ _) fun _ => keeps_bind (idle_startCycle hP) fun _ => keeps_bind (keeps_ask _) fun _ =>
    idle_endRead16 hP _ _ _

theorem idle_fetchWord (addr : Long) : Keeps P (fetchWord addr) := by
  intro s hs
  have h := idle_readWord hP s.programSpace addr s hs
  rw [fetchWord_run]
  cases hr : (readWord s.programSpace addr).run s with
  | ok w t =>
    rw [hr] at h
    exact h
  | error e t =>
    rw [hr] at h
    exact h

theorem idle_fetchWords (n : Nat) (addr : Long) : Keeps P (fetchWords n addr) := by
  induction n generalizing addr with
  | zero => exact keeps_pure _
  | succ n ih => exact keeps_bind (idle_fetchWord hP _) fun _ => keeps_bind (ih _) fun _ => keeps_pure _

theorem idle_eitherWord (old new : Word) : Keeps P (eitherWord old new) :=
  keeps_ite (keeps_pure _) (keeps_bind (keeps_bind (fun s hs => hP.drawn s hs) fun _ => keeps_pure _) fun _ => keeps_pure _)

theorem idle_prefetchWord (old : State) (addr : Long) : Keeps P (prefetchWord old addr) := by
  refine keeps_bind (keeps_ask _) fun sp => keeps_bind (idle_fetchWord hP _) fun new => ?_
  cases old.platform.readReply sp addr true with
  | memory => exact idle_eitherWord hP _ _
  | device | busError | noReply => exact keeps_pure _

theorem idle_heldWord (addr : Long) (held : Word) : Keeps P (heldWord addr held) := by
  refine keeps_bind (keeps_ask _) fun sp => keeps_bind (keeps_ask _) fun reply => ?_
  cases reply with
  | memory => exact keeps_bind (keeps_ask _) fun _ => idle_eitherWord hP _ _
  | device | busError | noReply => exact keeps_pure _

theorem idle_prefetch (old : State) (n : Nat) (held : Word) : Keeps P (prefetch old n held) := by
  refine keeps_bind (keeps_ask _) fun pc => ?_
  have ahead : ∀ w : Word, Keeps P (prefetchWord old (pc + 2) >>= fun w1 => pure (w, w1)) := fun w =>
    keeps_bind (idle_prefetchWord hP _ _) fun _ => keeps_pure _
  exact keeps_ite (keeps_bind (keeps_pure _) ahead) (keeps_bind (idle_heldWord hP _ _) ahead)

theorem idle_openQueue : Keeps P openQueue := by
  refine keeps_bind keeps_needEvenPc fun _ => keeps_bind (keeps_ask _) fun q => ?_
  cases q with
  | some q => exact keeps_pure _
  | none =>
    exact keeps_bind (keeps_ask _) fun _ => keeps_bind (idle_fetchWord hP _) fun _ =>
      keeps_bind (idle_fetchWord hP _) fun _ => keeps_pure _

theorem idle_fillQueue (hq : ∀ s q, P s → P (s.withQueue q)) : Keeps P fillQueue :=
  keeps_bind (keeps_ask _) fun _ => keeps_ite (keeps_pure _)
    (keeps_bind (idle_fetchWord hP _) fun _ => keeps_bind (idle_fetchWord hP _) fun _ => keeps_upd fun s hs => hq s _ hs)

theorem idle_wordsAhead (hq : ∀ s q, P s → P (s.withQueue q)) (hd : ∀ s, P s → P s.dropQueue) (old : State) (n : Nat) :
    Keeps P (wordsAhead old n) := by
  refine keeps_bind (keeps_ask _) fun sr => keeps_bind (keeps_ask _) fun held => ?_
  have refetch : Keeps P (upd (fun s => s.dropQueue) >>= fun _ => fillQueue) :=
    keeps_bind (keeps_upd fun s hs => hd s hs) fun _ => idle_fillQueue hP hq
  cases held with
  | none => exact refetch
  | some q =>
    cases sr.s == old.sr.s with
    | true => exact keeps_bind (idle_prefetch hP _ _ _) fun _ => keeps_upd fun s hs => hq s _ hs
    | false => exact refetch

end

/-! Exception processing and external reset. -/

/-- The updates of exception processing too. -/
structure Entry (P : State → Prop) : Prop extends Stable P where
  supervised : ∀ s mask, P s → P (s.supervised mask)
  ssp : ∀ s v, P s → P (s.withSsp v)
  queue : ∀ s q, P s → P (s.withQueue q)

section
variable (hP : Entry P)
include hP

theorem keeps_enter (mask : Option (BitVec 3)) {vector : M (BitVec 8)} (h : Keeps P vector) (pc : Long) :
    Keeps P (enter mask vector pc) :=
  keeps_bind (keeps_ask _) fun _ => keeps_bind (keeps_upd fun s hs => hP.supervised s _ hs) fun _ =>
    keeps_bind (keeps_ask _) fun _ => keeps_bind (keeps_writeWord hP.toStable _ _ _) fun _ => keeps_bind h fun _ =>
    keeps_bind (keeps_writeWord hP.toStable _ _ _) fun _ => keeps_bind (keeps_writeWord hP.toStable _ _ _) fun _ =>
    keeps_bind (keeps_upd fun s hs => hP.ssp s _ hs) fun _ => keeps_bind (keeps_readLong hP.toStable _ _) fun _ =>
    keeps_bind (keeps_jump hP.toStable _) fun _ => keeps_fillQueue hP.toStable hP.queue

theorem keeps_stackedPc (act : Activity) : Keeps P act.stackedPc := by
  cases act with
  | operand ipc => exact keeps_bind (keeps_anyLong hP.toStable) fun _ => keeps_pure _
  | extension | operation after1 | group1 => exact keeps_anyLong hP.toStable

theorem keeps_stackedIr (act : Activity) : Keeps P act.stackedIr := by
  cases act with
  | operand | extension => exact keeps_ask _
  | operation after1 | group1 => exact keeps_anyBits hP.toStable _

theorem keeps_enter0 (k : AccessFault) (a : Access) (act : Activity) : Keeps P (enter0 k a act) :=
  have write : ∀ addr w, Keeps P (writeWord .supervisorData addr w) := fun _ _ => keeps_writeWord hP.toStable _ _ _
  keeps_bind (keeps_ask _) fun _ => keeps_bind (keeps_upd fun s hs => hP.supervised s _ hs) fun _ =>
    keeps_bind (keeps_ask _) fun _ => keeps_bind (keeps_stackedPc hP _) fun _ => keeps_bind (keeps_stackedIr hP _) fun _ =>
    keeps_bind (keeps_anyBits hP.toStable _) fun _ => keeps_bind (write _ _) fun _ => keeps_bind (write _ _) fun _ =>
    keeps_bind (write _ _) fun _ => keeps_bind (write _ _) fun _ => keeps_bind (write _ _) fun _ =>
    keeps_bind (write _ _) fun _ => keeps_bind (write _ _) fun _ =>
    keeps_bind (keeps_upd fun s hs => hP.ssp s _ hs) fun _ => keeps_bind (keeps_readLong hP.toStable _ _) fun _ =>
    keeps_bind (keeps_jump hP.toStable _) fun _ => keeps_fillQueue hP.toStable hP.queue

theorem keeps_loadResetVector : Keeps P loadResetVector :=
  keeps_bind (keeps_readLong hP.toStable _ _) fun _ => keeps_bind (keeps_upd fun s hs => hP.ssp s _ hs) fun _ =>
    keeps_bind (keeps_readLong hP.toStable _ _) fun _ => keeps_bind (keeps_upd fun s hs => hP.jumped s _ hs) fun _ =>
    keeps_bind keeps_needEvenPc fun _ => keeps_fillQueue hP.toStable hP.queue

theorem keeps_acknowledge (answer : IackResponse) (level : BitVec 3) : Keeps P (acknowledge answer level) := by
  refine keeps_bind (keeps_startCycle hP.toStable) fun c => ?_
  cases c.reply with
  | platform =>
    cases answer with
    | vector data => exact keeps_pure _
    | device => exact keeps_bind (keeps_deviceWord hP.toStable _ _) fun _ => keeps_pure _
    | autovector | busError => exact keeps_pure _
    | noReply => exact keeps_raise _
  | busError => exact keeps_pure _
  | noReply => exact keeps_raise _

end

/-- The updates that end exception processing too. -/
structure Closed (P : State → Prop) : Prop extends Entry P where
  halt : ∀ s, P s → P s.halt
  reset : ∀ s ipl, P s → P (s.resetRegisters ipl)
  mark0 : ∀ s, P s → P s.markGroup0
  mark1 : ∀ s, P s → P s.markGroup1
  mark2 : ∀ s, P s → P s.markGroup2

section
variable (hP : Closed P)
include hP

/-- What an abort of the reset sequence leaves is halted, or begins again. -/
theorem afterReset_ends {again : BitVec 3 → State → Outcome} (ha : ∀ ipl t, P t → Ends (again ipl t) P)
    (hs : P s) : Ends (afterReset again (loadResetVector.run s)) P := by
  have h := keeps_loadResetVector hP.toEntry s hs
  cases hr : loadResetVector.run s with
  | ok a t =>
    rw [hr] at h
    exact ends_next h
  | error e t =>
    rw [hr] at h
    cases e with
    | stop f => exact ends_fault f
    | reset ipl => exact ha ipl t h
    | _ => exact ends_next (hP.halt t h)

theorem resetTimes_ends (n : Nat) (ipl : BitVec 3) (hs : P (s.resetRegisters ipl)) : Ends (resetTimes n ipl s) P := by
  induction n generalizing s ipl with
  | zero => exact afterReset_ends hP (fun _ t ht => ends_next (hP.halt t ht)) hs
  | succ n ih => exact afterReset_ends hP (fun ipl t ht => ih ipl (hP.reset t ipl ht)) hs

theorem externalReset_ends (ipl : BitVec 3) (hs : P (s.resetRegisters ipl)) : Ends (s.externalReset ipl) P :=
  resetTimes_ends hP _ ipl hs

theorem group0_ends (h0 : s.inGroup0 = true → P s) (hm : P s.markGroup0) (k : AccessFault) (a : Access) (act : Activity) :
    Ends (s.group0 k a act) P := by
  unfold State.group0
  split
  · next h => exact ends_next (hP.halt s (h0 h))
  have h := keeps_enter0 hP.toEntry k a act s.markGroup0 hm
  split <;> rename_i he <;> rw [he] at h
  · exact ends_next h
  · exact ends_fault _
  · exact externalReset_ends hP _ (hP.reset _ _ h)
  · exact ends_next (hP.halt _ h)

theorem group0_keeps (hs : P s) (k : AccessFault) (a : Access) (act : Activity) : Ends (s.group0 k a act) P :=
  group0_ends hP (fun _ => hs) (hP.mark0 s hs) k a act

/-- The end of group 1 or group 2 processing. -/
theorem entered_ends {m : M Unit} (hm : Keeps P m) (hs : P s) (act : Activity) {mark : State → State}
    (hmark : ∀ t, P t → P (mark t)) : Ends (entered act mark (m.run s)) P := by
  have h := hm s hs
  cases hr : m.run s with
  | ok a t =>
    rw [hr] at h
    exact ends_next (hmark t h)
  | error e t =>
    rw [hr] at h
    cases e with
    | access k a | fetch k a => exact group0_keeps hP h _ _ _
    | reset ipl => exact externalReset_ends hP ipl (hP.reset t ipl h)
    | stop f => exact ends_fault f
    | refuse r => exact ends_refused r
    | trap n => exact ends_refused _

theorem group1_keeps (hs : P s) (n : BitVec 8) (pc : Long) : Ends (s.group1 n pc) P :=
  entered_ends hP (keeps_enter hP.toEntry none (keeps_pure n) pc) hs _ hP.mark1

theorem group2_keeps (hs : P s) (n : BitVec 8) (ipc : Long) : Ends (s.group2 n ipc) P :=
  entered_ends hP (keeps_enter hP.toEntry none (keeps_pure n) _) hs _ hP.mark2

theorem interrupt_keeps (hs : P s) (level : BitVec 3) (answer : IackResponse) : Ends (s.interrupt level answer) P :=
  entered_ends hP (keeps_enter hP.toEntry _ (keeps_acknowledge hP.toEntry _ _) _) hs _ hP.mark1

theorem abortFetch_keeps (hs : P s) (act : Activity) (e : Abort) : Ends (abortFetch act e s) P := by
  cases e with
  | access k a | fetch k a => exact group0_keeps hP hs _ _ _
  | reset ipl => exact externalReset_ends hP ipl (hP.reset s ipl hs)
  | stop f => exact ends_fault f
  | refuse r => exact ends_refused r
  | trap n => exact ends_refused _

end

/-! A whole step. -/

/-- The updates of the privileged instructions. -/
structure Supervises (P : State → Prop) : Prop where
  sr : ∀ s q, P s → P (s.withSr q)
  usp : ∀ s v, P s → P (s.withUsp v)
  stop : ∀ s, P s → P s.stop
  devices : ∀ s, P s → P s.resetDevices

/-- Every update of an instruction. -/
structure Executes (P : State → Prop) : Prop extends Closed P, Supervises P where
  settle : ∀ (s t : State), P t → P (s.settle t)

/-- Every update of a step, but the taking of its inputs. -/
structure Lasting (P : State → Prop) : Prop extends Executes P where
  drop : ∀ s, P s → P s.dropQueue
  trace : ∀ s b, P s → P (s.withTrace b)
  begins : ∀ s q, P s → P (s.begin q)
  sampled : ∀ s l, P s → P (s.sampled l)

theorem exec_reset (s : State) : exec .reset s = if s.sr.s then .next s.opened.resetDevices else s.group1 8 s.pc := rfl

theorem exec_stop (w : Word) (s : State) :
    exec (.stop w) s = if s.sr.s then .next (((s.opened.skip 1).withSr (Sr.ofWord w)).stop) else s.group1 8 s.pc := rfl

theorem exec_moveToUsp (an : Reg) (s : State) :
    exec (.moveToUsp an) s = if s.sr.s then .next (s.opened.withUsp (s.opened.getA an)) else s.group1 8 s.pc := rfl

/-- PC after the operation word. -/
theorem State.opened_eq_skip (s : State) : s.opened = s.skip 1 := rfl

section
variable (hP : Executes P)
include hP

theorem conclude_keeps {m : M Unit} (h : Leads m t P) : Ends (conclude s (m.run t)) P := by
  cases hr : m.run t with
  | ok a u => exact ends_next (h.1 a u hr)
  | error e u =>
    have hu := h.2 e u hr
    cases e with
    | access k a | fetch k a => exact group0_keeps hP.toClosed (hP.settle s u hu) _ _ _
    | reset ipl => exact externalReset_ends hP.toClosed ipl (hP.reset _ ipl (hP.settle s u hu))
    | trap n => exact group2_keeps hP.toClosed hu n _
    | stop f => exact ends_fault f
    | refuse r => exact ends_refused r

theorem exec_keeps (hs : P s) (i : Instr) : Ends (exec i s) P := by
  have ho : P s.opened := hP.skip s 1 hs
  have violation := group1_keeps hP.toClosed hs 8 s.pc
  cases means i with
  | plain body he hr _ =>
    rw [he, instr]
    exact conclude_keeps hP ((hr s).keeps hP.toStable (fun _ => hP.sr) ho)
  | guarded body hp he hr _ =>
    rw [he, privileged]
    split
    · next h => exact conclude_keeps hP ((hr s h).keeps hP.toStable (fun _ => hP.sr) ho)
    · exact violation
  | line n hn _ he _ =>
    rw [he]
    exact group1_keeps hP.toClosed hs n _
  | silent h =>
    rcases h with rfl | ⟨w, rfl⟩ | ⟨an, rfl⟩
    · rw [exec_reset]
      split
      · exact ends_next (hP.devices _ ho)
      · exact violation
    · rw [exec_stop]
      split
      · exact ends_next (hP.stop _ (hP.sr _ _ (hP.skip _ 1 ho)))
      · exact violation
    · rw [exec_moveToUsp]
      split
      · exact ends_next (hP.usp _ _ ho)
      · exact violation

end

section
variable (hP : Lasting P)
include hP

theorem refill_keeps (hs : P s) (old : State) (n : Nat) : Ends (refill old n s) P := by
  unfold refill
  split
  · exact ends_next (hP.drop s hs)
  have h := idle_wordsAhead hP.idle hP.queue hP.drop old n s hs
  split <;> rename_i he <;> rw [he] at h
  · exact ends_next h
  · exact abortFetch_keeps hP.toClosed (hP.settle old _ h) _ _

theorem finish_keeps {o : Outcome} (ho : Ends o P) (old : State) (n : Nat) : Ends (finish old n o) P := by
  cases o with
  | next t =>
    have ht : P t := ho t rfl
    simp only [finish]
    split
    · exact ends_next ht
    split
    · exact ends_next (hP.trace _ _ ht)
    · exact refill_keeps hP (hP.trace _ _ ht) old n
  | fault f => exact ends_fault f
  | refused r => exact ends_refused r

theorem execute_keeps (hs : P s) (q : Word × Word) : Ends (execute exec q s) P := by
  unfold execute
  split
  case h_1 => exact group1_keeps hP.toClosed hs _ _
  case h_2 i n _ =>
    have h := idle_fetchWords hP.idle (n - 1 - lateFetches i) (s.pc + 4) s hs
    split <;> rename_i he <;> rw [he] at h
    · exact abortFetch_keeps hP.toClosed h _ _
    case h_2 ws t =>
      dsimp only
      have hu : P (t.withAhead ((q.2 :: ws).getLastD 0)) := hP.ahead _ _ h
      split
      · exact finish_keeps hP (exec_keeps hP.toExecutes hu _) _ _
      · exact group1_keeps hP.toClosed hu _ _

theorem fetchExecute_keeps (hs : P s) : Ends (fetchExecute exec s) P := by
  have h := idle_openQueue hP.idle s hs
  unfold fetchExecute
  split <;> rename_i he <;> rw [he] at h
  · exact abortFetch_keeps hP.toClosed h _ _
  · exact execute_keeps hP (hP.begins _ _ h) _

/-- A step keeps the property that its inputs leave. -/
theorem step_keeps (hs : P s.observe) : Ends (step s) P := by
  have hl : ∀ l, P (s.observe.sampled l) := fun l => hP.sampled _ l hs
  unfold step stepWith boundary
  split
  · exact externalReset_ends hP.toClosed _ (hP.reset _ _ hs)
  split
  · exact ends_next hs
  split
  · exact group1_keeps hP.toClosed (hP.trace _ _ hs) _ _
  split
  · exact interrupt_keeps hP.toClosed (hl _) _ _
  split
  · exact ends_next (hl _)
  · exact fetchExecute_keeps hP (hl _)

end

/-! The platform, and the order in which inputs are taken. -/

/-- The platform, the order of long accesses and the samples to come are these, and the inputs of cycles to come are the last of these. -/
def OnPlatform (s t : State) : Prop :=
  t.platform = s.platform ∧ t.longSplit = s.longSplit ∧ t.pins = s.pins ∧ t.cycles <:+ s.cycles

theorem lasting_onPlatform (s : State) : Lasting (OnPlatform s) where
  byte _ _ _ _ := id
  drawn _ := id
  data _ _ _ := id
  address t r v h := by simpa [OnPlatform] using h
  skip _ _ := id
  jumped _ _ := id
  ahead _ _ := id
  heard t c h := ⟨h.1, h.2.1, h.2.2.1, (List.tail_suffix _).trans h.2.2.2⟩
  flags _ _ _ _ _ := id
  supervised _ _ := id
  ssp _ _ := id
  queue _ _ := id
  halt _ := id
  reset _ _ := id
  mark0 _ := id
  mark1 _ := id
  mark2 _ := id
  sr _ _ := id
  usp _ _ := id
  stop _ := id
  devices _ := id
  drop _ := id
  trace _ _ := id
  begins _ _ := id
  sampled _ _ := id
  settle _ _ := id

/-- Settles O57: no update of a step writes the platform, and inputs are taken from the front. -/
theorem stepKeepsPlatform : Obligations.StepKeepsPlatform := by
  intro s t h
  obtain ⟨hp, hl, hpins, hc⟩ := step_keeps (lasting_onPlatform s.observe) ⟨rfl, rfl, rfl, List.suffix_refl _⟩ t h
  obtain ⟨l, hl'⟩ := hc
  exact ⟨hp, hl, hpins, l.length, by rw [show s.cycles = l ++ t.cycles from hl'.symm, List.drop_left]⟩

end

end Sys2Proof.Machine
end

section
/-! PROOF. What an instruction comes to (rule R404): its own effect or an exception. The invariant of every step, and confinement in user state. -/

namespace Sys2Proof.Machine

/-- Exception processing or external reset takes `u` to `t`, on behalf of the instruction `i` begun in `s`. -/
def Taken (i : Instr) (s u t : State) : Prop :=
  (∃ n ∈ [(8 : BitVec 8), 10, 11], u.group1 n s.pc = .next t) ∨ (∃ n, mayTrap i n ∧ u.group2 n s.pc = .next t) ∨
    (∃ k a act, u.group0 k a act = .next t) ∨ ∃ ipl, u.externalReset ipl = .next t

/-- The outcome is a state with the property, or what exception processing makes of such a state. -/
def Comes (P : State → Prop) (i : Instr) (s : State) (o : Outcome) : Prop :=
  ∀ t, o = .next t → P t ∨ ∃ u, P u ∧ Taken i s u t

section
variable {P : State → Prop} {i : Instr} {s t u : State}

theorem comes_next (h : P t) : Comes P i s (.next t) := by
  intro u hu
  cases hu
  exact .inl h

theorem comes_fault (f : Fault) : Comes P i s (.fault f) := by
  intro t h
  cases h

theorem comes_refused (r : Refusal) : Comes P i s (.refused r) := by
  intro t h
  cases h

theorem comes_group1 (h : P u) {n : BitVec 8} (hn : n ∈ [(8 : BitVec 8), 10, 11]) : Comes P i s (u.group1 n s.pc) :=
  fun _ ht => .inr ⟨u, h, .inl ⟨n, hn, ht⟩⟩

theorem comes_group2 (h : P u) {n : BitVec 8} (hn : mayTrap i n) : Comes P i s (u.group2 n s.pc) :=
  fun _ ht => .inr ⟨u, h, .inr (.inl ⟨n, hn, ht⟩)⟩

theorem comes_group0 (h : P u) (k : AccessFault) (a : Access) (act : Activity) : Comes P i s (u.group0 k a act) :=
  fun _ ht => .inr ⟨u, h, .inr (.inr (.inl ⟨k, a, act, ht⟩))⟩

theorem comes_reset (h : P u) (ipl : BitVec 3) : Comes P i s (u.externalReset ipl) :=
  fun _ ht => .inr ⟨u, h, .inr (.inr (.inr ⟨ipl, ht⟩))⟩

/-- The end of an instruction inside its footprint. -/
theorem conclude_comes {m : M Unit} {F : Footprint} (hF : F.traps = mayTrap i) (hr : Run F m t)
    (hsettle : ∀ u, P u → P (s.settle u)) (h : Leads m t P) : Comes P i s (conclude s (m.run t)) := by
  cases hm : m.run t with
  | ok a u => exact comes_next (h.1 a u hm)
  | error e u =>
    have hu := h.2 e u hm
    cases e with
    | access k a | fetch k a => exact comes_group0 (hsettle u hu) _ _ _
    | reset ipl => exact comes_reset (hsettle u hu) ipl
    | trap n =>
      rcases hr.raises hm with hn | ⟨c, _, ipl, _, h'⟩
      · exact comes_group2 hu (hF ▸ hn)
      · cases h'
    | stop f => exact comes_fault f
    | refuse r => exact comes_refused r

/-- The instructions that write T, S or the mask are privileged (rule R340). -/
theorem privileged_of_writesSystem (h : writesSystem i = true) : isPrivileged i = true := by
  cases i with
  | _ => cases h <;> rfl

/-- What an instruction comes to keeps what its updates keep; those of the privileged instructions matter in supervisor state only. -/
theorem exec_comes (hP : Stable P) (hsup : s.sr.s = true → Supervises P) (hsettle : ∀ u, P u → P (s.settle u)) (hs : P s)
    (i : Instr) : Comes P i s (exec i s) := by
  have ho : P s.opened := hP.skip s 1 hs
  have violation : Comes P i s (s.group1 8 s.pc) := comes_group1 hs (by decide)
  by_cases hv : isPrivileged i = true ∧ s.sr.s = false
  · rw [exec_privileged_of_user hv.1 hv.2]
    exact violation
  have hsys : writesSystem i = true → ∀ t q, P t → P (t.withSr q) := fun hw =>
    (hsup (eq_true_of_ne_false fun h => hv ⟨privileged_of_writesSystem hw, h⟩)).sr
  cases means i with
  | plain body he hr _ =>
    rw [he, instr]
    exact conclude_comes rfl (hr s) hsettle ((hr s).keeps hP hsys ho)
  | guarded body hp he hr _ =>
    rw [he, privileged]
    split
    · next h => exact conclude_comes rfl (hr s h) hsettle ((hr s h).keeps hP hsys ho)
    · exact violation
  | line n hn _ he _ =>
    rw [he]
    exact comes_group1 hs (by rcases hn with rfl | rfl <;> decide)
  | silent h =>
    rcases h with rfl | ⟨w, rfl⟩ | ⟨an, rfl⟩
    · rw [exec_reset]
      split
      · next h => exact comes_next ((hsup h).devices _ ho)
      · exact violation
    · rw [exec_stop]
      split
      · next h => exact comes_next ((hsup h).stop _ ((hsup h).sr _ _ (hP.skip _ 1 ho)))
      · exact violation
    · rw [exec_moveToUsp]
      split
      · next h => exact comes_next ((hsup h).usp _ _ ho)
      · exact violation

end

/-! Confinement in user state. -/

/-- Where old and new are the same, so is what is left. -/
theorem settleTo_of_eq {α : Type} [DecidableEq α] (choice : Long) {old new : α} (h : new = old) :
    settleTo choice old new = old := by
  subst h
  simp [settleTo]

/-- The updates of an instruction in user state. -/
theorem stable_sameSupervisor {s : State} (hs : s.sr.s = false) : Stable (SameSupervisor s) where
  byte _ _ _ _ := id
  drawn _ := id
  data _ _ _ := id
  address t r v h := by
    have user : t.sr.s = false := h.1.2.1.trans hs
    have hssp : (t.putA r v).ssp = t.ssp := by
      unfold State.putA
      split
      · rfl
      · rw [user]
        rfl
    simpa [SameSupervisor, SameSystem, hssp] using h
  skip _ _ := id
  jumped _ _ := id
  ahead _ _ := id
  heard _ _ := id
  flags t q ht hs hi h := ⟨⟨ht.trans h.1.1, hs.trans h.1.2.1, hi.trans h.1.2.2⟩, h.2⟩

theorem SameSupervisor.settle {s t : State} (h : SameSupervisor s t) : SameSupervisor s (s.settle t) := by
  obtain ⟨⟨ht, hs, hi⟩, hssp, hrest⟩ := h
  exact ⟨⟨settleTo_of_eq _ ht, settleTo_of_eq _ hs, settleTo_of_eq _ hi⟩, settleTo_of_eq _ hssp, hrest⟩

/-- The vectors of group 2 exceptions (rule R460). -/
theorem mayTrap_vectors {i : Instr} {n : BitVec 8} (h : mayTrap i n) : n ∈ [(5 : BitVec 8), 6, 7] ∨ (32 ≤ n ∧ n ≤ 47) := by
  unfold mayTrap at h
  split at h
  case h_5 v => right; subst h; revert v; decide
  case h_6 => exact h.elim
  all_goals subst h; left; decide

/-- Settles O56: in user state no update of an instruction touches supervisor state; only exception processing does. -/
theorem userStateIsConfined : Obligations.UserStateIsConfined := by
  intro s t i hs h
  have supervisor : s.sr.s = true → Supervises (SameSupervisor s) := fun h => by
    rw [hs] at h
    cases h
  rcases exec_comes (stable_sameSupervisor hs) supervisor (fun _ => SameSupervisor.settle) ⟨⟨rfl, rfl, rfl⟩, rfl, rfl, rfl⟩
    i t h with h | ⟨u, hu, h1 | ⟨n, hn, h2⟩ | h⟩
  · exact .inl h
  · exact .inr ⟨u, hu, .inl h1⟩
  · exact .inr ⟨u, hu, .inr (.inl ⟨n, mayTrap_vectors hn, h2⟩)⟩
  · exact .inr ⟨u, hu, .inr (.inr h)⟩

/-! PROOF. The words held ahead and the trace marker after exception processing and after a step: the invariant (rules R31, R45, R404, R413, R446). -/

/-- Two words are held ahead exactly where PC is even (log 33). -/
def Held (t : State) : Prop := t.queue.isSome = true ↔ t.pc.getLsbD 0 = false

/-- What the invariant says of the words ahead. -/
def NormalHeld (t : State) : Prop := t.run = .normal → Held t

/-- Where a computation ends without an abort, its end has the property. -/
def Leaves (Q : State → Prop) {α : Type} (m : M α) : Prop := ∀ s a t, m.run s = .ok a t → Q t

section
variable {Q : State → Prop} {α β : Type} {s t : State}

theorem leaves_bind {m : M α} {f : α → M β} (h : ∀ a, Leaves Q (f a)) : Leaves Q (m >>= f) := by
  intro s b u hu
  obtain ⟨a, t, -, h2⟩ := bind_ok_cases hu
  exact h a t b u h2

theorem normalHeld_halt (s : State) : NormalHeld s.halt := nofun

/-! Filling the queue. -/

/-- The parity of PC and the absence of words ahead survive a fetch. -/
theorem idle_pc (pc : Long) : Idle fun t => t.pc = pc := ⟨fun _ => id, fun _ _ => id⟩

/-- From an empty queue. -/
theorem fillQueue_held {a : Unit} (hs : s.queue = none) (h : fillQueue.run s = .ok a t) : Held t := by
  obtain ⟨pc, u, h0, h⟩ := bind_ok_cases h
  cases h0
  split at h
  · next hodd =>
    cases h
    simp [Held, hs, hodd]
  · next heven =>
    obtain ⟨w0, u0, h0, h⟩ := bind_ok_cases h
    obtain ⟨w1, u1, h1, h⟩ := bind_ok_cases h
    have hpc0 : u0.pc = s.pc := (idle_fetchWord (idle_pc s.pc) _).ok rfl h0
    have hpc1 : u1.pc = s.pc := (idle_fetchWord (idle_pc s.pc) _).ok hpc0 h1
    cases h
    exact ⟨fun _ => hpc1 ▸ eq_false_of_ne_true heven, fun _ => rfl⟩

theorem jump_fillQueue_held (v : Long) : Leaves Held (jump v >>= fun _ => fillQueue) := by
  intro s a u hu
  obtain ⟨_, t, h1, h2⟩ := bind_ok_cases hu
  cases h1
  exact fillQueue_held rfl h2

theorem refetch_held : Leaves Held (upd (fun s => s.dropQueue) >>= fun _ => fillQueue) := by
  intro s a u hu
  obtain ⟨_, t, h1, h2⟩ := bind_ok_cases hu
  cases h1
  exact fillQueue_held rfl h2

theorem enter_held (mask : Option (BitVec 3)) (vector : M (BitVec 8)) (pc : Long) : Leaves Held (enter mask vector pc) :=
  leaves_bind fun _ => leaves_bind fun _ => leaves_bind fun _ => leaves_bind fun _ => leaves_bind fun _ => leaves_bind fun _ =>
    leaves_bind fun _ => leaves_bind fun _ => leaves_bind fun _ => jump_fillQueue_held _

theorem enter0_held (k : AccessFault) (a : Access) (act : Activity) : Leaves Held (enter0 k a act) :=
  leaves_bind fun _ => leaves_bind fun _ => leaves_bind fun _ => leaves_bind fun _ => leaves_bind fun _ => leaves_bind fun _ =>
    leaves_bind fun _ => leaves_bind fun _ => leaves_bind fun _ => leaves_bind fun _ => leaves_bind fun _ => leaves_bind fun _ =>
    leaves_bind fun _ => leaves_bind fun _ => leaves_bind fun _ => jump_fillQueue_held _

theorem loadResetVector_held : Leaves Held loadResetVector := by
  refine leaves_bind fun _ => leaves_bind fun _ => leaves_bind fun pc => ?_
  intro s a u hu
  obtain ⟨_, t, h1, h2⟩ := bind_ok_cases hu
  cases h1
  obtain ⟨_, v, h3, h4⟩ := bind_ok_cases h2
  have hv : v.queue = none := (keeps_needEvenPc (P := fun t => t.queue = none)).ok rfl h3
  exact fillQueue_held hv h4

/-! Exception processing. -/

theorem afterReset_held {again : BitVec 3 → State → Outcome} (ha : ∀ ipl t, Ends (again ipl t) NormalHeld) :
    Ends (afterReset again (loadResetVector.run s)) NormalHeld := by
  cases hr : loadResetVector.run s with
  | ok a t => exact ends_next fun _ => loadResetVector_held s a t hr
  | error e t =>
    cases e with
    | stop f => exact ends_fault f
    | reset ipl => exact ha ipl t
    | _ => exact ends_next (normalHeld_halt t)

theorem resetTimes_held (n : Nat) (ipl : BitVec 3) (s : State) : Ends (resetTimes n ipl s) NormalHeld := by
  induction n generalizing s ipl with
  | zero => exact afterReset_held fun _ t => ends_next (normalHeld_halt t)
  | succ n ih => exact afterReset_held ih

theorem externalReset_held (s : State) (ipl : BitVec 3) : Ends (s.externalReset ipl) NormalHeld := resetTimes_held _ ipl s

theorem group0_held (s : State) (k : AccessFault) (a : Access) (act : Activity) : Ends (s.group0 k a act) NormalHeld := by
  unfold State.group0
  split
  · exact ends_next (normalHeld_halt s)
  split
  · next h => exact ends_next fun _ => enter0_held _ _ _ _ _ _ h
  · exact ends_fault _
  · exact externalReset_held _ _
  · exact ends_next (normalHeld_halt _)

theorem entered_held {m : M Unit} (hm : Leaves Held m) (act : Activity) {mark : State → State}
    (hmark : ∀ t, Held t → Held (mark t)) (s : State) : Ends (entered act mark (m.run s)) NormalHeld := by
  cases hr : m.run s with
  | ok a t => exact ends_next fun _ => hmark t (hm s a t hr)
  | error e t =>
    cases e with
    | access k a | fetch k a => exact group0_held _ _ _ _
    | reset ipl => exact externalReset_held _ _
    | stop f => exact ends_fault f
    | refuse r => exact ends_refused r
    | trap n => exact ends_refused _

theorem group1_held (s : State) (n : BitVec 8) (pc : Long) : Ends (s.group1 n pc) NormalHeld :=
  entered_held (enter_held _ _ _) _ (mark := State.markGroup1) (fun _ => id) s

theorem group2_held (s : State) (n : BitVec 8) (pc : Long) : Ends (s.group2 n pc) NormalHeld :=
  entered_held (enter_held _ _ _) _ (mark := State.markGroup2) (fun _ => id) s

theorem interrupt_held (s : State) (level : BitVec 3) (answer : IackResponse) :
    Ends (s.interrupt level answer) NormalHeld :=
  entered_held (enter_held _ _ _) _ (mark := State.markGroup1) (fun _ => id) s

theorem abortFetch_held (act : Activity) (e : Abort) (s : State) : Ends (abortFetch act e s) NormalHeld := by
  cases e with
  | access k a | fetch k a => exact group0_held _ _ _ _
  | reset ipl => exact externalReset_held _ _
  | stop f => exact ends_fault f
  | refuse r => exact ends_refused r
  | trap n => exact ends_refused _

theorem Taken.held {i : Instr} {s u t : State} (h : Taken i s u t) : NormalHeld t := by
  rcases h with ⟨n, -, h⟩ | ⟨n, -, h⟩ | ⟨k, a, act, h⟩ | ⟨ipl, h⟩
  · exact group1_held _ _ _ t h
  · exact group2_held _ _ _ t h
  · exact group0_held _ _ _ _ t h
  · exact externalReset_held _ _ t h

/-! An instruction. -/

/-- No exception's handler is about to begin, and words are held at an even PC only. -/
def Running (t : State) : Prop :=
  (t.inGroup0 = false ∧ t.inGroup1 = false ∧ t.inGroup2 = false) ∧ (t.queue.isSome = true → t.pc.getLsbD 0 = false)

theorem stable_running : Stable Running where
  byte _ _ _ _ := id
  drawn _ := id
  data _ _ _ := id
  address s r v h := by simpa [Running] using h
  skip s n h := ⟨h.1, fun hq => even_add (h.2 hq) (Nat.mul_mod_right 2 n)⟩
  jumped s v h := ⟨h.1, nofun⟩
  ahead s w h := ⟨h.1, fun hq => h.2 (by rwa [State.withAhead, Option.isSome_map] at hq)⟩
  heard _ _ := id
  flags _ _ _ _ _ := id

theorem supervises_running : Supervises Running where
  sr _ _ := id
  usp _ _ := id
  stop _ := id
  devices _ := id

/-- After an instruction begun with no handler pending: either none is, or the words ahead are those of a handler. -/
theorem exec_running {s : State} (hs : Running s) (i : Instr) : Ends (exec i s) fun t => Running t ∨ NormalHeld t :=
  fun t h => (exec_comes stable_running (fun _ => supervises_running) (fun _ => id) hs i t h).imp_right
    fun ⟨_, _, hu⟩ => hu.held

/-- The words ahead after the instruction. -/
theorem wordsAhead_held {old : State} {n : Nat} {a : Unit} (hs : s.queue.isSome = true → s.pc.getLsbD 0 = false)
    (h : (wordsAhead old n).run s = .ok a t) : Held t := by
  obtain ⟨sr, u, h0, h⟩ := bind_ok_cases h
  cases h0
  obtain ⟨held, u, h0, h⟩ := bind_ok_cases h
  cases h0
  split at h
  · next q hq _ =>
    obtain ⟨q', u, h0, h⟩ := bind_ok_cases h
    have hpc : u.pc = s.pc := (idle_prefetch (idle_pc s.pc) _ _ _).ok rfl h0
    cases h
    simpa [Held, State.withQueue, hpc] using hs (by rw [hq]; rfl)
  · exact refetch_held s a t h

theorem refill_held (old : State) (n : Nat) (hs : t.run = .normal → t.queue.isSome = true → t.pc.getLsbD 0 = false) :
    Ends (refill old n t) NormalHeld := by
  unfold refill
  split
  · next h =>
    refine ends_next fun hr => ?_
    cases h.symm.trans hr
  split
  · next u h =>
    refine ends_next fun hr => wordsAhead_held (hs ?_) h
    have run : u.run = t.run := (idle_wordsAhead (P := fun u => u.run = t.run) ⟨fun _ => id, fun _ _ => id⟩
      (fun _ _ => id) (fun _ => id) old n).ok rfl h
    rw [← run, hr]
  · exact abortFetch_held _ _ _

theorem finish_held {o : Outcome} (ho : Ends o fun t => Running t ∨ NormalHeld t) (old : State) (n : Nat) :
    Ends (finish old n o) NormalHeld := by
  cases o with
  | next t =>
    have ht := ho t rfl
    simp only [finish]
    split
    · next h =>
      refine ends_next (ht.resolve_left fun hr => ?_)
      simp [hr.1] at h
    split
    · next h =>
      refine ends_next (show NormalHeld t from ht.resolve_left fun hr => ?_)
      simp [hr.1] at h
    · exact refill_held _ _ fun hn => ht.elim (fun h => h.2) fun h => (h hn).1
  | fault f => exact ends_fault f
  | refused r => exact ends_refused r

theorem execute_held (hs : Running s) (q : Word × Word) : Ends (execute exec q s) NormalHeld := by
  unfold execute
  split
  case h_1 => exact group1_held _ _ _
  case h_2 i n _ =>
    have h := idle_fetchWords stable_running.idle (n - 1 - lateFetches i) (s.pc + 4) s hs
    split <;> rename_i he <;> rw [he] at h
    · exact abortFetch_held _ _ _
    case h_2 ws t =>
      dsimp only
      split
      · exact finish_held (exec_running (stable_running.ahead _ _ h) _) _ _
      · exact group1_held _ _ _

theorem openQueue_even {q : Word × Word} (h : openQueue.run s = .ok q t) : t.pc.getLsbD 0 = false := by
  cases hpc : s.pc.getLsbD 0 with
  | false =>
    have : t.pc = s.pc := (idle_openQueue (idle_pc s.pc)).ok rfl h
    rw [this, hpc]
  | true =>
    rw [openQueue_odd hpc] at h
    cases h

theorem fetchExecute_held (s : State) : Ends (fetchExecute exec s) NormalHeld := by
  unfold fetchExecute
  split
  · exact abortFetch_held _ _ _
  · next q t h =>
    have even : t.pc.getLsbD 0 = false := openQueue_even h
    exact execute_held (s := t.begin q) ⟨⟨rfl, rfl, rfl⟩, fun _ => even⟩ _

theorem boundary_held (hs : NormalHeld s) (p : Sample) : Ends (boundary exec p s) NormalHeld := by
  unfold boundary
  split
  · exact externalReset_held _ _
  split
  · exact ends_next hs
  split
  · exact group1_held _ _ _
  split
  · exact interrupt_held _ _ _
  split
  · exact ends_next (show NormalHeld s from hs)
  · exact fetchExecute_held _

/-! The trace marker. -/

/-- No trace is pending. -/
def Untraced (t : State) : Prop := t.tracePending = false

/-- What the invariant says of the trace marker. -/
def TraceApart (t : State) : Prop := t.tracePending = true → t.inGroup0 = false ∧ t.inGroup1 = false

theorem executes_untraced : Executes Untraced where
  byte _ _ _ _ := id
  drawn _ := id
  data _ _ _ := id
  address s r v h := by simpa [Untraced] using h
  skip _ _ := id
  jumped _ _ := id
  ahead _ _ := id
  heard _ _ := id
  flags _ _ _ _ _ := id
  supervised _ _ := id
  ssp _ _ := id
  queue _ _ := id
  halt _ := id
  reset _ _ _ := rfl
  mark0 _ _ := rfl
  mark1 _ := id
  mark2 _ := id
  sr _ _ := id
  usp _ _ := id
  stop _ := id
  devices _ := id
  settle _ _ := id

theorem Untraced.apart (h : Untraced t) : TraceApart t := fun ht => by
  rw [h] at ht
  cases ht

theorem Ends.imp {o : Outcome} {P Q : State → Prop} (h : Ends o P) (hPQ : ∀ t, P t → Q t) : Ends o Q :=
  fun t ht => hPQ t (h t ht)

/-- A fetch that is aborted outside the group 0 window clears the marker. -/
theorem abortFetch_untraced (h : s.inGroup0 = false) (act : Activity) (e : Abort) : Ends (abortFetch act e s) Untraced := by
  cases e with
  | access k a | fetch k a =>
    refine group0_ends executes_untraced.toClosed (fun h' => ?_) rfl k a act
    rw [h] at h'
    cases h'
  | reset ipl => exact externalReset_ends executes_untraced.toClosed ipl rfl
  | stop f => exact ends_fault f
  | refuse r => exact ends_refused r
  | trap n => exact ends_refused _

/-- The windows of groups 0 and 1 are closed. -/
def Outside (t : State) : Prop := t.inGroup0 = false ∧ t.inGroup1 = false

theorem wordsAhead_keeps_outside (old : State) (n : Nat) : Keeps Outside (wordsAhead old n) :=
  idle_wordsAhead ⟨fun _ => id, fun _ _ => id⟩ (fun _ _ => id) (fun _ => id) old n

theorem refill_apart (h : Outside t) (old : State) (n : Nat) : Ends (refill old n t) TraceApart := by
  unfold refill
  split
  · exact ends_next fun _ => h
  have hw := wordsAhead_keeps_outside old n t h
  split <;> rename_i he <;> rw [he] at hw
  · exact ends_next fun _ => hw
  · exact (abortFetch_untraced (s := State.settle _ _) hw.1 _ _).imp fun _ => Untraced.apart

theorem outside_of_not_or (h : ¬ (t.inGroup0 || t.inGroup1) = true) : Outside t := by
  simpa [Outside, and_comm] using h

theorem finish_apart {o : Outcome} (ho : Ends o Untraced) (old : State) (n : Nat) : Ends (finish old n o) TraceApart := by
  cases o with
  | next t =>
    simp only [finish]
    split
    · exact ends_next (ho t rfl).apart
    next h =>
    split
    · exact ends_next fun _ => outside_of_not_or h
    · exact refill_apart (t := t.withTrace old.sr.t) (outside_of_not_or h) old n
  | fault f => exact ends_fault f
  | refused r => exact ends_refused r

theorem execute_apart (hs : Untraced s) (q : Word × Word) : Ends (execute exec q s) TraceApart := by
  have apart : ∀ {o}, Ends o Untraced → Ends o TraceApart := fun h => h.imp fun _ => Untraced.apart
  have hP := executes_untraced
  unfold execute
  split
  case h_1 => exact apart (group1_keeps hP.toClosed hs _ _)
  case h_2 i n _ =>
    have h := idle_fetchWords hP.idle (n - 1 - lateFetches i) (s.pc + 4) s hs
    split <;> rename_i he <;> rw [he] at h
    · exact apart (abortFetch_keeps hP.toClosed h _ _)
    case h_2 ws t =>
      dsimp only
      split
      · exact finish_apart (exec_keeps hP (hP.ahead _ _ h) _) _ _
      · exact apart (group1_keeps hP.toClosed (hP.ahead _ _ h) _ _)

theorem fetchExecute_apart (hs : Untraced s) : Ends (fetchExecute exec s) TraceApart := by
  have h := idle_openQueue executes_untraced.idle s hs
  unfold fetchExecute
  split <;> rename_i he <;> rw [he] at h
  · exact (abortFetch_keeps executes_untraced.toClosed h _ _).imp fun _ => Untraced.apart
  · exact execute_apart (s := State.begin _ _) h _

theorem boundary_apart (hs : TraceApart s) (p : Sample) : Ends (boundary exec p s) TraceApart := by
  have apart : ∀ {o}, Ends o Untraced → Ends o TraceApart := fun h => h.imp fun _ => Untraced.apart
  have hP := executes_untraced.toClosed
  unfold boundary
  split
  · exact apart (externalReset_ends hP _ rfl)
  split
  · exact ends_next hs
  split
  · exact apart (group1_keeps hP (s := s.withTrace false) rfl _ _)
  next ht =>
  have hu : Untraced s := eq_false_of_ne_true ht
  split
  · exact apart (interrupt_keeps hP (s := s.sampled p.ipl) hu _ _)
  split
  · exact ends_next (show TraceApart s from hs)
  · exact fetchExecute_apart (s := s.sampled p.ipl) hu

/-! The invariant. -/

/-- Memory stays in canonical form. -/
theorem lasting_wf : Lasting fun t => Memory.wf t.mem = true where
  byte _ _ _ _ h := State.wf_putByte h
  drawn _ := id
  data _ _ _ := id
  address t r v h := by simpa using h
  skip _ _ := id
  jumped _ _ := id
  ahead _ _ := id
  heard _ _ h := Memory.wf_writeAll _ h
  flags _ _ _ _ _ := id
  supervised _ _ := id
  ssp _ _ := id
  queue _ _ := id
  halt _ := id
  reset _ _ := id
  mark0 _ := id
  mark1 _ := id
  mark2 _ := id
  sr _ _ := id
  usp _ _ := id
  stop _ := id
  devices _ := id
  drop _ := id
  trace _ _ := id
  begins _ _ := id
  sampled _ _ := id
  settle _ _ := id

/-- Settles O54: one argument for each part of the invariant, along the branches of the boundary. -/
theorem stepKeepsInvariant : Obligations.StepKeepsInvariant := by
  intro s t hs h
  exact ⟨step_keeps lasting_wf (Memory.wf_writeAll _ hs.memory) t h,
    boundary_held (s := s.observe) hs.queue s.sample t h, boundary_apart (s := s.observe) hs.trace s.sample t h⟩

/-! Traces. -/

theorem closed_inGroup0 : Closed fun t => t.inGroup0 = true where
  byte _ _ _ _ := id
  drawn _ := id
  data _ _ _ := id
  address t r v h := by simpa using h
  skip _ _ := id
  jumped _ _ := id
  ahead _ _ := id
  heard _ _ := id
  flags _ _ _ _ _ := id
  supervised _ _ := id
  ssp _ _ := id
  queue _ _ := id
  halt _ := id
  reset _ _ _ := rfl
  mark0 _ _ := rfl
  mark1 _ := id
  mark2 _ := id

/-- Group 0 processing opens its window, if it is not open. -/
theorem group0_inGroup0 (s : State) (k : AccessFault) (a : Access) (act : Activity) :
    Ends (s.group0 k a act) fun t => t.inGroup0 = true :=
  group0_ends closed_inGroup0 id rfl k a act

theorem externalReset_inGroup0 (s : State) (ipl : BitVec 3) : Ends (s.externalReset ipl) fun t => t.inGroup0 = true :=
  externalReset_ends closed_inGroup0 ipl rfl

theorem abortFetch_inGroup0 (act : Activity) (e : Abort) (s : State) :
    Ends (abortFetch act e s) fun t => t.inGroup0 = true := by
  cases e with
  | access k a | fetch k a => exact group0_inGroup0 _ _ _ _
  | reset ipl => exact externalReset_inGroup0 _ _
  | stop f => exact ends_fault f
  | refuse r => exact ends_refused r
  | trap n => exact ends_refused _

/-- The fetches at the end of an instruction leave the marker, or open the group 0 window. -/
theorem refill_tracePending {old u : State} {n : Nat} (h : refill old n t = .next u) (h0 : u.inGroup0 = false) :
    u.tracePending = t.tracePending := by
  unfold refill at h
  split at h
  · cases h
    rfl
  split at h
  · next hw =>
    cases h
    exact (idle_wordsAhead (P := fun u => u.tracePending = t.tracePending) ⟨fun _ => id, fun _ _ => id⟩
      (fun _ _ => id) (fun _ => id) old n).ok rfl hw
  · rw [abortFetch_inGroup0 _ _ _ u h] at h0
    cases h0

/-- Settles O45: the boundary tests the marker before interrupts; the end of an instruction sets it from T at its beginning. -/
theorem traceTaken : Obligations.TraceTaken := by
  constructor
  · intro s hr hh ht u h
    rw [step, stepWith, boundary, if_neg (by simp [hr]), State.observe_run, if_neg hh, State.observe_tracePending,
      if_pos ht]
    exact State.group1_ok h
  · intro s t u n h0 h1 h hu
    simp only [finish, h0, h1, Bool.or_self, Bool.false_eq_true, if_false] at h
    split at h
    · cases h
      rfl
    · exact refill_tracePending h hu

end

/-! PROOF. What an instruction leaves unchanged: the frame of its footprint, for its completion (rule R42) and for its abort (rule R443). -/

/-! Registers by number. -/

theorem State.getR_dataIndex (s : State) (r : Reg) : s.getR (dataIndex r) = s.getD r := by
  have h : ∀ r : Reg, (dataIndex r).val < 8 ∧ Fin.ofNat 8 (dataIndex r).val = r := by decide
  rw [State.getR, if_pos (h r).1, (h r).2]

theorem State.getR_addressIndex (s : State) (r : Reg) : s.getR (addressIndex r) = s.getA r := by
  have h : ∀ r : Reg, ¬ (addressIndex r).val < 8 ∧ Fin.ofNat 8 (addressIndex r).val = r := by decide
  rw [State.getR, if_neg (h r).1, (h r).2]

theorem index_cases : ∀ k : Fin 16, (∃ r, k = dataIndex r) ∨ ∃ r, k = addressIndex r := by decide

theorem dataIndex_inj : ∀ q r : Reg, dataIndex q = dataIndex r → q = r := by decide

theorem addressIndex_inj : ∀ q r : Reg, addressIndex q = addressIndex r → q = r := by decide

theorem dataIndex_ne_addressIndex : ∀ q r : Reg, dataIndex q ≠ addressIndex r := by decide

section
variable {D A : List Reg} {r : Reg}

/-- The data registers of a list of registers by number. -/
theorem of_dataIndex_mem (h : dataIndex r ∈ D.map dataIndex ++ A.map addressIndex) : r ∈ D := by
  rcases List.mem_append.mp h with h | h <;> obtain ⟨q, hq, he⟩ := List.mem_map.mp h
  · exact dataIndex_inj q r he ▸ hq
  · exact absurd he.symm (dataIndex_ne_addressIndex r q)

/-- The address registers of a list of registers by number. -/
theorem of_addressIndex_mem (h : addressIndex r ∈ D.map dataIndex ++ A.map addressIndex) : r ∈ A := by
  rcases List.mem_append.mp h with h | h <;> obtain ⟨q, hq, he⟩ := List.mem_map.mp h
  · exact absurd he (dataIndex_ne_addressIndex q r)
  · exact addressIndex_inj q r he ▸ hq

end

/-! What a footprint leaves. -/

section
variable {i : Instr} {s t : State}

/-- The instructions that write no condition code do not write X. -/
theorem leavesX_of_keepsFlags (h : keepsFlags i = true) : leavesX i = true := by
  unfold leavesX
  split
  case h_7 => rw [h, Bool.or_true]
  all_goals rfl

/-- The address registers outside the footprint, as the old privilege state names them. -/
theorem Touch.getA {F : Footprint} (h : Touch F s t) {r : Reg} (hr : ¬ F.addr r) :
    (t.withSr s.sr).getA r = s.getA r := by
  by_cases h7 : r.val < 7
  · have ha := h.address r h7 hr
    simp only [State.getA, dif_pos h7] at ha ⊢
    exact ha
  · obtain rfl := reg_seven h7
    simp only [State.getA, dif_neg h7, State.withSr_sr, State.withSr_ssp, State.withSr_usp,
      h.usp fun hx => hr hx.1, h.ssp fun hx => hr hx.1]

/-- What an instruction may change leaves what rule R443 says, where it leaves the rest of memory. -/
theorem Touch.leftBy (h : Touch (s.footprint i) s t) (hi : precise i = true) (hc : t.cycles = s.cycles)
    (hm : ∀ k, ¬ (s.footprint i).bytes k → Memory.read t.mem k = Memory.read s.mem k) : LeftBy i s t := by
  have hidden : SameHidden s t := by
    obtain ⟨h1, h2, h3, h4, h5, h6, h7, h8, h9, h10, -, h12⟩ := h.hidden
    exact ⟨h1, h2, h3, h4, h5, h6, h7, h8, h9, h10, hc, h12⟩
  have hplatform : t.platform = s.platform := hidden.2.2.2.2.2.2.2.1
  have addr : ∀ r, addressIndex r ∉ writtenRegs i → (t.withSr s.sr).getA r = s.getA r := fun r hr =>
    h.getA fun hx => hr (hx hi)
  refine
    { hidden := hidden
      registers := fun k hk => ?_
      high := h.high
      inactive := ?_
      system := h.system
      flags := fun hk => ?_
      zeroOnly := fun hk => h.others (show (keepsAllButZ i || keepsFlags i) = true by rw [hk]; rfl)
      extend := h.extend
      memory := fun sp a ha => ?_ }
  · rcases index_cases k with ⟨r, rfl⟩ | ⟨r, rfl⟩
    · rw [State.getR_dataIndex, State.getR_dataIndex]
      exact h.data r fun hx => hk (hx hi)
    · rw [State.getR_addressIndex, State.getR_addressIndex]
      exact addr r hk
  · split
    · next hs => exact h.usp fun hx => by cases hs.symm.trans hx.2
    · next hs => exact h.ssp fun hx => hs hx.2
  · have hx : t.sr.x = s.sr.x := h.extend (leavesX_of_keepsFlags hk)
    obtain ⟨hn, hv, hcc⟩ := h.others (show (keepsAllButZ i || keepsFlags i) = true by rw [hk, Bool.or_true])
    have hz := h.zero hk
    simp only [hx, hn, hv, hcc, hz]
  · rw [State.byteAt, State.byteAt, hplatform]
    refine hm _ fun hx => ?_
    obtain ⟨w, hw, j, hj, he⟩ := hx hi
    exact ha w hw j hj he

variable {D A : List Reg}

theorem LeftBy.sameData (h : LeftBy i s t) (hw : writtenRegs i = D.map dataIndex ++ A.map addressIndex) : SameData s t D :=
  fun r hr => by
    have h' := h.registers (dataIndex r) fun hx => hr (of_dataIndex_mem (hw ▸ hx))
    rwa [State.getR_dataIndex, State.getR_dataIndex] at h'

/-- The address registers, as the old privilege state names them. -/
theorem LeftBy.sameAddress (h : LeftBy i s t) (hw : writtenRegs i = D.map dataIndex ++ A.map addressIndex) :
    SameAddress s (t.withSr s.sr) A := by
  refine ⟨fun r hr => ?_, h.inactive⟩
  have h' := h.registers (addressIndex r) fun hx => hr (of_addressIndex_mem (hw ▸ hx))
  rwa [State.getR_addressIndex, State.getR_addressIndex] at h'

theorem sameAddress_of_sameSystem (h : SameAddress s (t.withSr s.sr) A) (hs : SameSystem s t) : SameAddress s t A :=
  ⟨fun r hr => (State.getA_withSr t s.sr r hs.2.1.symm).symm.trans (h.1 r hr), h.2⟩

/-- The whole status register, where neither condition codes nor the system byte are written. -/
theorem LeftBy.sr (h : LeftBy i s t) (hf : keepsFlags i = true) (hs : writesSystem i = false) : t.sr = s.sr := by
  obtain ⟨ht, hs', hi⟩ := h.system hs
  rw [← h.flags hf, ← ht, ← hs', ← hi]

theorem LeftBy.sameMemory (h : LeftBy i s t) (hst : s.stores i = []) : SameMemory s t := fun sp addr =>
  h.memory sp addr (by simp [hst])

theorem LeftBy.sameMemoryOutside (h : LeftBy i s t) {sp : Space} {addr : Long} {n : Nat} (hst : s.stores i = [(sp, addr, n)]) :
    SameMemoryOutside s t sp addr n := fun sp' addr' ha =>
  h.memory sp' addr' (by simpa [hst] using ha)

/-! An instruction that completes. -/

/-- The instructions that take an exception by their rule are not among those that complete. -/
theorem completes_of_mayTrap {n : BitVec 8} (h : mayTrap i n) : completes i = false := by
  unfold mayTrap at h
  split at h
  case h_6 => exact h.elim
  all_goals rfl

/-- A body that answers a next state, with no bus or address error taken and nothing from outside, has run to its end. -/
theorem conclude_touch {F : Footprint} {m : M Unit} {u : State} (hr : Run F m u) (ht : ∀ n, ¬ F.traps n) (hc : u.cycles = [])
    (h : conclude s (m.run u) = .next t) (h0 : t.inGroup0 = false) : Touch F u t := by
  cases hm : m.run u with
  | ok a v =>
    rw [hm] at h
    cases h
    exact hr.touch.1 a t hm
  | error e v =>
    rw [hm] at h
    have closed := fun k a act => group0_inGroup0 (s.settle v) k a act t
    rcases hr.raises hm with he | ⟨c, hc', _⟩
    · cases e with
      | access k a | fetch k a =>
        rw [closed _ _ _ h] at h0
        cases h0
      | reset ipl => exact he.elim
      | trap n => exact absurd he (ht n)
      | stop f | refuse r => cases h
    · rw [hc] at hc'
      cases hc'

/-- An instruction that completes changes what its footprint allows. -/
theorem exec_touch (hi : completes i = true) (hp : isPrivileged i = true → s.sr.s = true) (hc : s.cycles = [])
    (h : exec i s = .next t) (h0 : t.inGroup0 = false) : Touch (s.footprint i) s t := by
  have opened : Touch (s.footprint i) s s.opened := (Update.skip 1).touch
  have traps : ∀ n, ¬ (s.footprint i).traps n := fun n hn => by
    rw [completes_of_mayTrap hn] at hi
    cases hi
  cases means i with
  | plain body he hr _ =>
    rw [he, instr] at h
    exact opened.trans (conclude_touch (hr s) traps hc h h0)
  | guarded body hp' he hr _ =>
    rw [he, privileged, if_pos (hp hp'), instr] at h
    exact opened.trans (conclude_touch (hr s (hp hp')) traps hc h h0)
  | line n hn hi' he _ =>
    rw [hi] at hi'
    cases hi'
  | silent hs => rcases hs with rfl | ⟨w, rfl⟩ | ⟨an, rfl⟩ <;> cases hi

/-- What an instruction that completes leaves unchanged (rule R42). -/
theorem exec_leftBy (hi : completes i = true) (hpr : precise i = true) (hp : isPrivileged i = true → s.sr.s = true)
    (hc : s.cycles = []) (h : exec i s = .next t) (h0 : t.inGroup0 = false) :
    LeftBy i s t ∧ (lateFetches i = 0 → transfers i = false → t.queue = s.queue) := by
  have touch := exec_touch hi hp hc h h0
  have hc' : t.cycles = [] := List.eq_nil_of_suffix_nil (hc ▸ touch.cycles)
  refine ⟨touch.leftBy hpr (hc'.trans hc.symm) (touch.memory (by simp [hc])), fun hl ht => ?_⟩
  rcases touch.queue (show (lateFetches i != 0) = false by rw [hl]; rfl) with hq | ⟨hj, -⟩
  · exact hq
  · rw [show (s.footprint i).jumps = transfers i from rfl, ht] at hj
    cases hj

/-! Instructions that store nothing. -/

theorem refer_read_filter (sz : Size) (loc : Loc) : (loc.refer sz false).filter (·.write) = [] := by
  cases loc with
  | _ => rfl

/-- A read of an operand stores nothing. -/
theorem stores_of_reads (hst : s.stores i = ((s.references i).filter (·.write)).map fun r => (r.sp, r.addr, r.sz.bytes))
    {l : List Reference} (href : s.references i = l) (hl : l.filter (·.write) = []) : s.stores i = [] := by
  rw [hst, href, hl]
  rfl

/-- What the classes of instructions that write registers only have in common. -/
structure Plain (i : Instr) : Prop where
  completes : completes i = true
  form : plainForm i = true
  privilege : isPrivileged i = false
  system : writesSystem i = false
  late : lateFetches i = 0
  stays : transfers i = false
  stores : ∀ s : State, s.stores i = []

theorem plain_of_dataDest {dn : Reg} {ea : Ea} (h : dataDest i = some (dn, ea)) : Plain i := by
  cases i with
  | addToReg | subToReg | andToReg | orToReg | mulu | muls =>
    exact ⟨rfl, rfl, rfl, rfl, rfl, rfl, fun s => stores_of_reads (l := _ ++ []) rfl rfl (by simp [refer_read_filter])⟩
  | _ => cases h <;> exact ⟨rfl, rfl, rfl, rfl, rfl, rfl, fun s => stores_of_reads rfl rfl rfl⟩

theorem plain_of_addressDest {an : Reg} {ea : Ea} (h : addressDest i = some (an, ea)) : Plain i := by
  cases i with
  | adda | suba | moveaW | moveaL =>
    exact ⟨rfl, rfl, rfl, rfl, rfl, rfl, fun s => stores_of_reads (l := _ ++ []) rfl rfl (by simp [refer_read_filter])⟩
  | addq d sz ea | subq d sz ea =>
    cases ea <;> cases h
    exact ⟨rfl, rfl, rfl, rfl, rfl, rfl, fun s => stores_of_reads (l := _ ++ []) rfl rfl (by simp [refer_read_filter])⟩
  | _ => cases h <;> exact ⟨rfl, rfl, rfl, rfl, rfl, rfl, fun s => stores_of_reads rfl rfl rfl⟩

theorem plain_of_compareOnly {l : List Reg} (h : compareOnly i = some l) : Plain i := by
  cases i with
  | cmpm sz ax ay =>
    exact ⟨rfl, rfl, rfl, rfl, rfl, rfl, fun s => stores_of_reads (l := _ ++ _ ++ []) rfl rfl (by simp [refer_read_filter])⟩
  | cmp | cmpa | cmpi | tst | btstStatic | btstDynamic =>
    exact ⟨rfl, rfl, rfl, rfl, rfl, rfl, fun s => stores_of_reads (l := _ ++ []) rfl rfl (by simp [refer_read_filter])⟩
  | _ => cases h

theorem Plain.precise (h : Plain i) : precise i = true := by
  rw [Machine.precise, h.form, Bool.or_true]

/-- The whole frame of such an instruction. -/
theorem Plain.frame (hi : Plain i) (hw : writtenRegs i = D.map dataIndex ++ A.map addressIndex) (hc : s.cycles = [])
    (h : exec i s = .next t) (h0 : t.inGroup0 = false) :
    LeftBy i s t ∧ SameData s t D ∧ SameAddress s t A ∧ SameSystem s t ∧ SameHidden s t ∧ t.queue = s.queue ∧
      SameMemory s t := by
  obtain ⟨left, queue⟩ := exec_leftBy hi.completes hi.precise (fun hp => by rw [hi.privilege] at hp; cases hp) hc h h0
  have system := left.system hi.system
  exact ⟨left, left.sameData hw, sameAddress_of_sameSystem (left.sameAddress hw) system, system, left.hidden,
    queue hi.late hi.stays, left.sameMemory (hi.stores s)⟩

theorem keepsFlags_of_addressDest {an : Reg} {ea : Ea} (h : addressDest i = some (an, ea)) : keepsFlags i = true := by
  cases i with
  | addq d sz ea | subq d sz ea => cases ea <;> cases h <;> rfl
  | _ => cases h <;> rfl

theorem leavesX_of_compareOnly {l : List Reg} (h : compareOnly i = some l) : leavesX i = true := by
  cases i with
  | _ => cases h <;> rfl

theorem leavesX_of_keepsX (h : keepsX i = true) : leavesX i = true := by
  unfold leavesX
  split
  case h_7 => rw [h, Bool.true_or]
  all_goals rfl

end

/-- Settles O46: the data register and what the operand's mode updates are the registers of the footprint. -/
theorem frameOfDataDestinations : Obligations.FrameOfDataDestinations := by
  intro s t i dn ea hi hc _ h h0
  obtain ⟨left, data, addr, system, hidden, queue, memory⟩ :=
    (plain_of_dataDest hi).frame (D := [dn]) (A := sideRegs ea) (writtenRegs_of_dataDest hi) hc h h0
  exact ⟨data, addr, system, fun hx => left.extend (leavesX_of_keepsX hx), hidden, queue, memory⟩

/-- Settles O47: no condition code is in the footprint. -/
theorem frameOfAddressDestinations : Obligations.FrameOfAddressDestinations := by
  intro s t i an ea hi hc _ h h0
  obtain ⟨left, data, addr, system, hidden, queue, memory⟩ :=
    (plain_of_addressDest hi).frame (D := []) (A := an :: sideRegs ea) (writtenRegs_of_addressDest hi) hc h h0
  exact ⟨data, addr, left.sr (keepsFlags_of_addressDest hi) (plain_of_addressDest hi).system, hidden, queue, memory⟩

/-- Settles O48: of the registers only those of the operands' modes are in the footprint. -/
theorem frameOfCompares : Obligations.FrameOfCompares := by
  intro s t i l hi hc _ h h0
  obtain ⟨left, data, addr, system, hidden, queue, memory⟩ :=
    (plain_of_compareOnly hi).frame (D := []) (A := l) (writtenRegs_of_compareOnly hi) hc h h0
  exact ⟨data, addr, system, left.extend (leavesX_of_compareOnly hi), left.zeroOnly, hidden, queue, memory⟩

/-! PROOF. The frames of the instructions that replace operands, and of those that control the program and the system. -/

section
variable {i : Instr} {s t : State} {D A : List Reg}

/-! Frames with stores. -/

/-- Where the last reference of an instruction is its only write, memory outside that location is unchanged. -/
theorem LeftBy.sameMemoryBut (h : LeftBy i s t) {sz : Size} {loc : Loc} {l : List Reference}
    (hst : s.stores i = ((s.references i).filter (·.write)).map fun r => (r.sp, r.addr, r.sz.bytes))
    (href : s.references i = l ++ loc.refer sz true) (hl : l.filter (·.write) = []) : SameMemoryBut s t sz loc := by
  rw [href, List.filter_append, hl, List.nil_append] at hst
  cases loc with
  | mem sp addr pre => exact h.sameMemoryOutside hst
  | dreg | areg | imm => exact h.sameMemory hst

/-- The frame of an instruction that completes, address registers as the old privilege state names them. -/
theorem exec_frame (hi : completes i = true) (hpr : precise i = true) (hp : isPrivileged i = true → s.sr.s = true)
    (hw : writtenRegs i = D.map dataIndex ++ A.map addressIndex) (hc : s.cycles = [])
    (h : exec i s = .next t) (h0 : t.inGroup0 = false) :
    LeftBy i s t ∧ SameData s t D ∧ SameAddress s (t.withSr s.sr) A ∧ SameHidden s t := by
  obtain ⟨left, -⟩ := exec_leftBy hi hpr hp hc h h0
  exact ⟨left, left.sameData hw, left.sameAddress hw, left.hidden⟩

/-- The same of an instruction that leaves the system byte. -/
theorem exec_frame_user (hi : completes i = true) (hpr : precise i = true) (hp : isPrivileged i = true → s.sr.s = true)
    (hsys : writesSystem i = false) (hw : writtenRegs i = D.map dataIndex ++ A.map addressIndex) (hc : s.cycles = [])
    (h : exec i s = .next t) (h0 : t.inGroup0 = false) :
    LeftBy i s t ∧ SameData s t D ∧ SameAddress s t A ∧ SameSystem s t ∧ SameHidden s t := by
  obtain ⟨left, data, addr, hidden⟩ := exec_frame hi hpr hp hw hc h h0
  exact ⟨left, data, sameAddress_of_sameSystem addr (left.system hsys), left.system hsys, hidden⟩

theorem precise_of_wf (h : i.wf = true) : precise i = true := by
  rw [precise, h, Bool.true_or]

theorem precise_of_plainForm (h : plainForm i = true) : precise i = true := by
  rw [precise, h, Bool.or_true]

/-- No privilege is needed. -/
theorem unprivileged (h : isPrivileged i = false) : isPrivileged i = true → s.sr.s = true := fun hp => by
  rw [h] at hp
  cases hp

/-! Operands replaced. -/

/-- What the instructions that replace an operand have in common. -/
theorem operandDest_kind {n : Nat} {sz : Size} {ea : Ea} (h : operandDest i = some (n, sz, ea)) :
    completes i = true ∧ isPrivileged i = false ∧ writesSystem i = false ∧ lateFetches i = 0 ∧ transfers i = false := by
  cases i with
  | addq d sz ea | subq d sz ea => cases ea <;> cases h <;> exact ⟨rfl, rfl, rfl, rfl, rfl⟩
  | _ => cases h <;> exact ⟨rfl, rfl, rfl, rfl, rfl⟩

theorem keepsFlags_of_keepsAll (h : keepsAll i = true) : keepsFlags i = true := by
  cases i with
  | scc | moveFromSr => rfl
  | _ => cases h

end

/-- Settles O49: the operand's register or bytes are the only ones of the footprint besides what its mode updates. -/
theorem frameOfOperandDestinations : Obligations.FrameOfOperandDestinations := by
  intro s t i n sz ea hi hwf hc _ h h0
  obtain ⟨hw, -, href, hst⟩ := operandDest_facts hi
  obtain ⟨hcompl, hpriv, hsys, hlate, hstays⟩ := operandDest_kind hi
  have hpr := precise_of_wf hwf
  obtain ⟨left, data, addr, system, hidden⟩ := exec_frame_user hcompl hpr (unprivileged hpriv) hsys hw hc h h0
  exact ⟨data, addr, system, fun hx => left.extend (leavesX_of_keepsX hx), left.zeroOnly,
    fun hk => left.sr (keepsFlags_of_keepsAll hk) hsys, hidden,
    (exec_leftBy hcompl hpr (unprivileged hpriv) hc h h0).2 hlate hstays,
    left.sameMemoryBut (hst s) (href s) (refer_read_filter _ _)⟩

section
variable {i : Instr} {s t : State} {D A : List Reg}

/-- The frame of a MOVE. -/
theorem move_frame {sz : Size} {src dst : Ea} (hi : completes i = true) (hwf : i.wf = true) (hpriv : isPrivileged i = false)
    (hsys : writesSystem i = false) (hx : leavesX i = true) (hlate : lateFetches i = eaWords sz dst)
    (hstays : transfers i = false)
    (hw : writtenRegs i = (destRegs dst).map dataIndex ++ (sideRegs src ++ sideRegs dst).map addressIndex)
    (hst : s.stores i = ((s.references i).filter (·.write)).map fun r => (r.sp, r.addr, r.sz.bytes))
    (href : s.references i = s.referMove sz src dst) (hc : s.cycles = []) (h : exec i s = .next t) (h0 : t.inGroup0 = false) :
    SameData s t (destRegs dst) ∧ SameAddress s t (sideRegs src ++ sideRegs dst) ∧ SameSystem s t ∧
      t.sr.x = s.sr.x ∧ SameHidden s t ∧ (eaWords sz dst = 0 → t.queue = s.queue) ∧
      SameMemoryBut s t sz ((s.resolved 0 sz src).resolve sz dst).1 := by
  have hpr := precise_of_wf hwf
  obtain ⟨left, data, addr, system, hidden⟩ := exec_frame_user hi hpr (unprivileged hpriv) hsys hw hc h h0
  exact ⟨data, addr, system, left.extend hx, hidden,
    fun h' => (exec_leftBy hi hpr (unprivileged hpriv) hc h h0).2 (hlate.trans h') hstays,
    left.sameMemoryBut hst href (refer_read_filter _ _)⟩

/-- The frame of a two-register form. -/
theorem pair_frame {sz : Size} {mem : Bool} {rx ry : Reg} (hi : completes i = true) (hpr : precise i = true)
    (hpriv : isPrivileged i = false) (hsys : writesSystem i = false) (hlate : lateFetches i = 0)
    (hstays : transfers i = false)
    (hw : writtenRegs i = if mem then [addressIndex rx, addressIndex ry] else [dataIndex rx])
    (hst : s.stores i = ((s.references i).filter (·.write)).map fun r => (r.sp, r.addr, r.sz.bytes))
    (href : s.references i = s.referPair sz (pairEa mem ry) (pairEa mem rx) true) (hc : s.cycles = [])
    (h : exec i s = .next t) (h0 : t.inGroup0 = false) :
    SameData s t (if mem then [] else [rx]) ∧ SameAddress s t (if mem then [rx, ry] else []) ∧ SameSystem s t ∧
      SameHidden s t ∧ t.queue = s.queue ∧
      SameMemoryBut s t sz ((s.resolved 0 sz (pairEa mem ry)).resolve sz (pairEa mem rx)).1 := by
  have hw' : writtenRegs i = (if mem then [] else [rx]).map dataIndex ++ (if mem then [rx, ry] else []).map addressIndex := by
    rw [hw]
    cases mem <;> rfl
  obtain ⟨left, data, addr, system, hidden⟩ := exec_frame_user hi hpr (unprivileged hpriv) hsys hw' hc h h0
  exact ⟨data, addr, system, hidden, (exec_leftBy hi hpr (unprivileged hpriv) hc h h0).2 hlate hstays,
    left.sameMemoryBut hst href (by rw [List.filter_append, refer_read_filter, refer_read_filter]; rfl)⟩

end

/-- Settles O50: the destination is resolved after the source, and the footprint names its bytes. -/
theorem frameOfMovesAndPairs : Obligations.FrameOfMovesAndPairs := by
  intro s t hc _ h0
  refine ⟨fun sz src dst i hi hwf h => ?_, fun sz mem rx ry i hi h => ?_⟩
  · rcases hi with ⟨rfl, rfl⟩ | ⟨rfl, rfl⟩ | ⟨rfl, rfl⟩ <;>
      exact move_frame rfl hwf rfl rfl rfl rfl rfl rfl rfl rfl hc h h0
  · rcases hi with rfl | rfl | ⟨rfl, rfl | rfl⟩ <;>
      exact pair_frame rfl (precise_of_plainForm rfl) rfl rfl rfl rfl rfl rfl rfl hc h h0

/-! Program control, the stack, EXG and MOVEP. -/

section
variable {i : Instr} {s t : State} {D A : List Reg}

/-- The frame of an instruction that writes no condition code either. -/
theorem exec_frame_keepsFlags (hi : completes i = true) (hpr : precise i = true) (hpriv : isPrivileged i = true → s.sr.s = true)
    (hsys : writesSystem i = false) (hf : keepsFlags i = true)
    (hw : writtenRegs i = D.map dataIndex ++ A.map addressIndex) (hc : s.cycles = [])
    (h : exec i s = .next t) (h0 : t.inGroup0 = false) :
    LeftBy i s t ∧ SameData s t D ∧ SameAddress s t A ∧ t.sr = s.sr ∧ SameHidden s t := by
  obtain ⟨left, data, addr, -, hidden⟩ := exec_frame_user hi hpr hpriv hsys hw hc h h0
  exact ⟨left, data, addr, left.sr hf hsys, hidden⟩

theorem SameData.mono {D' : List Reg} (h : SameData s t D) (hD : D ⊆ D') : SameData s t D' :=
  fun r hr => h r fun hx => hr (hD hx)

theorem SameAddress.mono {A' : List Reg} (h : SameAddress s t A) (hA : A ⊆ A') : SameAddress s t A' :=
  ⟨fun r hr => h.1 r fun hx => hr (hA hx), h.2⟩

/-- The high word, where the low word only is written. -/
theorem high_of_merge {v w : Long} (h : Size.word.merge v 0 = Size.word.merge w 0) :
    v.extractLsb' 16 16 = w.extractLsb' 16 16 := by
  have high : ∀ u : Long, (Size.word.merge u 0).extractLsb' 16 16 = u.extractLsb' 16 16 := fun _ =>
    BitVec.extractLsb'_append_eq_left
  rw [← high v, h, high]

/-- An instruction that transfers control and stores nothing. -/
theorem control_frame (hi : completes i = true) (hwf : i.wf = true) (hpriv : isPrivileged i = false)
    (hsys : writesSystem i = false) (hf : keepsFlags i = true) (hw : writtenRegs i = []) (hst : s.stores i = [])
    (hc : s.cycles = []) (h : exec i s = .next t) (h0 : t.inGroup0 = false) :
    SameData s t [] ∧ SameAddress s t [] ∧ t.sr = s.sr ∧ SameHidden s t ∧ SameMemory s t := by
  obtain ⟨left, data, addr, sr, hidden⟩ :=
    exec_frame_keepsFlags (D := []) (A := []) hi (precise_of_wf hwf) (unprivileged hpriv) hsys hf hw hc h h0
  exact ⟨data, addr, sr, hidden, left.sameMemory hst⟩

/-- An instruction that pushes a long word. -/
theorem push_frame (hi : completes i = true) (hpr : precise i = true) (hpriv : isPrivileged i = false)
    (hsys : writesSystem i = false) (hf : keepsFlags i = true) (hw : writtenRegs i = A.map addressIndex)
    (hst : s.stores i = [(s.dataSpace, s.getA 7 - 4, 4)])
    (hc : s.cycles = []) (h : exec i s = .next t) (h0 : t.inGroup0 = false) :
    SameData s t [] ∧ SameAddress s t A ∧ t.sr = s.sr ∧ SameHidden s t ∧
      SameMemoryOutside s t s.dataSpace (s.getA 7 - 4) 4 := by
  obtain ⟨left, data, addr, sr, hidden⟩ :=
    exec_frame_keepsFlags (D := []) hi hpr (unprivileged hpriv) hsys hf hw hc h h0
  exact ⟨data, addr, sr, hidden, left.sameMemoryOutside hst⟩

/-- The frame of EXG. -/
theorem exg_frame {rx ry : Reg} (hi : completes i = true) (hpr : precise i = true) (hpriv : isPrivileged i = false)
    (hsys : writesSystem i = false) (hf : keepsFlags i = true) (hD : D ⊆ [rx, ry]) (hA : A ⊆ [rx, ry])
    (hw : writtenRegs i = D.map dataIndex ++ A.map addressIndex) (hst : s.stores i = [])
    (hc : s.cycles = []) (h : exec i s = .next t) (h0 : t.inGroup0 = false) :
    SameData s t [rx, ry] ∧ SameAddress s t [rx, ry] ∧ t.sr = s.sr ∧ SameHidden s t ∧ SameMemory s t := by
  obtain ⟨left, data, addr, sr, hidden⟩ := exec_frame_keepsFlags hi hpr (unprivileged hpriv) hsys hf hw hc h h0
  exact ⟨data.mono hD, addr.mono hA, sr, hidden, left.sameMemory hst⟩

/-- The frame of MOVEP. -/
theorem movep_frame {toMem long : Bool} {dn an : Reg} {d : Word} (hc : s.cycles = [])
    (h : exec (.movep toMem long dn an d) s = .next t) (h0 : t.inGroup0 = false) :
    SameData s t (if toMem then [] else [dn]) ∧ SameAddress s t [] ∧ t.sr = s.sr ∧ SameHidden s t ∧
      ∀ sp addr, (toMem = true → ∀ k, k < (if long then 4 else 2) → s.platform.key sp addr ≠
          s.platform.key s.dataSpace (s.getA an + d.signExtend 32 + BitVec.ofNat 32 (2 * k))) →
        t.byteAt sp addr = s.byteAt sp addr := by
  obtain ⟨left, data, addr, sr, hidden⟩ := exec_frame_keepsFlags (D := if toMem then [] else [dn]) (A := [])
    (i := .movep toMem long dn an d) rfl (precise_of_plainForm rfl) (unprivileged rfl) rfl rfl (by cases toMem <;> rfl) hc h h0
  refine ⟨data, addr, sr, hidden, fun sp a ha => left.memory sp a fun w hw k hk => ?_⟩
  cases toMem with
  | false =>
    have hst : s.stores (.movep false long dn an d) = [] :=
      stores_of_reads rfl rfl rfl
    rw [hst] at hw
    cases hw
  | true =>
    obtain ⟨j, hj, rfl⟩ := List.mem_map.mp hw
    obtain rfl : k = 0 := Nat.lt_one_iff.mp hk
    have hj' : j < if long then 4 else 2 := by
      cases long <;> exact List.mem_range.mp hj
    simpa using ha rfl j hj'

end

/-- Settles O51: the footprints of control transfers hold no register but the stack pointer and the counter, and no byte but the pushed ones. -/
theorem frameOfControlAndStack : Obligations.FrameOfControlAndStack := by
  intro s t hc _ h0
  refine ⟨fun i hi hwf h => ?_, fun c dn d h => ?_, fun i hi hwf h => ?_, fun an d h => ?_, fun h => ?_, fun h => ?_,
    fun an h => ?_, fun rx ry i hi h => ?_, fun toMem long dn an d h => movep_frame hc h h0⟩
  · rcases hi with rfl | ⟨c, d, rfl⟩ | ⟨d, rfl⟩ | ⟨ea, rfl⟩ <;> exact control_frame rfl hwf rfl rfl rfl rfl rfl hc h h0
  · obtain ⟨left, data, addr, sr, hidden⟩ := exec_frame_keepsFlags (D := [dn]) (A := []) (i := .dbcc c dn d) rfl
      (precise_of_plainForm rfl) (unprivileged rfl) rfl rfl rfl hc h h0
    exact ⟨data, high_of_merge (left.high dn), addr, sr, hidden, left.sameMemory rfl⟩
  · rcases hi with ⟨d, rfl⟩ | ⟨ea, rfl⟩ | ⟨ea, rfl⟩ <;>
      exact push_frame (A := [7]) rfl (precise_of_wf hwf) rfl rfl rfl rfl rfl hc h h0
  · exact push_frame (A := [7, an]) rfl (precise_of_plainForm rfl) rfl rfl rfl rfl rfl hc h h0
  · obtain ⟨left, data, addr, sr, hidden⟩ := exec_frame_keepsFlags (D := []) (A := [7]) (i := .rts) rfl
      (precise_of_plainForm rfl) (unprivileged rfl) rfl rfl rfl hc h h0
    exact ⟨data, addr, sr, hidden, left.sameMemory rfl⟩
  · obtain ⟨left, data, addr, system, hidden⟩ := exec_frame_user (D := []) (A := [7]) (i := .rtr) rfl
      (precise_of_plainForm rfl) (unprivileged rfl) rfl rfl hc h h0
    exact ⟨data, addr, system, hidden, left.sameMemory rfl⟩
  · obtain ⟨left, data, addr, sr, hidden⟩ := exec_frame_keepsFlags (D := []) (A := [7, an]) (i := .unlk an) rfl
      (precise_of_plainForm rfl) (unprivileged rfl) rfl rfl rfl hc h h0
    exact ⟨data, addr, sr, hidden, left.sameMemory rfl⟩
  · rcases hi with rfl | rfl | rfl
    · exact exg_frame (D := [rx, ry]) (A := []) rfl (precise_of_plainForm rfl) rfl rfl rfl (List.Subset.refl _)
        (List.nil_subset _) rfl rfl hc h h0
    · exact exg_frame (D := []) (A := [rx, ry]) rfl (precise_of_plainForm rfl) rfl rfl rfl (List.nil_subset _)
        (List.Subset.refl _) rfl rfl hc h h0
    · exact exg_frame (D := [rx]) (A := [ry]) rfl (precise_of_plainForm rfl) rfl rfl rfl (by simp) (by simp) rfl rfl hc h h0

section
variable {s t : State}

/-- An address register is read from the register file, the stack pointers and S. -/
theorem getA_congr {r : Reg} (ha : t.a = s.a) (hu : t.usp = s.usp) (hp : t.ssp = s.ssp) (hs : t.sr.s = s.sr.s) :
    t.getA r = s.getA r := by
  simp only [State.getA, ha, hu, hp, hs]

theorem getD_congr {r : Reg} (hd : t.d = s.d) : t.getD r = s.getD r := by
  simp only [State.getD, hd]

theorem byteAt_congr {sp : Space} {addr : Long} (hm : t.mem = s.mem) (hp : t.platform = s.platform) :
    t.byteAt sp addr = s.byteAt sp addr := by
  simp only [State.byteAt, hm, hp]

theorem stop_frame {w : Word} (hs : s.sr.s = true) (h : exec (.stop w) s = .next t) :
    SameData s t [] ∧ SameAddress s (t.withSr s.sr) [] ∧ SameHidden s.stop t ∧ SameMemory s t := by
  rw [exec_stop, if_pos hs] at h
  generalize Sr.ofWord w = q at h
  cases h
  refine ⟨fun _ _ => getD_congr rfl, ⟨fun _ _ => getA_congr rfl rfl rfl rfl, ?_⟩,
    ⟨rfl, rfl, rfl, rfl, rfl, rfl, rfl, rfl, rfl, rfl, rfl, rfl⟩, fun _ _ => byteAt_congr rfl rfl⟩
  split <;> rfl

theorem reset_frame (hs : s.sr.s = true) (h : exec .reset s = .next t) :
    SameData s t [] ∧ SameAddress s t [] ∧ t.sr = s.sr ∧ SameHidden s.resetDevices t ∧ SameMemory s t := by
  rw [exec_reset, if_pos hs] at h
  cases h
  refine ⟨fun _ _ => rfl, ⟨fun _ _ => rfl, ?_⟩, rfl, ⟨rfl, rfl, rfl, rfl, rfl, rfl, rfl, rfl, rfl, rfl, rfl, rfl⟩, fun _ _ => rfl⟩
  split <;> rfl

theorem moveToUsp_frame {an : Reg} (hs : s.sr.s = true) (h : exec (.moveToUsp an) s = .next t) :
    t.d = s.d ∧ t.a = s.a ∧ t.ssp = s.ssp ∧ t.sr = s.sr ∧ SameHidden s t ∧ SameMemory s t := by
  rw [exec_moveToUsp, if_pos hs] at h
  cases h
  exact ⟨rfl, rfl, rfl, rfl, ⟨rfl, rfl, rfl, rfl, rfl, rfl, rfl, rfl, rfl, rfl, rfl, rfl⟩, fun _ _ => rfl⟩

end

/-- Settles O52: the system instructions by their footprints, STOP, RESET and MOVE to USP by their whole effect. -/
theorem frameOfSystemControl : Obligations.FrameOfSystemControl := by
  intro s t hc _ h0
  refine ⟨fun b i hi h => ?_, fun ea h => ?_, fun hs => ⟨fun w i hi h => ?_, fun w h => ?_, fun ea h => ?_, fun an h => ?_,
    fun an h => ?_, fun h => ?_, fun h => ?_⟩⟩
  · rcases hi with rfl | rfl | rfl <;>
    · obtain ⟨left, data, addr, system, hidden⟩ := exec_frame_user (D := []) (A := []) rfl (precise_of_plainForm rfl)
        (unprivileged rfl) rfl rfl hc h h0
      exact ⟨data, addr, system, hidden, left.sameMemory rfl⟩
  · obtain ⟨left, data, addr, system, hidden⟩ := exec_frame_user (D := []) (A := sideRegs ea) (i := .moveToCcr ea) rfl
      (precise_of_plainForm rfl) (unprivileged rfl) rfl rfl hc h h0
    exact ⟨data, addr, system, hidden, left.sameMemory (stores_of_reads (l := _ ++ []) rfl rfl (by simp [refer_read_filter]))⟩
  · rcases hi with rfl | rfl | rfl <;>
    · obtain ⟨left, data, addr, hidden⟩ := exec_frame (D := []) (A := []) rfl (precise_of_plainForm rfl)
        (fun _ => hs) rfl hc h h0
      exact ⟨data, addr, hidden, left.sameMemory rfl⟩
  · exact stop_frame hs h
  · obtain ⟨left, data, addr, hidden⟩ := exec_frame (D := []) (A := sideRegs ea) (i := .moveToSr ea) rfl
      (precise_of_plainForm rfl) (fun _ => hs) rfl hc h h0
    exact ⟨data, addr, hidden, left.sameMemory (stores_of_reads rfl (if_pos hs) (refer_read_filter _ _))⟩
  · exact moveToUsp_frame hs h
  · obtain ⟨left, data, addr, sr, hidden⟩ := exec_frame_keepsFlags (D := []) (A := [an]) (i := .moveFromUsp an) rfl
      (precise_of_plainForm rfl) (fun _ => hs) rfl rfl rfl hc h h0
    exact ⟨data, addr, sr, hidden, left.sameMemory rfl⟩
  · exact reset_frame hs h
  · obtain ⟨left, data, addr, hidden⟩ := exec_frame (D := []) (A := [7]) (i := .rte) rfl
      (precise_of_plainForm rfl) (fun _ => hs) rfl hc h h0
    exact ⟨data, addr, hidden, left.sameMemory (stores_of_reads rfl (if_pos hs) (refer_read_filter _ _))⟩

/-! PROOF. What an aborted instruction leaves (rule R443), and external reset at a bus cycle of an instruction (rule R465). -/

/-! The references of an instruction depend on the registers only. -/

/-- `s` with other inputs of bus cycles to come and another memory. -/
def State.amid (s : State) (cs : List Cycle) (m : Memory) : State := { s with cycles := cs, mem := m }

/-- The references to the operand that an instruction reads first, and that it may replace. -/
def State.referOperand (s : State) (i : Instr) : List Reference :=
  match readOperand i with
  | some (n, sz, ea) =>
    (s.loc n sz ea).refer sz false ++ (if (operandDest i).isSome then (s.loc n sz ea).refer sz true else [])
  | none => []

section
variable (s : State) (cs : List Cycle) (m : Memory)

theorem State.putA_amid (r : Reg) (v : Long) : (s.amid cs m).putA r v = (s.putA r v).amid cs m := by
  unfold State.putA
  split
  · rfl
  · change (if s.sr.s = true then _ else _) = _
    split <;> rfl

/-- Where an operand is depends on the registers only. -/
theorem State.resolve_amid (sz : Size) (ea : Ea) :
    (s.amid cs m).resolve sz ea = ((s.resolve sz ea).1, (s.resolve sz ea).2.amid cs m) := by
  cases ea with
  | postInc r | preDec r => exact Prod.ext rfl (State.putA_amid _ _ _ _ _)
  | _ => rfl

theorem State.loc_amid (n : Nat) (sz : Size) (ea : Ea) : (s.amid cs m).loc n sz ea = s.loc n sz ea := by
  rw [State.loc, show (s.amid cs m).after n = (s.after n).amid cs m from rfl, State.resolve_amid]
  rfl

theorem State.resolved_amid (n : Nat) (sz : Size) (ea : Ea) :
    (s.amid cs m).resolved n sz ea = (s.resolved n sz ea).amid cs m := by
  rw [State.resolved, show (s.amid cs m).after n = (s.after n).amid cs m from rfl, State.resolve_amid]
  rfl

theorem State.addressOf_amid (n : Nat) (ea : Ea) : (s.amid cs m).addressOf n ea = s.addressOf n ea := by
  rw [State.addressOf, State.loc_amid]
  rfl

theorem State.referMove_amid (sz : Size) (src dst : Ea) : (s.amid cs m).referMove sz src dst = s.referMove sz src dst := by
  rw [State.referMove, State.loc_amid, State.resolved_amid, State.resolve_amid]
  rfl

theorem State.referPair_amid (sz : Size) (src dst : Ea) (write : Bool) :
    (s.amid cs m).referPair sz src dst write = s.referPair sz src dst write := by
  rw [State.referPair, State.loc_amid, State.resolved_amid, State.resolve_amid]
  rfl

theorem State.referStores_amid (sz : Size) (mask : Word) (ea : Ea) :
    (s.amid cs m).referStores sz mask ea = s.referStores sz mask ea := by
  have same := congrArg (fun a => if mask = 0 then [] else (Loc.mem s.dataSpace a false).refer sz true)
    (State.addressOf_amid s cs m 1 ea)
  cases ea with
  | preDec r => rfl
  | _ => exact same

theorem State.referLoads_amid (sz : Size) (mask : Word) (ea : Ea) :
    (s.amid cs m).referLoads sz mask ea = s.referLoads sz mask ea := by
  have same := congrArg (fun a => (Loc.mem (sourceSpace ea s) a false).refer (if mask = 0 then .word else sz) false)
    (State.addressOf_amid s cs m 1 ea)
  cases ea with
  | postInc r => rfl
  | _ => exact same

theorem State.referOperand_amid (i : Instr) : (s.amid cs m).referOperand i = s.referOperand i := by
  simp only [State.referOperand, State.loc_amid]

theorem State.references_amid (i : Instr) : (s.amid cs m).references i = s.references i := by
  have operand := State.referOperand_amid s cs m i
  cases i with
  | moveB | moveW | moveL => exact State.referMove_amid _ _ _ _ _ _
  | addx | subx | abcd | sbcd | cmpm => exact State.referPair_amid _ _ _ _ _ _ _
  | moveToSr ea => exact congrArg (fun l => if s.sr.s then Loc.refer .word false l else []) (State.loc_amid _ _ _ _ _ _)
  | movemToMem => exact State.referStores_amid _ _ _ _ _ _
  | movemToRegs => exact State.referLoads_amid _ _ _ _ _ _
  | bsr | jsr | pea | link | movep | rte | rts | rtr | unlk => rfl
  | _ => exact operand

theorem State.stores_amid (i : Instr) : (s.amid cs m).stores i = s.stores i := by
  have same := congrArg (fun l : List Reference => (l.filter (·.write)).map fun r => (r.sp, r.addr, r.sz.bytes))
    (State.references_amid s cs m i)
  cases i with
  | movemToMem long mask ea =>
    have same := congrArg (fun a => [(s.dataSpace, a, (maskRegs mask).length * (sizeOfBit long).bytes)])
      (State.addressOf_amid s cs m 1 ea)
    cases ea with
    | preDec r => rfl
    | _ => exact same
  | movep toMem long dn an d => cases toMem <;> rfl
  | _ => exact same

end

/-! What is left lies between the old state and the new. -/

theorem settleTo_or {α : Type} [DecidableEq α] (choice : Long) (old new : α) :
    settleTo choice old new = old ∨ settleTo choice old new = new := by
  unfold settleTo
  split
  · exact .inr rfl
  · split
    · exact .inr rfl
    · exact .inl rfl

section
variable {i : Instr} {s t u : State}

/-- What an abort leaves lies between the beginning of the instruction and the abort. -/
theorem between_settle (s t : State) : Between s t (s.settle t) where
  hidden := ⟨rfl, rfl, rfl, rfl, rfl, rfl, rfl, rfl, rfl, rfl, rfl, rfl⟩
  data r := by
    match r with
    | 0 | 1 | 2 | 3 | 4 | 5 | 6 | 7 => exact settleTo_or _ _ _
  address r h := by
    match r, h with
    | 0, _ | 1, _ | 2, _ | 3, _ | 4, _ | 5, _ | 6, _ => exact settleTo_or _ _ _
  pointers := ⟨settleTo_or _ _ _, settleTo_or _ _ _⟩
  system := ⟨settleTo_or _ _ _, settleTo_or _ _ _, settleTo_or _ _ _⟩
  codes := ⟨settleTo_or _ _ _, settleTo_or _ _ _, settleTo_or _ _ _, settleTo_or _ _ _, settleTo_or _ _ _⟩
  memory _ _ := .inr rfl

/-- Address register `r` by the names of the old privilege state, old or new. -/
theorem Between.getA (h : Between s t u) (r : Reg) :
    (u.withSr s.sr).getA r = s.getA r ∨ (u.withSr s.sr).getA r = (t.withSr s.sr).getA r := by
  by_cases h7 : r.val < 7
  · simp only [State.getA, dif_pos h7]
    exact h.address r.val h7
  · obtain rfl := reg_seven h7
    cases hs : s.sr.s with
    | true => simpa [State.getA_seven, hs] using h.pointers.2
    | false => simpa [State.getA_seven, hs] using h.pointers.1

theorem or_eq {α : Type} {a b c : α} (h : a = b ∨ a = c) (hc : c = b) : a = b :=
  h.elim id fun h => h.trans hc

/-- What lies between the old state and one that leaves the rest as it was leaves it too. -/
theorem LeftBy.between (h : LeftBy i s t) (hb : Between s t u) : LeftBy i s u where
  hidden := h.hidden.trans hb.hidden
  registers k hk := by
    have hk' := h.registers k hk
    rcases index_cases k with ⟨r, rfl⟩ | ⟨r, rfl⟩
    · rw [State.getR_dataIndex, State.getR_dataIndex] at hk' ⊢
      exact or_eq (hb.data r) hk'
    · rw [State.getR_addressIndex, State.getR_addressIndex] at hk' ⊢
      exact or_eq (hb.getA r) hk'
  high r := by
    rcases hb.data r with hr | hr <;> rw [hr]
    exact h.high r
  inactive := by
    have hi := h.inactive
    by_cases hs : s.sr.s = true
    · rw [if_pos hs] at hi ⊢
      exact or_eq hb.pointers.1 hi
    · rw [if_neg hs] at hi ⊢
      exact or_eq hb.pointers.2 hi
  system hs := by
    obtain ⟨ht, hs', hi⟩ := h.system hs
    obtain ⟨bt, bs, bi⟩ := hb.system
    exact ⟨or_eq bt ht, or_eq bs hs', or_eq bi hi⟩
  flags hk := by
    have hf := h.flags hk
    obtain ⟨bx, bn, bz, bv, bc⟩ := hb.codes
    have hx : t.sr.x = s.sr.x := (congrArg Sr.x hf :)
    have hn : t.sr.n = s.sr.n := (congrArg Sr.n hf :)
    have hz : t.sr.z = s.sr.z := (congrArg Sr.z hf :)
    have hv : t.sr.v = s.sr.v := (congrArg Sr.v hf :)
    have hc : t.sr.c = s.sr.c := (congrArg Sr.c hf :)
    simp only [or_eq bx hx, or_eq bn hn, or_eq bz hz, or_eq bv hv, or_eq bc hc]
  zeroOnly hk := by
    obtain ⟨hn, hv, hc⟩ := h.zeroOnly hk
    obtain ⟨-, bn, -, bv, bc⟩ := hb.codes
    exact ⟨or_eq bn hn, or_eq bv hv, or_eq bc hc⟩
  extend hx := or_eq hb.codes.1 (h.extend hx)
  memory sp addr ha := or_eq (hb.memory sp addr) (h.memory sp addr ha)

theorem LeftBy.settle (h : LeftBy i s t) : LeftBy i s (s.settle t) := h.between (between_settle s t)

/-- What other masters' writes leave at a byte depends on what was there (rule R92). -/
theorem Memory.read_writeAll_congr {m m' : Memory} {k : Nat} (l : List Host.Cell) (hm : Memory.wf m = true)
    (hm' : Memory.wf m' = true) (h : Memory.read m k = Memory.read m' k) :
    Memory.read (Memory.writeAll m l) k = Memory.read (Memory.writeAll m' l) k := by
  induction l generalizing m m' with
  | nil => exact h
  | cons e l ih =>
    obtain ⟨j, b⟩ := e
    have hj : j % keyLimit < keyLimit := Nat.mod_lt _ (by decide)
    refine ih (Memory.wf_write hm hj) (Memory.wf_write hm' hj) ?_
    by_cases hk : k = j % keyLimit
    · rw [hk, Memory.read_write_same hm, Memory.read_write_same hm']
    · rw [Memory.read_write_other m hk, Memory.read_write_other m' hk, h]

/-- Other masters' writes are the same on both sides (rule R92). -/
theorem LeftBy.amid (h : LeftBy i s t) (hs : Memory.wf s.mem = true) (ht : Memory.wf t.mem = true) (cs : List Cycle)
    (l : List Host.Cell) :
    LeftBy i (s.amid cs (Memory.writeAll s.mem l)) (t.amid cs (Memory.writeAll t.mem l)) where
  hidden := by
    obtain ⟨h1, h2, h3, h4, h5, h6, h7, h8, h9, h10, -, h12⟩ := h.hidden
    exact ⟨h1, h2, h3, h4, h5, h6, h7, h8, h9, h10, rfl, h12⟩
  registers := h.registers
  high := h.high
  inactive := h.inactive
  system := h.system
  flags := h.flags
  zeroOnly := h.zeroOnly
  extend := h.extend
  memory sp addr ha := by
    rw [State.stores_amid] at ha
    have hp : t.platform = s.platform := h.hidden.2.2.2.2.2.2.2.1
    have h' := h.memory sp addr ha
    simp only [State.byteAt, hp] at h'
    simp only [State.byteAt, State.amid, hp]
    exact Memory.read_writeAll_congr l ht hs h'

end

/-! PROOF. External reset at a bus cycle of an instruction that would complete (rules R443, R465). -/

/-- A handler's window is open. -/
def InWindow (t : State) : Prop := t.inGroup0 = true ∨ t.inGroup1 = true ∨ t.inGroup2 = true

section
variable {s t : State}

theorem not_inWindow (h0 : t.inGroup0 = false) (h1 : t.inGroup1 = false) (h2 : t.inGroup2 = false) : ¬ InWindow t := by
  rintro (h | h | h)
  · cases h0.symm.trans h
  · cases h1.symm.trans h
  · cases h2.symm.trans h

theorem group0_inWindow (s : State) (k : AccessFault) (a : Access) (act : Activity) : Ends (s.group0 k a act) InWindow :=
  (group0_inGroup0 s k a act).imp fun _ => .inl

theorem externalReset_inWindow (s : State) (ipl : BitVec 3) : Ends (s.externalReset ipl) InWindow :=
  (externalReset_inGroup0 s ipl).imp fun _ => .inl

/-- Exception processing of groups 1 and 2 ends in the window of its own group, or of group 0. -/
theorem entered_inWindow {mark : State → State} (hmark : ∀ t, InWindow (mark t)) (act : Activity) (r : M.Result Unit) :
    Ends (entered act mark r) InWindow := by
  cases r with
  | ok a t => exact ends_next (hmark t)
  | error e t =>
    cases e with
    | access k a | fetch k a => exact group0_inWindow _ _ _ _
    | reset ipl => exact externalReset_inWindow _ _
    | stop f => exact ends_fault f
    | refuse r => exact ends_refused r
    | trap n => exact ends_refused _

theorem group1_inWindow (s : State) (n : BitVec 8) (pc : Long) : Ends (s.group1 n pc) InWindow :=
  entered_inWindow (mark := State.markGroup1) (fun _ => .inr (.inl rfl)) _ _

theorem group2_inWindow (s : State) (n : BitVec 8) (pc : Long) : Ends (s.group2 n pc) InWindow :=
  entered_inWindow (mark := State.markGroup2) (fun _ => .inr (.inr rfl)) _ _

/-- An instruction that is aborted ends in a window. -/
theorem conclude_error_inWindow (s : State) (e : Abort) (t : State) : Ends (conclude s (.error e t)) InWindow := by
  cases e with
  | access k a | fetch k a => exact group0_inWindow _ _ _ _
  | reset ipl => exact externalReset_inWindow _ _
  | trap n => exact group2_inWindow _ _ _
  | stop f => exact ends_fault f
  | refuse r => exact ends_refused r

theorem Touch.withCycles {F : Footprint} (h : Touch F s t) {cs : List Cycle} (hc : cs <:+ s.cycles) :
    Touch F s (t.withCycles cs) :=
  { h with cycles := hc }

/-- What an instruction leaves that external reset aborts at a cycle. -/
theorem reset_leftBy {i : Instr} {w : State} (hi : precise i = true) (hm : Memory.wf s.mem = true)
    (hc : ∀ c ∈ s.cycles, c = Cycle.quiet) (h : Touch (s.footprint i) s w) (l : List Cycle) (c : Cycle) (cs : List Cycle) :
    LeftBy i (s.amid cs (Memory.writeAll s.mem c.dma))
      ((s.withCycles l).settle ((w.withCycles (c :: cs)).heard c)) := by
  have before : LeftBy i s (w.withCycles s.cycles) := (h.withCycles (List.suffix_refl _)).leftBy hi rfl (h.memory hc)
  exact (before.amid hm (h.canonical hm) cs c.dma).settle

/-- A body that completes where nothing comes from outside is aborted by a reset at one of its cycles. -/
theorem conclude_reset {i : Instr} {body : M Unit} {n : Nat} {c : Cycle} {cs : List Cycle} {ipl : BitVec 3}
    (hi : precise i = true) (hm : Memory.wf s.mem = true) (hs : s.cycles = quietCycles (n + 1))
    (hr : Run (s.footprint i) body s.opened) (h : conclude s (body.run s.opened) = .next t) (ht : t.cycles = [])
    (hw : ¬ InWindow t) (hreset : c.reset = some ipl) :
    ∃ u, LeftBy i (s.amid cs (Memory.writeAll s.mem c.dma)) u ∧
      conclude (s.withCycles (quietCycles n ++ c :: cs)) (body.run (s.opened.withCycles (quietCycles n ++ c :: cs))) =
        u.externalReset ipl := by
  rcases hr.reset_at hreset cs hs with ⟨w, touch, h1⟩ | ⟨j, a, v, h1, hv, -⟩ | ⟨e, v, h1, -⟩
  · rw [h1]
    refine ⟨_, reset_leftBy hi hm (fun c hc => List.eq_of_mem_replicate (hs ▸ hc)) ((Update.skip 1).touch.trans touch) _ _ _, rfl⟩
  · rw [h1] at h
    cases h
    rw [ht] at hv
    cases hv
  · rw [h1] at h
    exact absurd (conclude_error_inWindow _ _ _ t h) hw

end

/-- Settles O34: the instruction runs in step with its run without the reset up to that cycle, and its footprint bounds what it has changed. -/
theorem resetAbortsInstruction : Obligations.ResetAbortsInstruction := by
  intro s t i n c cs ipl hwf hm h ht h0 h1 h2 hreset
  have hpr := precise_of_wf hwf
  have hw : ¬ InWindow t := not_inWindow h0 h1 h2
  cases means i with
  | plain body he hr _ =>
    rw [he] at h ⊢
    exact conclude_reset (s := s.withCycles (quietCycles (n + 1))) hpr hm rfl (hr _) h ht hw hreset
  | guarded body hp he hr _ =>
    rw [he, privileged] at h ⊢
    split at h
    · next hs =>
      rw [if_pos hs]
      exact conclude_reset (s := s.withCycles (quietCycles (n + 1))) hpr hm rfl (hr _ hs) h ht hw hreset
    · exact absurd (group1_inWindow _ _ _ t h) hw
  | line m hn _ he _ =>
    rw [he] at h
    exact absurd (group1_inWindow _ _ _ t h) hw
  | silent hi =>
    have quiet : ∀ v, v.cycles = List.replicate (n + 1) Cycle.quiet → Host.Outcome.next v = (.next t : Outcome) → False :=
      fun v hv h' => by
        cases h'
        rw [ht] at hv
        cases hv
    rcases hi with rfl | ⟨w, rfl⟩ | ⟨an, rfl⟩
    · rw [exec_reset] at h
      split at h
      · exact (quiet _ rfl h).elim
      · exact absurd (group1_inWindow _ _ _ t h) hw
    · rw [exec_stop] at h
      split at h
      · exact (quiet _ rfl h).elim
      · exact absurd (group1_inWindow _ _ _ t h) hw
    · rw [exec_moveToUsp] at h
      split at h
      · exact (quiet _ rfl h).elim
      · exact absurd (group1_inWindow _ _ _ t h) hw

end Sys2Proof.Machine
end

section
/-! PROOF. The shape of an instruction is that of its operation word: how many words it takes, which it fetches late and from where do not depend on the words after the operation word (rules R101, R102). -/

namespace Sys2Proof.Machine

/-! Effective addresses. -/

/-- The same addressing mode and register, whatever the extension words. -/
inductive SameMode : Ea → Ea → Prop where
  | same (ea : Ea) : SameMode ea ea
  | disp (r : Reg) (d d' : Word) : SameMode (.disp r d) (.disp r d')
  | index (r : Reg) (x x' : Index) : SameMode (.index r x) (.index r x')
  | absW (a a' : Word) : SameMode (.absW a) (.absW a')
  | absL (a a' : Long) : SameMode (.absL a) (.absL a')
  | pcDisp (d d' : Word) : SameMode (.pcDisp d) (.pcDisp d')
  | pcIndex (x x' : Index) : SameMode (.pcIndex x) (.pcIndex x')
  | imm (v v' : Long) : SameMode (.imm v) (.imm v')

/-- Which modes an instruction allows does not depend on the extension words (rule R132). -/
def ByMode (allowed : Ea → Bool) : Prop := ∀ a b, SameMode a b → allowed b = allowed a

theorem byMode_isData : ByMode Ea.isData := fun _ _ h => by cases h <;> rfl
theorem byMode_isDataAlterable : ByMode Ea.isDataAlterable := fun _ _ h => by cases h <;> rfl
theorem byMode_isMemoryAlterable : ByMode Ea.isMemoryAlterable := fun _ _ h => by cases h <;> rfl
theorem byMode_isControl : ByMode Ea.isControl := fun _ _ h => by cases h <;> rfl
theorem byMode_isMovemDst : ByMode Ea.isMovemDst := fun _ _ h => by cases h <;> rfl
theorem byMode_isMovemSrc : ByMode Ea.isMovemSrc := fun _ _ h => by cases h <;> rfl
theorem byMode_isDataNoImm : ByMode Ea.isDataNoImm := fun _ _ h => by cases h <;> rfl
theorem byMode_sizeOk (sz : Size) : ByMode (Ea.sizeOk sz) := fun _ _ h => by cases h <;> rfl
theorem byMode_quick (sz : Size) : ByMode fun ea => ea.isAlterable && ea.sizeOk sz := fun _ _ h => by cases h <;> rfl

theorem SameMode.eaWords {a b : Ea} (h : SameMode a b) (sz : Size) : eaWords sz b = eaWords sz a := by
  cases h <;> rfl

/-- From lists of at least `m` words `p` reads `f` of the first `m`, from shorter ones nothing. -/
structure Takes {α : Type} (p : List Word → Decoded α) (m : Nat) (f : List Word → α) : Prop where
  enough : ∀ xs, m ≤ xs.length → p xs = .ok (f (xs.take m), xs.drop m)
  short : ∀ xs, xs.length < m → ∀ r, p xs ≠ .ok r

section
variable {α : Type} {p : List Word → Decoded α}

theorem takes_none {a : α} (h : ∀ xs, p xs = .ok (a, xs)) : Takes p 0 fun _ => a :=
  ⟨fun xs _ => h xs, fun _ hx => absurd hx (Nat.not_lt_zero _)⟩

theorem takes_one {g : Word → α} (h : ∀ x xs, p (x :: xs) = .ok (g x, xs)) (h0 : ∀ r, p [] ≠ .ok r) :
    Takes p 1 fun us => g (us.headD 0) where
  enough
    | x :: xs, _ => h x xs
  short
    | [], _ => h0
    | _ :: xs, hx => by simp at hx

theorem takes_two {g : Word → Word → α} (h : ∀ x y xs, p (x :: y :: xs) = .ok (g x y, xs)) (h0 : ∀ r, p [] ≠ .ok r)
    (h1 : ∀ x r, p [x] ≠ .ok r) : Takes p 2 fun us => g (us.headD 0) (us.tail.headD 0) where
  enough
    | x :: y :: xs, _ => h x y xs
  short
    | [], _ => h0
    | [x], _ => h1 x
    | _ :: _ :: xs, hx => absurd hx (Nat.not_lt.2 (Nat.le_add_left 2 xs.length))

end

/-- `p` reads nothing, or an effective address of one mode with as many words as the mode takes. -/
def ReadsMode (sz : Size) (p : List Word → Decoded Ea) : Prop :=
  (∀ xs r, p xs ≠ .ok r) ∨
    ∃ m f, Takes p m f ∧ (∀ us vs, SameMode (f us) (f vs)) ∧ ∀ us, eaWords sz (f us) = m

section
variable {sz : Size} {p : List Word → Decoded Ea}

theorem readsMode_none {ea : Ea} (h : ∀ xs, p xs = .ok (ea, xs)) (hw : eaWords sz ea = 0) : ReadsMode sz p :=
  .inr ⟨0, _, takes_none h, fun _ _ => .same ea, fun _ => hw⟩

theorem readsMode_one {g : Word → Ea} (h : ∀ x xs, p (x :: xs) = .ok (g x, xs)) (h0 : ∀ r, p [] ≠ .ok r)
    (hm : ∀ x y, SameMode (g x) (g y)) (hw : ∀ x, eaWords sz (g x) = 1) : ReadsMode sz p :=
  .inr ⟨1, _, takes_one h h0, fun _ _ => hm _ _, fun _ => hw _⟩

theorem readsMode_two {g : Word → Word → Ea} (h : ∀ x y xs, p (x :: y :: xs) = .ok (g x y, xs)) (h0 : ∀ r, p [] ≠ .ok r)
    (h1 : ∀ x r, p [x] ≠ .ok r) (hm : ∀ x y x' y', SameMode (g x y) (g x' y')) (hw : ∀ x y, eaWords sz (g x y) = 2) :
    ReadsMode sz p :=
  .inr ⟨2, _, takes_two h h0 h1, fun _ _ => hm _ _ _ _, fun _ => hw _ _⟩

end

/-- An effective address field is a mode (rule R108). -/
theorem decodeEa_readsMode (sz : Size) (field : Nat) : ReadsMode sz (decodeEa sz field) := by
  obtain hm | hm | hm | hm | hm | hm | hm | hm : field / 8 % 8 = 0 ∨ field / 8 % 8 = 1 ∨ field / 8 % 8 = 2 ∨
    field / 8 % 8 = 3 ∨ field / 8 % 8 = 4 ∨ field / 8 % 8 = 5 ∨ field / 8 % 8 = 6 ∨ field / 8 % 8 = 7 := by omega
  · exact readsMode_none (ea := .dn (regAt field 0)) (fun _ => by simp only [decodeEa, hm]) rfl
  · exact readsMode_none (ea := .an (regAt field 0)) (fun _ => by simp only [decodeEa, hm]) rfl
  · exact readsMode_none (ea := .ind (regAt field 0)) (fun _ => by simp only [decodeEa, hm]) rfl
  · exact readsMode_none (ea := .postInc (regAt field 0)) (fun _ => by simp only [decodeEa, hm]) rfl
  · exact readsMode_none (ea := .preDec (regAt field 0)) (fun _ => by simp only [decodeEa, hm]) rfl
  · exact readsMode_one (g := .disp (regAt field 0)) (fun _ _ => by simp only [decodeEa, hm]) (fun _ => by simp [decodeEa, hm])
      (fun _ _ => .disp _ _ _) fun _ => rfl
  · exact readsMode_one (g := fun x => .index (regAt field 0) (decodeIndex x)) (fun _ _ => by simp only [decodeEa, hm])
      (fun _ => by simp [decodeEa, hm]) (fun _ _ => .index _ _ _) fun _ => rfl
  obtain hk | hk | hk | hk | hk | hk : field % 8 = 0 ∨ field % 8 = 1 ∨ field % 8 = 2 ∨ field % 8 = 3 ∨ field % 8 = 4 ∨
    5 ≤ field % 8 := by omega
  · exact readsMode_one (g := .absW) (fun _ _ => by simp only [decodeEa, hm, hk]) (fun _ => by simp [decodeEa, hm, hk])
      (fun _ _ => .absW _ _) fun _ => rfl
  · exact readsMode_two (g := fun x y => .absL (x ++ y)) (fun _ _ _ => by simp only [decodeEa, hm, hk])
      (fun _ => by simp [decodeEa, hm, hk]) (fun _ _ => by simp [decodeEa, hm, hk]) (fun _ _ _ _ => .absL _ _) fun _ _ => rfl
  · exact readsMode_one (g := .pcDisp) (fun _ _ => by simp only [decodeEa, hm, hk]) (fun _ => by simp [decodeEa, hm, hk])
      (fun _ _ => .pcDisp _ _) fun _ => rfl
  · exact readsMode_one (g := fun x => .pcIndex (decodeIndex x)) (fun _ _ => by simp only [decodeEa, hm, hk])
      (fun _ => by simp [decodeEa, hm, hk]) (fun _ _ => .pcIndex _ _) fun _ => rfl
  · cases sz with
    | byte =>
      exact readsMode_one (g := fun x => .imm ((x.setWidth 8).setWidth 32)) (fun _ _ => by simp only [decodeEa, hm, hk, decodeImm])
        (fun _ => by simp [decodeEa, hm, hk, decodeImm]) (fun _ _ => .imm _ _) fun _ => rfl
    | word =>
      exact readsMode_one (g := fun x => .imm (x.setWidth 32)) (fun _ _ => by simp only [decodeEa, hm, hk, decodeImm])
        (fun _ => by simp [decodeEa, hm, hk, decodeImm]) (fun _ _ => .imm _ _) fun _ => rfl
    | long =>
      exact readsMode_two (g := fun x y => .imm (x ++ y)) (fun _ _ _ => by simp only [decodeEa, hm, hk, decodeImm])
        (fun _ => by simp [decodeEa, hm, hk, decodeImm]) (fun _ _ => by simp [decodeEa, hm, hk, decodeImm])
        (fun _ _ _ _ => .imm _ _) fun _ _ => rfl
  · left
    have lt : field % 8 < 8 := Nat.mod_lt _ (by decide)
    obtain hk' | hk' | hk' : field % 8 = 5 ∨ field % 8 = 6 ∨ field % 8 = 7 := by omega
    all_goals
      intro xs r
      cases xs <;> simp [decodeEa, hm, hk']

/-- An immediate takes one or two words (rule R121). -/
theorem decodeImm_takes (sz : Size) : ∃ f, Takes (decodeImm sz) (immWords sz) f := by
  cases sz with
  | byte | word => exact ⟨_, takes_one (fun _ _ => rfl) fun _ => nofun⟩
  | long => exact ⟨_, takes_two (fun _ _ _ => rfl) (fun _ => nofun) fun _ _ => nofun⟩

/-! Instructions. -/

/-- STOP is the one instruction that leaves the normal state. -/
def isStop : Instr → Bool
  | .stop _ => true
  | _ => false

/-- What has been decoded before `xs` tells how much is decoded before other words `ys`, and what its meaning fetches late: the number of those words, and, but for the last of them, after which operand. -/
def Alike (a b : Decoded Instr) (xs ys : List Word) : Prop :=
  ∀ i rest, a = .ok (i, rest) → ∃ m, m ≤ xs.length ∧ rest = xs.drop m ∧ lateFetches i ≤ m ∧
    (isStop i = true → m = 1) ∧ (m ≤ ys.length → ∃ j, b = .ok (j, ys.drop m) ∧ (xs.take m = ys.take m → j = i) ∧ lateFetches j = lateFetches i ∧
      (xs.take (m - 1) = ys.take (m - 1) → lateSource j = lateSource i))

/-- Nothing is fetched late. -/
def Early (i : Instr) : Prop := lateFetches i = 0 ∧ lateSource i = none

/-- The same, of an instruction that is not STOP. -/
def Plainly (i : Instr) : Prop := Early i ∧ isStop i = false

section
variable {a b : Decoded Instr} {xs ys : List Word} {w : Nat} {sz : Size} {p : List Word → Decoded Instr}

theorem alike_error (e : DecodeError) : Alike (.error e) b xs ys := by
  intro i rest h
  cases h

/-- A reader of `m` words of which nothing is fetched late. -/
theorem alike_of_takes {m : Nat} {f : List Word → Instr} (h : Takes p m f) (hf : ∀ us, Early (f us))
    (hs : ∀ us, isStop (f us) = true → m = 1) : Alike (p xs) (p ys) xs ys := by
  intro i rest hi
  have hm : m ≤ xs.length := Nat.le_of_not_lt fun hlt => h.short xs hlt _ hi
  cases (h.enough xs hm).symm.trans hi
  have late : ∀ us vs, lateFetches (f us) = lateFetches (f vs) := fun us vs => (hf us).1.trans (hf vs).1.symm
  exact ⟨m, hm, rfl, (hf _).1 ▸ Nat.zero_le m, hs _, fun hy => ⟨_, h.enough ys hy, fun ht => by rw [ht], late _ _,
    fun _ => (hf _).2.trans (hf _).2.symm⟩⟩

theorem not_isStop {i : Instr} (h : Plainly i) {P : Prop} (hi : isStop i = true) : P := by
  cases h.2.symm.trans hi

theorem alike_ok {i : Instr} (h : Plainly i) : Alike (.ok (i, xs)) (.ok (i, ys)) xs ys :=
  alike_of_takes (p := fun xs => .ok (i, xs)) (takes_none fun _ => rfl) (fun _ => h.1) fun _ => not_isStop h

theorem alike_word {mk : Word → Instr} (h : ∀ x, Early (mk x)) : Alike (withWord mk xs) (withWord mk ys) xs ys :=
  alike_of_takes (takes_one (fun _ _ => rfl) fun _ => nofun) (fun _ => h _) fun _ _ => rfl

theorem alike_disp {mk : BrDisp → Instr} (h : ∀ x, Plainly (mk x)) : Alike (withDisp w mk xs) (withDisp w mk ys) xs ys := by
  unfold withDisp
  split
  · exact alike_word fun _ => (h _).1
  · exact alike_ok (h _)

theorem alike_size {field : Nat} {k k' : Size → Decoded Instr} (h : ∀ sz, Alike (k sz) (k' sz) xs ys) :
    Alike (withSize field k) (withSize field k') xs ys := by
  unfold withSize
  split
  case h_4 => exact alike_error _
  all_goals exact h _

theorem withEa_of_ok {allowed : Ea → Bool} {mk : Ea → Instr} {ea : Ea} {rest : List Word}
    (h : decodeEa sz (w % 64) xs = .ok (ea, rest)) :
    withEa w sz allowed mk xs = if allowed ea then .ok (mk ea, rest) else .error .illegal := by
  simp only [withEa, h]

theorem withEa_of_not {allowed : Ea → Bool} {mk : Ea → Instr} (h : ∀ r, decodeEa sz (w % 64) xs ≠ .ok r)
    (r : Instr × List Word) : withEa w sz allowed mk xs ≠ .ok r := by
  unfold withEa
  split
  · next hx => exact absurd hx (h _)
  · nofun

/-- An instruction of one effective address reads nothing, or as many words as the mode takes. -/
theorem withEa_takes {allowed : Ea → Bool} (ha : ByMode allowed) :
    (∀ mk xs r, withEa w sz allowed mk xs ≠ .ok r) ∨
      ∃ (m : Nat) (f : List Word → Ea), ∀ mk, Takes (withEa w sz allowed mk) m fun us => mk (f us) := by
  rcases decodeEa_readsMode sz (w % 64) with h | ⟨m, f, h, hmode, -⟩
  · exact .inl fun mk xs => withEa_of_not (h xs)
  by_cases hok : allowed (f []) = true
  · have hall : ∀ us, allowed (f us) = true := fun us => (ha _ _ (hmode [] us)).trans hok
    exact .inr ⟨m, f, fun mk => ⟨fun xs hx => by rw [withEa_of_ok (h.enough xs hx), if_pos (hall _)],
      fun xs hx => withEa_of_not (h.short xs hx)⟩⟩
  · refine .inl fun mk xs r => ?_
    have hnone : ∀ us, ¬ allowed (f us) = true := fun us hu => hok ((ha _ _ (hmode [] us)).symm.trans hu)
    rcases Nat.lt_or_ge xs.length m with hx | hx
    · exact withEa_of_not (h.short xs hx) r
    · rw [withEa_of_ok (h.enough xs hx), if_neg (hnone _)]
      nofun

theorem alike_ea {allowed : Ea → Bool} {mk : Ea → Instr} (ha : ByMode allowed) (h : ∀ ea, Plainly (mk ea)) :
    Alike (withEa w sz allowed mk xs) (withEa w sz allowed mk ys) xs ys := by
  rcases withEa_takes ha with hn | ⟨m, f, ht⟩
  · exact fun i rest hi => absurd hi (hn mk xs _)
  · exact alike_of_takes (ht mk) (fun _ => (h _).1) fun _ => not_isStop (h _)

/-- What is read first, then what its value gives. -/
def readThen {α : Type} (q : List Word → Decoded α) (k : α → List Word → Decoded Instr) (xs : List Word) : Decoded Instr :=
  match q xs with
  | .ok (a, rest) => k a rest
  | .error e => .error e

theorem takes_then {α : Type} {q : List Word → Decoded α} {n m : Nat} {g : List Word → α} {k : α → List Word → Decoded Instr}
    {f : α → List Word → Instr} (hq : Takes q n g) (hk : ∀ a, Takes (k a) m (f a)) :
    Takes (readThen q k) (n + m) fun us => f (g (us.take n)) (us.drop n) where
  enough xs hx := by
    have hn : n ≤ xs.length := by omega
    simp only [readThen, hq.enough xs hn]
    rw [(hk _).enough _ (by rw [List.length_drop]; omega), List.take_take, Nat.min_eq_left (Nat.le_add_right n m),
      List.drop_take, Nat.add_sub_cancel_left, List.drop_drop]
  short xs hx r := by
    rcases Nat.lt_or_ge xs.length n with hn | hn
    · have hs := hq.short xs hn
      unfold readThen
      split
      · next hx => exact absurd hx (hs _)
      · nofun
    · simp only [readThen, hq.enough xs hn]
      exact (hk _).short _ (by rw [List.length_drop]; omega) r

/-- One word. -/
def oneWord : List Word → Decoded Word
  | x :: rest => .ok (x, rest)
  | [] => .error .truncated

theorem oneWord_takes : Takes oneWord 1 fun us => us.headD 0 :=
  takes_one (g := id) (fun _ _ => rfl) fun _ h => by cases h

theorem withWordEa_eq (allowed : Ea → Bool) (mk : Word → Ea → Instr) (xs : List Word) :
    withWordEa w sz allowed mk xs = readThen oneWord (fun x => withEa w sz allowed (mk x)) xs := by
  cases xs <;> rfl

theorem withImmEa_eq (mk : Long → Ea → Instr) (xs : List Word) :
    withImmEa w sz mk xs = readThen (decodeImm sz) (fun v => withEa w sz Ea.isDataAlterable (mk v)) xs := by
  unfold withImmEa readThen
  cases decodeImm sz xs <;> rfl

/-- Something read, then an effective address. -/
theorem alike_thenEa {α : Type} {q : List Word → Decoded α} {n : Nat} {g : List Word → α} {allowed : Ea → Bool}
    {mk : α → Ea → Instr} (hq : Takes q n g) (ha : ByMode allowed) (h : ∀ x ea, Plainly (mk x ea))
    (hp : ∀ xs, p xs = readThen q (fun x => withEa w sz allowed (mk x)) xs) : Alike (p xs) (p ys) xs ys := by
  rcases withEa_takes ha with hn | ⟨m, f, ht⟩
  · intro i rest hi
    rw [hp, readThen] at hi
    split at hi
    · exact absurd hi (hn _ _ _)
    · cases hi
  · rw [hp, hp]
    exact alike_of_takes (takes_then hq fun x => ht (mk x)) (fun _ => (h _ _).1) fun _ => not_isStop (h _ _)

theorem alike_wordEa {allowed : Ea → Bool} {mk : Word → Ea → Instr} (ha : ByMode allowed) (h : ∀ x ea, Plainly (mk x ea)) :
    Alike (withWordEa w sz allowed mk xs) (withWordEa w sz allowed mk ys) xs ys :=
  alike_thenEa oneWord_takes ha h (withWordEa_eq allowed mk)

theorem alike_immEa {mk : Long → Ea → Instr} (h : ∀ v ea, Plainly (mk v ea)) :
    Alike (withImmEa w sz mk xs) (withImmEa w sz mk ys) xs ys :=
  let ⟨_, ht⟩ := decodeImm_takes sz
  alike_thenEa ht byMode_isDataAlterable h (withImmEa_eq mk)

/-- The source of a MOVE whose destination is an absolute long address. -/
def moveSource (sz : Size) (src : Ea) : Ea → Option (Size × Ea)
  | .absL _ => some (sz, src)
  | _ => none

theorem moveSource_congr {src src' dst dst' : Ea} (mode : SameMode dst dst') (h : eaWords sz dst = 2 → src' = src) :
    moveSource sz src' dst' = moveSource sz src dst := by
  cases mode with
  | same =>
    cases dst with
    | absL a => rw [h rfl]
    | _ => rfl
  | absL a a' => exact congrArg (fun e => some (sz, e)) (h rfl)
  | _ => rfl

/-- MOVE: the words of the destination, the last of the instruction, are fetched late. -/
theorem alike_move {mk : Ea → Ea → Instr} (hlate : ∀ src dst, lateFetches (mk src dst) = eaWords sz dst)
    (hsource : ∀ src dst, lateSource (mk src dst) = moveSource sz src dst)
    (hstop : ∀ src dst, isStop (mk src dst) = false) : Alike (decodeMove w sz mk xs) (decodeMove w sz mk ys) xs ys := by
  intro i rest hi
  unfold decodeMove at hi
  split at hi
  · cases hi
  next src rest1 hsrc =>
  split at hi
  case isFalse => cases hi
  next hsize =>
  split at hi
  · cases hi
  next dst rest2 hdst =>
  split at hi
  case isFalse => cases hi
  next hdata =>
  cases hi
  rcases decodeEa_readsMode sz (w % 64) with hn | ⟨m1, f1, h1, hmode1, -⟩
  · exact absurd hsrc (hn _ _)
  rcases decodeEa_readsMode sz (w / 64 % 8 * 8 + w / 512 % 8) with hn | ⟨m2, f2, h2, hmode2, hwords⟩
  · exact absurd hdst (hn _ _)
  have hm1 : m1 ≤ xs.length := Nat.le_of_not_lt fun hlt => h1.short xs hlt _ hsrc
  cases (h1.enough xs hm1).symm.trans hsrc
  have hm2 : m2 ≤ (xs.drop m1).length := Nat.le_of_not_lt fun hlt => h2.short _ hlt _ hdst
  cases (h2.enough _ hm2).symm.trans hdst
  rw [List.length_drop] at hm2
  refine ⟨m1 + m2, by omega, by rw [List.drop_drop], by rw [hlate, hwords]; omega,
    fun hi => (by cases (hstop _ _).symm.trans hi), fun hy => ?_⟩
  have hy2 : m2 ≤ (ys.drop m1).length := by
    rw [List.length_drop]
    omega
  refine ⟨mk (f1 (ys.take m1)) (f2 ((ys.drop m1).take m2)), ?_, fun ht => ?_, ?_, fun ht => ?_⟩
  · have size : (f1 (ys.take m1)).sizeOk sz = true := (byMode_sizeOk sz _ _ (hmode1 _ _)).trans hsize
    have data : (f2 ((ys.drop m1).take m2)).isDataAlterable = true := (byMode_isDataAlterable _ _ (hmode2 _ _)).trans hdata
    simp only [decodeMove, h1.enough ys (by omega), size, if_true, h2.enough _ hy2, data, List.drop_drop]
  · have e1 : xs.take m1 = ys.take m1 := by
      have := congrArg (List.take m1) ht
      rwa [List.take_take, List.take_take, Nat.min_eq_left (Nat.le_add_right m1 m2)] at this
    have e2 : (xs.drop m1).take m2 = (ys.drop m1).take m2 := by
      have := congrArg (List.drop m1) ht
      rwa [List.drop_take, List.drop_take, Nat.add_sub_cancel_left] at this
    rw [e1, e2]
  · rw [hlate, hlate, hwords, hwords]
  · have mode := hmode2 ((xs.drop m1).take m2) ((ys.drop m1).take m2)
    have words := hwords ((xs.drop m1).take m2)
    rw [hsource, hsource]
    refine moveSource_congr mode fun hw => ?_
    have two : m2 = 2 := words.symm.trans hw
    have e1 := congrArg (List.take m1) ht
    rw [List.take_take, List.take_take, Nat.min_eq_left (by omega)] at e1
    rw [e1]

/-! The sixteen lines of operation words (rule R130). -/

theorem plainly (i : Instr) (h : lateFetches i = 0 := by rfl) (h' : lateSource i = none := by rfl)
    (hs : isStop i = false := by rfl) : Plainly i := ⟨⟨h, h'⟩, hs⟩

theorem early (i : Instr) (h : lateFetches i = 0 := by rfl) (h' : lateSource i = none := by rfl) : Early i := ⟨h, h'⟩

theorem alike_line0 : Alike (decodeLine0 w xs) (decodeLine0 w ys) xs ys := by
  unfold decodeLine0
  split
  · exact alike_word fun _ => early _
  split
  · exact alike_word fun _ => early _
  split
  · exact alike_word fun _ => early _
  split
  · exact alike_word fun _ => early _
  split
  · exact alike_word fun _ => early _
  split
  · exact alike_word fun _ => early _
  split
  · split
    · exact alike_word fun _ => early _
    · split
      case h_1 => exact alike_ea byMode_isData fun _ => plainly _
      all_goals exact alike_ea byMode_isDataAlterable fun _ => plainly _
  · split
    case h_5 =>
      split
      case h_1 => exact alike_wordEa byMode_isDataNoImm fun _ _ => plainly _
      all_goals exact alike_wordEa byMode_isDataAlterable fun _ _ => plainly _
    case h_8 => exact alike_error _
    all_goals exact alike_size fun _ => alike_immEa fun _ _ => plainly _

theorem alike_moveOrMovea {mk : Ea → Ea → Instr} {mkA : Ea → Reg → Instr}
    (hlate : ∀ src dst, lateFetches (mk src dst) = eaWords sz dst)
    (hsource : ∀ src dst, lateSource (mk src dst) = moveSource sz src dst)
    (hstop : ∀ src dst, isStop (mk src dst) = false) (h : ∀ ea r, Plainly (mkA ea r)) :
    Alike (decodeMoveOrMovea w sz mk mkA xs) (decodeMoveOrMovea w sz mk mkA ys) xs ys := by
  unfold decodeMoveOrMovea
  split
  · exact alike_ea (fun _ _ _ => rfl) fun _ => h _ _
  · exact alike_move hlate hsource hstop

theorem alike_fixed : Alike (decodeFixed w xs) (decodeFixed w ys) xs ys := by
  unfold decodeFixed
  split
  case h_3 => exact alike_word fun _ => early _
  case h_7 =>
    split
    case h_3 => exact alike_word fun _ => early _
    case h_8 => exact alike_error _
    all_goals exact alike_ok (plainly _)
  case h_8 => exact alike_error _
  all_goals exact alike_ok (plainly _)

theorem alike_line4 : Alike (decodeLine4 w xs) (decodeLine4 w ys) xs ys := by
  have sized : ∀ {mk : Size → Ea → Instr}, (∀ sz ea, Plainly (mk sz ea)) →
      Alike (withSize (w / 64 % 4) fun sz => withEa w sz Ea.isDataAlterable (mk sz) xs)
        (withSize (w / 64 % 4) fun sz => withEa w sz Ea.isDataAlterable (mk sz) ys) xs ys := fun h =>
    alike_size fun sz => alike_ea byMode_isDataAlterable (h sz)
  unfold decodeLine4
  split
  · split
    case h_1 => exact alike_ea byMode_isData fun _ => plainly _
    case h_2 => exact alike_ea byMode_isControl fun _ => plainly _
    case h_3 => exact alike_error _
  split
  case h_1 =>
    split
    · exact alike_ea byMode_isDataAlterable fun _ => plainly _
    · exact sized fun _ _ => plainly _
  case h_2 => exact sized fun _ _ => plainly _
  case h_3 | h_4 =>
    split
    · exact alike_ea byMode_isData fun _ => plainly _
    · exact sized fun _ _ => plainly _
  case h_5 =>
    split
    case h_1 => exact alike_ea byMode_isDataAlterable fun _ => plainly _
    case h_2 =>
      split
      · exact alike_ok (plainly _)
      · exact alike_ea byMode_isControl fun _ => plainly _
    all_goals
      split
      · exact alike_ok (plainly _)
      · exact alike_wordEa byMode_isMovemDst fun _ _ => plainly _
  case h_6 =>
    split
    · exact alike_ea byMode_isDataAlterable fun _ => plainly _
    · exact sized fun _ _ => plainly _
  case h_7 =>
    split
    case h_3 => exact alike_error _
    all_goals exact alike_wordEa byMode_isMovemSrc fun _ _ => plainly _
  case h_8 =>
    split
    case h_1 => exact alike_fixed
    case h_4 => exact alike_error _
    all_goals exact alike_ea byMode_isControl fun _ => plainly _

theorem alike_line5 : Alike (decodeLine5 w xs) (decodeLine5 w ys) xs ys := by
  unfold decodeLine5
  split
  · split
    · exact alike_word fun _ => early _
    · exact alike_ea byMode_isDataAlterable fun _ => plainly _
  · refine alike_size fun sz => alike_ea (byMode_quick sz) fun ea => ?_
    split <;> exact plainly _

theorem alike_line6 : Alike (decodeLine6 w xs) (decodeLine6 w ys) xs ys := by
  unfold decodeLine6
  split <;> exact alike_disp fun _ => plainly _

/-- A `<ea> op Dn` or `Dn op <ea>` instruction. -/
theorem alike_dir {srcOk : Size → Ea → Bool} {toReg toMem : Size → Reg → Ea → Instr} (ha : ∀ sz, ByMode (srcOk sz))
    (hr : ∀ sz r ea, Plainly (toReg sz r ea)) (hm : ∀ sz r ea, Plainly (toMem sz r ea)) :
    Alike (decodeDir w srcOk toReg toMem xs) (decodeDir w srcOk toReg toMem ys) xs ys := by
  refine alike_size fun sz => ?_
  split
  · exact alike_ea (ha sz) fun _ => hr _ _ _
  · exact alike_ea byMode_isMemoryAlterable fun _ => hm _ _ _

theorem alike_line8 : Alike (decodeLine8 w xs) (decodeLine8 w ys) xs ys := by
  unfold decodeLine8
  split
  · exact alike_ea byMode_isData fun _ => plainly _
  split
  · exact alike_ea byMode_isData fun _ => plainly _
  split
  · exact alike_ok (plainly _)
  · exact alike_dir (fun _ => byMode_isData) (fun _ _ _ => plainly _) fun _ _ _ => plainly _

theorem alike_addSub {toReg toMem : Size → Reg → Ea → Instr} {mkA : Bool → Reg → Ea → Instr}
    {mkX : Size → Bool → Reg → Reg → Instr} (hr : ∀ sz r ea, Plainly (toReg sz r ea)) (hm : ∀ sz r ea, Plainly (toMem sz r ea))
    (ha : ∀ b r ea, Plainly (mkA b r ea)) (hx : ∀ sz b r r', Plainly (mkX sz b r r')) :
    Alike (decodeAddSub w toReg toMem mkA mkX xs) (decodeAddSub w toReg toMem mkA mkX ys) xs ys := by
  unfold decodeAddSub
  split
  · exact alike_ea (fun _ _ _ => rfl) fun _ => ha _ _ _
  split
  · exact alike_size fun _ => alike_ok (hx _ _ _ _)
  · exact alike_dir byMode_sizeOk hr hm

theorem alike_lineB : Alike (decodeLineB w xs) (decodeLineB w ys) xs ys := by
  unfold decodeLineB
  split
  · exact alike_ea (fun _ _ _ => rfl) fun _ => plainly _
  refine alike_size fun sz => ?_
  split
  · exact alike_ea (byMode_sizeOk sz) fun _ => plainly _
  split
  · exact alike_ok (plainly _)
  · exact alike_ea byMode_isDataAlterable fun _ => plainly _

theorem alike_lineC : Alike (decodeLineC w xs) (decodeLineC w ys) xs ys := by
  unfold decodeLineC
  split
  · exact alike_ea byMode_isData fun _ => plainly _
  split
  · exact alike_ea byMode_isData fun _ => plainly _
  split
  · exact alike_ok (plainly _)
  split
  · exact alike_ok (plainly _)
  split
  · exact alike_ok (plainly _)
  split
  · exact alike_ok (plainly _)
  · exact alike_dir (fun _ => byMode_isData) (fun _ _ _ => plainly _) fun _ _ _ => plainly _

theorem alike_lineE : Alike (decodeLineE w xs) (decodeLineE w ys) xs ys := by
  unfold decodeLineE
  split
  · split
    case h_9 => exact alike_error _
    all_goals exact alike_ea byMode_isMemoryAlterable fun _ => plainly _
  · refine alike_size fun sz => ?_
    dsimp only
    split <;> exact alike_ok (plainly _)

theorem lateSource_moveB (src dst : Ea) : lateSource (.moveB src dst) = moveSource .byte src dst := by cases dst <;> rfl

theorem lateSource_moveW (src dst : Ea) : lateSource (.moveW src dst) = moveSource .word src dst := by cases dst <;> rfl

theorem lateSource_moveL (src dst : Ea) : lateSource (.moveL src dst) = moveSource .long src dst := by cases dst <;> rfl

/-- The operation word alone tells the shape of its instruction. -/
theorem alike_decodeOp : Alike (decodeOp w xs) (decodeOp w ys) xs ys := by
  unfold decodeOp
  split
  case h_1 => exact alike_line0
  case h_2 => exact alike_move (fun _ _ => rfl) lateSource_moveB fun _ _ => rfl
  case h_3 => exact alike_moveOrMovea (fun _ _ => rfl) lateSource_moveL (fun _ _ => rfl) fun _ _ => plainly _
  case h_4 => exact alike_moveOrMovea (fun _ _ => rfl) lateSource_moveW (fun _ _ => rfl) fun _ _ => plainly _
  case h_5 => exact alike_line4
  case h_6 => exact alike_line5
  case h_7 => exact alike_line6
  case h_8 =>
    split
    · exact alike_ok (plainly _)
    · exact alike_error _
  case h_9 => exact alike_line8
  case h_10 | h_14 =>
    exact alike_addSub (fun _ _ _ => plainly _) (fun _ _ _ => plainly _) (fun _ _ _ => plainly _) fun _ _ _ _ => plainly _
  case h_11 | h_16 => exact alike_ok (plainly _)
  case h_12 => exact alike_lineB
  case h_13 => exact alike_lineC
  case h_15 => exact alike_lineE

end

/-! PROOF. A step runs the instruction that its words decode to (rules R100 to R102, R404, R491), and the words that it fetches ahead (rule R88). -/

/-! The shape of decoded words. -/

/-- What decoding tells about the words of an instruction: `m` extension words, as many as its operation word has before any other words. -/
structure Shaped (w : Word) (xs : List Word) (i : Instr) (rest : List Word) (m : Nat) : Prop where
  enough : m ≤ xs.length
  rest_eq : rest = xs.drop m
  late : lateFetches i ≤ m
  stop : isStop i = true → m = 1
  shape : m ≤ 4 → ∃ j, Machine.shape w = some (j, m + 1) ∧ lateFetches j = lateFetches i
  others : ∀ ys, m ≤ ys.length → ∃ j, decode (w :: ys) = .ok (j, ys.drop m) ∧ (xs.take m = ys.take m → j = i) ∧
    (xs.take (m - 1) = ys.take (m - 1) → lateSource j = lateSource i)

theorem shaped_of_decode {w : Word} {xs rest : List Word} {i : Instr} (h : decode (w :: xs) = .ok (i, rest)) :
    ∃ m, Shaped w xs i rest m := by
  obtain ⟨m, hm, hrest, hlate, hstop, -⟩ := alike_decodeOp (ys := xs) i rest h
  have others : ∀ ys : List Word, m ≤ ys.length → ∃ j, decodeOp w.toNat ys = .ok (j, ys.drop m) ∧
      (xs.take m = ys.take m → j = i) ∧ lateFetches j = lateFetches i ∧
      (xs.take (m - 1) = ys.take (m - 1) → lateSource j = lateSource i) := fun ys hys => by
    obtain ⟨m', hm', hrest', -, -, hy⟩ := alike_decodeOp (ys := ys) i rest h
    obtain rfl : m' = m := by
      have := congrArg List.length (hrest.symm.trans hrest')
      simp only [List.length_drop] at this
      omega
    exact hy hys
  refine ⟨m, hm, hrest, hlate, hstop, fun h4 => ?_, fun ys hys => ?_⟩
  · obtain ⟨j, hj, -, hl, -⟩ := others [0, 0, 0, 0] h4
    have count : 5 - (([0, 0, 0, 0] : List Word).drop m).length = m + 1 := by
      rw [List.length_drop]
      simp only [List.length]
      omega
    exact ⟨j, by rw [shape, hj, ← count], hl⟩
  · obtain ⟨j, hj, hsame, -, hsource⟩ := others ys hys
    exact ⟨j, hj, hsame, hsource⟩

/-- At most two words are fetched late; where they are two, the destination of a MOVE is an absolute long address. -/
theorem lateFetches_two {i : Instr} (h : i.wf = true) :
    lateFetches i ≤ 1 ∨ lateFetches i = 2 ∧ ∃ sz src, lateSource i = some (sz, src) := by
  have move : ∀ (sz : Size) (src dst : Ea), dst.isDataAlterable = true → lateSource i = moveSource sz src dst →
      eaWords sz dst ≤ 1 ∨ eaWords sz dst = 2 ∧ ∃ sz src, lateSource i = some (sz, src) := fun sz src dst hd hs => by
    rw [hs]
    cases dst with
    | absL a => exact .inr ⟨rfl, sz, src, rfl⟩
    | imm v => cases hd
    | _ => exact .inl (by simp [eaWords])
  cases i with
  | moveB src dst =>
    simp only [Instr.wf, Bool.and_eq_true] at h
    exact move .byte src dst h.2 (lateSource_moveB src dst)
  | moveW src dst =>
    simp only [Instr.wf, Bool.and_eq_true] at h
    exact move .word src dst h.2 (lateSource_moveW src dst)
  | moveL src dst => exact move .long src dst h (lateSource_moveL src dst)
  | _ => exact .inl (Nat.zero_le 1)

/-! The word fetched after the source. -/

/-- Reading an operand leaves memory and the platform, where nothing comes from outside. -/
theorem operand_leads {u : State} (hc : u.cycles = []) (sz : Size) (ea : Ea) :
    Leads (operand sz ea) u.opened fun t =>
      t.cycles = [] ∧ t.platform = u.platform ∧ t.programSpace = u.programSpace ∧ ∀ sp a, t.wordAt sp a = u.wordAt sp a := by
  let F : Footprint := { Footprint.reading u.sr.s u.platform with addr := fun _ => True }
  have touch := (runs_operand (F := F) (sz := sz) (ea := ea) (fun _ _ => trivial) u.opened ⟨rfl, rfl⟩).1.touch
  have facts : ∀ t, Touch F u.opened t → t.cycles = [] ∧ t.platform = u.platform ∧ t.programSpace = u.programSpace ∧
      ∀ sp a, t.wordAt sp a = u.wordAt sp a := fun t ht => by
    have hp : t.platform = u.platform := ht.hidden.2.2.2.2.2.2.2.1
    have hs : t.sr.s = u.sr.s := (ht.system rfl).2.1
    have hm : ∀ k, Memory.read t.mem k = Memory.read u.mem k := fun k =>
      ht.memory (by rw [State.opened_eq_skip]; simp [State.skip, hc]) k id
    refine ⟨List.eq_nil_of_suffix_nil (hc ▸ ht.cycles), hp, ?_, fun sp a => ?_⟩
    · simp only [State.programSpace, hs]
    · simp only [State.wordAt, State.byteAt, hp, hm]
  exact ⟨fun a t h => facts t (touch.1 a t h), fun e t h => facts t (touch.2 e t h)⟩

/-- It is what memory holds there. -/
theorem lateWord_eq {i : Instr} {sz : Size} {src : Ea} (hi : lateSource i = some (sz, src)) {u : State} {addr : Long}
    (he : addr.getLsbD 0 = false) (h : u.readsMemory u.programSpace addr true) :
    lateWord i addr u = u.wordAt u.programSpace addr := by
  obtain ⟨hc, hr⟩ := h
  have leads := operand_leads hc sz src
  simp only [lateWord, hi]
  cases ho : (operand sz src).run u.opened with
  | ok v t =>
    obtain ⟨tc, tp, ts, tw⟩ := leads.1 v t ho
    have read : t.canRead .word t.programSpace addr := ⟨he, tc, by rw [tp, ts, hr]⟩
    rw [bind_ok ho, fetchWord_ok read, ts, tw]
  | error e t =>
    obtain ⟨-, -, ts, tw⟩ := leads.2 e t ho
    simp only [bind_error ho, ts, tw]

/-! The words of the stream. -/

/-- The `n` words after the operation word. -/
def State.streamWords (s : State) (n : Nat) : List Word := (List.range n).map fun k => s.streamWord (k + 1)

section
variable {s : State}

@[simp] theorem State.streamWords_length (s : State) (n : Nat) : (s.streamWords n).length = n := by
  simp [State.streamWords]

theorem State.streamWords_take (s : State) (k n : Nat) : (s.streamWords n).take k = s.streamWords (min k n) := by
  rw [State.streamWords, ← List.map_take, List.take_range]
  rfl

theorem State.streamWords_succ (s : State) (n : Nat) : s.streamWords (n + 1) = s.streamWords n ++ [s.streamWord (n + 1)] := by
  simp [State.streamWords, List.range_succ]

theorem State.stream_eq (s : State) : s.stream = s.streamWord 0 :: s.streamWords 4 := rfl

theorem State.nextWords_wordsAfter (s : State) {n : Nat} (hn : 1 ≤ n) :
    s.nextWords.2 :: s.wordsAfter n = s.streamWords n := by
  obtain ⟨k, rfl⟩ : ∃ k, n = k + 1 := ⟨n - 1, by omega⟩
  rw [State.streamWords, List.range_succ_eq_map, List.map_cons, List.map_map, State.wordsAfter, Nat.add_sub_cancel]
  refine congrArg (List.cons _) (List.map_congr_left fun j _ => ?_)
  rw [pc_add_four]
  rfl

/-- The words that an instruction reads from the stream, all but the last of which may be fetched late, are its own. -/
theorem readInstr_stream {i : Instr} {rest : List Word} {m : Nat} {u : State} (h : Shaped (s.streamWord 0) (s.streamWords 4) i rest m)
    (hwf : i.wf = true) (hlate : ∀ sz src, 2 ≤ m → lateSource i = some (sz, src) →
      lateWord i (u.pc + BitVec.ofNat 32 (2 * m)) u = s.streamWord m) :
    ∃ rest', readInstr (s.streamWord 0 :: s.streamWords (m + 1 - lateFetches i)) (m + 1) u = .ok (i, rest') := by
  have h4 : m ≤ 4 := by simpa using h.enough
  have hl := h.late
  rcases lateFetches_two hwf with h1 | ⟨h2, sz, src, hsource⟩
  · have read : ∀ x, ∃ rest', decode (s.streamWord 0 :: s.streamWords (m + 1 - lateFetches i) ++ [x]) = .ok (i, rest') := fun x => by
      obtain ⟨j, hj, hsame, -⟩ := h.others (s.streamWords (m + 1 - lateFetches i) ++ [x])
        (by rw [List.length_append, State.streamWords_length]; omega)
      obtain rfl := hsame (by
        rw [List.take_append_of_le_length (by rw [State.streamWords_length]; omega), State.streamWords_take,
          State.streamWords_take]
        congr 1
        omega)
      exact ⟨_, hj⟩
    obtain ⟨r, hr⟩ := read 0
    simp only [readInstr, hr]
    exact read _
  · have hm : m + 1 - lateFetches i = m - 1 := by omega
    obtain ⟨k, rfl⟩ : ∃ k, m = k + 1 := ⟨m - 1, by omega⟩
    rw [hm, Nat.add_sub_cancel]
    have words : ∀ x, (s.streamWords k ++ [x]).take (k + 1) = s.streamWords k ++ [x] := fun x =>
      List.take_of_length_le (by rw [List.length_append, State.streamWords_length]; exact Nat.le_refl _)
    have long : ∀ x, k + 1 ≤ (s.streamWords k ++ [x]).length := fun x => by
      rw [List.length_append, State.streamWords_length]
      exact Nat.le_refl _
    obtain ⟨j, hj, -, hsame⟩ := h.others (s.streamWords k ++ [0]) (long 0)
    have source : lateSource j = lateSource i := hsame (by
      rw [Nat.add_sub_cancel, List.take_append_of_le_length (Nat.le_of_eq (by rw [State.streamWords_length])), State.streamWords_take,
        State.streamWords_take]
      congr 1
      omega)
    have word : ∀ a, lateWord j a u = lateWord i a u := fun a => by rw [lateWord, lateWord, source]
    obtain ⟨j', hj', hsame', -⟩ := h.others (s.streamWords k ++ [s.streamWord (k + 1)]) (long _)
    obtain rfl := hsame' (by
      rw [words, ← State.streamWords_succ, State.streamWords_take]
      congr 1
      omega)
    refine ⟨(s.streamWords k ++ [s.streamWord (k + 1)]).drop (k + 1), ?_⟩
    simp only [readInstr, List.cons_append, hj, word, Nat.add_sub_cancel]
    rw [hlate sz src (by omega) hsource]
    exact hj'

/-! A step. -/

/-- The state in which the instruction at the boundary begins, its first two words read. -/
def State.begun (s : State) : State := (s.observe.sampled s.sample.ipl).begin s.observe.nextWords

theorem State.canFetch.mono {n k : Nat} (h : s.canFetch n) (hk : k ≤ n) : s.canFetch k :=
  ⟨h.1, fun j hj => h.2 j (Nat.le_trans hj hk)⟩

/-- Where the first two words are at hand or can be fetched, a step executes the instruction of these words. -/
theorem step_of_fetch {n : Nat} (hr : s.runsInstruction) (hn : 1 ≤ n) (h : s.canFetch n) :
    step s = execute exec s.observe.nextWords s.begun := by
  have fetch : (s.observe.sampled s.sample.ipl).canFetch n := h
  rw [step_of_runsInstruction hr, fetchExecute, openQueue_ok hn fetch]
  rfl

/-- Settles O55: the operation word tells the number of words, and the words fetched are those of the stream. -/
theorem stepRunsDecodedInstruction : Obligations.StepRunsDecodedInstruction := by
  intro s i rest hr hwf hd
  dsimp only
  obtain ⟨m, shaped⟩ := shaped_of_decode (State.stream_eq _ ▸ hd)
  have h4 : m ≤ 4 := by simpa using shaped.enough
  have count : 5 - rest.length = m + 1 := by
    rw [shaped.rest_eq, List.length_drop, State.streamWords_length]
    omega
  rw [count]
  intro hf
  have hl := shaped.late
  obtain ⟨j, hshape, hlate⟩ := shaped.shape h4
  have begunFetch : s.begun.canFetch (m + 1 - lateFetches i) := hf.mono (by omega)
  have first : Machine.shape s.observe.nextWords.1 = some (j, m + 1) := hshape
  have words : (fetchWords (m + 1 - 1 - lateFetches j) (s.begun.pc + 4)).run s.begun =
      .ok (s.begun.wordsAfter (m + 1 - lateFetches i)) s.begun := by
    rw [hlate, show m + 1 - 1 - lateFetches i = m + 1 - lateFetches i - 1 by omega]
    exact fetchWords_wordsAfter begunFetch
  have last : (s.observe.nextWords.2 :: s.begun.wordsAfter (m + 1 - lateFetches i)).getLastD 0 =
      s.begun.streamWord (m + 1 - lateFetches i) := State.wordsAfter_last (s := s.begun) (by omega)
  have list : s.observe.nextWords.2 :: s.begun.wordsAfter (m + 1 - lateFetches i) =
      s.observe.streamWords (m + 1 - lateFetches i) := s.begun.nextWords_wordsAfter (by omega)
  obtain ⟨rest', hread⟩ := readInstr_stream (u := s.atInstruction (m + 1 - lateFetches i)) shaped hwf
    fun sz src h2 hs => by
      have read : s.readsMemory s.programSpace (s.pc + BitVec.ofNat 32 (2 * m)) true := hf.2 m (by omega)
      refine (lateWord_eq (u := s.atInstruction _) hs (even_add (a := s.pc) hf.1 (Nat.mul_mod_right _ _)) read).trans ?_
      obtain ⟨k, rfl⟩ : ∃ k, m = k + 2 := ⟨m - 2, by omega⟩
      rfl
  rw [step_of_fetch hr (Nat.succ_pos m) hf, execute]
  simp only [first, words]
  have state : s.begun.withAhead ((s.observe.nextWords.2 :: s.begun.wordsAfter (m + 1 - lateFetches i)).getLastD 0) =
      s.atInstruction (m + 1 - lateFetches i) := by
    rw [last]
    rfl
  have op : s.observe.nextWords.1 :: s.observe.nextWords.2 :: s.begun.wordsAfter (m + 1 - lateFetches i) =
      s.observe.streamWord 0 :: s.observe.streamWords (m + 1 - lateFetches i) := by
    rw [list]
    rfl
  rw [state, op, hread]

end

/-! PROOF. The words fetched ahead (rules R88, R320, R370, R441, R491). -/

section
variable {s t : State} {i : Instr}

/-- An instruction that ends outside the windows has changed what its footprint allows; RESET, STOP and MOVE to USP keep the words ahead. -/
theorem exec_outside (h : exec i s = .next t) (hw : ¬ InWindow t) :
    Touch (s.footprint i) s t ∨ t.queue = s.queue ∧ (isStop i = false → t.run = s.run) := by
  have opened : Touch (s.footprint i) s s.opened := (Update.skip 1).touch
  have body : ∀ {m : M Unit}, Run (s.footprint i) m s.opened → conclude s (m.run s.opened) = .next t →
      Touch (s.footprint i) s t := fun {m} hr h => by
    cases hm : m.run s.opened with
    | ok a v =>
      rw [hm] at h
      cases h
      exact opened.trans (hr.touch.1 a t hm)
    | error e v =>
      rw [hm] at h
      exact absurd (conclude_error_inWindow s e v t h) hw
  have violation : ∀ {n : BitVec 8}, s.group1 n s.pc = .next t → False := fun h => hw (group1_inWindow _ _ _ t h)
  cases means i with
  | plain b he hr _ =>
    rw [he] at h
    exact .inl (body (hr s) h)
  | guarded b hp he hr _ =>
    rw [he, privileged] at h
    split at h
    · next hs => exact .inl (body (hr s hs) h)
    · exact (violation h).elim
  | line n hn _ he _ =>
    rw [he] at h
    exact (violation h).elim
  | silent hi =>
    right
    rcases hi with rfl | ⟨w, rfl⟩ | ⟨an, rfl⟩
    · rw [exec_reset] at h
      split at h
      · cases h
        exact ⟨rfl, fun _ => rfl⟩
      · exact (violation h).elim
    · rw [exec_stop] at h
      split at h
      · cases h
        exact ⟨rfl, nofun⟩
      · exact (violation h).elim
    · rw [exec_moveToUsp] at h
      split at h
      · cases h
        exact ⟨rfl, fun _ => rfl⟩
      · exact (violation h).elim

/-- Outside the windows the end of an instruction fetches the words ahead, with the marker of a trace set. -/
theorem finish_outside {old : State} {n : Nat} (h0 : t.inGroup0 = false) (h1 : t.inGroup1 = false) (h2 : t.inGroup2 = false) :
    finish old n (.next t) = refill old n (t.withTrace old.sr.t) := by
  simp [finish, h0, h1, h2]

/-- After an instruction of one word the word ahead is held (rule R88). -/
theorem wordsAhead_held_word {old u : State} {q : Word × Word} {a : Unit} (hq : t.queue = some q) (hs : t.sr.s = old.sr.s)
    (h : (wordsAhead old 1).run t = .ok a u) : ∃ w, u.queue = some (q.2, w) ∧ u.pc = t.pc := by
  obtain ⟨sr, v, h0, h⟩ := bind_ok_cases h
  cases h0
  obtain ⟨held, v, h0, h⟩ := bind_ok_cases h
  cases h0
  rw [hq, show (t.sr.s == old.sr.s) = true by rw [hs]; exact beq_self_eq_true _] at h
  obtain ⟨q', v, h0, h⟩ := bind_ok_cases h
  have hpc : v.pc = t.pc := (idle_prefetch (idle_pc t.pc) _ _ _).ok rfl h0
  cases h
  obtain ⟨pc, v', h1, h0⟩ := bind_ok_cases h0
  cases h1
  rw [if_pos rfl] at h0
  obtain ⟨w0, v', h1, h0⟩ := bind_ok_cases h0
  cases h1
  obtain ⟨w1, v', h1, h0⟩ := bind_ok_cases h0
  cases h0
  exact ⟨w1, rfl, hpc⟩

/-- An instruction of one word is one before any words. -/
theorem shaped_of_oneWord {w : Word} {rest : List Word} (h : decode (w :: rest) = .ok (i, rest)) :
    Shaped w rest i rest 0 := by
  obtain ⟨m, shaped⟩ := shaped_of_decode h
  obtain rfl : m = 0 := by
    have count := congrArg List.length shaped.rest_eq
    have enough := shaped.enough
    rw [List.length_drop] at count
    omega
  exact shaped

end

/-- Settles O58: an instruction of one word fetches no word itself and keeps the queue, whose second word is then held. -/
theorem prefetchedWordIsExecuted : Obligations.PrefetchedWordIsExecuted := by
  intro s t u i w0 w1 rest hr hq hwf hd hf h htq hts h0 h1 h2 hstep hu
  have shaped := shaped_of_oneWord hd
  have hw := not_inWindow h0 h1 h2
  have notStop : isStop i = false := eq_false_of_ne_true fun hi => by cases shaped.stop hi
  have late : lateFetches i = 0 := Nat.le_zero.mp shaped.late
  have hstream : decode s.observe.stream = .ok (i, s.observe.streamWords 4) := by
    obtain ⟨j, hj, hsame, -⟩ := shaped.others (s.observe.streamWords 4) (Nat.zero_le _)
    obtain rfl := hsame rfl
    have op : s.observe.streamWord 0 = w0 := by
      rw [State.streamWord, if_pos rfl, State.nextWords, show s.observe.queue = some (w0, w1) from hq]
    rw [State.stream_eq, op, hj]
    rfl
  have run : step s = finish (s.atInstruction 1) 1 (exec i (s.atInstruction 1)) := by
    simpa [late] using stepRunsDecodedInstruction s i _ hr hwf hstream (by simpa using hf)
  have begun : (s.atInstruction 1).queue = some (w0, w1) ∧ (s.atInstruction 1).run = .normal := by
    refine ⟨?_, hr.2.1⟩
    have next : s.observe.nextWords = (w0, w1) := by
      rw [State.nextWords, show s.observe.queue = some (w0, w1) from hq]
    rw [State.atInstruction, State.streamWord, if_neg (by decide), if_pos rfl, next]
    rfl
  obtain ⟨hqueue, hrun⟩ : t.queue = some (w0, w1) ∧ t.run = .normal := by
    rcases exec_outside h hw with touch | ⟨hqt, hrt⟩
    · refine ⟨?_, touch.hidden.1.trans begun.2⟩
      rcases touch.queue (show (lateFetches i != 0) = false by rw [late]; rfl) with hqt | ⟨-, hn⟩
      · exact hqt.trans begun.1
      · rw [hn] at htq
        cases htq
    · exact ⟨hqt.trans begun.1, (hrt notStop).trans begun.2⟩
  have supervisor : t.sr.s = (s.atInstruction 1).sr.s := hts
  generalize s.atInstruction 1 = old at h run supervisor
  have running : (t.withTrace old.sr.t).run ≠ .stopped := fun hn => by cases hrun.symm.trans hn
  rw [hstep, h, finish_outside h0 h1 h2, refill, if_neg running] at run
  split at run
  · next v hv =>
    cases run
    exact wordsAhead_held_word (t := t.withTrace old.sr.t) hqueue supervisor hv
  · cases (abortFetch_inGroup0 _ _ _ u run.symm).symm.trans hu

/-! The words of the stream in the order of their fetches. -/

section
variable {s t : State} {i : Instr}

theorem LeftBy.refl (i : Instr) (s : State) : LeftBy i s s where
  hidden := .refl s
  registers _ _ := by
    rw [show s.withSr s.sr = s from rfl]
  high _ := rfl
  inactive := by split <;> rfl
  system _ := ⟨rfl, rfl, rfl⟩
  flags _ := rfl
  zeroOnly _ := ⟨rfl, rfl, rfl⟩
  extend _ := rfl
  memory _ _ _ := rfl

/-- Of the fetches from an address the one at `k` meets BERR, the ones before it are answered by memory. -/
theorem fetchWords_busError {n k : Nat} {addr : Long} (hk : k < n) (he : addr.getLsbD 0 = false) (hc : s.cycles = [])
    (hbefore : ∀ j, j < k → s.readsMemory s.programSpace (addr + BitVec.ofNat 32 (2 * j)) true)
    (h : s.platform.readReply s.programSpace (addr + BitVec.ofNat 32 (2 * k)) true = .busError) :
    (fetchWords n addr).run s =
      .error (.fetch .bus { addr := addr + BitVec.ofNat 32 (2 * k), write := false, space := s.programSpace }) s := by
  induction n generalizing addr k with
  | zero => cases hk
  | succ n ih =>
    have addr0 : addr + BitVec.ofNat 32 (2 * 0) = addr := BitVec.add_zero _
    rw [fetchWords]
    cases k with
    | zero =>
      rw [addr0] at h ⊢
      exact bind_error (fetchWord_busError he hc h)
    | succ k =>
      have next : ∀ j, addr + 2 + BitVec.ofNat 32 (2 * j) = addr + BitVec.ofNat 32 (2 * (j + 1)) := fun j => by
        rw [Nat.mul_succ, Nat.add_comm, BitVec.ofNat_add, BitVec.add_assoc]
        rfl
      have first : s.canRead .word s.programSpace addr := ⟨he, addr0 ▸ hbefore 0 (Nat.succ_pos k)⟩
      have rest := ih (addr := addr + 2) (Nat.lt_of_succ_lt_succ hk) (even_add (n := 2) he rfl)
        (fun j hj => next j ▸ hbefore (j + 1) (Nat.succ_lt_succ hj)) (next k ▸ h)
      rw [bind_ok (fetchWord_ok first), bind_error rest, next]

/-- A word of an instruction that cannot be fetched aborts the step before the instruction begins. -/
theorem step_busError {rest : List Word} {k : Nat} (hr : s.runsInstruction) (hd : decode s.observe.stream = .ok (i, rest))
    (h2 : 2 ≤ k) (hk : k + lateFetches i ≤ 5 - rest.length) (hf : s.canFetch (k - 1))
    (h : s.platform.readReply s.programSpace (s.pc + BitVec.ofNat 32 (2 * k)) true = .busError) :
    step s = s.begun.group0 .bus
      { addr := s.pc + BitVec.ofNat 32 (2 * k), write := false, space := s.programSpace } .extension := by
  obtain ⟨m, shaped⟩ := shaped_of_decode (State.stream_eq _ ▸ hd)
  have h4 : m ≤ 4 := by simpa using shaped.enough
  rw [shaped.rest_eq, List.length_drop, State.streamWords_length] at hk
  obtain ⟨j, hshape, hlate⟩ := shaped.shape h4
  have first : Machine.shape s.observe.nextWords.1 = some (j, m + 1) := hshape
  have at4 : ∀ n, s.pc + 4 + BitVec.ofNat 32 (2 * n) = s.pc + BitVec.ofNat 32 (2 * (n + 2)) := pc_add_four s.pc
  obtain ⟨l, rfl⟩ : ∃ l, k = l + 2 := ⟨k - 2, by omega⟩
  have fetch : (fetchWords (m + 1 - 1 - lateFetches j) (s.begun.pc + 4)).run s.begun =
      .error (.fetch .bus { addr := s.pc + BitVec.ofNat 32 (2 * (l + 2)), write := false, space := s.programSpace }) s.begun := by
    rw [← at4]
    refine fetchWords_busError (s := s.begun) (by omega) (even_add (n := 4) (a := s.pc) hf.1 rfl) (hf.2 0 (Nat.zero_le _)).1
      (fun n hn => ?_) ?_
    · exact (at4 n) ▸ hf.2 (n + 2) (by omega)
    · exact (at4 l) ▸ h
  rw [step_of_fetch hr (by omega) hf, execute]
  simp only [first, fetch]
  rfl

/-- The operation word of STOP has one extension word. -/
theorem stop_length {w : Word} {rest : List Word} (hd : decode s.observe.stream = .ok (.stop w, rest)) : 5 - rest.length = 2 := by
  obtain ⟨m, shaped⟩ := shaped_of_decode (State.stream_eq _ ▸ hd)
  rw [shaped.rest_eq, shaped.stop rfl, List.length_drop, State.streamWords_length]

/-- Where no word is held, the words at PC are fetched at the end of the instruction (rules R320, R413). -/
theorem refill_empty {old : State} {n : Nat} (hq : t.queue = none) (hr : t.run = .normal) :
    refill old n t = match fillQueue.run t with
      | .ok _ u => .next u
      | .error e u => abortFetch (.operation false) e (old.settle u) := by
  have running : t.run ≠ .stopped := fun hn => by cases hr.symm.trans hn
  have drop : t.dropQueue = t := by
    rw [State.dropQueue, ← hq]
  have ahead : (wordsAhead old n).run t = fillQueue.run t := by
    rw [wordsAhead, bind_ok (ask_run _ _), bind_ok (ask_run _ _), hq, bind_ok (upd_run _ _), drop]
  rw [refill, if_neg running, ahead] <;> rfl

end

/-- Settles O59: the fetches before the instruction, none after STOP, and the two words at the target of a transfer. -/
theorem wordsFetchedAhead : Obligations.WordsFetchedAhead := by
  refine ⟨fun s i rest k hr _ hd h2 hk hf h => ?_, fun s w rest hr hs hd hf => ?_,
    fun s t n h0 h1 h2 hr hq => ⟨fun h => ?_, fun hc he h => ?_⟩⟩
  · have same : LeftBy i (s.atInstruction 1) s.begun :=
      { LeftBy.refl i (s.atInstruction 1) with }
    exact ⟨s.begun, same, step_busError hr hd h2 hk hf h⟩
  · have run := stepRunsDecodedInstruction s _ rest hr rfl hd
    rw [stop_length hd] at run
    rw [run hf, exec_stop, if_pos (show (s.atInstruction (2 - lateFetches (.stop w))).sr.s = true from hs)]
    rfl
  · rw [finish_outside h0 h1 h2, refill_empty (t := t.withTrace s.sr.t) hq hr, fillQueue_ok (s := t.withTrace s.sr.t) h]
  · have fetch : fillQueue.run (t.withTrace s.sr.t) =
        .error (.fetch .bus { addr := t.pc, write := false, space := t.programSpace }) (t.withTrace s.sr.t) := by
      rw [fillQueue, bind_ok (ask_run _ _), if_neg (by rw [show (t.withTrace s.sr.t).pc = t.pc from rfl, he]; decide)]
      exact bind_error (fetchWord_busError (s := t.withTrace s.sr.t) he hc h)
    rw [finish_outside h0 h1 h2, refill_empty (t := t.withTrace s.sr.t) hq hr, fetch]
    exact ⟨_, between_settle s (t.withTrace s.sr.t), rfl⟩

end Sys2Proof.Machine
end

section
/-! PROOF. Operands stored one after the other, and MOVEM from registers to memory (rules R163 to R166). -/

namespace Sys2Proof.Machine

/-! Operands in memory. -/

section
variable {s t : State} {sz : Size} {sp : Space}

theorem add_zero_ofNat (x : Long) : x + BitVec.ofNat 32 0 = x := BitVec.add_zero x

/-- An operand is its bytes. -/
theorem operandAt_congr {a : Long} (h : ∀ j, j < sz.bytes → t.byteAt sp (a + BitVec.ofNat 32 j) = s.byteAt sp (a + BitVec.ofNat 32 j)) :
    t.operandAt sz sp a = s.operandAt sz sp a := by
  have e3 : a + 2 + 1 = a + BitVec.ofNat 32 3 := add_ofNat_succ a 2
  cases sz with
  | byte =>
    have h0 := h 0 (by decide)
    rw [add_zero_ofNat] at h0
    simp only [State.operandAt, h0]
  | word =>
    have h0 := h 0 (by decide)
    have h1 : t.byteAt sp (a + 1) = s.byteAt sp (a + 1) := h 1 (by decide)
    rw [add_zero_ofNat] at h0
    simp only [State.operandAt, State.wordAt, h0, h1]
  | long =>
    have h0 := h 0 (by decide)
    have h1 : t.byteAt sp (a + 1) = s.byteAt sp (a + 1) := h 1 (by decide)
    have h2 : t.byteAt sp (a + 2) = s.byteAt sp (a + 2) := h 2 (by decide)
    have h3 := h 3 (by decide)
    rw [add_zero_ofNat] at h0
    simp only [State.operandAt, State.longAt, State.wordAt, h0, h1, h2, e3, h3]

/-- An operand stored inside a range. -/
theorem sameMemoryOutside_putOperand (s : State) (sz : Size) (pre : Bool) (sp : Space) (x v : Long) {i n : Nat}
    (h : i + sz.bytes ≤ n) : SameMemoryOutside s (s.putOperand sz pre sp (x + BitVec.ofNat 32 i) v) sp x n := by
  have add2 : x + BitVec.ofNat 32 i + 2 = x + BitVec.ofNat 32 (i + 2) := by
    rw [BitVec.ofNat_add, BitVec.add_assoc]
    rfl
  cases sz with
  | byte => exact sameMemoryOutside_putByte _ _ _ _ h
  | word => exact sameMemoryOutside_putWord _ _ _ _ h
  | long =>
    have first : i + 2 ≤ n := Nat.le_trans (Nat.add_le_add_left (by decide) i) h
    have second : i + 2 + 2 ≤ n := h
    simp only [State.putOperand, add2]
    split
    · exact .trans (t := s.putWord sp (x + BitVec.ofNat 32 (i + 2)) _) rfl (sameMemoryOutside_putWord _ _ _ _ second)
        (sameMemoryOutside_putWord _ _ _ _ first)
    · exact .trans (t := s.putWord sp (x + BitVec.ofNat 32 i) _) rfl (sameMemoryOutside_putWord _ _ _ _ first)
        (sameMemoryOutside_putWord _ _ _ _ second)

/-- Reading an operand just stored (rules R64, R65). -/
theorem operandAt_putOperand (hm : Memory.wf s.mem = true) (pre : Bool) (a v : Long) :
    (s.putOperand sz pre sp a v).operandAt sz sp a = sz.trunc v := by
  cases sz with
  | byte => simp only [State.operandAt, State.putOperand, State.byteAt_putByte_same hm, Size.trunc]
  | word => simp only [State.operandAt, State.putOperand, State.wordAt_putWord_same hm, Size.trunc]
  | long =>
    have halves : v.extractLsb' 16 16 ++ v.extractLsb' 0 16 = v := by
      ext i hi
      simp only [BitVec.getElem_append, BitVec.getElem_extractLsb']
      split
      · simp [BitVec.getLsbD_eq_getElem hi]
      · simp [show 16 + (i - 16) = i by omega, BitVec.getLsbD_eq_getElem hi]
    have high : ∀ (u : State) w, (u.putWord sp (a + 2) w).wordAt sp a = u.wordAt sp a := fun u w => by
      have := State.wordAt_putWord_other (s := u) (sp := sp) (x := a) (i := 2) (j := 0) (w := w) (by decide) (by decide)
        (.inr (by decide))
      rwa [add_zero_ofNat] at this
    have low : ∀ (u : State) w, (u.putWord sp a w).wordAt sp (a + 2) = u.wordAt sp (a + 2) := fun u w => by
      have := State.wordAt_putWord_other (s := u) (sp := sp) (x := a) (i := 0) (j := 2) (w := w) (by decide) (by decide)
        (.inl (by decide))
      rwa [add_zero_ofNat] at this
    simp only [State.operandAt, State.putOperand, State.longAt, Size.trunc]
    split
    · rw [State.wordAt_putWord_same (State.wf_putWord hm), low, State.wordAt_putWord_same hm, halves]
    · rw [high, State.wordAt_putWord_same hm, State.wordAt_putWord_same (State.wf_putWord hm), halves]

end

/-! Operands stored at distances from an address. -/

/-- Operands stored at distances from an address, the first first. -/
def State.putAll (s : State) (sz : Size) (pre : Bool) (sp : Space) (x : Long) (l : List (Nat × Long)) : State :=
  l.foldl (fun s p => s.putOperand sz pre sp (x + BitVec.ofNat 32 p.1) p.2) s

/-- Operands of `m` bytes that do not overlap, in `n` bytes. -/
def Apart (m n : Nat) (l : List (Nat × Long)) : Prop :=
  l.Pairwise (fun p q => p.1 + m ≤ q.1 ∨ q.1 + m ≤ p.1) ∧ ∀ p ∈ l, p.1 + m ≤ n

theorem Apart.tail {m n : Nat} {p : Nat × Long} {l : List (Nat × Long)} (h : Apart m n (p :: l)) : Apart m n l :=
  ⟨(List.pairwise_cons.mp h.1).2, fun q hq => h.2 q (List.mem_cons_of_mem _ hq)⟩

section
variable {s : State} {sz : Size} {pre : Bool} {sp : Space} {x : Long} {l : List (Nat × Long)} {n : Nat}

theorem State.putAll_cons (s : State) (sz : Size) (pre : Bool) (sp : Space) (x : Long) (p : Nat × Long) (l : List (Nat × Long)) :
    s.putAll sz pre sp x (p :: l) = (s.putOperand sz pre sp (x + BitVec.ofNat 32 p.1) p.2).putAll sz pre sp x l := rfl

theorem State.putOperand_eq (s : State) (sz : Size) (pre : Bool) (sp : Space) (a v : Long) :
    s.putOperand sz pre sp a v = { s with mem := (s.putOperand sz pre sp a v).mem } := by
  cases sz with
  | byte | word => rfl
  | long =>
    simp only [State.putOperand]
    split <;> rfl

/-- Storing operands is storing memory. -/
theorem State.putAll_eq (s : State) (sz : Size) (pre : Bool) (sp : Space) (x : Long) (l : List (Nat × Long)) :
    s.putAll sz pre sp x l = { s with mem := (s.putAll sz pre sp x l).mem } := by
  induction l generalizing s with
  | nil => rfl
  | cons p l ih =>
    rw [State.putAll_cons, ih, State.putOperand_eq]

@[simp] theorem State.putAll_platform (s : State) (sz : Size) (pre : Bool) (sp : Space) (x : Long) (l : List (Nat × Long)) :
    (s.putAll sz pre sp x l).platform = s.platform := by
  rw [State.putAll_eq]

theorem sameMemoryOutside_putAll (h : ∀ p ∈ l, p.1 + sz.bytes ≤ n) :
    SameMemoryOutside s (s.putAll sz pre sp x l) sp x n := by
  induction l generalizing s with
  | nil => exact .refl _ _ _ _
  | cons p l ih =>
    exact .trans (t := s.putOperand sz pre sp (x + BitVec.ofNat 32 p.1) p.2) (by simp)
      (sameMemoryOutside_putOperand _ _ _ _ _ _ (h p List.mem_cons_self)) (ih fun q hq => h q (List.mem_cons_of_mem _ hq))

/-- A byte that no operand covers. -/
theorem byteAt_putAll_other {d : Nat} (hd : d < 16777216) (h : ∀ q ∈ l, (d < q.1 ∨ q.1 + sz.bytes ≤ d) ∧ q.1 + sz.bytes ≤ 16777216) :
    (s.putAll sz pre sp x l).byteAt sp (x + BitVec.ofNat 32 d) = s.byteAt sp (x + BitVec.ofNat 32 d) := by
  induction l generalizing s with
  | nil => rfl
  | cons q l ih =>
    obtain ⟨hq, hlim⟩ := h q List.mem_cons_self
    rw [State.putAll_cons, ih fun r hr => h r (List.mem_cons_of_mem _ hr)]
    have outside := sameMemoryOutside_putOperand s sz pre sp (x + BitVec.ofNat 32 q.1) q.2 (i := 0) (n := sz.bytes) (by omega)
    rw [add_zero_ofNat] at outside
    refine outside sp _ fun k hk => ?_
    rw [BitVec.add_assoc, ← BitVec.ofNat_add]
    exact Platform.key_add_ne _ _ _ hd (by omega) (by omega)

/-- Every operand is read back. -/
theorem operandAt_putAll (hm : Memory.wf s.mem = true) (h : Apart sz.bytes n l) (hn : n ≤ 16777216) {p : Nat × Long}
    (hp : p ∈ l) : (s.putAll sz pre sp x l).operandAt sz sp (x + BitVec.ofNat 32 p.1) = sz.trunc p.2 := by
  induction l generalizing s with
  | nil => cases hp
  | cons q l ih =>
    rw [State.putAll_cons]
    rcases List.mem_cons.mp hp with rfl | hp
    · rw [← operandAt_putOperand hm pre]
      have hlast := h.2 p List.mem_cons_self
      refine operandAt_congr fun j hj => ?_
      rw [BitVec.add_assoc, ← BitVec.ofNat_add]
      refine byteAt_putAll_other (by omega) fun r hr => ?_
      have apart := (List.pairwise_cons.mp h.1).1 r hr
      have := h.2 r (List.mem_cons_of_mem _ hr)
      omega
    · exact ih (State.wf_putOperand hm) h.tail hp

end

/-! Registers stored. -/

section
variable {s : State} {sz : Size} {sp : Space} {x : Long} {ks : List (Fin 16)} {off : Nat → Nat}

/-- The values of registers, each with its distance. -/
def State.listed (s : State) (off : Nat → Nat) (ks : List (Fin 16)) : List (Nat × Long) :=
  ks.mapIdx fun k r => (off k, s.getR r)

theorem State.listed_cons (s : State) (off : Nat → Nat) (k : Fin 16) (ks : List (Fin 16)) :
    s.listed off (k :: ks) = (off 0, s.getR k) :: s.listed (fun j => off (j + 1)) ks := by
  simp [State.listed, List.mapIdx_cons]

theorem State.getR_putOperand (s : State) (sz : Size) (pre : Bool) (sp : Space) (a v : Long) (r : Fin 16) :
    (s.putOperand sz pre sp a v).getR r = s.getR r := by
  simp only [State.getR, State.getD_putOperand, State.getA_putOperand]

theorem State.listed_putOperand (s : State) (sz : Size) (pre : Bool) (sp : Space) (a v : Long) (off : Nat → Nat)
    (ks : List (Fin 16)) : (s.putOperand sz pre sp a v).listed off ks = s.listed off ks := by
  simp only [State.listed, State.getR_putOperand]

theorem mem_listed {k : Nat} {r : Fin 16} (h : ks[k]? = some r) : (off k, s.getR r) ∈ s.listed off ks := by
  rw [State.listed, List.mem_iff_getElem?]
  exact ⟨k, by simp [h]⟩

/-- Registers at distances that are apart. -/
theorem apart_listed {n : Nat} (h : ∀ j k, j < k → k < ks.length → off j + sz.bytes ≤ off k ∨ off k + sz.bytes ≤ off j)
    (hn : ∀ k, k < ks.length → off k + sz.bytes ≤ n) : Apart sz.bytes n (s.listed off ks) := by
  refine ⟨List.pairwise_iff_getElem.mpr fun i j hi hj hij => ?_, fun p hp => ?_⟩
  · simp only [State.listed, List.getElem_mapIdx]
    exact h i j hij (by simpa [State.listed] using hj)
  · obtain ⟨i, hi, rfl⟩ := List.mem_iff_getElem.mp hp
    simp only [State.listed, List.getElem_mapIdx]
    exact hn i (by simpa [State.listed] using hi)

/-- MOVEM's ascending stores where memory answers. -/
theorem storeUp_ok {a : Long} (hw : ∀ k, k < ks.length → s.canWrite sz sp (a + BitVec.ofNat 32 (k * sz.bytes)))
    (hx : ∀ k, k < ks.length → a + BitVec.ofNat 32 (k * sz.bytes) = x + BitVec.ofNat 32 (off k)) :
    (storeUp sz sp ks a).run s = .ok () (s.putAll sz false sp x (s.listed off ks)) := by
  induction ks generalizing s a off with
  | nil => rfl
  | cons r ks ih =>
    have first := hw 0 (Nat.succ_pos _)
    have at0 := hx 0 (Nat.succ_pos _)
    rw [Nat.zero_mul, add_zero_ofNat] at first at0
    rw [storeUp, bind_ok (ask_run _ _), bind_ok (writeMem_ok first), State.listed_cons, State.putAll_cons, ← at0,
      ← State.listed_putOperand s sz false sp a (s.getR r)]
    refine ih (off := fun j => off (j + 1)) (fun k hk => ?_) fun k hk => ?_
    · rw [add_operands]
      exact State.canWrite_of_bus (hw (k + 1) (Nat.succ_lt_succ hk)) (by simp)
    · rw [add_operands]
      exact hx (k + 1) (Nat.succ_lt_succ hk)

/-- MOVEM's descending stores where memory answers. -/
theorem storeDown_ok {a : Long} (hw : ∀ k, k < ks.length → s.canWrite sz sp (a - BitVec.ofNat 32 ((k + 1) * sz.bytes)))
    (hx : ∀ k, k < ks.length → a - BitVec.ofNat 32 ((k + 1) * sz.bytes) = x + BitVec.ofNat 32 (off k)) :
    (storeDown sz sp ks a).run s =
      .ok (a - BitVec.ofNat 32 (ks.length * sz.bytes)) (s.putAll sz true sp x (s.listed off ks)) := by
  induction ks generalizing s a off with
  | nil =>
    rw [List.length_nil, Nat.zero_mul, show a - BitVec.ofNat 32 0 = a from BitVec.sub_zero a]
    rfl
  | cons r ks ih =>
    have first := hw 0 (Nat.succ_pos _)
    have at0 := hx 0 (Nat.succ_pos _)
    rw [Nat.one_mul] at first at0
    rw [storeDown, bind_ok (ask_run _ _), bind_ok (writeMem_ok first), State.listed_cons, State.putAll_cons, ← at0,
      ← State.listed_putOperand s sz true sp (a - BitVec.ofNat 32 sz.bytes) (s.getR r), List.length_cons, ← sub_operands]
    refine ih (off := fun j => off (j + 1)) (fun k hk => ?_) fun k hk => ?_
    · rw [sub_operands]
      exact State.canWrite_of_bus (hw (k + 1) (Nat.succ_lt_succ hk)) (by simp)
    · rw [sub_operands]
      exact hx (k + 1) (Nat.succ_lt_succ hk)

theorem maskRegs_length_le (mask : Word) : (maskRegs mask).length ≤ 16 := List.length_filter_le _ _

theorem sizeOfBit_bytes (long : Bool) : 2 ≤ (sizeOfBit long).bytes ∧ (sizeOfBit long).bytes ≤ 4 := by
  cases long <;> decide

/-- A state at another address. -/
def State.moved (s : State) (p : Long) : State := { s with pc := p }

/-- Resolving a control operand moves PC only. -/
theorem resolved_control {ea : Ea} (h : ea.isControl = true) (s : State) :
    s.resolved 1 .long ea = s.moved (s.resolved 1 .long ea).pc := by
  obtain ⟨n, hn⟩ := resolve_control (t := s.after 1) (sz := .long) h
  rw [State.resolved, hn]
  rfl

theorem State.listed_moved (s : State) (p : Long) (off : Nat → Nat) (ks : List (Fin 16)) :
    (s.moved p).listed off ks = s.listed off ks := rfl

theorem State.after_moved (s : State) (n : Nat) : s.after n = s.moved (s.after n).pc := rfl

/-- A state at another address with another memory. -/
def State.placed (s : State) (p : Long) (m : List Host.Cell) : State := { s with pc := p, mem := m }

theorem State.putAll_moved (s : State) (p : Long) (sz : Size) (pre : Bool) (sp : Space) (x : Long) (l : List (Nat × Long)) :
    (s.moved p).putAll sz pre sp x l = s.placed p ((s.moved p).putAll sz pre sp x l).mem :=
  State.putAll_eq (s.moved p) sz pre sp x l

/-- Registers stored at distances that are apart. -/
theorem putAll_listed {n : Nat} (p : Long) (pre : Bool) (hm : Memory.wf s.mem = true) (hn : n ≤ 16777216)
    (ha : Apart sz.bytes n (s.listed off ks)) :
    ∃ m, (s.moved p).putAll sz pre sp x (s.listed off ks) = s.placed p m ∧ SameMemoryOutside s (s.placed p m) sp x n ∧
      ∀ k r, ks[k]? = some r → (s.placed p m).operandAt sz sp (x + BitVec.ofNat 32 (off k)) = sz.trunc (s.getR r) := by
  have outside : SameMemoryOutside s ((s.moved p).putAll sz pre sp x (s.listed off ks)) sp x n :=
    .trans (t := s.moved p) rfl (fun _ _ _ => rfl) (sameMemoryOutside_putAll ha.2)
  have wf : Memory.wf (s.moved p).mem = true := hm
  have stored := fun k r (hr : ks[k]? = some r) => operandAt_putAll (sp := sp) (x := x) (pre := pre) wf ha hn (mem_listed hr)
  rw [State.putAll_moved] at outside stored ⊢
  exact ⟨_, rfl, outside, stored⟩

end

/-- MOVEM to memory at ascending addresses. -/
theorem exec_movemToMem_control {s : State} {long : Bool} {mask : Word} {ea : Ea} (h : ea.isControlAlterable = true)
    (hw : ∀ k, k < (maskRegs mask).length →
      s.canWrite (sizeOfBit long) s.dataSpace (s.addressOf 1 ea + BitVec.ofNat 32 (k * (sizeOfBit long).bytes))) :
    exec (.movemToMem long mask ea) s = .next ((s.resolved 1 .long ea).putAll (sizeOfBit long) false s.dataSpace
      (s.addressOf 1 ea) ((s.resolved 1 .long ea).listed (fun k => k * (sizeOfBit long).bytes) (maskRegs mask))) := by
  have hc : ea.isControl = true := by
    rw [Ea.isControlAlterable, Bool.and_eq_true] at h
    exact h.1
  have hbus : (s.resolved 1 .long ea).platform = s.platform ∧ (s.resolved 1 .long ea).cycles = s.cycles := by
    rw [resolved_control hc]
    exact ⟨rfl, rfl⟩
  have hspace : (s.resolved 1 .long ea).dataSpace = s.dataSpace := by
    rw [resolved_control hc]
    rfl
  have stores := storeUp_ok (s := s.resolved 1 .long ea) (x := s.addressOf 1 ea)
    (off := fun k => k * (sizeOfBit long).bytes) (fun k hk => State.canWrite_of_bus (hw k hk) hbus) fun _ _ => rfl
  have run : exec (.movemToMem long mask ea) s = instr s (skipWord >>= fun _ => effectiveAddress ea >>= fun start =>
      ask State.dataSpace >>= fun sp => storeUp (sizeOfBit long) sp (maskRegs mask) start) := by
    cases ea with
    | dn | an | postInc | preDec | imm => cases hc
    | _ => rfl
  rw [run]
  refine instr_word ?_
  rw [bind_ok (effectiveAddress_after hc), bind_ok (ask_run _ _), hspace]
  exact stores

/-- MOVEM to memory at descending addresses. -/
theorem exec_movemToMem_preDec {s : State} {long : Bool} {mask : Word} {an : Reg}
    (hw : ∀ k, k < (maskRegsDown mask).length →
      s.canWrite (sizeOfBit long) s.dataSpace (s.getA an - BitVec.ofNat 32 ((k + 1) * (sizeOfBit long).bytes))) :
    let low := s.getA an - BitVec.ofNat 32 ((maskRegsDown mask).length * (sizeOfBit long).bytes)
    exec (.movemToMem long mask (.preDec an)) s = .next (((s.after 1).putAll (sizeOfBit long) true s.dataSpace low
      (s.listed (fun k => ((maskRegsDown mask).length - 1 - k) * (sizeOfBit long).bytes) (maskRegsDown mask))).putA an low) := by
  dsimp only
  have stores := storeDown_ok (s := s.after 1) (a := s.getA an)
    (x := s.getA an - BitVec.ofNat 32 ((maskRegsDown mask).length * (sizeOfBit long).bytes))
    (off := fun k => ((maskRegsDown mask).length - 1 - k) * (sizeOfBit long).bytes)
    (fun k hk => State.canWrite_of_bus (hw k hk) ⟨rfl, rfl⟩) fun k hk => sub_eq_add_operands (s.getA an) hk
  have run : exec (.movemToMem long mask (.preDec an)) s = instr s (skipWord >>= fun _ => ask (fun s => s.getA an) >>= fun start =>
      ask State.dataSpace >>= fun sp => storeDown (sizeOfBit long) sp (maskRegsDown mask) start >>= fun last =>
        upd fun s => s.putA an last) := rfl
  rw [run]
  refine instr_word ?_
  rw [bind_ok (ask_run _ _), bind_ok (ask_run _ _)]
  exact bind_ok stores

section
variable {m j k b : Nat}

/-- The bytes of one of `m` operands lie among those of all of them. -/
theorem listed_bytes (h : j < m) : j * b + b ≤ m * b := by
  rw [← Nat.succ_mul]
  exact Nat.mul_le_mul_right _ h

theorem listed_room (hm : m ≤ 16) (long : Bool) : m * (sizeOfBit long).bytes ≤ 16777216 := by
  have := Nat.mul_le_mul hm (sizeOfBit_bytes long).2
  omega

end

/-- Settles O25: the stores are those of the listed registers, one after the other. -/
theorem movemStores : Obligations.MovemStores := by
  intro s long mask hm
  refine ⟨fun ea hea hw => ?_, fun an hw => ?_⟩
  · have hc : ea.isControl = true := by
      rw [Ea.isControlAlterable, Bool.and_eq_true] at hea
      exact hea.1
    have apart : Apart (sizeOfBit long).bytes _ (s.listed (fun k => k * (sizeOfBit long).bytes) (maskRegs mask)) :=
      apart_listed (fun j k h _ => .inl (listed_bytes h)) fun k h => listed_bytes h
    have run := exec_movemToMem_control hea hw
    rw [resolved_control hc] at run
    obtain ⟨m, hm, outside, stored⟩ := putAll_listed (x := s.addressOf 1 ea) (sp := s.dataSpace) (s.resolved 1 .long ea).pc false hm
      (listed_room (maskRegs_length_le mask) long) apart
    rw [State.listed_moved, hm] at run
    exact ⟨_, run, stored, outside, rfl, fun _ _ => rfl, ⟨fun _ _ => rfl, by cases s.sr.s <;> rfl⟩, rfl,
      ⟨rfl, rfl, rfl, rfl, rfl, rfl, rfl, rfl, rfl, rfl, rfl, rfl⟩, rfl, rfl⟩
  · have apart : Apart (sizeOfBit long).bytes _
        (s.listed (fun k => ((maskRegsDown mask).length - 1 - k) * (sizeOfBit long).bytes) (maskRegsDown mask)) :=
      apart_listed (fun j k h hk => .inr (listed_bytes (by omega))) fun k h => listed_bytes (m := (maskRegsDown mask).length) (by omega)
    have run := exec_movemToMem_preDec hw
    obtain ⟨m, hm, outside, stored⟩ := putAll_listed (x := s.getA an - BitVec.ofNat 32 ((maskRegsDown mask).length * (sizeOfBit long).bytes))
      (sp := s.dataSpace) (s.after 1).pc true hm (listed_room (maskRegsDown_length mask ▸ maskRegs_length_le mask) long) apart
    rw [State.after_moved] at run
    dsimp only at run
    rw [hm] at run
    have getA_placed : ∀ r, (s.placed (s.after 1).pc m).getA r = s.getA r := fun _ => rfl
    refine ⟨_, run, fun k r hr => ?_, by simp, fun sp y h => ?_, State.putA_pc _ _ _, fun r _ => State.getD_putA _ _ _ _,
      ⟨fun r hr => ?_, ?_⟩, State.putA_sr _ _ _, ?_, State.putA_queue _ _ _, State.putA_draws _ _ _⟩
    · have hk : k < (maskRegsDown mask).length := (List.getElem?_eq_some_iff.mp hr).1
      dsimp only
      rw [sub_eq_add_operands (s.getA an) hk, ← stored k r hr]
      exact operandAt_congr fun j _ => State.byteAt_putA _ _ _ _ _
    · rw [State.byteAt_putA]
      exact outside sp y h
    · rw [State.getA_putA, if_neg (fun h => hr (List.mem_singleton.mpr h)), getA_placed]
    · cases hs : s.sr.s with
      | true => exact State.putA_usp_of_supervisor (s := s.placed (s.after 1).pc m) hs _ _
      | false => exact State.putA_ssp_of_user (s := s.placed (s.after 1).pc m) hs _ _
    · exact ⟨State.putA_run _ _ _, State.putA_ir _ _ _, State.putA_prevIpl _ _ _, State.putA_inGroup0 _ _ _,
        State.putA_inGroup1 _ _ _, State.putA_inGroup2 _ _ _, State.putA_tracePending _ _ _, State.putA_platform _ _ _,
        State.putA_longSplit _ _ _, State.putA_pins _ _ _, State.putA_cycles _ _ _, State.putA_deviceResets _ _ _⟩

/-! PROOF. Registers loaded one after the other, and MOVEM from memory to registers (rules R167, R168). -/

/-! Registers written by number. -/

section
variable {s t u : State}

theorem State.putR_dataIndex (s : State) (r : Reg) (v : Long) : s.putR (dataIndex r) v = s.putD r v := by
  have h : ∀ r : Reg, (dataIndex r).val < 8 ∧ Fin.ofNat 8 (dataIndex r).val = r := by decide
  rw [State.putR, if_pos (h r).1, (h r).2]

theorem State.putR_addressIndex (s : State) (r : Reg) (v : Long) : s.putR (addressIndex r) v = s.putA r v := by
  have h : ∀ r : Reg, ¬ (addressIndex r).val < 8 ∧ Fin.ofNat 8 (addressIndex r).val = r := by decide
  rw [State.putR, if_neg (h r).1, (h r).2]

theorem State.getR_putR_same (s : State) (k : Fin 16) (v : Long) : (s.putR k v).getR k = v := by
  rcases index_cases k with ⟨r, rfl⟩ | ⟨r, rfl⟩
  · simp [State.putR_dataIndex, State.getR_dataIndex]
  · simp [State.putR_addressIndex, State.getR_addressIndex]

theorem State.getR_putR_other (s : State) {k q : Fin 16} (h : q ≠ k) (v : Long) : (s.putR k v).getR q = s.getR q := by
  rcases index_cases k with ⟨r, rfl⟩ | ⟨r, rfl⟩ <;> rcases index_cases q with ⟨p, rfl⟩ | ⟨p, rfl⟩
  · have hp : p ≠ r := fun e => h (e ▸ rfl)
    simp [State.putR_dataIndex, State.getR_dataIndex, hp]
  · simp [State.putR_dataIndex, State.getR_addressIndex]
  · simp [State.putR_addressIndex, State.getR_dataIndex]
  · have hp : p ≠ r := fun e => h (e ▸ rfl)
    simp [State.putR_addressIndex, State.getR_addressIndex, hp]

/-- Everything but the data registers, A0 to A6 and the active stack pointer. -/
def SameButRegisters (s t : State) : Prop :=
  t.pc = s.pc ∧ t.sr = s.sr ∧ (if s.sr.s then t.usp = s.usp else t.ssp = s.ssp) ∧ t.mem = s.mem ∧ SameHidden s t ∧
    t.queue = s.queue ∧ t.draws = s.draws

theorem SameButRegisters.refl (s : State) : SameButRegisters s s :=
  ⟨rfl, rfl, by cases s.sr.s <;> rfl, rfl, .refl s, rfl, rfl⟩

theorem SameButRegisters.trans (h : SameButRegisters s t) (h' : SameButRegisters t u) : SameButRegisters s u := by
  obtain ⟨pc, sr, sp, mem, hid, queue, draws⟩ := h
  obtain ⟨pc', sr', sp', mem', hid', queue', draws'⟩ := h'
  refine ⟨pc'.trans pc, sr'.trans sr, ?_, mem'.trans mem, hid.trans hid', queue'.trans queue, draws'.trans draws⟩
  rw [sr] at sp'
  cases hs : s.sr.s <;> simp only [hs, if_true, Bool.false_eq_true, if_false] at sp sp' ⊢ <;> exact sp'.trans sp

theorem sameButRegisters_putD (s : State) (r : Reg) (v : Long) : SameButRegisters s (s.putD r v) :=
  ⟨rfl, rfl, by cases s.sr.s <;> rfl, rfl, .refl s, rfl, rfl⟩

theorem sameButRegisters_putA (s : State) (r : Reg) (v : Long) : SameButRegisters s (s.putA r v) := by
  refine ⟨s.putA_pc r v, s.putA_sr r v, ?_, s.putA_mem r v, ?_, s.putA_queue r v, s.putA_draws r v⟩
  · cases hs : s.sr.s with
    | true => exact State.putA_usp_of_supervisor hs r v
    | false => exact State.putA_ssp_of_user hs r v
  · simp [SameHidden]

theorem sameButRegisters_putR (s : State) (k : Fin 16) (v : Long) : SameButRegisters s (s.putR k v) := by
  rcases index_cases k with ⟨r, rfl⟩ | ⟨r, rfl⟩
  · rw [State.putR_dataIndex]
    exact sameButRegisters_putD s r v
  · rw [State.putR_addressIndex]
    exact sameButRegisters_putA s r v

theorem SameButRegisters.bus (h : SameButRegisters s t) : t.platform = s.platform ∧ t.cycles = s.cycles := by
  obtain ⟨-, -, -, -, ⟨-, -, -, -, -, -, -, platform, -, -, cycles, -⟩, -⟩ := h
  exact ⟨platform, cycles⟩

theorem SameButRegisters.byteAt (h : SameButRegisters s t) (sp : Space) (a : Long) : t.byteAt sp a = s.byteAt sp a := by
  obtain ⟨-, -, -, mem, -⟩ := id h
  exact byteAt_congr mem h.bus.1

end

/-! Registers loaded. -/

/-- Registers written one after the other. -/
def State.putAllR (s : State) (l : List (Fin 16 × Long)) : State := l.foldl (fun s p => s.putR p.1 p.2) s

/-- The registers that MOVEM loads, each with its value. -/
def State.operandsFor (s : State) (sz : Size) (sp : Space) (ks : List (Fin 16)) (a : Long) : List (Fin 16 × Long) :=
  ks.mapIdx fun k r => (r, sz.sext (s.operandAt sz sp (a + BitVec.ofNat 32 (k * sz.bytes))))

section
variable {s t : State} {sz : Size} {sp : Space} {ks : List (Fin 16)} {a : Long} {l : List (Fin 16 × Long)}

theorem State.putAllR_cons (s : State) (p : Fin 16 × Long) (l : List (Fin 16 × Long)) :
    s.putAllR (p :: l) = (s.putR p.1 p.2).putAllR l := rfl

theorem sameButRegisters_putAllR (s : State) (l : List (Fin 16 × Long)) : SameButRegisters s (s.putAllR l) := by
  induction l generalizing s with
  | nil => exact .refl s
  | cons p l ih => exact (sameButRegisters_putR s p.1 p.2).trans (ih _)

theorem State.getR_putAllR_other {q : Fin 16} (h : q ∉ l.map Prod.fst) : (s.putAllR l).getR q = s.getR q := by
  induction l generalizing s with
  | nil => rfl
  | cons p l ih =>
    obtain ⟨hp, hl⟩ := not_or.mp (fun e => h (List.mem_cons.mpr e))
    rw [State.putAllR_cons, ih hl, State.getR_putR_other s hp]

theorem State.getR_putAllR {p : Fin 16 × Long} (hl : (l.map Prod.fst).Nodup) (h : p ∈ l) : (s.putAllR l).getR p.1 = p.2 := by
  induction l generalizing s with
  | nil => cases h
  | cons q l ih =>
    obtain ⟨hq, hl⟩ := List.nodup_cons.mp hl
    rw [State.putAllR_cons]
    rcases List.mem_cons.mp h with rfl | h
    · rw [State.getR_putAllR_other hq, State.getR_putR_same]
    · exact ih hl h

theorem State.operandsFor_fst (s : State) (sz : Size) (sp : Space) (ks : List (Fin 16)) (a : Long) :
    (s.operandsFor sz sp ks a).map Prod.fst = ks := by
  refine List.ext_getElem (by simp [State.operandsFor]) fun k h _ => ?_
  simp [State.operandsFor]

theorem State.mem_operandsFor {k : Nat} {r : Fin 16} (h : ks[k]? = some r) :
    (r, sz.sext (s.operandAt sz sp (a + BitVec.ofNat 32 (k * sz.bytes)))) ∈ s.operandsFor sz sp ks a := by
  rw [State.operandsFor, List.mem_iff_getElem?]
  exact ⟨k, by simp [h]⟩

theorem State.operandsFor_cons (h : SameButRegisters s t) (sz : Size) (sp : Space) (r : Fin 16) (ks : List (Fin 16)) (a : Long) :
    s.operandsFor sz sp (r :: ks) a =
      (r, sz.sext (s.operandAt sz sp a)) :: t.operandsFor sz sp ks (a + BitVec.ofNat 32 sz.bytes) := by
  have same : ∀ a, t.operandAt sz sp a = s.operandAt sz sp a := fun _ => operandAt_congr fun _ _ => h.byteAt _ _
  simp only [State.operandsFor, List.mapIdx_cons, Nat.zero_mul, add_zero_ofNat, same, add_operands]

/-- MOVEM's loads where memory answers. -/
theorem loadUp_ok (hr : ∀ k, k < ks.length → s.canRead sz sp (a + BitVec.ofNat 32 (k * sz.bytes))) :
    (loadUp sz sp ks a).run s = .ok (a + BitVec.ofNat 32 (ks.length * sz.bytes)) (s.putAllR (s.operandsFor sz sp ks a)) := by
  induction ks generalizing s a with
  | nil =>
    rw [List.length_nil, Nat.zero_mul, add_zero_ofNat]
    rfl
  | cons r ks ih =>
    have first := hr 0 (Nat.succ_pos _)
    rw [Nat.zero_mul, add_zero_ofNat] at first
    have frame := sameButRegisters_putR s r (sz.sext (s.operandAt sz sp a))
    rw [loadUp, bind_ok (readMem_ok first), bind_ok (upd_run _ _), State.operandsFor_cons frame, State.putAllR_cons,
      List.length_cons, ← add_operands]
    refine ih fun k hk => ?_
    rw [add_operands]
    exact State.canRead_of_bus (hr (k + 1) (Nat.succ_lt_succ hk)) frame.bus

theorem maskRegs_nodup (mask : Word) : (maskRegs mask).Nodup :=
  List.Pairwise.filter _ (by decide : allRegs.Nodup)

end

section
variable {s u : State} {long : Bool} {mask : Word} {sp : Space} {a : Long}

/-- The state after MOVEM's loads. -/
def State.loadedAt (s : State) (long : Bool) (mask : Word) (sp : Space) (a : Long) : State :=
  s.putAllR (s.operandsFor (sizeOfBit long) sp (maskRegs mask) a)

/-- MOVEM's loads and the read after them (log 24). -/
theorem loads_ok {k : Long → M Unit} (hb : u.platform = s.platform ∧ u.cycles = s.cycles)
    (hr : ∀ k, k < (maskRegs mask).length → s.canRead (sizeOfBit long) sp (a + BitVec.ofNat 32 (k * (sizeOfBit long).bytes)))
    (hl : s.canRead .word sp (a + BitVec.ofNat 32 ((maskRegs mask).length * (sizeOfBit long).bytes))) :
    (loadUp (sizeOfBit long) sp (maskRegs mask) a >>= fun last => readWord sp last >>= fun _ => k last).run u =
      (k (a + BitVec.ofNat 32 ((maskRegs mask).length * (sizeOfBit long).bytes))).run (u.loadedAt long mask sp a) := by
  have frame : SameButRegisters u (u.loadedAt long mask sp a) := sameButRegisters_putAllR _ _
  have last := State.canRead_of_bus (State.canRead_of_bus hl hb) frame.bus
  rw [bind_ok (loadUp_ok fun k hk => State.canRead_of_bus (hr k hk) hb)]
  exact bind_ok (readWord_ok last)

/-- Every listed register holds its operand. -/
theorem getR_loadedAt {k : Nat} {r : Fin 16} (h : (maskRegs mask)[k]? = some r) :
    (s.loadedAt long mask sp a).getR r =
      (sizeOfBit long).sext (s.operandAt (sizeOfBit long) sp (a + BitVec.ofNat 32 (k * (sizeOfBit long).bytes))) :=
  State.getR_putAllR (by rw [State.operandsFor_fst]; exact maskRegs_nodup mask) (State.mem_operandsFor h)

theorem getR_loadedAt_other {r : Fin 16} (h : r ∉ maskRegs mask) : (s.loadedAt long mask sp a).getR r = s.getR r :=
  State.getR_putAllR_other (by rw [State.operandsFor_fst]; exact h)

/-- MOVEM from memory at an address of a control mode. -/
theorem exec_movemToRegs_control {ea : Ea} (hc : ea.isControl = true)
    (hr : ∀ k, k < (maskRegs mask).length →
      s.canRead (sizeOfBit long) (sourceSpace ea s) (s.addressOf 1 ea + BitVec.ofNat 32 (k * (sizeOfBit long).bytes)))
    (hl : s.canRead .word (sourceSpace ea s) (s.addressOf 1 ea + BitVec.ofNat 32 ((maskRegs mask).length * (sizeOfBit long).bytes))) :
    exec (.movemToRegs long mask ea) s =
      .next ((s.moved (s.resolved 1 .long ea).pc).loadedAt long mask (sourceSpace ea s) (s.addressOf 1 ea)) := by
  have run : exec (.movemToRegs long mask ea) s = instr s (skipWord >>= fun _ => ask (sourceSpace ea) >>= fun sp =>
      effectiveAddress ea >>= fun start => loadUp (sizeOfBit long) sp (maskRegs mask) start >>= fun last =>
        readWord sp last >>= fun _ => pure ()) := by
    cases ea with
    | dn | an | postInc | preDec | imm => cases hc
    | _ => rfl
  have space : sourceSpace ea (s.after 1) = sourceSpace ea s := by
    cases ea <;> rfl
  rw [run]
  refine instr_word ?_
  rw [bind_ok (ask_run _ _), space, bind_ok (effectiveAddress_after hc), resolved_control hc]
  exact loads_ok (u := s.moved _) ⟨rfl, rfl⟩ hr hl

/-- MOVEM from memory with `(An)+`. -/
theorem exec_movemToRegs_postInc {an : Reg}
    (hr : ∀ k, k < (maskRegs mask).length →
      s.canRead (sizeOfBit long) s.dataSpace (s.getA an + BitVec.ofNat 32 (k * (sizeOfBit long).bytes)))
    (hl : s.canRead .word s.dataSpace (s.getA an + BitVec.ofNat 32 ((maskRegs mask).length * (sizeOfBit long).bytes))) :
    exec (.movemToRegs long mask (.postInc an)) s =
      .next (((s.moved (s.after 1).pc).loadedAt long mask s.dataSpace (s.getA an)).putA an
        (s.getA an + BitVec.ofNat 32 ((maskRegs mask).length * (sizeOfBit long).bytes))) := by
  have run : exec (.movemToRegs long mask (.postInc an)) s = instr s (skipWord >>= fun _ => ask (sourceSpace (.postInc an)) >>= fun sp =>
      ask (fun s => s.getA an) >>= fun start => loadUp (sizeOfBit long) sp (maskRegs mask) start >>= fun last =>
        readWord sp last >>= fun _ => upd fun s => s.putA an last) := rfl
  rw [run]
  refine instr_word ?_
  rw [bind_ok (ask_run _ _), bind_ok (ask_run _ _)]
  exact loads_ok (s := s) (u := s.after 1) ⟨rfl, rfl⟩ hr hl

end

/-- Settles O26: each listed register holds its operand, and `An` of `(An)+` is written last. -/
theorem movemLoads : Obligations.MovemLoads := by
  intro s long mask
  refine ⟨fun ea hc hr hl => ?_, fun an hr hl => ?_⟩
  · have frame : SameButRegisters (s.moved (s.resolved 1 .long ea).pc)
        ((s.moved (s.resolved 1 .long ea).pc).loadedAt long mask (sourceSpace ea s) (s.addressOf 1 ea)) :=
      sameButRegisters_putAllR _ _
    have memory := frame.byteAt
    obtain ⟨pc, sr, inactive, -, hidden, queue, draws⟩ := frame
    exact ⟨_, exec_movemToRegs_control hc hr hl, fun k r h => getR_loadedAt (s := s.moved _) h,
      fun r h => getR_loadedAt_other (s := s.moved _) h, pc, sr, inactive, memory, hidden, queue, draws⟩
  · have other : ∀ (t : State) (r : Fin 16) v, r.val ≠ 8 + an.val → (t.putA an v).getR r = t.getR r := fun t r v h => by
      have index : ∀ r : Reg, (addressIndex r).val = 8 + r.val := by decide
      have hr : r ≠ addressIndex an := fun e => h ((congrArg Fin.val e).trans (index an))
      rw [← State.putR_addressIndex]
      exact State.getR_putR_other t hr v
    have loaded : SameButRegisters (s.moved (s.after 1).pc) ((s.moved (s.after 1).pc).loadedAt long mask s.dataSpace (s.getA an)) :=
      sameButRegisters_putAllR _ _
    have frame := loaded.trans (sameButRegisters_putA _ an
      (s.getA an + BitVec.ofNat 32 ((maskRegs mask).length * (sizeOfBit long).bytes)))
    have memory := frame.byteAt
    obtain ⟨pc, sr, inactive, -, hidden, queue, draws⟩ := frame
    refine ⟨_, exec_movemToRegs_postInc hr hl, fun k r h hne => ?_, fun r h hne => ?_, by simp,
      pc, sr, inactive, memory, hidden, queue, draws⟩
    · rw [other _ r _ hne]
      exact getR_loadedAt (s := s.moved _) h
    · rw [other _ r _ hne]
      exact getR_loadedAt_other (s := s.moved _) h

end Sys2Proof.Machine
end

section
/-! PROOF. References to operands that abort their instruction (rules R67, R438, R443). -/

namespace Sys2Proof.Machine

/-! One reference that aborts. -/

section
variable {s t : State} {sz : Size} {pre : Bool} {sp : Space} {addr : Long} {r : Reference}

theorem busRead8_busError (hc : s.cycles = []) (h : s.platform.readReply sp addr false = .busError) :
    (busRead8 sp addr).run s = .error (.access .bus { addr := addr, write := false, space := sp }) s := by
  simp [busRead8, startCycle_quiet hc, h, Cycle.quiet, CycleReply.onRead, endRead8]

theorem busWrite8_busError (hc : s.cycles = []) (h : s.platform.writeReply sp addr false = .busError) (b : Byte) :
    (busWrite8 sp addr b).run s = .error (.access .bus { addr := addr, write := true, space := sp }) s := by
  simp [busWrite8, startCycle_quiet hc, h, Cycle.quiet, CycleReply.onWrite, endWrite8]

theorem busWrite16_busError (hc : s.cycles = []) (h : s.platform.writeReply sp addr true = .busError) (w : Word) :
    (busWrite16 sp addr w).run s = .error (.access .bus { addr := addr, write := true, space := sp }) s := by
  simp [busWrite16, startCycle_quiet hc, h, Cycle.quiet, CycleReply.onWrite, endWrite16]

/-- A read whose first cycle BERR ends. -/
theorem readMem_busError (hc : s.cycles = []) (he : sz ≠ .byte → addr.getLsbD 0 = false)
    (h : s.platform.readReply sp addr (sz != .byte) = .busError) :
    (readMem sz sp addr).run s = .error (.access .bus { addr := addr, write := false, space := sp }) s := by
  cases sz with
  | byte => exact bind_error (busRead8_busError hc h)
  | word =>
    exact bind_error ((bind_ok (needEven_ok (he (by decide)))).trans (busRead16_busError hc h))
  | long =>
    exact (bind_ok (needEven_ok (he (by decide)))).trans (bind_error (busRead16_busError hc h))

/-- A write whose first cycle BERR ends. -/
theorem writeMem_busError (hc : s.cycles = []) (he : sz ≠ .byte → addr.getLsbD 0 = false)
    (h : s.platform.writeReply sp ((Reference.mk sz true pre sp addr).first s) (sz != .byte) = .busError) (v : Long) :
    (writeMem sz pre sp addr v).run s =
      .error (.access .bus { addr := (Reference.mk sz true pre sp addr).first s, write := true, space := sp }) s := by
  cases sz with
  | byte => exact busWrite8_busError hc h _
  | word => exact (bind_ok (needEven_ok (he (by decide)))).trans (busWrite16_busError hc h _)
  | long =>
    refine (bind_ok (ask_run _ _)).trans ((bind_ok (needEven_ok (he (by decide)))).trans ?_)
    unfold Reference.first at h ⊢
    cases hl : s.lowWordFirst pre with
    | true =>
      rw [hl] at h
      exact bind_error (busWrite16_busError hc h _)
    | false =>
      rw [hl] at h
      exact bind_error (busWrite16_busError hc h _)

/-- A reference that faults aborts as it faults. -/
theorem access_faults {k : AccessFault} (hc : s.cycles = []) (h : r.faults s = some (k, addr)) (v : Long) :
    (r.access v).run s = .error (.access k { addr := addr, write := r.write, space := r.sp }) s := by
  obtain ⟨sz, write, pre, sp, at'⟩ := r
  have odd : sz ≠ .byte → at'.getLsbD 0 = true → (Reference.access ⟨sz, write, pre, sp, at'⟩ v).run s =
      .error (.access .address { addr := at', write := write, space := sp }) s := fun hs ho => by
    cases write with
    | true => exact writeMem_odd hs ho
    | false => exact bind_error (readMem_odd hs ho)
  have bus : (sz ≠ .byte → at'.getLsbD 0 = false) → ∀ a, a = (Reference.mk sz write pre sp at').first s →
      (if write then s.platform.writeReply sp a (sz != .byte) == .busError
        else s.platform.readReply sp a (sz != .byte) == .busError) = true →
      (Reference.access ⟨sz, write, pre, sp, at'⟩ v).run s =
        .error (.access .bus { addr := a, write := write, space := sp }) s := fun he a ha hb => by
    subst ha
    cases write with
    | true => exact writeMem_busError hc he (eq_of_beq hb) v
    | false => exact bind_error (readMem_busError hc he (eq_of_beq hb))
  rw [Reference.faults] at h
  by_cases hodd : (sz != .byte && at'.getLsbD 0) = true
  · rw [if_pos hodd] at h
    cases h
    obtain ⟨hs, ho⟩ := Bool.and_eq_true_iff.1 hodd
    exact odd (bne_iff_ne.1 hs) ho
  · rw [if_neg hodd] at h
    obtain ⟨hbus, he⟩ := Option.ite_none_right_eq_some.1 h
    cases he
    exact bus (fun hs => by simpa [hs] using hodd) _ rfl hbus

/-- How a reference faults depends on the platform and the order of long accesses. -/
theorem SameBus.faults (h : SameBus s t) (r : Reference) : r.faults t = r.faults s := by
  obtain ⟨platform, split, -, -⟩ := h
  have first : r.first t = r.first s := by
    rw [Reference.first, State.lowWordFirst, split]
    rfl
  rw [Reference.faults, first, platform]
  rfl

/-- A reference to which external reset comes in its first cycle. -/
theorem access_reset {c : Cycle} {cs : List Cycle} {ipl : BitVec 3} (hc : s.cycles = c :: cs) (hr : c.reset = some ipl)
    (he : r.sz ≠ .byte → r.addr.getLsbD 0 = false) (v : Long) : (r.access v).run s = .error (.reset ipl) (s.heard c) := by
  obtain ⟨sz, write, pre, sp, addr⟩ := r
  have start := startCycle_reset hc hr
  have even : sz ≠ .byte → ∀ w, (needEven sp addr w).run s = .ok () s := fun hs w => needEven_ok (he hs)
  cases write with
  | true =>
    cases sz with
    | byte => exact bind_error start
    | word => exact (bind_ok (even (by decide) _)).trans (bind_error start)
    | long =>
      refine (bind_ok (ask_run _ _)).trans ((bind_ok (even (by decide) _)).trans ?_)
      split <;> exact bind_error (bind_error start)
  | false =>
    cases sz with
    | byte => exact bind_error (bind_error (bind_error start))
    | word => exact bind_error (bind_error ((bind_ok (even (by decide) _)).trans (bind_error start)))
    | long => exact bind_error ((bind_ok (even (by decide) _)).trans (bind_error (bind_error start)))

end

/-! The references of an instruction. -/

/-- The computation comes to its `n`-th reference. -/
theorem Reaches.arrives {α : Type} {m : M α} {s : State} {l : List Reference} {n : Nat} {r : Reference} (h : Reaches m s l)
    (hn : l[n]? = some r) (hb : ∀ j r', j < n → l[j]? = some r' → s.canRead r'.sz r'.sp r'.addr) : Arrives m s r := by
  induction l generalizing n with
  | nil => cases hn
  | cons q l ih =>
    cases n with
    | zero =>
      cases hn
      exact h.1
    | succ n =>
      exact ih (h.2 (hb 0 q n.succ_pos rfl)) hn fun j r' hj hr => hb (j + 1) r' (Nat.succ_lt_succ hj) hr

/-- A privileged instruction in user state refers to nothing. -/
theorem references_privileged {i : Instr} {s : State} (hp : isPrivileged i = true) (hs : s.sr.s = false) : s.references i = [] := by
  have none : ∀ l : List Reference, (if s.sr.s then l else []) = [] := fun l => by
    rw [hs]
    rfl
  cases i with
  | moveToSr | rte => exact none _
  | oriToSr | andiToSr | eoriToSr | moveToUsp | moveFromUsp | reset | stop => rfl
  | _ => cases hp

/-- An instruction that refers to something runs a computation inside its footprint that comes to the reference. -/
theorem exec_arrives {i : Instr} {s : State} {n : Nat} {r : Reference} (hwf : i.wf = true) (hl : s.canFetchLate i)
    (hn : (s.references i)[n]? = some r)
    (hb : ∀ j r', j < n → (s.references i)[j]? = some r' → s.canRead r'.sz r'.sp r'.addr) :
    ∃ body, exec i s = conclude s (body.run s.opened) ∧ Run (s.footprint i) body s.opened ∧ Arrives body s.opened r := by
  have arrives : ∀ body : M Unit, Reaching i body → Arrives body s.opened r := fun body hx =>
    (hx s hwf hl).arrives hn hb
  have some_ne : s.references i ≠ [] := fun h => by
    rw [h] at hn
    cases hn
  cases means i with
  | plain body he hr hx => exact ⟨body, he s, hr s, arrives body hx⟩
  | guarded body hp he hr hx =>
    cases hs : s.sr.s with
    | true => exact ⟨body, (he s).trans (if_pos hs), hr s hs, arrives body hx⟩
    | false => exact absurd (references_privileged hp hs) some_ne
  | line m hm hi he hx => exact absurd (hx s) some_ne
  | silent h =>
    rcases h with rfl | ⟨w, rfl⟩ | ⟨an, rfl⟩ <;> exact absurd rfl some_ne

/-- Settles O41: the instruction comes to the reference, which aborts as it faults, inside the instruction's footprint. -/
theorem faultingReferencesAbort : Obligations.FaultingReferencesAbort := by
  intro s i n r k addr hwf hc hn hf hb hl
  obtain ⟨body, he, hrun, t, v, bus, ha⟩ := exec_arrives hwf hl hn hb
  have quiet : t.cycles = [] := bus.2.2.1.trans hc
  have abort := ha _ _ (access_faults quiet ((bus.faults r).trans hf) v)
  have touch : Touch (s.footprint i) s t := (Update.skip 1).touch.trans (hrun.touch.2 _ _ abort)
  have left : LeftBy i s t := touch.leftBy (precise_of_wf hwf) (quiet.trans hc.symm)
    (touch.memory fun c h => by rw [hc] at h; cases h)
  refine ⟨s.settle t, left.settle, ?_⟩
  rw [he, abort]
  rfl

/-! PROOF. What comes from outside at the bus cycles of an instruction (rules R85, R87, R92, R438, R465). -/

/-! Cycles at which other masters may write. -/

section
variable {s : State} {c : Cycle} {cs : List Cycle} {sz : Size} {sp : Space} {addr : Long}

theorem busRead8_heard (hs : s.cycles = c :: cs) (hc : c.onlyWrites) (h : s.platform.readReply sp addr false = .memory) :
    (busRead8 sp addr).run s = .ok ((s.heard c).byteAt sp addr) (s.heard c) := by
  simp [busRead8, startCycle_heard hs hc.1, h, hc.2.1, CycleReply.onRead, endRead8]

theorem busRead16_heard (hs : s.cycles = c :: cs) (hc : c.onlyWrites) (h : s.platform.readReply sp addr true = .memory) :
    (busRead16 sp addr).run s = .ok ((s.heard c).wordAt sp addr) (s.heard c) := by
  simp [busRead16, startCycle_heard hs hc.1, h, hc.2.1, CycleReply.onRead, endRead16]

theorem busWrite8_heard (hs : s.cycles = c :: cs) (hc : c.onlyWrites) (h : s.platform.writeReply sp addr false = .memory)
    (b : Byte) : (busWrite8 sp addr b).run s = .ok () ((s.heard c).putByte sp addr b) := by
  simp [busWrite8, startCycle_heard hs hc.1, h, hc.2.1, CycleReply.onWrite, endWrite8]

theorem busWrite16_heard (hs : s.cycles = c :: cs) (hc : c.onlyWrites) (h : s.platform.writeReply sp addr true = .memory)
    (w : Word) : (busWrite16 sp addr w).run s = .ok () ((s.heard c).putWord sp addr w) := by
  simp [busWrite16, startCycle_heard hs hc.1, h, hc.2.1, CycleReply.onWrite, endWrite16]

/-- A read of one cycle. -/
theorem readMem_heard (hs : s.cycles = c :: cs) (hc : c.onlyWrites) (he : sz = .byte ∨ sz = .word ∧ addr.getLsbD 0 = false)
    (h : s.platform.readReply sp addr (sz == .word) = .memory) :
    (readMem sz sp addr).run s = .ok ((s.heard c).operandAt sz sp addr) (s.heard c) := by
  rcases he with rfl | ⟨rfl, he⟩
  · exact bind_ok (busRead8_heard hs hc h)
  · exact bind_ok ((bind_ok (needEven_ok he)).trans (busRead16_heard hs hc h))

/-- A write of one cycle. -/
theorem writeMem_heard (hs : s.cycles = c :: cs) (hc : c.onlyWrites) (he : sz = .byte ∨ sz = .word ∧ addr.getLsbD 0 = false)
    (h : s.platform.writeReply sp addr (sz == .word) = .memory) (pre : Bool) (v : Long) :
    (writeMem sz pre sp addr v).run s = .ok () ((s.heard c).putOperand sz pre sp addr v) := by
  rcases he with rfl | ⟨rfl, he⟩
  · exact busWrite8_heard hs hc h _
  · exact (bind_ok (needEven_ok he)).trans (busWrite16_heard hs hc h _)

/-- Between the two cycles of a long read other masters may write (rule R87). -/
theorem readLong_heard {c' : Cycle} (hs : s.cycles = c :: c' :: cs) (hc : c.onlyWrites) (hc' : c'.onlyWrites)
    (he : addr.getLsbD 0 = false) (h : s.platform.readReply sp addr true = .memory)
    (h' : s.platform.readReply sp (addr + 2) true = .memory) : (readLong sp addr).run s =
      .ok ((s.heard c).wordAt sp addr ++ ((s.heard c).heard c').wordAt sp (addr + 2)) ((s.heard c).heard c') := by
  have tail : (s.heard c).cycles = c' :: cs := by
    rw [State.heard, hs]
    rfl
  rw [readLong, bind_ok (needEven_ok he), bind_ok (busRead16_heard hs hc h), bind_ok (busRead16_heard tail hc' h')]
  rfl

/-! Operands and what is heard before them. -/

theorem State.resolved_heard (s : State) (c : Cycle) (n : Nat) (sz : Size) (ea : Ea) :
    (s.heard c).resolved n sz ea = (s.resolved n sz ea).heard c := by
  obtain ⟨-, -, cycles, mem⟩ : SameBus s (s.resolved n sz ea) := sameBus_resolve (s.after n) sz ea
  calc (s.heard c).resolved n sz ea
      = (s.resolved n sz ea).amid s.cycles.tail (Memory.writeAll s.mem c.dma) := State.resolved_amid s _ _ n sz ea
    _ = (s.resolved n sz ea).heard c := by
      rw [← cycles, ← mem]
      rfl

theorem State.loc_heard (s : State) (c : Cycle) (n : Nat) (sz : Size) (ea : Ea) : (s.heard c).loc n sz ea = s.loc n sz ea :=
  State.loc_amid s _ _ n sz ea

/-- The operand is the same before and after it is resolved. -/
theorem State.valueAt_resolved (s : State) (n : Nat) (sz : Size) (ea : Ea) :
    (s.resolved n sz ea).valueAt sz (s.loc n sz ea) = s.source n sz ea := by
  rw [State.resolved, State.loc, State.valueAt_resolve, State.valueAt_after]
  rfl

/-- Where other masters write at its read and at its write, an operand of one cycle is replaced in what they leave (rules R87, R92). -/
theorem modifyEa_heard {ea : Ea} {pre : Bool} {c' : Cycle} {g : Long → M Long} {q : Sr} {r : Long} (hs : s.cycles = c :: c' :: cs) (hc : c.onlyWrites)
    (hc' : c'.onlyWrites) (hl : s.loc 0 sz ea = .mem sp addr pre) (hp : sp.isProgram = false)
    (he : sz = .byte ∨ sz = .word ∧ addr.getLsbD 0 = false) (hr : s.platform.readReply sp addr (sz == .word) = .memory)
    (hw : s.platform.writeReply sp addr (sz == .word) = .memory)
    (hg : ∀ t : State, t.sr = s.sr → (g ((s.heard c).source 0 sz ea)).run t = .ok r (t.withSr q)) :
    (modifyEa sz ea g).run (s.after 0) = .ok () (((s.heard c).heard c').modified 0 sz ea q r) := by
  have value : (s.heard c).source 0 sz ea = ((s.resolved 0 sz ea).heard c).operandAt sz sp addr := by
    rw [← State.valueAt_resolved, State.loc_heard, hl, State.resolved_heard]
    rfl
  obtain ⟨platform, -, cycles, -⟩ : SameBus s (s.resolved 0 sz ea) := sameBus_resolve (s.after 0) sz ea
  have tail : (((s.resolved 0 sz ea).heard c).withSr q).cycles = c' :: cs := by
    change (s.resolved 0 sz ea).cycles.tail = _
    rw [cycles, hs]
    rfl
  have read := readMem_heard (s := s.resolved 0 sz ea) (sp := sp) (addr := addr) (cycles.trans hs) hc he (platform ▸ hr)
  have write := writeMem_heard (sp := sp) (addr := addr) tail hc' he (platform ▸ hw) pre r
  have loc : ((s.after 0).resolve sz ea).1 = .mem sp addr pre := hl
  have result := hg ((s.resolved 0 sz ea).heard c) (State.resolved_sr s 0 sz ea)
  rw [modifyEa, bind_ok (locate_run _ _ _), loc]
  refine (bind_ok read).trans ?_
  rw [value] at result
  rw [bind_ok result, writeLoc, hp]
  rw [State.modified, State.resolved_heard, State.resolved_heard, State.loc_heard, State.loc_heard, hl]
  exact write

/-- Between the read and the write of an indivisible cycle nothing comes from outside (rule R87). -/
theorem modifyIndivisible_heard {ea : Ea} {pre : Bool} {g : Long → M Long} {q : Sr} {r : Long} (hs : s.cycles = c :: cs)
    (hc : c.onlyWrites) (hl : s.loc 0 .byte ea = .mem sp addr pre) (hp : sp.isProgram = false)
    (hr : s.platform.readReply sp addr false = .memory) (hw : s.platform.writeReply sp addr false = .memory)
    (hg : ∀ t : State, t.sr = s.sr → (g ((s.heard c).source 0 .byte ea)).run t = .ok r (t.withSr q)) :
    (modifyIndivisible ea g).run (s.after 0) = .ok () ((s.heard c).modified 0 .byte ea q r) := by
  have value : (s.heard c).source 0 .byte ea = (((s.resolved 0 .byte ea).heard c).byteAt sp addr).setWidth 32 := by
    rw [← State.valueAt_resolved, State.loc_heard, hl, State.resolved_heard]
    rfl
  obtain ⟨platform, -, cycles, -⟩ : SameBus s (s.resolved 0 .byte ea) := sameBus_resolve (s.after 0) .byte ea
  have loc : ((s.after 0).resolve .byte ea).1 = .mem sp addr pre := hl
  have result := hg ((s.resolved 0 .byte ea).heard c) (State.resolved_sr s 0 .byte ea)
  rw [value] at result
  have start := startCycle_heard (s := s.resolved 0 .byte ea) (cycles.trans hs) hc.1
  have reply : (s.resolved 0 .byte ea).platform.readReply sp addr false = .memory := platform ▸ hr
  have reply' : (s.resolved 0 .byte ea).platform.writeReply sp addr false = .memory := platform ▸ hw
  rw [modifyIndivisible, bind_ok (locate_run _ _ _), loc]
  simp only [hp, Bool.false_eq_true, if_false]
  rw [State.modified, State.resolved_heard, State.loc_heard, hl]
  change (busModify8 sp addr _).run (s.resolved 0 .byte ea) = _
  have read : (endRead8 (c.reply.onRead ((s.resolved 0 .byte ea).platform.readReply sp addr false)) sp addr).run
      ((s.resolved 0 .byte ea).heard c) = .ok (((s.resolved 0 .byte ea).heard c).byteAt sp addr) ((s.resolved 0 .byte ea).heard c) := by
    rw [hc.2.1, reply]
    rfl
  have write : (endWrite8 (c.second.onWrite ((s.resolved 0 .byte ea).platform.writeReply sp addr false)) sp addr (r.setWidth 8)).run
      (((s.resolved 0 .byte ea).heard c).withSr q) =
        .ok () ((((s.resolved 0 .byte ea).heard c).withSr q).putByte sp addr (r.setWidth 8)) := by
    rw [hc.2.2, reply']
    rfl
  rw [busModify8, bind_ok start, bind_ok (ask_run _ _)]
  have changed : (g ((((s.resolved 0 .byte ea).heard c).byteAt sp addr).setWidth 32) >>= fun r => pure (r.setWidth 8 : Byte)).run
      ((s.resolved 0 .byte ea).heard c) = .ok (r.setWidth 8) (((s.resolved 0 .byte ea).heard c).withSr q) := bind_ok result
  exact (bind_ok read).trans ((bind_ok changed).trans write)

end

section
variable {s : State} {c : Cycle} {cs : List Cycle} {i : Instr}

/-- What other masters write before the first reference, where the instruction has stored nothing. -/
theorem LeftBy.heard {t : State} (h : LeftBy i s t) (hm : t.mem = s.mem) (c : Cycle) : LeftBy i (s.heard c) (t.heard c) where
  hidden := by
    obtain ⟨h1, h2, h3, h4, h5, h6, h7, h8, h9, h10, cycles, h12⟩ := h.hidden
    exact ⟨h1, h2, h3, h4, h5, h6, h7, h8, h9, h10, congrArg List.tail cycles, h12⟩
  registers := h.registers
  high := h.high
  inactive := h.inactive
  system := h.system
  flags := h.flags
  zeroOnly := h.zeroOnly
  extend := h.extend
  memory sp addr _ := by
    obtain ⟨-, -, -, -, -, -, -, platform, -⟩ := h.hidden
    refine byteAt_congr ?_ platform
    change Memory.writeAll t.mem c.dma = Memory.writeAll s.mem c.dma
    rw [hm]

/-- No fetch is run late by an instruction that has none. -/
theorem canFetchLate_of_none (h : lateFetches i = 0) (s : State) : s.canFetchLate i := by
  have none : ∀ {n : Nat} (u : State), n = 0 → u.canReplace n := fun u hn k hk => by
    rw [hn] at hk
    cases hk
  cases i with
  | moveB | moveW | moveL => exact none _ h
  | _ => trivial

/-- External reset at the first reference of an instruction (rule R465). -/
theorem reset_at_first {ipl : BitVec 3} {r : Reference} (hwf : i.wf = true) (hs : s.cycles = c :: cs) (hc : c.reset = some ipl)
    (hl : lateFetches i = 0) (hr : (s.references i)[0]? = some r) (he : r.sz ≠ .byte → r.addr.getLsbD 0 = false) :
    ∃ u, LeftBy i (s.heard c) u ∧ exec i s = u.externalReset ipl := by
  obtain ⟨body, hexec, hrun, t, v, bus, ha⟩ := exec_arrives hwf (canFetchLate_of_none hl s) hr fun _ _ h _ => by cases h
  obtain ⟨-, -, cycles, mem⟩ := bus
  have abort := ha _ _ (access_reset (cycles.trans hs) hc he v)
  have heard : Touch (s.footprint i) s (t.heard c) := (Update.skip 1).touch.trans (hrun.touch.2 _ _ abort)
  have touch : Touch (s.footprint i) s t :=
    { heard with
      cycles := cycles ▸ List.suffix_refl _
      canonical := fun hm => mem ▸ hm
      memory := fun _ _ _ => congrArg (Memory.read · _) mem }
  have left : LeftBy i s t := touch.leftBy (precise_of_wf hwf) cycles fun _ _ => congrArg (Memory.read · _) mem
  refine ⟨s.settle (t.heard c), ?_, by rw [hexec, abort]; rfl⟩
  exact (left.heard mem c).between (between_settle (s.heard c) (t.heard c))

end

/-- Settles O60: each cycle takes its input before it ends, and what comes at the first reference finds nothing stored. -/
theorem eventsBetweenCycles : Obligations.EventsBetweenCycles := by
  refine ⟨fun s c c' cs sp addr hs hc hc' he h h' => readLong_heard hs hc hc' he h h',
    fun s c cs ea sp addr pre hs hc hl hp hr hw => ?_,
    fun s c c' cs sz ea sp addr pre hs hc hc' hl hp he hr hw => ?_,
    fun s c cs sp addr hs hc he => ⟨fun h => ?_, fun h => ?_⟩,
    fun s c cs ipl i r hwf hs hc hl hr he => reset_at_first hwf hs hc hl hr he⟩
  · exact instr_opened (modifyIndivisible_heard hs hc hl hp hr hw fun t ht => by rw [← ht]; rfl)
  · exact instr_opened (modifyEa_heard hs hc hc' hl hp he hr hw fun t ht => by rw [← ht]; rfl)
  · rw [readWord, bind_ok (needEven_ok he), busRead16, bind_ok (startCycle_heard hs hc), bind_ok (ask_run _ _), h]
    rfl
  · rw [readWord, bind_ok (needEven_ok he), busRead16, bind_ok (startCycle_heard hs hc), bind_ok (ask_run _ _), h]
    rfl

end Sys2Proof.Machine
end
